-- ==== Sys2Proof/Word.lean ====
section
/-!
DEFINITION. The data units of the complex (R7, R146): engine words, bytes and syllables, host octets and lines.
-/

namespace Sys2Proof

/-- An engine word or cell: 36 bits, numbered [35:0] (R146). -/
abbrev Word := BitVec 36

/-- An engine byte: 9 bits, part 0 of a word at [35:27] (R7, R146). -/
abbrev NineBit := BitVec 9

/-- A host octet: 8 bits (R7). -/
abbrev Octet := BitVec 8

/-- An engine word address: bank in [23:16], short address in [15:0] (R155). -/
abbrev WAddr := BitVec 24

/-- A syllable address: word address in [25:2], syllable in [1:0] (R189). -/
abbrev SAddr := BitVec 26

/-- A 32-bit register-port value (R26). -/
abbrev Reg32 := BitVec 32

/-- A host address (Table PRT.1). -/
abbrev HAddr := BitVec 64

/-- A host line: 64 octets, octet i in [8i+7:8i] (R49). -/
abbrev Line := BitVec 512

end Sys2Proof
end

