-- ==== Sys2Proof/Syntax.lean ====
section
/-!
DEFINITION. The commands of the complex: one constructor of `Instr` per row of spec/opcode_table.json.
An engine instruction is a command "this context of this physical engine issues this instruction"; an event is a
command "this event reaches the complex"; a register or debug row is the access it names.
-/

namespace Sys2Proof

/-- A hardware context: physical engine (island 17s + p, R9, R437) and context number (R148). -/
structure At where
  isl : Fin 272
  ctx : Fin 8
  deriving DecidableEq, Repr

/-- What the checks of Tables CHK.1 and CHK.2 found while an instruction or an entry ran (R424 to R428, R326, R327): the
surroundings decide it, so the command carries it. -/
inductive Check where
  | pass
  /-- A datapath check failed; the second or third attempt passed, or the third failed (R425 to R427). -/
  | second
  | third
  | failed
  /-- The same for a significand pass of the multiplier in a floating-point instruction (Table CHK.1 row 2). -/
  | mulSecond
  | mulThird
  | mulFailed
  /-- The same for PAR at the sequencer latch of a micro-coded instruction or entry (R326, Table CHK.1 row 6). -/
  | parSecond
  | parThird
  | parFailed
  /-- A register error: a cell or context register, or a held ledger value (R428). -/
  | regCell
  | regLedger
  /-- A microword that the routine read was corrected, or was uncorrectable (R327). -/
  | microCorrected (addr : BitVec 12)
  | microUnc (addr : BitVec 12)
  /-- The word fetched, or a word of data, is uncorrectable (R143, R429). -/
  | ueFetch
  | ueData
  deriving DecidableEq, Repr

/-- The issue of one engine instruction: the context and the check outcome. `bad` holds the syllables at the PC where they
are no valid encoding (R190 to R199): the issue of any instruction then meets ILLEGAL in its place. -/
structure Issue where
  isl : Fin 272
  ctx : Fin 8
  check : Check := .pass
  bad : Option (BitVec 9 × BitVec 9) := none
  deriving DecidableEq, Repr

/-- What the ECC of a memory word showed when it was read (R143, R429). -/
inductive Ecc where
  | clean
  | corrected
  | uncorrectable
  deriving DecidableEq, Repr

/-- The oldest entry of an engine's store buffer drains: the engine, and what the ECC of the word it merges into showed. -/
structure StoreDrain where
  isl : Fin 272
  ecc : Ecc := .clean
  deriving DecidableEq, Repr

/-- An entry of an engine's keeper: the engine, and the outcome of the entry's checks (R326). -/
structure KeeperEntry where
  isl : Fin 272
  check : Check := .pass
  deriving DecidableEq, Repr

/-- The contexts of which an item failed its check when a coppice engine received it: a cell or a context register, or a ledger
value (R275, R433). -/
structure CopyFaults where
  cells : List (Fin 8) := []
  ledger : List (Fin 8) := []
  deriving DecidableEq, Repr

/-- A register-port write: data, octet strobes and C_PRIV (R26, R27). -/
structure RegXfer where
  data : Reg32
  strb : BitVec 4 := 0xF
  priv : Bool := true
  deriving DecidableEq, Repr

/-- A record ring (R440): the global error ring, the error ring of one of the 256 virtual users, the telemetry ring. -/
inductive RingId where
  | global
  | inst (i : BitVec 8)
  | telemetry
  deriving DecidableEq, Repr

/-- The unit that serves a request (R337). -/
inductive UnitKind where
  | cipher
  | compression
  deriving DecidableEq, Repr

/-- The two debug paths (chapter 18): the two-wire port and the Suycia monitor. -/
inductive DbgPath where
  | wire
  | suycia
  deriving DecidableEq, Repr

/-- A debug packet's address part, with the request parity, and the data parity of a packet with data (Table DBG.1). -/
structure DbgAddr where
  path : DbgPath
  cls : BitVec 2
  addr : BitVec 24
  parityOk : Bool := true
  dataOk : Bool := true
  deriving DecidableEq, Repr

/-- A state store scrubbed every 10 ms (Table CHK.2). -/
inductive StateStore where
  | tracker
  | keySlot (k : BitVec 10)
  | replay
  | trace
  deriving DecidableEq, Repr

/-- The clocks that must run (R24, R25). -/
inductive ClockId where
  | refclk
  | hclk0
  | hclk1
  | mclk
  deriving DecidableEq, Repr

/-- The commands. Rows of the opcode table in the table's order. -/
inductive Instr where
  -- stack and literals (Table INS.1)
  | nop (i : Issue)
  | dup (i : Issue)
  | drop (i : Issue)
  | swap (i : Issue)
  | over (i : Issue)
  | rot (i : Issue)
  | nip (i : Issue)
  | tuck (i : Issue)
  | dup2 (i : Issue)
  | drop2 (i : Issue)
  | swap2 (i : Issue)
  | depth (i : Issue)
  | pick (i : Issue) (n : BitVec 4)
  | lit (i : Issue) (n : BitVec 5)
  | litl (i : Issue) (imm : BitVec 13)
  | litx (i : Issue) (imm : BitVec 13)
  | rdlc (i : Issue) (n : BitVec 2)
  -- address stack (Table INS.2)
  | toa (i : Issue)
  | froma (i : Issue)
  | adup (i : Issue)
  | adrop (i : Issue)
  | aswap (i : Issue)
  | aadd (i : Issue)
  | ainc (i : Issue) (n : BitVec 4)
  | bank (i : Issue) (b : BitVec 8) (fromT : Bool)
  -- memory (Table INS.3)
  | ld (i : Issue)
  | st (i : Issue)
  | ldp (i : Issue)
  | stp (i : Issue)
  | ldb (i : Issue)
  | stb (i : Issue)
  | ldh (i : Issue)
  | sth (i : Issue)
  | ldd (i : Issue)
  | std (i : Issue)
  | ldu (i : Issue)
  | stu (i : Issue)
  | lock (i : Issue) (n : BitVec 4)
  | lockend (i : Issue)
  -- integer (Table INS.4, Table BIN.2)
  | add (i : Issue)
  | adc (i : Issue)
  | sub (i : Issue)
  | sbb (i : Issue)
  | neg (i : Issue)
  | and (i : Issue)
  | or (i : Issue)
  | xor (i : Issue)
  | not (i : Issue)
  | shl (i : Issue)
  | shr (i : Issue)
  | asr (i : Issue)
  | rol (i : Issue)
  | ror (i : Issue)
  | shli (i : Issue) (n : BitVec 6)
  | shri (i : Issue) (n : BitVec 6)
  | asri (i : Issue) (n : BitVec 6)
  | roli (i : Issue) (n : BitVec 6)
  | rori (i : Issue) (n : BitVec 6)
  | cmp (i : Issue)
  | clz (i : Issue)
  | bfx (i : Issue) (lsb : BitVec 6) (wm1 : BitVec 5)
  | bfi (i : Issue) (lsb : BitVec 6) (wm1 : BitVec 5)
  | bperm (i : Issue) (sel : BitVec 8)
  | mul (i : Issue)
  | mulu (i : Issue)
  | dstep (i : Issue)
  -- control (Table INS.6)
  | br (i : Issue) (o : BitVec 4)
  | bz (i : Issue) (o : BitVec 4)
  | bnz (i : Issue) (o : BitVec 4)
  | brl (i : Issue) (off : BitVec 12)
  | bzl (i : Issue) (off : BitVec 10)
  | bnzl (i : Issue) (off : BitVec 10)
  | call (i : Issue) (woff : BitVec 10)
  | callw (i : Issue) (k : BitVec 3) (woff : BitVec 9)
  | callt (i : Issue)
  | callwt (i : Issue) (k : BitVec 3)
  | ret (i : Issue)
  | retw (i : Issue)
  | reti (i : Issue)
  | jmpt (i : Issue)
  | breakl (i : Issue)
  | loop (i : Issue) (e : BitVec 9)
  | setrc (i : Issue)
  | rep (i : Issue)
  -- system (Table INS.8)
  | sleep (i : Issue)
  | yield (i : Issue)
  | mode (i : Issue)
  | trap (i : Issue) (n : BitVec 4)
  | feat (i : Issue) (n : BitVec 9)
  | tbr (i : Issue)
  | ctxq (i : Issue)
  | spillw (i : Issue)
  | fillw (i : Issue)
  | eoi (i : Issue)
  | claim (i : Issue)
  | pendq (i : Issue)
  | setpend (i : Issue)
  | mboxSend (i : Issue)
  | mboxReceive (i : Issue)
  | mboxQuery (i : Issue)
  -- job and unit (Table INS.13)
  | ldesc (i : Issue) (idx : BitVec 4) (space : BitVec 2) (keeper : Bool)
  | xfer (i : Issue) (dir pack async : Bool)
  | creq (i : Issue) (mode : BitVec 4) (slot : Bool)
  | zreq (i : Issue) (dir opts : Bool)
  | waitu (i : Issue) (test : Bool)
  | commit (i : Issue)
  | abort (i : Issue) (detail : BitVec 7) (trapf : Bool)
  | extensionInstruction (i : Issue) (leader : BitVec 4) (op : BitVec 9)
  -- ledger (Table LDG.7)
  | lclr (i : Issue) (a : BitVec 2)
  | lclrBal (i : Issue)
  | ladd (i : Issue) (a : BitVec 2) (dbl : Bool)
  | lsub (i : Issue) (a : BitVec 2) (dbl : Bool)
  | lpostD (i : Issue) (a : BitVec 2)
  | lpostC (i : Issue) (a : BitVec 2)
  | ktake (i : Issue) (a : BitVec 2)
  | kclr (i : Issue) (a : BitVec 2)
  | lcmp (i : Issue) (a : BitVec 2)
  | lflags (i : Issue)
  | lload (i : Issue) (a : BitVec 2)
  | lstore (i : Issue) (a : BitVec 2)
  | lstoreBal (i : Issue)
  | lscale (i : Issue) (a : BitVec 2) (scale : BitVec 6)
  | lrnd (i : Issue) (a : BitVec 2) (mode : BitVec 3) (cash : BitVec 3)
  | losc (i : Issue) (scale : BitVec 6)
  | lmul (i : Issue) (a : BitVec 2)
  | ldstep (i : Issue) (a : BitVec 2)
  | lshare (i : Issue) (a : BitVec 2) (last : Bool)
  | lconv (i : Issue) (a : BitVec 2) (out : Bool) (fmt : BitVec 4)
  -- floating point (Table BIN.4)
  | fadd (i : Issue)
  | fsub (i : Issue)
  | fmul (i : Issue)
  | fma (i : Issue)
  | fstep (i : Issue)
  | fneg (i : Issue)
  | fabs (i : Issue)
  | fcmp (i : Issue)
  | frecip (i : Issue)
  | frsqrt (i : Issue)
  | fcvt (i : Issue) (kind : BitVec 4) (round : BitVec 2)
  | fflags (i : Issue)
  | fbar (i : Issue)
  -- engine events
  | loadDataReturn (a : At) (ecc : Ecc)
  | storeBufferDrain (drain : StoreDrain)
  | fpResult (a : At) (check : Check)
  | interruptEntry (entry : KeeperEntry)
  | deliveredTrapEntry (entry : KeeperEntry)
  | jobTimer (a : At)
  | keeperWatchdog (isl : Fin 272)
  | sleepExpiry (a : At)
  | dispatch (stand : Fin 16)
  | go (a : At)
  | wdtKick (isl : Fin 272)
  | coppiceSubstitution (isl : Fin 272)
  | coppiceHandover (stand : Fin 16) (badCtx : CopyFaults) (badStore : Bool)
  | cruiseSample (isl : Option (Fin 272)) (delayFs : Nat)
  | powerBudgetCheck (estimate : BitVec 16)
  -- epoch, channel and host-port events
  | epochBoundary
  | affinityRebuildDone
  | doorbellPoll (chan : BitVec 13)
  | descriptorFetch (chan : BitVec 13)
  | responseBeat (port : Bool) (tag : BitVec 13) (code : BitVec 3) (data : Line)
  | notify (port : Bool) (line : BitVec 58)
  | requestCreditReturn (port : Bool)
  | hostRequestTimeout (port : Bool) (tag : BitVec 13)
  | retryReissue (port : Bool) (tag : BitVec 13)
  | tagQuarantineEnd (port : Bool) (tag : BitVec 13)
  | clockMissing (clk : ClockId)
  | ringControlPoll (r : RingId)
  | ringRewrite (r : RingId)
  -- unit events
  | admissionAnswer (a : At)
  | laneGrant (u : UnitKind) (lane : Fin 16)
  | cipherRequestDone (lane : Fin 8) (ecc : Ecc)
  | compressionRequestDone (lane : Fin 16) (ecc : Ecc)
  | deriveComplete (slot : BitVec 10)
  | shadeRekey (lane : Fin 8)
  | logDeckScrub (found : List (Fin 64 × Fin 8 × Ecc))
  | localStoreScrub (isl : Fin 272) (addr : BitVec 14) (ecc : Ecc)
  | microcodeScrub (stand : Fin 16) (addr : BitVec 12) (ecc : Ecc)
  | stateScrub (store : StateStore) (ecc : Ecc)
  | granuleZeroingDone (g : BitVec 10)
  | eventTimer (t : BitVec 5)
  | drainTimeout (inst : BitVec 8)
  | extensionRequest (stand : Fin 16) (ctx : BitVec 8)
  | extensionResponseBeat (stand : Fin 16) (ctx : BitVec 8) (gen : BitVec 4) (data : Word) (dbl last : Bool) (stat : BitVec 2)
  -- mirror link events
  | hello (lane : Bool) (frame : BitVec 256)
  | attest (lane : Bool) (frame : BitVec 256)
  | commitRec (lane : Bool) (frame : BitVec 256)
  | payload (lane : Bool) (frame : BitVec 256)
  | ack (lane : Bool) (frame : BitVec 256)
  | retire (lane : Bool) (frame : BitVec 256)
  | heartbeat (lane : Bool) (frame : BitVec 256)
  | stateSync (lane : Bool) (frame : BitVec 256)
  | nack (lane : Bool) (frame : BitVec 256)
  | unknownFrame (lane : Bool) (frame : BitVec 256)
  | helloPeriod (lane : Bool)
  | heartbeatPeriod (lane : Bool)
  | laneDownTimeout (lane : Bool)
  | partnerLossTimeout
  | bringupStallTimeout
  | selfFence
  | pairArb (level : Bool)
  -- resets, life cycle, start-up and power
  | porstAssert
  | porstRelease
  | sysrstAssert
  | sysrstRelease (lc : BitVec 6) (present : List (BitVec 16))
  | lcStateChange (lc : BitVec 6) (stable : Bool)
  | keyBeat (data : BitVec 32)
  | keyTimeout
  | entropyWord (data : BitVec 64) (health : Bool)
  | entropyTimeout
  | selfTestDone (sig : BitVec 64) (patterns : BitVec 25) (failing : BitVec 10)
  | patchWaitTimeout
  | patchCheckDone
  | keeperBootDone (failing : List (Fin 272))
  | hostBringupTimeout
  | mirrorLinkupTimeout
  | pwrReqRetain
  | pwrReqRun
  | pwrReqOff
  | pwrReqInvalid
  | retainEntryDone
  | retainExitDone
  | shutdownTimeout
  -- register port
  | registerWrite (addr : BitVec 20) (x : RegXfer)
  | reservedAccess (addr : BitVec 20) (write priv : Bool)
  | readClear (addr : BitVec 20) (priv : Bool)
  | loReadLatch (addr : BitVec 20) (priv : Bool)
  | chmChref (x : RegXfer)
  | instPgmFlush (inst : BitVec 8) (x : RegXfer)
  | epochHoldClear (x : RegXfer)
  | ptLoad (x : RegXfer)
  | derive (x : RegXfer)
  | clear (x : RegXfer)
  | evcSwset (x : RegXfer)
  | evcTmrCtl (x : RegXfer)
  | instMsgMask (inst : BitVec 8) (x : RegXfer)
  | instMsgPclr (inst : BitVec 8) (x : RegXfer)
  | drain (inst : BitVec 8) (x : RegXfer)
  | squash (inst : BitVec 8) (x : RegXfer)
  | release (inst : BitVec 8) (x : RegXfer)
  | hostPortEnable (port : Bool) (x : RegXfer)
  | ringEnable (r : RingId) (x : RegXfer)
  | mirCtlEn (x : RegXfer)
  | accept (x : RegXfer)
  | take (x : RegXfer)
  | lreset (x : RegXfer)
  | mirInstHome (x : RegXfer)
  | chkSubst (x : RegXfer)
  | bistRun (x : RegXfer)
  | supplyImage (x : RegXfer)
  | supplyNone (x : RegXfer)
  | mcsPstageData (write : Bool) (x : RegXfer)
  | mcsPfloor (x : RegXfer)
  | patchUnitWrite (reg : BitVec 2) (x : RegXfer)
  -- debug
  | read (d : DbgAddr)
  | write (d : DbgAddr) (data : Word) (dataParityOk : Bool)
  | peek (d : DbgAddr)
  | consume (d : DbgAddr)
  | halt (d : DbgAddr)
  | resume (d : DbgAddr)
  | step (d : DbgAddr)
  | trigCfg (d : DbgAddr) (data : Word)
  | attach (d : DbgAddr) (data : Word)
  | detach (d : DbgAddr)
  | parserReset
  | haltDeferralExpiry (isl : Fin 272)
  | suyciaRequest (entry : BitVec 128)
  -- late rows
  | clearingCompareDone (pass : Bool)
  | attestComputationDone (digest : BitVec 64)
  | xferComplete (a : At) (slot : Fin 17) (ecc : Ecc)
  | vaonPowerOn
  | keyValidIgnored
  | stagingBufferTestDone
  | badOp (path : DbgPath) (op : BitVec 4) (parityOk : Bool)
  | evcSrcCfg (x : RegXfer)
  deriving DecidableEq, Repr

end Sys2Proof
end

