-- ==== Sys2Proof/Decode.lean ====
section
/-!
DEFINITION. Syllables: the short and long opcode maps (Tables ENC.1 to ENC.3), what each unlisted code and reserved field value
is, and the block's own reading of a table word. The opcode table gives no row any bits, so no word of it spells a command.
-/

namespace Sys2Proof

/-- The command that a word spells by the table's bits: no row has bits. -/
def decodeTableWord (_nbits _w : Nat) : Option Instr := none

/-! ## Short codes (R192, R193) -/

/-- Rows of Table ENC.1 whose mnemonics take consecutive codes from the first. -/
def shortNames : List (Nat × List (Issue → Instr)) :=
  [(0x000, [.nop]),
   (0x001, [.dup, .drop, .swap, .over, .rot, .nip, .tuck, .dup2, .drop2, .swap2, .depth]),
   (0x028, [.spillw, .fillw]),
   (0x030, [.ctxq, .pendq, .setpend]),
   (0x038, [.callt]),
   (0x040, [.add, .adc, .sub, .sbb, .neg]),
   (0x048, [.and, .or, .xor, .not]),
   (0x050, [.shl, .shr, .asr, .rol, .ror]),
   (0x058, [.cmp]),
   (0x060, [.mul, .mulu, .dstep, .clz]),
   (0x0A0, [.ld, .st, .ldp, .stp, .ldb, .stb, .ldh, .sth, .ldd, .std, .ldu, .stu]),
   (0x0B0, [.toa, .froma, .adup, .adrop, .aswap, .aadd]),
   (0x0F0, [.ret, .retw, .reti, .jmpt, .breakl]),
   (0x11C, [.lclrBal]),
   (0x12C, [.lflags]),
   (0x138, [.lstoreBal]),
   (0x140, [.fadd, .fsub, .fmul, .fma, .fneg, .fabs, .fcmp, .frecip, .frsqrt, .fstep, .fflags]),
   (0x160, [.rep, .setrc, .sleep, .yield, .mode, .fbar, .lockend, .eoi, .claim])]

/-- Rows of Table ENC.1 that carry an operand in the code: the first code, how many, and the instruction of the code's
distance from the first. -/
def shortFields : List (Nat × Nat × (Issue → Nat → Instr)) :=
  [(0x010, 16, fun i n => .pick i (BitVec.ofNat 4 n)),
   (0x020, 4, fun i n => .rdlc i (BitVec.ofNat 2 n)),
   (0x039, 5, fun i k => .callwt i (BitVec.ofNat 3 k)),
   (0x080, 32, fun i n => .lit i (BitVec.ofNat 5 n)),
   (0x0B8, 8, fun i n => .ainc i (BitVec.ofNat 4 (n + 1))),
   (0x0C0, 16, fun i o => .br i (BitVec.ofNat 4 o)),
   (0x0D0, 16, fun i o => .bz i (BitVec.ofNat 4 o)),
   (0x0E0, 16, fun i o => .bnz i (BitVec.ofNat 4 o)),
   (0x100, 4, fun i a => .ladd i (BitVec.ofNat 2 a) false),
   (0x104, 4, fun i a => .ladd i (BitVec.ofNat 2 a) true),
   (0x108, 4, fun i a => .lsub i (BitVec.ofNat 2 a) false),
   (0x10C, 4, fun i a => .lsub i (BitVec.ofNat 2 a) true),
   (0x110, 4, fun i a => .lpostD i (BitVec.ofNat 2 a)),
   (0x114, 4, fun i a => .lpostC i (BitVec.ofNat 2 a)),
   (0x118, 4, fun i a => .lclr i (BitVec.ofNat 2 a)),
   (0x120, 4, fun i a => .ktake i (BitVec.ofNat 2 a)),
   (0x124, 4, fun i a => .kclr i (BitVec.ofNat 2 a)),
   (0x128, 4, fun i a => .lcmp i (BitVec.ofNat 2 a)),
   (0x130, 4, fun i a => .lload i (BitVec.ofNat 2 a)),
   (0x134, 4, fun i a => .lstore i (BitVec.ofNat 2 a)),
   (0x13C, 4, fun i a => .ldstep i (BitVec.ofNat 2 a)),
   (0x169, 7, fun i n => .lock i (BitVec.ofNat 4 (n + 2))),
   (0x170, 16, fun i n => .trap i (BitVec.ofNat 4 n))]

/-- The instruction of a short code; none where the code is unassigned. -/
def decodeShort (i : Issue) (code : Nat) : Option Instr :=
  match shortNames.findSome? fun r => if r.1 ≤ code then r.2[code - r.1]? else none with
  | some f => some (f i)
  | none => shortFields.findSome? fun r => if r.1 ≤ code ∧ code < r.1 + r.2.1 then some (r.2.2 i (code - r.1)) else none

/-! ## Long codes (R194 to R198) -/

/-- What a leader and its second syllable are. -/
inductive LongCode where
  | instr (c : Instr)
  /-- A reserved field value or a nonzero reserved bit (Table ENC.3). -/
  | reserved
  /-- A leader that Table ENC.2 does not list. -/
  | unassigned
  deriving DecidableEq, Repr

/-- An instruction whose field values are all allowed. -/
def LongCode.of (allowed : Bool) (c : Instr) : LongCode := if allowed then .instr c else .reserved

/-- The immediate shifts and rotates of leader 0x1B8. -/
def decodeShift (i : Issue) (b : BitVec 9) : LongCode :=
  let n : BitVec 6 := b.extractLsb' 0 6
  let ok : Bool := n.toNat ≤ 35
  match (b.extractLsb' 6 3).toNat with
  | 0 => .of ok (.shli i n)
  | 1 => .of ok (.shri i n)
  | 2 => .of ok (.asri i n)
  | 3 => .of ok (.roli i n)
  | 4 => .of ok (.rori i n)
  | _ => .reserved

/-- MBOX's three operations. -/
def decodeMbox (i : Issue) (b : BitVec 9) : LongCode :=
  match b.toNat with
  | 0 => .instr (.mboxSend i)
  | 1 => .instr (.mboxReceive i)
  | 2 => .instr (.mboxQuery i)
  | _ => .reserved

/-- A long instruction: its leader, 0x180 to 0x1FF, and second syllable (Tables ENC.2 and ENC.3). -/
def decodeLong (i : Issue) (a b : BitVec 9) : LongCode :=
  let acc : BitVec 2 := b.extractLsb' 0 2
  let above := fun (k : Nat) => decide (b.toNat < 2 ^ k)
  let lsb : BitVec 6 := b.extractLsb' 0 6
  let wm1 : BitVec 5 := a.extractLsb' 0 2 ++ b.extractLsb' 6 3
  let field : Bool := lsb.toNat ≤ 35 && lsb.toNat + wm1.toNat + 1 ≤ 36
  match a.toNat with
  | 0x1B8 => decodeShift i b
  | 0x1B9 => .of (above 8) (.bperm i (b.extractLsb' 0 8))
  | 0x1C0 => .of (above 2) (.lmul i acc)
  | 0x1C1 => .of (above 8 && (b.extractLsb' 2 6).toNat ≤ 40) (.lscale i acc (b.extractLsb' 2 6))
  | 0x1C2 => .of (above 8 && (b.extractLsb' 5 3).toNat < 5) (.lrnd i acc (b.extractLsb' 2 3) (b.extractLsb' 5 3))
  | 0x1C3 => .of (above 3) (.lshare i acc (b.getLsbD 2))
  | 0x1C4 => .of (above 6 && lsb.toNat ≤ 40) (.losc i lsb)
  | 0x1C8 => .of (above 6) (.lconv i acc (b.getLsbD 2) (b.extractLsb' 3 4))
  | 0x1D0 => .of (above 6 && (b.extractLsb' 0 4).toNat < 6) (.fcvt i (b.extractLsb' 0 4) (b.extractLsb' 4 2))
  | 0x1E0 => .instr (.loop i b)
  | 0x1E1 => .of (above 3) (.xfer i (b.getLsbD 0) (b.getLsbD 1) (b.getLsbD 2))
  | 0x1E2 => .of (above 5 && (b.extractLsb' 0 4).toNat < 8) (.creq i (b.extractLsb' 0 4) (b.getLsbD 4))
  | 0x1E3 => .of (above 2) (.zreq i (b.getLsbD 0) (b.getLsbD 1))
  | 0x1E4 => .of (above 1) (.waitu i (b.getLsbD 0))
  | 0x1E5 => .of (above 0) (.commit i)
  | 0x1E6 => .of (above 8 && !(b.getLsbD 7 && (b.extractLsb' 0 7) != 0)) (.abort i (b.extractLsb' 0 7) (b.getLsbD 7))
  | 0x1E7 => decodeMbox i b
  | 0x1E8 => .of (!(b.getLsbD 8 && (b.extractLsb' 0 8) != 0)) (.bank i (b.extractLsb' 0 8) (b.getLsbD 8))
  | 0x1E9 => .instr (.feat i b)
  | 0x1EA => .of (above 0) (.tbr i)
  | 0x1EB => .of (above 7 && (b.extractLsb' 4 2).toNat < 3) (.ldesc i (b.extractLsb' 0 4) (b.extractLsb' 4 2) (b.getLsbD 6))
  | n =>
    if n < 0x190 then .instr (.litl i (a.extractLsb' 0 4 ++ b))
    else if n < 0x1A0 then .instr (.litx i (a.extractLsb' 0 4 ++ b))
    else if n < 0x1A8 then .instr (.brl i (a.extractLsb' 0 3 ++ b))
    else if n < 0x1AD then .instr (.callw i (BitVec.ofNat 3 (n - 0x1A8)) b)
    else if n = 0x1AE ∨ n = 0x1AF then .instr (.call i (a.extractLsb' 0 1 ++ b))
    else if 0x1B0 ≤ n ∧ n < 0x1B4 then .of field (.bfx i lsb wm1)
    else if 0x1B4 ≤ n ∧ n < 0x1B8 then .of field (.bfi i lsb wm1)
    else if n = 0x1EC ∨ n = 0x1ED then .instr (.bzl i (a.extractLsb' 0 1 ++ b))
    else if n = 0x1EE ∨ n = 0x1EF then .instr (.bnzl i (a.extractLsb' 0 1 ++ b))
    else if 0x1F0 ≤ n then .instr (.extensionInstruction i (a.extractLsb' 0 4) b)
    else .unassigned

/-! ## What the syllables at the PC are (R190, R199) -/

/-- The sub-code of Table ENC.4 that the syllables `a` and `b` meet by themselves, with `a` at an odd syllable or not: a code
below 0x180 is a whole instruction, and a code from 0x180 on leads a long one. -/
def syllableFault (i : Issue) (a b : BitVec 9) (odd : Bool) : Option Nat :=
  if a.toNat < 0x180 then (if (decodeShort i a.toNat).isSome then none else some 1)
  else match decodeLong i a b with
    | .unassigned => some 2
    | .reserved => some (if odd then 3 else 4)
    | .instr _ => if odd then some 3 else none

end Sys2Proof
end

