-- ==== Sys2Proof/Config.lean ====
section
/-!
DEFINITION. What the manual fixes for the hard macro but does not give a value for: constants without a body, so no
proof can rest on a value. Each has an entry in the assumption log.
-/

namespace Sys2Proof.Config

/-- The contents of the service ROM, by short address in bank 0x80 (R17, R155): the manual does not print them.
UNVERIFIED: log entry 4. -/
opaque serviceRom : Nat → Word

/-- The microcode ROM, by address 0x000 to 0xBFF (R317): the manual does not print it. UNVERIFIED: log entry 4. -/
opaque microRom : Nat → BitVec 144

/-- The entry address of each micro-routine (R319), by its place in Table MCS.1: each ROM release has its own. UNVERIFIED: log
entry 4. -/
opaque microEntry : Nat → BitVec 7

/-- The address of the keeper's restart entry in the service ROM (R182, R334). UNVERIFIED: log entry 4. -/
opaque keeperEntry : SAddr

/-- The TVB value of the keeper's default handler table (R95): keeper firmware, not given. UNVERIFIED: log entry 4. -/
opaque defaultTvb : WAddr

/-- The keyed permutation of log deck lines (R136) as the exchanges of two line numbers that make it up, by key: every list of exchanges
is a permutation, and every permutation is such a list. UNVERIFIED: log entry 5. -/
opaque sliceSwaps : BitVec 512 → List (BitVec 19 × BitVec 19)

/-- The keyed hash of a channel number behind the affinity table (R130). UNVERIFIED: log entry 5. -/
opaque affinityHash : BitVec 512 → Nat → Nat

/-- The signature that ROM holds for each value of LOG2 (R471). UNVERIFIED: log entry 4. -/
opaque expectedSignature : Nat → BitVec 64

/-- The MISR after the `width` bits of `value` enter it (R471): its polynomial is not given. UNVERIFIED: log entry 4. -/
opaque misr : (acc : BitVec 64) → (width value : Nat) → BitVec 64

/-- The end token that ROM holds (R471). UNVERIFIED: log entry 4. -/
opaque endToken : BitVec 64

/-- The SHA-384 digest of the patch signing key that ROM holds (Table MCS.6, check 3). UNVERIFIED: log entry 4. -/
opaque patchKeyDigest : BitVec 384

/-- The DEFLATE blocks the compressor chooses (R354), by level, LAST, history and source octets. The model takes them only
where they decode to the source within the bound of R357. DESIGN CHOICE: log entry 6. -/
opaque deflate : (level : Nat) → (last : Bool) → (history source : List Octet) → List Octet

/-- The contents a failed unit request leaves in its destination (R339), by draw. DESIGN CHOICE: log entry 7. -/
opaque freeWord : Nat → Word

/-- The unspecified value a port shows while its clock has stopped (R25), by draw. DESIGN CHOICE: log entry 7. -/
opaque freeChoice : Nat → Bool

/-- The octets 32 to 63 of a telemetry record from the values that Table CHK.6 lists for its type: where they lie is not given.
UNVERIFIED: log entry 136. -/
opaque telemetryDetail : (typ : Nat) → (values : List Nat) → BitVec 256

/-- Bits [123:0] of the four trace entries that a telemetry record occupies (R460): where its octets lie is not given. UNVERIFIED: log
entry 96. -/
opaque traceEntry : (record : Line) → (k : Nat) → BitVec 124

/-- The host line of which log deck word `w` holds a part for the staged set of the job with acceptance number `order`, if any (R137):
where the staging hardware places a set is not given. UNVERIFIED: log entry 9. -/
opaque stagedLine : (order w : Nat) → Option Nat

/-- SYSTEM granule `g` holds a part of the cached image with number `stamp` (R91): where the cache places an image is not given.
UNVERIFIED: log entry 30. -/
opaque cachedIn : (stamp g : Nat) → Bool

end Sys2Proof.Config
end

