-- ==== Sys2Proof/Machine/Assoc.lean ====
section
/-!
DEFINITION. Finite maps as lists of (key, value) pairs in one canonical form: keys strictly rising. A memory or a table
with a default drops every entry equal to the default, so equal contents are equal lists.
-/

namespace Sys2Proof.Assoc

variable {α : Type}

/-- The value at key `k`, if one is listed. -/
def lookup : List (Nat × α) → Nat → Option α
  | [], _ => none
  | (j, v) :: t, k => if j = k then some v else lookup t k

/-- `m` with the value `v` at key `k`, in order. -/
def insert : List (Nat × α) → Nat → α → List (Nat × α)
  | [], k, v => [(k, v)]
  | (j, w) :: t, k, v =>
    if k < j then (k, v) :: (j, w) :: t
    else if k = j then (k, v) :: t
    else (j, w) :: insert t k v

/-- `m` without key `k`. -/
def erase : List (Nat × α) → Nat → List (Nat × α)
  | [], _ => []
  | (j, w) :: t, k => if j = k then erase t k else (j, w) :: erase t k

/-- The keys rise strictly. -/
def rising : List (Nat × α) → Bool
  | [] => true
  | (_, _) :: [] => true
  | (j, _) :: (k, w) :: t => j < k && rising ((k, w) :: t)

/-- The lowest key from `k` on that is not listed, looking at `fuel` keys. -/
def freeKey (m : List (Nat × α)) : (fuel k : Nat) → Option Nat
  | 0, _ => none
  | f + 1, k => if (lookup m k).isNone then some k else freeKey m f (k + 1)

end Sys2Proof.Assoc

namespace Sys2Proof.Tab

variable {α : Type}

/-- The entry at `k` of a table whose unlisted entries read as `d`. -/
def get (d : Nat → α) (m : List (Nat × α)) (k : Nat) : α := (Assoc.lookup m k).getD (d k)

/-- The table with `v` at `k`, in canonical form. -/
def set [DecidableEq α] (d : Nat → α) (m : List (Nat × α)) (k : Nat) (v : α) : List (Nat × α) :=
  if v = d k then Assoc.erase m k else Assoc.insert m k v

/-- The table with `v` listed at `k`, whatever the default. -/
def put (m : List (Nat × α)) (k : Nat) (v : α) : List (Nat × α) := Assoc.insert m k v

/-- The canonical form of a table with defaults: keys rise and no entry repeats its default. -/
def canonical [DecidableEq α] (d : Nat → α) (m : List (Nat × α)) : Bool :=
  Assoc.rising m && m.all fun e => decide (e.2 ≠ d e.1)

end Sys2Proof.Tab
end

