-- ==== Sys2Proof/Machine/State.lean ====
section
/-!
DEFINITION. Everything the manual gives the complex to hold, as plain data, and its values right after reset.
Tables with a default entry are lists in the canonical form of `Sys2Proof.Tab`; partial maps those of `Sys2Proof.Assoc`.
-/

namespace Sys2Proof.Machine

/-! ## Shared parts -/

/-- A count-down in ticks: stopped, running to an absolute tick of the time base, or paused with ticks left (R186,
R376, R458). -/
inductive Timer where
  | off
  | until (due : Nat)
  | paused (left : Nat)
  deriving DecidableEq, Repr

/-- An epoch-governed setting: its value in force, the value last written, and the tick of a write that awaits a
boundary (R121). -/
structure Gov (α : Type) where
  cur : α
  next : α
  wrote : Option Nat := none
  deriving DecidableEq, Repr

/-- What a step drove on the block's ports (Table PRT.1), oldest first. Each command starts with an empty list. -/
inductive Beat where
  /-- C_ACK with C_RESP and C_RDATA (R26, R27). -/
  | reg (resp : BitVec 2) (data : Reg32)
  /-- A host request beat: port, tag, type, address, user number, attributes, enables, data (R49 to R53). -/
  | host (port : Bool) (tag : Nat) (typ : BitVec 3) (addr : HAddr) (inst : BitVec 8) (attr : BitVec 6)
      (oen : BitVec 64) (data : Line)
  /-- A response credit pulse (R54). -/
  | rsCredit (port : Bool)
  /-- A NOTIFY credit pulse (R54). -/
  | ntCredit (port : Bool)
  /-- A frame on a mirror lane (R401). -/
  | frame (lane : Bool) (bits : BitVec 256)
  /-- An extension beat: stand, context, generation, operation, operands, kill (R34, R37). -/
  | ext (stand : Nat) (ctx : BitVec 8) (gen : BitVec 4) (op : BitVec 13) (a b : Word) (kill : Bool)
  /-- A debug acknowledge, and its data with their parity bit (R445, R447). -/
  | dbg (ack : BitVec 3) (data : Option (Word × Bool))
  /-- KEY_ACK (R28). -/
  | keyAck
  /-- ENT_ACK (R30). -/
  | entAck
  deriving DecidableEq, Repr

/-! ## Engine context (Table ENG.2) -/

/-- The context states of Table ENG.3. -/
inductive CtxState where
  | free
  | assigned
  | ready
  | blocked
  | sleeping
  | frozen
  | halted
  deriving DecidableEq, Repr

/-- One window of the data stack: 16 cells from the bottom, its depth and its four dirty bits (R160, R164). -/
structure Window where
  /-- Words by cell number; an unlisted cell holds 0. -/
  cells : List (Nat × Word)
  depth : Nat
  dirty : BitVec 4
  deriving DecidableEq, Repr

/-- An empty clean window. -/
def Window.empty : Window := ⟨[], 0, 0⟩

/-- An open hardware loop level: start and end syllable addresses and LCn (R173). -/
structure LoopLevel where
  start : SAddr
  stop : SAddr
  count : BitVec 24
  deriving DecidableEq, Repr

/-- One accumulator with its kerf, scale, rounding mode and cash step (R241, R242, R248). -/
structure Accum where
  coef : Int := 0
  kerf : Int := 0
  scale : Nat := 0
  mode : BitVec 3 := 0
  cash : BitVec 3 := 0
  deriving DecidableEq, Repr

/-- An open share sequence (R261). -/
structure Share where
  owner : BitVec 2
  total : Int
  scale : Nat
  mode : BitVec 3
  cash : BitVec 3
  prop : Nat
  allotted : Int
  deriving DecidableEq, Repr

/-- The ledger state of a context (Table LDG.10). `status` holds the stored bits of Table LDG.5; KNZ and BZ are live. -/
structure Ledger where
  accs : List (Nat × Accum) := []
  bal : Int := 0
  /-- The operand scale; `none` is ACC (R245). -/
  osc : Option Nat := none
  status : Word := 0x700
  share : Option Share := none
  /-- The residues mod 9 carried beside L0 to L3, K0 to K3, BAL, T and U, in that order (R272). -/
  res : List Nat := List.replicate 11 0
  deriving DecidableEq, Repr

/-- The operations of the floating-point section, with the code of Table BIN.7 word 1. -/
inductive FpKind where
  | add
  | sub
  | mul
  | fma
  | step
  | cmp
  | recip
  | rsqrt
  | neg
  | abs
  | cvt (kind : BitVec 4) (round : BitVec 2)
  deriving DecidableEq, Repr

/-- A floating-point operation in flight (R283, R284, R312): where its top result cell lies, its operands as read,
and FSUB as it stood at issue. -/
structure FpOp where
  kind : FpKind
  addr : SAddr
  /-- The operation runs in the trap window. -/
  inTrap : Bool
  /-- Cell of the result's top cell, and the number of result cells. -/
  pos : Nat
  size : Nat
  a : BitVec 72
  b : BitVec 72
  c : BitVec 72
  flush : Bool
  deriving DecidableEq, Repr

/-- The exception record of Table BIN.7. -/
structure FpRecord where
  addr : SAddr := 0
  info : Word := 0
  a : BitVec 72 := 0
  b : BitVec 72 := 0
  c : BitVec 72 := 0
  deriving DecidableEq, Repr

/-- The floating-point state of a context (R291, R292). `status` holds the stored bits of Table BIN.6. -/
structure Fpu where
  status : Word := 0x700
  record : FpRecord := {}
  inflight : List FpOp := []
  /-- Pending FP trap: the record of its earliest-issued cause. -/
  pendFp : Option FpRecord := none
  pendSub : Option FpRecord := none
  deriving DecidableEq, Repr

/-- An open locked sequence (R213 to R215): whether the reserved line lies in the log deck, its number, and the
instructions still inside. A broken log deck reservation has left `LogDeck.resv`. -/
structure LockSeq where
  inDeck : Bool
  line : Nat
  left : Nat
  /-- A deferred HALT has broken the reservation (R454). -/
  broken : Bool := false
  deriving DecidableEq, Repr

/-- A unit tag of a job context (R226): the kind of Table INS.11, and the outcome once complete. -/
structure UnitTag where
  kind : BitVec 4
  /-- Code and detail once complete. -/
  done : Option (BitVec 8 × BitVec 24) := none
  unitError : Bool := false
  deriving DecidableEq, Repr

/-- A host-to-engine or engine-to-host XFER in progress (R230 to R234). -/
structure Xfer where
  toHost : Bool
  packed : Bool
  /-- Host address of its first octet, octets, and first engine word. -/
  host : HAddr
  len : Nat
  word : WAddr
  /-- Lines read but not yet answered. -/
  linesDue : Nat
  /-- Octets arrived so far, by offset in the transfer. -/
  got : List (Nat × Octet) := []
  /-- Issue order within the context (R234). -/
  order : Nat := 0
  deriving DecidableEq, Repr

/-- What a BLOCKED context waits for (Table ENG.3). -/
inductive Waiting where
  | nothing
  | xfer
  | waitu (tag : Nat)
  | seal
  | extension
  | admission (i : Instr)
  deriving DecidableEq, Repr

/-- One hardware context (Table ENG.2 and the state its waits need). -/
structure Ctx where
  state : CtxState := .free
  /-- Resident windows, the current one first, the base window last when nothing is spilled (R160). -/
  windows : List Window := [Window.empty]
  /-- Windows spilled to local store (R165). -/
  spilled : Nat := 0
  trapWin : Window := Window.empty
  /-- TW, and the trap code that set it (R165, R177). -/
  tw : Bool := false
  twCause : Nat := 0
  /-- Cells of the current window whose loaded data the next instruction cannot see, with their old content (R171). -/
  shadow : List (Nat × Word) := []
  /-- Address stack and return stack, top first (R166, R167). -/
  astack : List WAddr := []
  rstack : List SAddr := []
  pc : SAddr := 0
  c : Bool := false
  v : Bool := false
  z : Bool := false
  n : Bool := false
  mode : BitVec 4 := 0
  /-- Pending MODE changes: instructions still under the old mode, mask, value (R169). -/
  modePend : List (Nat × BitVec 4 × BitVec 4) := []
  cb : BitVec 8 := 0
  tvb : WAddr := 0
  wsp : BitVec 14 := 0
  wsl : BitVec 14 := 0
  /-- Open loop levels, level 0 first (R173). -/
  loops : List LoopLevel := []
  rc : BitVec 8 := 0
  /-- A REP in progress: repetitions remaining (R174). -/
  rep : Option (BitVec 8) := none
  ledger : Ledger := {}
  fpu : Fpu := {}
  jobTimer : Timer := .off
  extGen : BitVec 4 := 0
  lock : Option LockSeq := none
  /-- A log deck or service ROM read whose data has not arrived (R304). -/
  memWait : Option Instr := none
  /-- The addresses of the words that such a read asks for, and the words it has, by their place among them (R184, R310). -/
  memAt : List WAddr := []
  memGot : List (Nat × Word) := []
  wait : Waiting := .nothing
  /-- Address of the instruction the context waits at, for its trap (R228, R35). -/
  waitPc : SAddr := 0
  /-- A wait that ended while the context was HALTED (R453). -/
  waitDone : Bool := false
  haltedFrom : CtxState := .free
  /-- A HALT of this context alone waits for the end of its locked sequence (R450, R454). -/
  haltPend : Bool := false
  /-- Tick at which SLEEP ends; `none` for no limit (R187). -/
  wake : Option Nat := none
  unitTags : List (Nat × UnitTag) := []
  /-- XFERs in progress: 0 to 15 by unit tag, 16 the blocking one. -/
  xfers : List (Nat × Xfer) := []
  xferCount : Nat := 0
  /-- The accepted-job entry held (R112). -/
  job : Option Nat := none
  /-- The job's end that the next boundary acts on (R234). -/
  ending : Option (BitVec 8 × BitVec 8) := none
  deriving DecidableEq, Repr

/-! ## Engines -/

/-- A store buffer entry: word address, bytes written (byte 0 first), the data word (R308). `pair` marks an entry that
drains together with the next one (R183, R212). -/
structure StoreEntry where
  addr : WAddr
  bytes : List Bool
  data : Word
  ctx : Nat
  pair : Bool := false
  deriving DecidableEq, Repr

/-- A taken forerunner branch whose delay slot has not run (R172): the context before the branch, the branch's
address and its target. -/
structure DelaySlot where
  ctx : Nat
  saved : Ctx
  target : SAddr
  leaves : Bool
  deriving DecidableEq, Repr

/-- A trap delivered to the keeper: the frozen context, its trap word and its PC (R179 to R181). -/
structure Delivered where
  ctx : Nat
  word : Word
  pc : SAddr
  deriving DecidableEq, Repr

/-- A job start block (Table ENG.7). -/
structure StartBlock where
  start : SAddr := 0
  tvb : WAddr := 0
  wsp : BitVec 14 := 0
  wsl : BitVec 14 := 0
  mode : BitVec 4 := 0
  cb : BitVec 8 := 0
  ovlLo : BitVec 14 := 0
  ovlHi : BitVec 14 := 0
  deriving DecidableEq, Repr

/-- The key of a program image but for its generation (R91). -/
structure ProgKey where
  inst : Nat
  table : Nat
  program : Nat
  deriving DecidableEq, Repr

/-- A program image in an engine's overlay area (R92, R132). `stale` marks it for a new read of its table entry (R91). -/
structure Overlay where
  key : ProgKey
  gen : Nat
  addr : Nat
  words : Nat
  stale : Bool := false
  /-- Its first local store word, and whether it was verified as SIGNED (R90). -/
  base : Nat := 0
  signed : Bool := false
  deriving DecidableEq, Repr

/-- The sequencer of an engine's micro-routines (R321 to R325): the address u of the current word, the micro-counter, the micro
return stack (newest first, at most 2), the working sub-code register, what the other working registers hold (the manual gives
neither their number nor their widths: one word stands for them), the bank that the last word's BNK names, and the routine under way:
its context, its number in Table MCS.1, and whether a word of patch RAM has run in it. -/
structure MicroSeq where
  u : BitVec 12 := 0
  count : BitVec 6 := 0
  stack : List (BitVec 12) := []
  sub : BitVec 8 := 0
  work : Word := 0
  bank : BitVec 8 := 0
  busy : Option (Nat × Nat) := none
  patched : Bool := false
  deriving DecidableEq, Repr

/-- One physical engine (R9, R10). -/
structure Engine where
  ctxs : List (Nat × Ctx) := []
  /-- Local store; an unlisted word reads 0 (log entry 3). -/
  lstore : List (Nat × Word) := []
  /-- Local store words marked uncorrectable (R429). -/
  bad : List Nat := []
  sbuf : List StoreEntry := []
  lsKeepEnd : BitVec 14 := 0x1000
  lsOvlEnd : BitVec 14 := 0x3000
  lsCtxBase : BitVec 14 := 0x3000
  goErr : BitVec 16 := 0
  wdtLoad : BitVec 24 := 0x186A0
  wdt : Timer := .paused 0x186A0
  blocks : List (Nat × StartBlock) := []
  ivec : WAddr := 0
  ie : Bool := false
  /-- EVT_LOCAL.DISP, bit c for context c (R374). -/
  disp : BitVec 8 := 0
  /-- The keeper's priority stack, top first (R372). -/
  pstack : List Nat := []
  mbox : List Word := []
  mbRefused : BitVec 16 := 0
  lastIssued : Nat := 0
  slot : Option DelaySlot := none
  delivered : List Delivered := []
  /-- The engine runs: its island is powered and its contexts may issue. -/
  running : Bool := false
  halted : Bool := false
  /-- A HALT waits for the end of a locked sequence (R454). -/
  haltPend : Bool := false
  /-- STEP runs one instruction of this context (R455). -/
  stepping : Option Nat := none
  /-- The sequencer of the engine's micro-routines. -/
  micro : MicroSeq := {}
  /-- Island clock step, last margin, island state, first delay, drift, samples with margin of 12 % or more (R437). -/
  step : Nat := 20
  margin : Nat := 0
  isState : BitVec 2 := 0
  firstDelay : Option Nat := none
  drift : Nat := 0
  goodSamples : Nat := 0
  /-- Program images in the overlay area, oldest first (R92, R132). -/
  overlays : List Overlay := []
  /-- The substitution, removal or halt that waits for a boundary: its trigger (Table CHK.11, SUBST). -/
  substPend : Option Nat := none
  /-- The fourth machine check within an hour has struck: the engine is in its machine check until it is replaced (R366, R435, log
  entry 111). -/
  checking : Bool := false
  deriving DecidableEq, Repr

/-- A logical engine (Table CHK.10): the physical engine carrying it, its state, and the ticks of its retries, register
errors and machine checks in the last hour. -/
structure LogEngine where
  phys : Nat
  state : BitVec 2 := 0
  retryAt : List Nat := []
  regAt : List Nat := []
  mcAt : List Nat := []
  retries : BitVec 16 := 0
  regErrs : BitVec 16 := 0
  deriving DecidableEq, Repr

/-! ## Host ports -/

/-- Request types (Table HST.1). -/
inductive ReqType where
  | read
  | write
  | writeFull
  | atomicOr
  | msg
  deriving DecidableEq, Repr

/-- Why a ring's control line is read (R440, R441). -/
inductive CtlWhy where
  | enable
  | full
  deriving DecidableEq, Repr

/-- What a host request is for (Table HST.5). Jobs are named by accepted-entry number. -/
inductive Purpose where
  | xfer (job slot offset : Nat)
  | pgmTable (job : Nat)
  | image (job k : Nat)
  | signature (job k : Nat)
  | publicKey (job k : Nat)
  | regions (job : Nat) (output : Bool) (k : Nat)
  | chanTable (chan : Nat)
  | doorbell (inst : BitVec 8) (line : BitVec 58)
  | descriptor (chan : Nat) (pos : BitVec 32)
  | scanSlot (chan : Nat) (pos : BitVec 32)
  | releaseLine (job : Nat)
  | completion (job : Nat)
  | dirty (inst : Nat) (job : Option Nat) (record : Option (RingId × BitVec 32))
  /-- A message of a vector, and the mirror entry whose RETIRE waits for its issue (R12). -/
  | message (vector : Nat) (rid : Option Nat)
  | record (r : RingId) (pos : BitVec 32) (job : Option Nat)
  | ringLine (r : RingId) (why : CtlWhy)
  | periodLine (inst k : Nat)
  /-- The channel table entry, doorbell line and completion slot of a held record that R419 completes. -/
  | heldTable (rid : Nat)
  | heldBell (rid : Nat)
  | heldSlot (rid : Nat)
  /-- A request entry or a response of the Suycia monitor, and a read of its control line: the one after EN was set, or another (R461). -/
  | suycia
  | suyLine (starts : Bool)
  /-- Its job has ended or gone back to ACCEPTED: the answer is dropped (R234). -/
  | dropped
  deriving DecidableEq, Repr

/-- A host request (R49 to R53). -/
structure HostReq where
  typ : ReqType
  addr : HAddr
  inst : BitVec 8
  /-- SPACE of Table HST.2: 0 JOB, 1 RING, 2 MGR. -/
  space : BitVec 2
  relaxed : Bool := false
  oen : BitVec 64
  data : Line
  purpose : Purpose
  /-- Served from the manager pool (R59). -/
  mgr : Bool := false
  deriving DecidableEq, Repr

/-- The state of a held tag (R59, R61, R62). -/
inductive TagState where
  | outstanding
  | retryWait (cycles : Nat)
  | lost
  | quarantined
  | squashed
  deriving DecidableEq, Repr

/-- A tag in use. -/
structure TagUse where
  req : HostReq
  st : TagState := .outstanding
  retries : Nat := 0
  due : Nat := 0
  deriving DecidableEq, Repr

/-- One host port (Tables HST.3, HST.8, HST.9). -/
structure Port where
  en : Bool := true
  up : Bool := false
  tmo : BitVec 24 := 0x186A0
  credits : Nat := 0
  rsCredits : Nat := 64
  ntCredits : Nat := 32
  tags : List (Nat × TagUse) := []
  /-- Counters 0 to 12 of Table HST.9 but TAGLOST, which is live. -/
  counts : List (Nat × Reg32) := []
  deriving DecidableEq, Repr

/-! ## Channels and jobs -/

/-- The part of a channel table entry that jobs keep (Table CHP.1, R73). -/
structure ChanEntry where
  inst : BitVec 8 := 0
  sub : HAddr := 0
  cpl : HAddr := 0
  l : Nat := 6
  ordered : Bool := false
  durable : Bool := false
  vector : BitVec 3 := 0
  useMsg : Bool := false
  pcount : Nat := 1
  ptab : HAddr := 0
  dbell : HAddr := 0
  deriving DecidableEq, Repr

/-- A refresh of a channel (R73): asked for, read, or read with its outcome (the first failing check, or the entry). -/
inductive Refresh where
  | idle
  | reading (asked : Nat) (takeover : Bool)
  | got (asked : Nat) (takeover : Bool) (enable : Bool) (entry : ChanEntry)
  | failed (asked : Nat) (inst : Option (BitVec 8)) (reason : Nat)
  deriving DecidableEq, Repr

/-- One channel (Table CHP.11, R80, R83). -/
structure Chan where
  entry : Option ChanEntry := none
  enabled : Bool := false
  reason : BitVec 3 := 0
  stopped : Bool := false
  broken : Bool := false
  fetch : BitVec 32 := 0
  tail : BitVec 32 := 0
  head : BitVec 32 := 0
  dbOvr : BitVec 16 := 0
  dbHead : BitVec 16 := 0
  refresh : Refresh := .idle
  /-- A descriptor read is outstanding, and the entry in force when it was issued (R73). -/
  fetching : Bool := false
  fetchEntry : Option ChanEntry := none
  /-- It was newly enabled, and its recovery scan has not begun (R83). -/
  fresh : Bool := false
  /-- Recovery scan: the position being examined and the end (R83). -/
  scan : Option (BitVec 32 × BitVec 32) := none
  /-- The entry in force when the scan began: a refresh governs only the scans that follow it (R73). -/
  scanEntry : Option ChanEntry := none
  /-- Positions that the scan found to fetch again, in order (R83). -/
  refetch : List (BitVec 32) := []
  /-- The scan belongs to a takeover (R416). -/
  scanTake : Bool := false
  /-- Tick of the last poll of its doorbell line (R82). -/
  pollAt : Option Nat := none
  deriving DecidableEq, Repr

/-- The states of an accepted-job entry (R112). -/
inductive JobState where
  | accepted
  | running
  | sealed
  | released
  | posting
  deriving DecidableEq, Repr

/-- The settings snapshot (Table DSP.2). -/
structure Snapshot where
  epoch : BitVec 32 := 0
  durable : BitVec 2 := 0
  limit : BitVec 32 := 0
  prio : BitVec 2 := 0
  keyA : Nat := 0
  keyB : Nat := 0
  ptSel : Bool := false
  granules : Nat := 0
  deriving DecidableEq, Repr

/-- The stages of loading a program image (R92). -/
inductive Load where
  | notStarted
  | table
  | image (linesDue : Nat)
  | key (linesDue : Nat)
  /-- Verified, and waiting for room in the overlay area. -/
  | placing (image : List Word) (overlay : Overlay)
  | present
  deriving DecidableEq, Repr

/-- The stage of the commit sequence after the seal (Table CPX.2). -/
inductive Mirroring where
  | none
  | waiting
  | acked
  | unmirrored
  deriving DecidableEq, Repr

/-- An accepted-job entry of the operation tracker (R16, R112). -/
structure Job where
  inst : BitVec 8
  chan : BitVec 13
  pos : BitVec 32
  entry : ChanEntry
  /-- The descriptor's 64 octets (Table CHP.3). -/
  desc : Line := 0
  /-- Regions as (host address, length): input, then output (R85). -/
  inputs : List (HAddr × Nat) := []
  outputs : List (HAddr × Nat) := []
  /-- Region list lines still to read: list, line number; and a bad reserved field seen. -/
  lists : List (Bool × Nat) := []
  listBad : Bool := false
  st : JobState := .accepted
  /-- Passed the checks of Table CHP.5 and waits for dispatch. -/
  queued : Bool := false
  /-- Acceptance order, and whether it was returned under R134. -/
  order : Nat := 0
  returned : Bool := false
  stand : Nat := 0
  restarts : Nat := 0
  /-- It has been placed on a context at least once. -/
  dispatched : Bool := false
  lastEng : BitVec 8 := 0
  lastCtx : BitVec 3 := 0
  /-- Where it runs: physical engine and context. -/
  place : Option (Nat × Nat) := none
  snap : Snapshot := {}
  load : Load := .notStarted
  /-- INST_PGM_FLUSH came while the image was loading (R91). -/
  flushed : Bool := false
  /-- SQUASH has reached the entry; the job ends at its context's next boundary (Table PTN.5, R390). -/
  squashDue : Bool := false
  /-- Image parts as they arrive: octets by offset, the table entry, the public key. -/
  ptEntry : BitVec 256 := 0
  imageOctets : List (Nat × Octet) := []
  keyOctets : List (Nat × Octet) := []
  /-- The staged write set: final octet by host address (R102). -/
  staged : List (Nat × Octet) := []
  csn : BitVec 48 := 0
  status : BitVec 8 := 0
  detail : BitVec 8 := 0
  octets : BitVec 32 := 0
  ledger : BitVec 8 := 0
  mirroring : Mirroring := .none
  rid : Option Nat := none
  /-- Release lines not yet issued (line number), and issued without a final answer. -/
  toRelease : List Nat := []
  released : List Nat := []
  dirtyDue : Nat := 0
  releaseFailed : Bool := false
  /-- Step 4 has begun. -/
  releasing : Bool := false
  /-- Granules it holds data in (R139). -/
  holds : List Nat := []
  /-- Granules that an issued CREQ or ZREQ names, until its admission is answered (R139). -/
  asked : List Nat := []
  deriving DecidableEq, Repr

/-! ## Virtual users of the complex (chapter 15) -/

/-- The reset states of Table PTN.4. -/
inductive RState where
  | run
  | draining
  | squashing
  | reset
  deriving DecidableEq, Repr

/-- A message vector (R377). -/
structure Vec where
  addr : HAddr := 0
  data : Reg32 := 0
  valid : Bool := false
  deriving DecidableEq, Repr

/-- How far a record in a ring's line has come (R440, R441, R68). -/
inductive RecStage where
  /-- It waits for room, for EN, or for the control line. -/
  | waiting
  /-- Its dirty bit is out. -/
  | dirty
  /-- Its write is out. -/
  | writing
  /-- Its write failed; a completion record waits to be written again. -/
  | failed
  deriving DecidableEq, Repr

/-- A record in a ring's line: its 64 octets without position and phase, the job whose completion it carries, the
position it took, and its stage. -/
structure RingRec where
  body : Line
  job : Option Nat := none
  pos : Option (BitVec 32) := none
  stage : RecStage := .waiting
  /-- The tick from which a failed write is made again (R441). -/
  due : Nat := 0
  deriving DecidableEq, Repr

/-- A record ring (Table CHK.9). -/
structure Ring where
  base : HAddr := 0
  l : BitVec 5 := 6
  en : Bool := false
  cline : HAddr := 0
  tail : BitVec 32 := 0
  head : BitVec 32 := 0
  drop : BitVec 32 := 0
  wait : List RingRec := []
  /-- A control line read is out; EN was set and P has not started yet; tick of the last control line read. -/
  ctlOut : Bool := false
  starting : Bool := false
  ctlAt : Option Nat := none
  deriving DecidableEq, Repr

/-- Period tables of one user (R129). -/
structure Period where
  host : HAddr := 0
  front : Bool := false
  ready : Bool := false
  readyAt : Nat := 0
  err : Bool := false
  /-- A load is held until old readers end; or its lines not yet back. -/
  held : Bool := false
  loading : List Nat := []
  /-- Octets of the load that have arrived. -/
  got : List (Nat × Octet) := []
  swap : Gov (BitVec 32) := ⟨0, 0, none⟩
  swapDue : Bool := false
  deriving DecidableEq, Repr

/-- Dirty-page logging of one user (Table HST.10). -/
structure DirtyLog where
  en : Bool := false
  broken : Bool := false
  base : HAddr := 0
  low : HAddr := 0
  pages : Reg32 := 0
  unlogged : Reg32 := 0
  deriving DecidableEq, Repr

/-- One of the 256 virtual users (R382), with its channel, commit and dispatch settings. -/
structure Inst where
  ctBase : HAddr := 0
  first : Nat := 0
  count : Nat := 0
  poll : BitVec 10 := 100
  jobTmo : Reg32 := 0x05F5E100
  durable : Gov (BitVec 2) := ⟨0, 0, none⟩
  sigReq : Bool := false
  csn : BitVec 48 := 1
  csnLast : BitVec 48 := 0
  pkey : HAddr := 0
  dl : DirtyLog := {}
  prio : Gov (BitVec 2) := ⟨0, 0, none⟩
  period : Period := {}
  /-- INST_SHR_CTX, _GRAN, _TAG, _TRK and _WGT, as registers 0 to 4 (Table PTN.7). -/
  shares : List (Nat × Gov Reg32) := []
  granx : Bool := false
  rstate : RState := .run
  rstTmo : Reg32 := 0x00989680
  rstDue : Option Nat := none
  sq : BitVec 16 := 0
  ign : Bool := false
  mask : BitVec 8 := 0xFF
  pend : BitVec 8 := 0
  errv : BitVec 3 := 0
  erruse : Bool := false
  vecs : List (Nat × Vec) := []
  home : BitVec 2 := 0
  errRing : Ring := {}
  /-- The channel served last under R384. -/
  lastChan : Nat := 0
  deriving DecidableEq, Repr

/-! ## Log deck, dispatcher -/

/-- Granule kinds (R137). -/
inductive GranKind where
  | free
  | inst (i : BitVec 8)
  | system
  | period
  | mirror
  deriving DecidableEq, Repr

/-- A granule: the written grant, the kind in force, and the kind and owner before a drain (R137 to R139). -/
structure Gran where
  kind : BitVec 2
  owner : BitVec 8
  wrote : Option Nat := none
  curKind : BitVec 2
  curOwner : BitVec 8
  applied : GranKind
  draining : Option GranKind := none
  /-- The grant that the reserve overrides (R138), and the user whose share leaves the granule out (R385). -/
  overridden : Option (BitVec 2 × BitVec 8) := none
  leftOut : Option (BitVec 8) := none
  deriving DecidableEq, Repr

/-- The log deck (R136 to R145). -/
structure LogDeck where
  mem : List (Nat × Word) := []
  bad : List Nat := []
  grans : List (Nat × Gran) := []
  mirRes : Gov (BitVec 10) := ⟨64, 64, none⟩
  conflict : Bool := false
  hashKey : BitVec 512 := 0
  /-- Line reservations, oldest first: line, engine, context (R141). -/
  resv : List (Nat × Nat × Nat) := []
  hot : List (Nat × Reg32) := []
  passes : Reg32 := 0
  row : Nat := 0
  ce : Reg32 := 0
  ue : Reg32 := 0
  deriving DecidableEq, Repr

/-- A verified image in the program cache (R91): its words, and its last use. -/
structure CacheEntry where
  key : ProgKey
  gen : Nat
  addr : Nat
  words : List Word
  used : Nat
  stale : Bool := false
  /-- Its number among the images cached so far, and whether it was verified as SIGNED (R90). -/
  stamp : Nat := 0
  signed : Bool := false
  deriving DecidableEq, Repr

/-- A stand in the dispatcher (R130 to R133). -/
structure StandQ where
  depth : BitVec 16 := 0
  hot : Bool := false
  qual : Nat := 0
  outs : BitVec 16 := 0
  ins : BitVec 16 := 0
  /-- Weighted round-robin: user served last, and dispatches it has had in its turn. -/
  rrInst : Nat := 0
  rrUsed : Nat := 0
  stealRr : Nat := 0
  deriving DecidableEq, Repr

/-- The epoch registers and the dispatcher (chapter 05). -/
structure Dsp where
  period : Gov (BitVec 17) := ⟨0x2710, 0x2710, none⟩
  epoch : BitVec 32 := 0
  hold : Bool := false
  holdCleared : Nat := 0
  due : Option Nat := none
  stands : List (Nat × StandQ) := []
  /-- DSP_STEAL_CTL: EN and MINDEPTH. -/
  steal : Gov (Bool × BitVec 8) := ⟨(true, 8), (true, 8), none⟩
  affKey : BitVec 512 := 0
  /-- Stands that hold a logical engine, as the front affinity table and its back copy see them (R128, R130). -/
  affFront : BitVec 16 := 0xFFFF
  affBack : Option (BitVec 16) := none
  affReady : Option Nat := none
  /-- The next acceptance number. -/
  nextOrder : Nat := 0
  /-- Cached program images (R91), and the number of uses so far. -/
  cache : List CacheEntry := []
  cacheUse : Nat := 0
  /-- Doorbell lines, by user, that are read once more after the read that is out (R65). -/
  bellAgain : List (BitVec 8 × BitVec 58) := []
  deriving DecidableEq, Repr

/-! ## Units -/

/-- One copy of a key slot (R340): the key as two masked shares. -/
structure KeyCopy where
  kind : BitVec 3 := 0
  perm : BitVec 8 := 0
  exportable : Bool := false
  owner : BitVec 8 := 0
  digest : BitVec 64 := 0
  gen : BitVec 32 := 0
  share0 : BitVec 512 := 0
  share1 : BitVec 512 := 0
  deriving DecidableEq, Repr

/-- A key slot and its staged registers (R340, Table CIZ.11). -/
structure KeySlot where
  front : KeyCopy := {}
  back : Option KeyCopy := none
  backAt : Nat := 0
  /-- A derivation in progress (BUSY): the staged CTL, GEN and label as they stood at the DERIVE command. -/
  work : Option (BitVec 20 × BitVec 32 × List Octet) := none
  reason : BitVec 3 := 0
  counter : Nat := 0
  limit : Gov Nat := ⟨0, 0, none⟩
  ctl : BitVec 20 := 0
  gen : BitVec 32 := 0
  llen : BitVec 6 := 0
  labels : List (Nat × Reg32) := []
  deriving DecidableEq, Repr

/-- A cipher or compression request (R336 to R339). -/
structure UnitReq where
  unit : UnitKind
  inst : BitVec 8
  job : Nat
  tag : Nat
  block : WAddr
  mode : BitVec 4 := 0
  decompress : Bool := false
  opts : BitVec 16 := 0
  slot : BitVec 10 := 0
  kind : BitVec 3 := 0
  /-- The slot's two shares as they were copied at admission (R344, R350). -/
  share0 : BitVec 512 := 0
  share1 : BitVec 512 := 0
  counter : Nat := 0
  order : Nat := 0
  lane : Option Nat := none
  /-- The cipher lane that a chained compression request holds beside its own (R358). -/
  lane2 : Option Nat := none
  /-- The request block as it was read at the head of the queue, and whether a word of it was uncorrectable (R336). -/
  blk : List Word := []
  blkBad : Bool := false
  /-- Granules its request block names (R139). -/
  grans : List Nat := []
  /-- Its job ended: it writes nothing further (R338). -/
  dead : Bool := false
  /-- Its slot's word was uncorrectable while it ran on a lane (Table CHK.2). -/
  keyLost : Bool := false
  deriving DecidableEq, Repr

/-- The cipher and compression units (chapter 13). -/
structure Units where
  reqs : List (Nat × UnitReq) := []
  nextOrder : Nat := 0
  rrCipher : Nat := 0
  rrCompress : Nat := 0
  slots : List (Nat × KeySlot) := []
  drbgState : BitVec 2 := 0
  calls : Nat := 0
  drbgKey : BitVec 256 := 0
  drbgV : BitVec 128 := 0
  entDrop : Reg32 := 0
  /-- Requests completed and authentication failures of each cipher lane; completed and data errors of each
  compression lane. -/
  cipherStat : List (Nat × (BitVec 16 × BitVec 16)) := []
  compStat : List (Nat × (BitVec 16 × BitVec 16)) := []
  shades : List (Nat × BitVec 256) := []
  /-- Lanes stopped at a rekey point while the DRBG is STARVED (R352). -/
  stalled : List Nat := []
  /-- Contexts whose admission waits for a share refresh while the DRBG is STARVED, in order (R352). -/
  waiting : List (Nat × Nat) := []
  /-- The attestation computation waits for or runs on lane 0 (Table CHK.7). -/
  attest : Bool := false
  patchKey : BitVec 256 := 0
  /-- The root key as two masked shares (R341). -/
  rootKey0 : BitVec 256 := 0
  rootKey1 : BitVec 256 := 0
  /-- Healthy entropy words taken towards the intake in progress. -/
  entropy : List (BitVec 64) := []
  deriving DecidableEq, Repr

/-! ## Events -/

/-- An event source (R363 to R368). -/
structure Src where
  prio : BitVec 4
  tset : BitVec 6 := 0
  wakeEn : Bool
  own : Bool
  count : BitVec 8 := 0
  pend : Bool := false
  sig : Bool := false
  engine : BitVec 8 := 0
  deriving DecidableEq, Repr

/-- An event timer (R376). -/
structure EvTimer where
  en : Bool := false
  periodic : Bool := false
  period : Reg32 := 0
  timer : Timer := .off
  deriving DecidableEq, Repr

/-- The event controller. -/
structure Evc where
  srcs : List (Nat × Src) := []
  /-- EVC_SET_DATA by 8 × set + part. -/
  sets : List (Nat × Reg32) := []
  sat : Reg32 := 0
  msgDrop : Reg32 := 0
  timers : List (Nat × EvTimer) := []
  deriving DecidableEq, Repr

/-! ## Mirror link -/

/-- Link states (Table MIR.5). -/
inductive Link where
  | disabled
  | bringup
  | sync
  | paired
  | lost
  | replaced
  deriving DecidableEq, Repr

/-- A commit record, as sent or held (R410, R411). -/
structure Record where
  inst : BitVec 8
  chan : BitVec 13
  pos : BitVec 32
  csn : BitVec 48
  nExt : Nat := 0
  pay : Bool := false
  tag : BitVec 32 := 0
  octets : BitVec 32 := 0
  engine : BitVec 8 := 0
  ctx : BitVec 3 := 0
  ledger : BitVec 7 := 0
  /-- Released octets by host address. -/
  data : List (Nat × Octet) := []
  /-- Of a held record: the units that it takes of the reserve, and the START of the partner that sent it (R411, R419). -/
  units : Nat := 0
  start : BitVec 32 := 0
  deriving DecidableEq, Repr

/-- A record being received (R411): parts still due. -/
structure Partial where
  rid : Nat
  body : Record
  info : Bool := false
  extents : Nat := 0
  /-- Lines of the open extent not yet received, its next line, its enables, and DATA frames seen of the line. -/
  lines : Nat := 0
  line : Nat := 0
  oen : BitVec 64 := 0
  quarter : Nat := 0
  units : Nat := 1
  bad : Bool := false
  deriving DecidableEq, Repr

/-- An own mirror record entry (R410 to R412). -/
structure OwnRec where
  job : Option Nat
  body : Record
  lane : Bool := false
  cost : Nat
  acked : Bool := false
  posted : Bool := false
  /-- The commit's message has fallen due and is not yet issued: step 7 of Table CPX.2 has not ended. -/
  msgWait : Bool := false
  /-- SEQ of its RETIRE once sent (R412). -/
  retireSeq : Option (BitVec 24) := none
  /-- A record to be sent again that waits for its cost to fit (R410, R418). -/
  unsent : Bool := false
  deriving DecidableEq, Repr

/-- One mirror lane (R404, R405). -/
structure Lane where
  up : Bool := false
  txSeq : BitVec 24 := 0
  rxSeq : BitVec 24 := 0
  replay : List (BitVec 256) := []
  /-- Sequenced frames, type and BODY, that wait for room in the replay buffer. -/
  queue : List (BitVec 4 × BitVec 172) := []
  accepted : Nat := 0
  lastRx : Nat := 0
  lastNack : Option Nat := none
  building : Option Partial := none
  /-- The partner's last frame on this lane, which is up, was the HELLO of a lane that is down there: HELLO goes back (R406, log entry
  134). -/
  hail : Bool := false
  deriving DecidableEq, Repr

/-- The mirror link (chapter 16). -/
structure Mir where
  en : Bool := false
  autotake : Bool := true
  link : Link := .disabled
  lanes : List (Nat × Lane) := []
  peerFenced : Bool := false
  takeover : Bool := false
  arb : Bool := false
  selfId : BitVec 64 := 0
  seen : BitVec 64 := 0
  arbWait : Reg32 := 0x2710
  lostAt : Nat := 0
  stallAt : Nat := 0
  counts : List (Nat × Reg32) := []
  own : List (Nat × OwnRec) := []
  /-- Held records of the partner by 8,192 × CSN + RID (R411). -/
  held : List (Nat × Record) := []
  heldUnits : Nat := 0
  /-- The retire list: RID, CSN, and the units that the record's RETIRE gives back (R410, R412). -/
  retire : List (Nat × BitVec 48 × Nat) := []
  /-- RETIRE frames of the retire list without their acknowledgement: the lane, the SEQ and the units. -/
  retiring : List (Bool × BitVec 24 × Nat) := []
  credit : Nat := 0
  announced : Nat := 0
  nonce : BitVec 48 := 0
  peerNonce : BitVec 48 := 0
  start : BitVec 32 := 0
  peerStart : BitVec 32 := 0
  /-- The partner start token seen in its last HELLO, and its FENCED bit. -/
  helloStart : BitVec 32 := 0
  helloFenced : Bool := false
  everPaired : Bool := false
  sentDone : Bool := false
  gotDone : Bool := false
  tookOver : Bool := false
  /-- A takeover has begun since the link entered LOST (R414, R415). -/
  tookNow : Bool := false
  /-- The complex fenced itself (R415). -/
  selfFenced : Bool := false
  /-- A takeover has begun and its channel table reads wait for a boundary (R416). -/
  takeRead : Bool := false
  /-- The partner's STATE_SYNC has been received in this session (R418). -/
  gotSync : Bool := false
  /-- Channel entries read for held records that R419 completes. -/
  found : List (Nat × ChanEntry) := []
  /-- A STATE_SYNC that came before this side was in SYNC: its PSTART and TAKEN (R418). -/
  waitSync : Option (BitVec 32 × Bool) := none
  /-- Held records that R419 completes before DONE is sent. -/
  finish : List Nat := []
  /-- Ticks of counted violations in the last millisecond (R421). -/
  violations : List Nat := []
  deriving DecidableEq, Repr

/-! ## Checking, cruise, debug, microcode -/

/-- A stand's spare (Table CHK.10) and its extension port. -/
structure Spare where
  st : BitVec 2 := 0
  engaged : BitVec 8 := 0
  removed : Nat := 0
  /-- The substitution in progress: the engine being copied and its trigger. -/
  copying : Option (Nat × Nat) := none
  deriving DecidableEq, Repr

/-- A live extension request (R34 to R37). -/
structure ExtReq where
  gen : BitVec 4
  op : BitVec 13
  a : Word
  b : Word
  sent : Bool := false
  first : Option (Word × BitVec 2) := none
  deriving DecidableEq, Repr

/-- Extension port of one stand. -/
structure ExtPort where
  live : List (Nat × ExtReq) := []
  /-- Unanswered generations by context (R37): context and generation. -/
  unanswered : List (Nat × BitVec 4) := []
  dropped : Nat := 0
  deriving DecidableEq, Repr

/-- Checking, cruise and rings (chapter 17). -/
structure Chk where
  attn : BitVec 8 := 0
  mask : BitVec 8 := 0
  fatal : BitVec 7 := 0
  ger : Ring := {}
  tel : Ring := {}
  tdrop : Reg32 := 0
  raise : Bool := true
  target : BitVec 6 := 20
  telp : BitVec 4 := 4
  budget : BitVec 16 := 26000
  pest : BitVec 16 := 0
  samples : Nat := 0
  /-- Passes of the scrubbers: the tick at which the pass under way began and whether its overrun is recorded, by memory (log entry 135);
  recorded overruns; corrected words by memory code of Table CHK.11, where no register counts them (R429, Table CHK.2). -/
  passes : List (Nat × Nat × Bool) := []
  overruns : Nat := 0
  corrected : List (Nat × Nat) := []
  /-- Service ROM words found uncorrectable, by stand and word (R429). -/
  romBad : List (Nat × Nat) := []
  deriving DecidableEq, Repr

/-- A patch unit (R459). -/
structure PatchUnit where
  addr : BitVec 16 := 0
  en : Bool := false
  word : Word := 0
  deriving DecidableEq, Repr

/-- Debug and run control (chapter 18). -/
structure Dbg where
  attached : Bool := false
  /-- The ADDR of the two-wire CONSUME that awaits a challenge from the DRBG (R447). -/
  pending : Option Nat := none
  path : DbgPath := .wire
  scope : BitVec 2 := 0
  inst : BitVec 8 := 0
  puign : Bool := false
  fails : BitVec 4 := 0
  wdtRun : Bool := false
  trcEn : Bool := false
  trcWrap : Bool := true
  trcKinds : BitVec 6 := 0
  trcEngine : BitVec 8 := 0
  trcAll : Bool := false
  trace : List (BitVec 128) := []
  trcDrop : Reg32 := 0
  units : List (Nat × PatchUnit) := []
  suyEn : Bool := false
  suyL : BitVec 5 := 6
  suyEngine : BitVec 8 := 0
  suyBase : HAddr := 0
  suyCline : HAddr := 0
  /-- Positions of the next response and of the next request, and the response head last read (R440, R461). -/
  suyPos : BitVec 32 := 0
  suyReq : BitVec 32 := 0
  suyHead : BitVec 32 := 0
  /-- A control line read is out; EN was set and its read has not ended; tick of the last one. -/
  suyOut : Bool := false
  suyStart : Bool := false
  suyAt : Option Nat := none
  cause : BitVec 4 := 0
  esel : BitVec 8 := 0
  chal : BitVec 64 := 0
  chalFresh : Bool := false
  resp : BitVec 64 := 0
  fired : BitVec 8 := 0
  /-- Trigger group members: 256 × group + engine; halt-in and halt-out (R446). -/
  groups : List (Nat × (Bool × Bool)) := []
  deriving DecidableEq, Repr

/-- Microcode store (chapter 12). -/
structure Mcs where
  supply : BitVec 2 := 0
  isOpen : Bool := false
  state : BitVec 3 := 0
  reason : BitVec 4 := 0
  floor : BitVec 16 := 0
  wait : BitVec 24 := 0x186A0
  ver : BitVec 16 := 0
  stage : List (Nat × Reg32) := []
  /-- One more than the highest staging word written. -/
  staged : Nat := 0
  ram : List (Nat × BitVec 144) := []
  remap : List (BitVec 12 × BitVec 12) := []
  ce : Reg32 := 0
  ue : Reg32 := 0
  /-- Uncorrectable microwords: stand and address. -/
  bad : List (Nat × Nat) := []
  deriving DecidableEq, Repr

/-! ## Register port, life cycle, always-on domain -/

/-- The index registers of one path (R488, R489) and the _HI values its _LO reads latched (R487). -/
structure Idx where
  xidx : BitVec 4 := 0
  isl : BitVec 9 := 0
  cnt : BitVec 5 := 0
  dl : BitVec 8 := 0
  chst : BitVec 13 := 0
  chmInst : BitVec 8 := 0
  stand : BitVec 4 := 0
  dspInst : BitVec 8 := 0
  gran : BitVec 10 := 0
  hot : BitVec 6 := 0
  slot : BitVec 10 := 0
  cLane : BitVec 3 := 0
  zLane : BitVec 4 := 0
  src : BitVec 10 := 0
  set : BitVec 9 := 0
  tmr : BitVec 5 := 0
  mirInst : BitVec 8 := 0
  mirCnt : BitVec 4 := 0
  eng : BitVec 8 := 0
  chkStand : BitVec 4 := 0
  ier : BitVec 8 := 0
  trc : BitVec 13 := 0
  pu : BitVec 8 := 0
  widx : BitVec 13 := 0
  latched : List (Nat × Reg32) := []
  deriving DecidableEq, Repr

/-- Life-cycle states (Table PRT.5, LCB_STAT.LC). -/
inductive Lc where
  | blank
  | test
  | manufacture
  | field
  | recovery
  | scrapped
  deriving DecidableEq, Repr

/-- The steps of the shutdown sequence or direct BIST (Table LCB.3). -/
inductive Shut where
  | none
  | drain
  | squash
  | clear
  | selfTest
  | done
  deriving DecidableEq, Repr

/-- Power states (Table PRT.8). -/
inductive Power where
  | run
  | retain
  | off
  deriving DecidableEq, Repr

/-- Life cycle, start-up, resets and power (chapters 02 and 19). -/
structure Life where
  porst : Bool := true
  sysrst : Bool := true
  lc : Lc := .blank
  /-- A life-cycle state is latched (R32, R42). -/
  latched : Bool := false
  /-- R32 applies: SCRAPPED until PORST_N. -/
  changed : Bool := false
  glitches : Nat := 0
  phase : Nat := 1
  stopped : Bool := false
  quick : Bool := false
  sigClass : BitVec 3 := 0
  /-- LCB_SIG_INFO.COMPLETE as it stood before the classification write (R473, Table LCB.7). -/
  sigSeen : Bool := false
  phaseAt : Nat := 0
  /-- Phase 1: the clearing compare has passed; compares failed so far. -/
  cleared : Bool := false
  compareFails : Nat := 0
  keyBeats : BitVec 4 := 0
  keyHeld : Bool := false
  ephemeral : Bool := false
  keyTimeout : Bool := false
  keyLate : BitVec 8 := 0
  key : BitVec 256 := 0
  lpass : Bool := false
  mpass : Bool := false
  mfail : BitVec 10 := 0
  shutTmo : Reg32 := 0x00989680
  shut : Shut := .none
  shutDue : Option Nat := none
  /-- The sequence is a direct BIST (R477), and it has ended. -/
  direct : Bool := false
  directDone : Bool := false
  power : Power := .run
  /-- PWR_ACK (R45). -/
  ack : Power := .run
  /-- A RETAIN entry has set PAIR_FENCED and waits for a debugger (R452). -/
  entryFenced : Bool := false
  /-- PWR_REQ as last acted on, and the tick of its last change to OFF (R475). -/
  request : Power := .run
  requestAt : Nat := 0
  /-- A RETAIN exit is in progress, and whether OFF follows it (Table PRT.9). -/
  leaving : Bool := false
  /-- PAIR_FENCED stays 1 until the link is PAIRED again (Table PRT.9, R476). -/
  waitLink : Bool := false
  /-- Clocks that were found missing and have not shown themselves since (R25). -/
  noClock : List ClockId := []
  deriving DecidableEq, Repr

/-- The always-on domain (R42, R472, R473). -/
structure Aon where
  fenced : Bool := true
  lost : Bool := true
  sig : BitVec 64 := 0
  slog2 : BitVec 5 := 0
  count : BitVec 25 := 0
  complete : Bool := false
  result : BitVec 2 := 0
  log2 : BitVec 5 := 20
  high : BitVec 16 := 0
  peerId : BitVec 64 := 0
  peerv : Bool := false
  deriving DecidableEq, Repr

/-- GLB registers (Table MAP.3) and the sampled Xs_PRESENT (R33). -/
structure Glb where
  rsvacc : Bool := false
  rsvaddr : BitVec 20 := 0
  rsvwrite : Bool := false
  present : List (BitVec 16) := List.replicate 16 0
  deriving DecidableEq, Repr

/-- The complex: everything it holds, the commands that wait for it, and what the last command drove on its ports. -/
structure State where
  /-- Ticks since the release of PORST_N (R185). -/
  now : Nat
  pending : List Instr
  out : List Beat
  engines : List (Nat × Engine)
  logs : List (Nat × LogEngine)
  glb : Glb
  idx : Idx
  dbgIdx : Idx
  ports : List (Nat × Port)
  steer : BitVec 2
  /-- Host requests that wait for a port, a credit or a tag, oldest first (R54, R57, R59). -/
  hostWait : List HostReq
  chans : List (Nat × Chan)
  insts : List (Nat × Inst)
  jobs : List (Nat × Job)
  dsp : Dsp
  ldk : LogDeck
  units : Units
  evc : Evc
  mir : Mir
  chk : Chk
  spares : List (Nat × Spare)
  exts : List (Nat × ExtPort)
  dbg : Dbg
  mcs : Mcs
  life : Life
  aon : Aon
  /-- The model's own: how many free values have been drawn (log entry 7). -/
  draws : Nat
  deriving DecidableEq, Repr

/-- Why the complex stops. The manual gives every command of the table an effect, so nothing raises one. -/
inductive Fault where
  /-- No command raises it: the manual leaves no state of the block without a next one. Safe. -/
  | stuck
  deriving DecidableEq, Repr

/-- Why a command has no meaning in the model. -/
inductive Refusal where
  /-- Raised by `exec` for a row whose meaning is not written. Safe: the model stops where the complex goes on. -/
  | notModelled (mnemonic : String)
  deriving DecidableEq, Repr

/-! ## Defaults of the sparse tables -/

/-- A channel after reset. -/
def chanDflt (_ : Nat) : Chan := {}

/-- A virtual user after reset. -/
def instDflt (_ : Nat) : Inst := {}

/-- A share register after reset (Table PTN.2). -/
def shareDflt (r : Nat) : Gov Reg32 := if r = 4 then ⟨1, 1, none⟩ else ⟨0, 0, none⟩

/-- A key slot after reset. -/
def slotDflt (_ : Nat) : KeySlot := {}

/-- A word of memory that nothing has written reads 0 (log entry 3). -/
def wordDflt (_ : Nat) : Word := 0

/-- An event source after reset (Table EVC.5). -/
def srcDflt (n : Nat) : Src :=
  { prio := if 528 ≤ n ∧ n ≤ 559 then 15 else if 256 ≤ n ∧ n ≤ 527 then 1 else 0
    wakeEn := decide (528 ≤ n ∧ n ≤ 559)
    own := decide (256 ≤ n ∧ n ≤ 527) }

/-- A part of a target set after reset: all ones for set 0 (Table EVC.5). -/
def setDflt (k : Nat) : Reg32 := if k < 8 then 0xFFFFFFFF else 0

/-- A granule after reset (R145): PERIOD, SYSTEM, FREE or in the mirror reserve. -/
def granDflt (g : Nat) : Gran :=
  if g < 32 then ⟨3, 0, none, 3, 0, .period, none, none, none⟩
  else if g < 96 then ⟨2, 0, none, 2, 0, .system, none, none, none⟩
  else if g < 960 then ⟨0, 0, none, 0, 0, .free, none, none, none⟩
  else ⟨0, 0, none, 0, 0, .mirror, none, none, none⟩

/-- A slice counter, patch unit, patch RAM word or staging word after reset. -/
def countDflt (_ : Nat) : Reg32 := 0

/-- A patch unit after reset. -/
def unitDflt (_ : Nat) : PatchUnit := {}

/-- A patch RAM word after reset. -/
def microDflt (_ : Nat) : BitVec 144 := 0

/-- No trigger group has members after reset. -/
def groupDflt (_ : Nat) : Bool × Bool := (false, false)

/-- A physical engine after reset: the coppice engine of a stand is clock-gated (R9). -/
def engineDflt (isl : Nat) : Engine := { isState := if isl % 17 = 16 then 1 else 0 }

/-- A logical engine after reset: engine 16s + p runs on physical engine p of stand s (R9). -/
def logDflt (e : Nat) : LogEngine := { phys := e % 16 }

/-- The complex right after power-on, with both resets asserted (R23, R42). -/
def State.reset : State where
  now := 0
  pending := []
  out := []
  engines := []
  logs := []
  glb := {}
  idx := {}
  dbgIdx := {}
  ports := []
  steer := 0
  hostWait := []
  chans := []
  insts := []
  jobs := []
  dsp := {}
  ldk := {}
  units := {}
  evc := {}
  mir := {}
  chk := {}
  spares := []
  exts := []
  dbg := {}
  mcs := {}
  life := {}
  aon := {}
  draws := 0

end Sys2Proof.Machine
end

