-- ==== Sys2Proof/Machine/Ops.lean ====
section
/-!
DEFINITION. The named reads and writes of the complex's parts, and the small conversions between octets, words and
numbers that every family uses.
-/

namespace Sys2Proof.Machine

/-! ## Octets, words and numbers -/

/-- A number saturating at the top of a counter of `w` bits. -/
def satInc {w : Nat} (c : BitVec w) : BitVec w := if c.toNat + 1 < 2 ^ w then c + 1 else c

/-- Octet `i` of a host line (R49). -/
def lineOctet (l : BitVec 512) (i : Nat) : Octet := l.extractLsb' (8 * i) 8

/-- Octets `i` to `i + n - 1` of a host line as a little-endian number. -/
def lineNum (l : BitVec 512) (i n : Nat) : Nat := (l.extractLsb' (8 * i) (8 * n)).toNat

/-- `v` placed at octet `i` of an otherwise zero line, `n` octets wide, little-endian. -/
def putNum (i n v : Nat) : BitVec 512 := BitVec.ofNat 512 (v % 2 ^ (8 * n)) <<< (8 * i)

/-- A line from (octet, value) pairs; other octets are 0. -/
def lineOf : List (Nat × Octet) → BitVec 512
  | [] => 0
  | (i, o) :: t => lineOf t ||| ((o.setWidth 512) <<< (8 * i))

/-- The octet enables of (octet, value) pairs. -/
def oenOf : List (Nat × Octet) → BitVec 64
  | [] => 0
  | (i, _) :: t => oenOf t ||| ((1 : BitVec 64) <<< i)

/-- A little-endian octet list as a number. -/
def leNat : List Octet → Nat
  | [] => 0
  | o :: t => o.toNat + 256 * leNat t

/-- A most-significant-first octet list as a number. -/
def beNat (l : List Octet) : Nat := leNat l.reverse

/-- The `n` octets of a number, most significant first. -/
def beOctets (n v : Nat) : List Octet :=
  (List.range n).map fun i => BitVec.ofNat 8 (v / 256 ^ (n - 1 - i))

/-- The `n` octets of a number, least significant first. -/
def leOctets (n v : Nat) : List Octet := (List.range n).map fun i => BitVec.ofNat 8 (v / 256 ^ i)

/-- Byte `i` of a word; byte 0 is [35:27] (R7). -/
def wordByte (w : Word) (i : Nat) : NineBit := w.extractLsb' (27 - 9 * i) 9

/-- `w` with byte `i` replaced. -/
def setWordByte (w : Word) (i : Nat) (b : NineBit) : Word :=
  (w &&& ~~~((0x1FF : Word) <<< (27 - 9 * i))) ||| (b.setWidth 36 <<< (27 - 9 * i))

/-- Four bytes as a word, byte 0 first. -/
def wordOfBytes (b : List NineBit) : Word :=
  (List.range 4).foldl (fun w i => setWordByte w i (b.getD i 0)) 0

/-- A boolean as a bit. -/
def bit (b : Bool) : Nat := if b then 1 else 0

/-! ## Epoch-governed settings (R121, R122) -/

/-- A write at tick `t` goes to the pending copy. -/
def Gov.write {α : Type} (g : Gov α) (v : α) (t : Nat) : Gov α := { g with next := v, wrote := some t }

/-- A write made at least 2 ticks before the boundary at tick `t` applies. -/
def Gov.apply {α : Type} (g : Gov α) (t : Nat) : Gov α :=
  match g.wrote with
  | none => g
  | some w => if w + 2 ≤ t then { g with cur := g.next, wrote := none } else g

/-! ## Timers (R186, R376) -/

/-- Ticks left at tick `t`. -/
def Timer.left (x : Timer) (t : Nat) : Nat :=
  match x with
  | .off => 0
  | .until d => d - t
  | .paused l => l

/-- The timer has reached 0 by tick `t`. -/
def Timer.due (x : Timer) (t : Nat) : Bool :=
  match x with
  | .until d => d ≤ t
  | _ => false

/-- The timer stands still with what it has left (R458). -/
def Timer.pause (x : Timer) (t : Nat) : Timer :=
  match x with
  | .until d => .paused (d - t)
  | y => y

/-- The timer runs on. -/
def Timer.resume (x : Timer) (t : Nat) : Timer :=
  match x with
  | .paused l => .until (t + l)
  | y => y

/-! ## Engines and contexts -/

/-- Physical engine `p`, numbered as its island 17s + p (R437). -/
def State.eng (s : State) (p : Nat) : Engine := Tab.get engineDflt s.engines p

/-- The state with physical engine `p` replaced. -/
def State.putEng (s : State) (p : Nat) (e : Engine) : State := { s with engines := Tab.put s.engines p e }

/-- Physical engine `p` changed by `f`. -/
def State.modEng (s : State) (p : Nat) (f : Engine → Engine) : State := s.putEng p (f (s.eng p))

/-- Context `c` of an engine. -/
def Engine.ctx (e : Engine) (c : Nat) : Ctx := Tab.get (fun _ => {}) e.ctxs c

/-- The engine with context `c` replaced. -/
def Engine.putCtx (e : Engine) (c : Nat) (x : Ctx) : Engine := { e with ctxs := Tab.put e.ctxs c x }

/-- Context `c` of physical engine `p`. -/
def State.ctx (s : State) (p c : Nat) : Ctx := (s.eng p).ctx c

/-- The state with context `c` of physical engine `p` replaced. -/
def State.putCtx (s : State) (p c : Nat) (x : Ctx) : State := s.putEng p ((s.eng p).putCtx c x)

/-- Context `c` of physical engine `p` changed by `f`. -/
def State.modCtx (s : State) (p c : Nat) (f : Ctx → Ctx) : State := s.putCtx p c (f (s.ctx p c))

/-- Job start block `c`. -/
def Engine.block (e : Engine) (c : Nat) : StartBlock := Tab.get (fun _ => {}) e.blocks c

/-- Logical engine `e`. -/
def State.log (s : State) (e : Nat) : LogEngine := Tab.get logDflt s.logs e

/-- The state with logical engine `e` replaced. -/
def State.putLog (s : State) (e : Nat) (l : LogEngine) : State := { s with logs := Tab.put s.logs e l }

/-- The stand of physical engine `p` (R437). -/
def standOf (p : Nat) : Nat := p / 17

/-- The physical engine that carries logical engine `e` (R9, R431). -/
def State.physOf (s : State) (e : Nat) : Nat := 17 * (e / 16) + (s.log e).phys

/-- Logical engine `e` is in service: ACTIVE or ON_COPPICE (Table CHK.10). -/
def State.inService (s : State) (e : Nat) : Bool := (s.log e).state != 2

/-- The logical engine that physical engine `p` carries, if any. -/
def State.logicalOf (s : State) (p : Nat) : Option Nat :=
  (List.range 16).findSome? fun k =>
    let e := 16 * standOf p + k
    if s.inService e && s.physOf e == p then some e else none

/-- As `logicalOf`, for the fields that show a number: 0 where there is none. -/
def State.logicalNum (s : State) (p : Nat) : Nat := (s.logicalOf p).getD 0

/-- Logical engines in service. -/
def State.liveEngines (s : State) : Nat := ((List.range 256).filter s.inService).length

/-- Stand `d` holds a logical engine. -/
def State.standLive (s : State) (d : Nat) : Bool := (List.range 16).any fun k => s.inService (16 * d + k)

/-! ## Users, channels, jobs, ports -/

/-- Virtual user `i` of the complex. -/
def State.inst (s : State) (i : Nat) : Inst := Tab.get instDflt s.insts i

/-- The state with user `i` replaced. -/
def State.putInst (s : State) (i : Nat) (x : Inst) : State := { s with insts := Tab.put s.insts i x }

/-- User `i` changed by `f`. -/
def State.modInst (s : State) (i : Nat) (f : Inst → Inst) : State := s.putInst i (f (s.inst i))

/-- Share register `r` of a user (Table PTN.7). -/
def Inst.share (x : Inst) (r : Nat) : Gov Reg32 := Tab.get shareDflt x.shares r

/-- Channel `c`. -/
def State.chan (s : State) (c : Nat) : Chan := Tab.get chanDflt s.chans c

/-- The state with channel `c` replaced. -/
def State.putChan (s : State) (c : Nat) (x : Chan) : State := { s with chans := Tab.put s.chans c x }

/-- Channel `c` changed by `f`. -/
def State.modChan (s : State) (c : Nat) (f : Chan → Chan) : State := s.putChan c (f (s.chan c))

/-- Accepted-job entry `j`. -/
def State.job (s : State) (j : Nat) : Option Job := Assoc.lookup s.jobs j

/-- The state with accepted-job entry `j` set. -/
def State.putJob (s : State) (j : Nat) (x : Job) : State := { s with jobs := Assoc.insert s.jobs j x }

/-- Accepted-job entry `j` changed by `f`, where it is held. -/
def State.modJob (s : State) (j : Nat) (f : Job → Job) : State :=
  match s.job j with
  | none => s
  | some x => s.putJob j (f x)

/-- Host port 0 or 1. -/
def State.port (s : State) (n : Nat) : Port := Tab.get (fun _ => {}) s.ports n

/-- The state with a host port replaced. -/
def State.putPort (s : State) (n : Nat) (x : Port) : State := { s with ports := Tab.put s.ports n x }

/-- Key slot `k`. -/
def State.slot (s : State) (k : Nat) : KeySlot := Tab.get slotDflt s.units.slots k

/-- The state with key slot `k` replaced. -/
def State.putSlot (s : State) (k : Nat) (x : KeySlot) : State :=
  { s with units := { s.units with slots := Tab.put s.units.slots k x } }

/-- Event source `n`. -/
def State.src (s : State) (n : Nat) : Src := Tab.get srcDflt s.evc.srcs n

/-- The state with event source `n` replaced. -/
def State.putSrc (s : State) (n : Nat) (x : Src) : State :=
  { s with evc := { s.evc with srcs := Tab.put s.evc.srcs n x } }

/-- The spare of stand `d`. -/
def State.spare (s : State) (d : Nat) : Spare := Tab.get (fun _ => {}) s.spares d

/-- The state with the spare of stand `d` replaced. -/
def State.putSpare (s : State) (d : Nat) (x : Spare) : State := { s with spares := Tab.put s.spares d x }

/-- The extension port of stand `d`. -/
def State.ext (s : State) (d : Nat) : ExtPort := Tab.get (fun _ => {}) s.exts d

/-- The state with the extension port of stand `d` replaced. -/
def State.putExt (s : State) (d : Nat) (x : ExtPort) : State := { s with exts := Tab.put s.exts d x }

/-- The dispatcher's view of stand `d`. -/
def State.stand (s : State) (d : Nat) : StandQ := Tab.get (fun _ => {}) s.dsp.stands d

/-- The state with the dispatcher's view of stand `d` replaced. -/
def State.putStand (s : State) (d : Nat) (x : StandQ) : State :=
  { s with dsp := { s.dsp with stands := Tab.put s.dsp.stands d x } }

/-- Mirror lane 0 or 1. -/
def State.lane (s : State) (k : Nat) : Lane := Tab.get (fun _ => {}) s.mir.lanes k

/-- The state with a mirror lane replaced. -/
def State.putLane (s : State) (k : Nat) (x : Lane) : State :=
  { s with mir := { s.mir with lanes := Tab.put s.mir.lanes k x } }

/-- Granule `g` (R137). -/
def State.gran (s : State) (g : Nat) : Gran := Tab.get granDflt s.ldk.grans g

/-- The state with granule `g` replaced. -/
def State.putGran (s : State) (g : Nat) (x : Gran) : State :=
  { s with ldk := { s.ldk with grans := Tab.put s.ldk.grans g x } }

/-- One tick of the time base on its own: it counts from the release of PORST_N (R185, log entry 1). -/
def State.tick (s : State) : State :=
  { s with now := if s.life.porst then s.now else s.now + 1, out := [] }

/-- A port drives a beat. -/
def State.emit (s : State) (b : Beat) : State := { s with out := s.out ++ [b] }

/-- A free word for a value the manual leaves open, and the state with the draw counted (log entry 7). -/
def State.drawWord (s : State) : Word × State := (Config.freeWord s.draws, { s with draws := s.draws + 1 })

/-- 540 free bits from fifteen draws, for a mask whose value the manual leaves open (log entry 90). -/
def State.drawMask (s : State) : BitVec 540 × State :=
  ((List.range 15).foldl (fun m k => m ||| ((Config.freeWord (s.draws + k)).setWidth 540 <<< (36 * k))) 0,
   { s with draws := s.draws + 15 })

/-! ## Local store and log deck words -/

/-- Local store word `a` of an engine. -/
def Engine.word (e : Engine) (a : Nat) : Word := Tab.get wordDflt e.lstore a

/-- A whole local store word is written: it loses an uncorrectable mark (R429). -/
def Engine.putWord (e : Engine) (a : Nat) (w : Word) : Engine :=
  { e with lstore := Tab.set wordDflt e.lstore a w, bad := e.bad.filter (· != a) }

/-- The log deck offset of bank 0x40 to 0x7F and short address (R136). -/
def deckOffset (a : WAddr) : Nat := a.toNat - 0x400000

/-- The granule of a log deck offset (R137). -/
def granuleOf (w : Nat) : Nat := w / 4096

/-- Log deck word `w`. -/
def State.deck (s : State) (w : Nat) : Word := Tab.get wordDflt s.ldk.mem w

/-- Log deck word `w` is written by an accessor: engine and context, or none for a unit. Reservations of others on the
line break (R141). -/
def State.putDeck (s : State) (who : Option (Nat × Nat)) (w : Nat) (v : Word) : State :=
  { s with ldk := { s.ldk with
      mem := Tab.set wordDflt s.ldk.mem w v
      bad := s.ldk.bad.filter (· != w)
      resv := s.ldk.resv.filter fun r => r.1 != w / 8 || who == some r.2 } }

/-- Words `w`, `w + 1`, … are written. -/
def State.putDecks (s : State) (who : Option (Nat × Nat)) : Nat → List Word → State
  | _, [] => s
  | w, v :: t => (s.putDeck who w v).putDecks who (w + 1) t

/-- Memory is in its canonical form: in the log deck and in every local store addresses rise strictly, and no entry repeats what
an unlisted word reads as. -/
abbrev Memory.wf (s : State) : Prop :=
  Tab.canonical wordDflt s.ldk.mem = true ∧ ∀ p < 272, Tab.canonical wordDflt (s.eng p).lstore = true

/-- An exchange of two line numbers. -/
def swapLine (l : BitVec 19) (p : BitVec 19 × BitVec 19) : BitVec 19 := if l = p.1 then p.2 else if l = p.2 then p.1 else l

/-- P of a line number: its slice in [5:0] and its row in [18:6] (R136). -/
def State.linePlace (s : State) (line : BitVec 19) : BitVec 19 := (Config.sliceSwaps s.ldk.hashKey).foldl swapLine line

/-- The line number whose P a place is. -/
def State.placeLine (s : State) (place : BitVec 19) : BitVec 19 := (Config.sliceSwaps s.ldk.hashKey).reverse.foldl swapLine place

/-- The slice of a line (R136). -/
def State.sliceOf (s : State) (line : Nat) : Nat := (s.linePlace (BitVec.ofNat 19 line)).toNat % 64

/-! ## Time and attention -/

/-- An attention cause is set (Table CHK.10). -/
def State.attn (s : State) (k : Nat) : State :=
  { s with chk := { s.chk with attn := s.chk.attn ||| ((1 : BitVec 8) <<< k) } }

/-- Either reset is asserted: every output holds the value of Table PRT.2. -/
def State.inReset (s : State) : Bool := s.life.porst || s.life.sysrst

/-- The complex has power and neither reset is asserted: what acts whatever start-up or R32 has ended (R25, R28, R39, R44). -/
def State.alive (s : State) : Bool := !s.inReset && s.life.power != .off

/-- ERR_ATTN (R23, R40, R444). -/
def State.errAttn (s : State) : Bool := !s.inReset && s.chk.attn &&& ~~~s.chk.mask != 0

/-- ERR_FATAL (R23, R40). -/
def State.errFatal (s : State) : Bool := !s.inReset && s.chk.fatal != 0

/-- PWR_ACK (R23, R45). -/
def State.pwrAck (s : State) : Power := if s.inReset then .run else s.life.ack

/-- PAIR_FENCED: held in the always-on domain (R38). -/
def State.pairFenced (s : State) : Bool := s.aon.fenced

/-- The complex takes part in work: start-up goes on or is done, with neither reset asserted, outside OFF, and neither R32 nor a
direct BIST has ended it (R465, R477). -/
def State.up (s : State) : Bool :=
  !s.life.porst && !s.life.sysrst && !s.life.stopped && !s.life.changed && !s.life.directDone && s.life.power != .off

/-- The shutdown sequence or a direct BIST is past step 2: no island works (Table LCB.3). -/
def State.testing (s : State) : Bool :=
  match s.life.shut with
  | .clear => true
  | .selfTest => true
  | .done => true
  | _ => false

/-- The ready phase (Table LCB.4). -/
def State.ready (s : State) : Bool := s.up && s.life.phase == 8

/-- The ready phase in RUN: every island works (Tables LCB.4 and PRT.9). -/
def State.works (s : State) : Bool := s.ready && s.life.power == .run && !s.testing

/-- Island clocks run: engines may issue, from the keepers' boot on. -/
def State.clocked (s : State) : Bool := s.up && s.life.power == .run && !s.testing

end Sys2Proof.Machine
end

