-- ==== Sys2Proof/Machine/Micro.lean ====
section
/-!
DEFINITION. The microcode control store of a stand (chapter 12): the microword's fields (Table MCS.2), what a fetch reads (R317,
R328), how a word sequences (R321 to R323), and the end of a micro-routine (R324 to R327).
-/

namespace Sys2Proof.Machine

/-! ## Micro-coded work (Table MCS.1) -/

/-- The micro-routines: the instructions and the entries that run from the control store. -/
inductive Routine where
  | lmul
  | lshare
  | lconv
  | ldstep
  | lscale
  | ktake
  | lcmp
  | lload
  | lstore
  | lflags
  | spillw
  | fillw
  | claim
  | pendq
  | setpend
  | mbox
  | xfer
  | creq
  | zreq
  | commit
  | trapEntry
  | deliveredEntry
  | interruptEntry
  | keeperRestart
  deriving DecidableEq, Repr

/-- The place of a routine in Table MCS.1. -/
def Routine.number (r : Routine) : Nat :=
  match r with
  | .lmul => 0
  | .lshare => 1
  | .lconv => 2
  | .ldstep => 3
  | .lscale => 4
  | .ktake => 5
  | .lcmp => 6
  | .lload => 7
  | .lstore => 8
  | .lflags => 9
  | .spillw => 10
  | .fillw => 11
  | .claim => 12
  | .pendq => 13
  | .setpend => 14
  | .mbox => 15
  | .xfer => 16
  | .creq => 17
  | .zreq => 18
  | .commit => 19
  | .trapEntry => 20
  | .deliveredEntry => 21
  | .interruptEntry => 22
  | .keeperRestart => 23

/-- The entry address of a routine, in ROM at 0x000 to 0x07F (R319). -/
def Routine.entry (r : Routine) : BitVec 12 := (Config.microEntry r.number).setWidth 12

/-! ## The microword (Table MCS.2) -/

/-- A microword. -/
abbrev MicroWord := BitVec 144

/-- NXT. -/
def microNxt (w : MicroWord) : BitVec 12 := w.extractLsb' 130 12
/-- SEQ. -/
def microSeq (w : MicroWord) : BitVec 3 := w.extractLsb' 127 3
/-- CND. -/
def microCnd (w : MicroWord) : BitVec 6 := w.extractLsb' 121 6
/-- The bank that BNK names: CB, the bank of A, 0x00, or 0x80 (Table MCS.2). -/
def microBank (x : Ctx) (w : MicroWord) : BitVec 8 :=
  match (w.extractLsb' 72 2).toNat with
  | 0 => x.cb
  | 1 => (x.astack.headD 0).extractLsb' 16 8
  | 2 => 0x00
  | _ => 0x80
/-- KON. -/
def microKon (w : MicroWord) : BitVec 18 := w.extractLsb' 54 18
/-- MCT[5], LOAD. -/
def microLoad (w : MicroWord) : Bool := w.getLsbD 53
/-- MCT[4:0]. -/
def microMct (w : MicroWord) : BitVec 5 := w.extractLsb' 48 5
/-- TRP. -/
def microTrp (w : MicroWord) : BitVec 6 := w.extractLsb' 28 6
/-- TRP[5], CONSUME. -/
def microConsume (w : MicroWord) : Bool := w.getLsbD 33
/-- TRP[4:0], the trap code. -/
def microTrap (w : MicroWord) : BitVec 5 := w.extractLsb' 28 5
/-- RSV. -/
def microRsv (w : MicroWord) : BitVec 24 := w.extractLsb' 0 24

/-- A bit vector has an odd number of ones. -/
def oddOnes {w : Nat} (v : BitVec w) : Bool := (List.range w).foldl (fun p k => p != v.getLsbD k) false

/-- PAR holds: even parity over [141:72] and over [71:0]. -/
def microParity (w : MicroWord) : Bool :=
  w.getLsbD 143 == oddOnes (w.extractLsb' 72 70 : BitVec 70) && w.getLsbD 142 == oddOnes (w.extractLsb' 0 72 : BitVec 72)

/-- The SEQ, CND and MCT values that R321 to R323 allow (log entry 46). -/
def microAllowed (w : MicroWord) : Bool :=
  (microCnd w).toNat < 48 && (microSeq w != 7 || 16 ≤ (microCnd w).toNat) && (microLoad w || microMct w == 0)

/-- Check 7 of Table MCS.6 for one microword. -/
def microOk (w : MicroWord) : Bool := microRsv w == 0 && microParity w && microAllowed w

/-! ## A fetch (R317, R328) -/

/-- The address whose word a fetch at `u` reads: the remap table replaces a ROM address that matches an active FROM. -/
def State.microAddr (s : State) (u : BitVec 12) : BitVec 12 :=
  if u.toNat < 0xC00 then (Assoc.lookup (s.mcs.remap.map fun e => (e.1.toNat, e.2)) u.toNat).getD u else u

/-- The word at an address: ROM below 0xC00, patch RAM from there on. -/
def State.microWord (s : State) (a : BitVec 12) : MicroWord :=
  if a.toNat < 0xC00 then Config.microRom a.toNat else Tab.get microDflt s.mcs.ram a.toNat

/-! ## Sequencing (Tables MCS.3 and MCS.4) -/

/-- How a micro-routine ends. -/
inductive MicroEnd where
  /-- Its END word: the instruction or entry has its effect, where no word of patch RAM has run in the routine. -/
  | ended (patched : Bool)
  /-- It has not ended within 4,096 words, and goes on. -/
  | waiting
  /-- A CALL onto 2 held addresses, or a RETURN with none. -/
  | fault
  /-- A PAR mismatch at the sequencer latch, which each retry meets again. -/
  | parity
  /-- The word read is uncorrectable. -/
  | uncorrectable (a : Nat)
  /-- A word with TRP not 0. -/
  | trap (consume : Bool) (code : Nat)
  deriving DecidableEq, Repr

/-- A condition of Table MCS.4. Only 0 and 1 are fixed by the word: the others are free values (log entries 7 and 53). -/
def State.microHolds (s : State) (w : MicroWord) : Bool × State :=
  match (microCnd w).toNat with
  | 0 => (false, s)
  | 1 => (true, s)
  | _ => (Config.freeChoice s.draws, { s with draws := s.draws + 1 })

/-- The micro-counter after MCT: LOAD takes MCT[4:0], or KON[5:0] where that is 0 (R323). -/
def microCount (w : MicroWord) (old : BitVec 6) : BitVec 6 :=
  if !microLoad w then old else if microMct w = 0 then (microKon w).setWidth 6 else (microMct w).setWidth 6

/-- The sequencer after a word at `m.u` with no trap request, under the condition's outcome; or how the routine ends there. The
counter is loaded before COUNT reads it (R321, R322, R323). -/
def MicroSeq.next (m : MicroSeq) (w : MicroWord) (holds : Bool) : MicroSeq × Option MicroEnd :=
  let m := { m with count := microCount w m.count }
  let inc := { m with u := m.u + 1 }
  let go := { m with u := microNxt w }
  match (microSeq w).toNat with
  | 0 => (inc, none)
  | 1 => (go, none)
  | 2 => (if holds then go else inc, none)
  | 3 => (if m.count = 0 then inc else { go with count := m.count - 1 }, none)
  | 4 => if 2 ≤ m.stack.length then (m, some .fault) else ({ go with stack := (m.u + 1) :: m.stack }, none)
  | 5 => match m.stack with
    | [] => (m, some .fault)
    | r :: t => ({ m with u := r, stack := t }, none)
  | 6 => (m, some (.ended m.patched))
  | _ => (if holds then m else inc, none)

/-- The sequencer of an engine. -/
def State.putMicro (s : State) (p : Nat) (m : MicroSeq) : State := s.modEng p fun e => { e with micro := m }

/-- The context of the routine under way. -/
def MicroSeq.owner (m : MicroSeq) : Nat :=
  match m.busy with
  | some r => r.1
  | none => 0

/-- One word of a routine of engine `p`. A remapped word stands at its own address (R328, log entry 53). The working registers, the
sub-code register among them, hold free values: the words that write them have no codes in the manual. -/
def State.microStep (s : State) (p : Nat) : State × Option MicroEnd :=
  let m := (s.eng p).micro
  let a := s.microAddr m.u
  let w := s.microWord a
  if s.mcs.bad.contains (standOf p, a.toNat) then (s, some (.uncorrectable a.toNat))
  else if !microParity w then (s, some .parity)
  else
    let q := s.drawWord
    let m := { m with u := a, work := q.1, patched := m.patched || decide (0xC00 ≤ a.toNat)
                      bank := microBank (s.ctx p m.owner) w }
    if microTrp w ≠ 0 then
      let q := q.2.drawWord
      (q.2.putMicro p { m with count := microCount w m.count, sub := q.1.setWidth 8 },
        some (.trap (microConsume w) (microTrap w).toNat))
    else
      let c := q.2.microHolds w
      let n := m.next w c.1
      (c.2.putMicro p n.1, n.2)

/-- Up to `fuel` words. -/
def State.microRun : (fuel : Nat) → State → Nat → MicroEnd × State
  | 0, s, _ => (.waiting, s)
  | f + 1, s, p =>
    match s.microStep p with
    | (t, some e) => (e, t)
    | (t, none) => t.microRun f p

/-- A micro-routine of context `c` of engine `p`. The ROM's own routine carries out its instruction or entry (R319): with no remap
entry active it ends, unless the word at its entry address is marked uncorrectable (R327). Otherwise the routine runs from its entry
address, word by word, with an empty return stack (log entry 53). One that has not ended goes on where it stands when its
instruction or entry is issued again: nothing is taken within it (R324). -/
def State.microRoutine (s : State) (p c : Nat) (r : Routine) : MicroEnd × State :=
  let m := (s.eng p).micro
  if s.mcs.remap.isEmpty && m.busy.isNone then
    if s.mcs.bad.contains (standOf p, r.entry.toNat) then (.uncorrectable r.entry.toNat, s) else (.ended false, s)
  else
    let m := if m.busy = some (c, r.number) then m
      else { m with u := r.entry, stack := [], patched := false, busy := some (c, r.number) }
    let q := (s.putMicro p m).microRun 4096 p
    match q.1 with
    | .waiting => q
    | e => (e, q.2.modEng p fun e => { e with micro := { e.micro with busy := none } })

/-- A microword that an engine read was corrected (R327). -/
def State.microCorrected (s : State) : State := { s with mcs := { s.mcs with ce := satInc s.mcs.ce } }

end Sys2Proof.Machine
end

