-- ==== Sys2Proof/Machine/Crc.lean ====
section
/-!
DEFINITION. The checksums the manual names: CRC-32C (R88, R401), CRC-32 and Adler-32 (the RFC 1952 and RFC 1950
trailers). Sources: RFC 3720 for the CRC-32C polynomial, RFC 1952 and RFC 1950; the manual names the checksums only
(log entry 8).
-/

namespace Sys2Proof.Machine

/-- One bit of a reflected 32-bit CRC with polynomial `poly`. -/
def crcBit (poly c : BitVec 32) : BitVec 32 := if c.getLsbD 0 then (c >>> 1) ^^^ poly else c >>> 1

/-- One octet of a reflected 32-bit CRC. -/
def crcOctet (poly c : BitVec 32) (o : Octet) : BitVec 32 :=
  (List.range 8).foldl (fun x _ => crcBit poly x) (c ^^^ o.setWidth 32)

/-- A reflected 32-bit CRC, initial value and final inversion all ones. -/
def crcOf (poly : BitVec 32) (l : List Octet) : BitVec 32 := ~~~(l.foldl (crcOctet poly) 0xFFFFFFFF)

/-- A reflected CRC-32 continued from the value it had. -/
def crcFrom (poly c : BitVec 32) (l : List Octet) : BitVec 32 := ~~~(l.foldl (crcOctet poly) (~~~c))

/-- CRC-32C. -/
def crc32c (l : List Octet) : BitVec 32 := crcOf 0x82F63B78 l

/-- The CRC-32 of RFC 1952. -/
def crc32 (l : List Octet) : BitVec 32 := crcOf 0xEDB88320 l

/-- The CRC-32 of RFC 1952 continued. -/
def crc32From (c : BitVec 32) (l : List Octet) : BitVec 32 := crcFrom 0xEDB88320 c l

/-- Adler-32 (RFC 1950) continued from the value it had; a stream begins with 1. -/
def adlerFrom (c : BitVec 32) (l : List Octet) : BitVec 32 :=
  let p := l.foldl (fun (p : Nat × Nat) o => let a := (p.1 + o.toNat) % 65521; (a, (p.2 + a) % 65521))
    (c.toNat % 65536, c.toNat / 65536)
  BitVec.ofNat 32 (65536 * p.2 + p.1)

end Sys2Proof.Machine
end

