-- ==== Sys2Proof/Machine/Events.lean ====
section
/-!
DEFINITION. The event controller (R362 to R376): arrivals, routing, delivery, withdrawal, and what a keeper sees.
-/

namespace Sys2Proof.Machine

/-- The keeper's current level (R371). -/
def Engine.level (e : Engine) : Nat := e.pstack.headD 0

/-- Logical engine `e` is among the targets of source `n` (R365). -/
def State.targets (s : State) (n e : Nat) : Bool :=
  let c := s.src n
  if 256 ≤ n ∧ n ≤ 527 ∧ c.own then s.logicalOf (n - 256) == some e
  else (Tab.get setDflt s.evc.sets (8 * c.tset.toNat + e / 32)).getLsbD (e % 32)

/-- The keeper of physical engine `p` is awake (R366). -/
def State.awake (s : State) (p : Nat) : Bool :=
  (s.ctx p 0).state != .sleeping && !(s.eng p).halted && !(s.eng p).checking

/-- Logical engine `e` is an enabled target of source `n` (R366). -/
def State.enabledTarget (s : State) (n e : Nat) : Bool :=
  s.targets n e && s.inService e && (s.eng (s.physOf e)).ie

/-- A context leaves SLEEP (R187), or once it is resumed when it is HALTED (R453). -/
def Ctx.awaken (x : Ctx) : Ctx :=
  if x.state = .sleeping then { x with state := .ready, wake := none }
  else if x.state = .halted ∧ x.haltedFrom = .sleeping then { x with haltedFrom := .ready, wake := none }
  else x

/-- The keeper of physical engine `p` leaves SLEEP (R187); what its waking allows follows in `State.wakeKeeper`. -/
def State.rouse (s : State) (p : Nat) : State := s.modCtx p 0 Ctx.awaken

/-- The engines in the order of R367, step 1: after the one that last received the source. -/
def searchOrder (last : Nat) : List Nat := (List.range 256).map fun k => (last + 1 + k) % 256

/-- Source `n` is delivered where R367 allows it. -/
def State.deliver (s : State) (n : Nat) : State :=
  let c := s.src n
  if !c.pend || c.sig || c.prio == 0 then s else
  let order := searchOrder c.engine.toNat
  match order.find? (fun e => s.enabledTarget n e && s.awake (s.physOf e)) with
  | some e => s.putSrc n { c with sig := true, engine := BitVec.ofNat 8 e }
  | none =>
    if !c.wakeEn then s else
    match order.find? (fun e => s.enabledTarget n e && (s.ctx (s.physOf e) 0).state == .sleeping) with
    | some e => (s.putSrc n { c with sig := true, engine := BitVec.ofNat 8 e }).rouse (s.physOf e)
    | none => s

/-- Every source that waits is delivered again where R367 now allows it. The second pass serves sources that a keeper
woken in the first one allows. -/
def State.redeliver (s : State) : State :=
  let pass := fun (t : State) => (t.evc.srcs.map (·.1)).foldl State.deliver t
  pass (pass s)

/-- The keeper of physical engine `p` leaves SLEEP, and the sources that waited for an awake target are delivered again
(R187, R367). -/
def State.wakeKeeper (s : State) (p : Nat) : State :=
  if (s.ctx p 0).state = .sleeping then (s.rouse p).redeliver else s.rouse p

/-- Source `n` is delivered; a keeper that this wakes is awake for the other waiting sources (R367). -/
def State.offer (s : State) (n : Nat) : State :=
  let t := s.deliver n
  let e := (t.src n).engine.toNat
  if !(s.src n).sig && (t.src n).sig && (s.ctx (s.physOf e) 0).state == .sleeping then t.redeliver else t

/-- One arrival at source `n` (R363). -/
def State.arrive (s : State) (n : Nat) : State :=
  let c := s.src n
  let s := if c.count == 255 then
      { s with evc := { s.evc with sat := satInc s.evc.sat } }.putSrc n { c with pend := true }
    else s.putSrc n { c with count := c.count + 1, pend := true }
  s.offer n

/-- The sources signalled to logical engine `e`. -/
def State.signalledTo (s : State) (e : Nat) : List Nat :=
  (s.evc.srcs.filter fun x => x.2.sig && x.2.engine.toNat == e).map (·.1)

/-- The sources signalled to the keeper of physical engine `p`. -/
def State.signalled (s : State) (p : Nat) : List Nat :=
  match s.logicalOf p with
  | none => []
  | some e => s.signalledTo e

/-- Signalled sources are withdrawn (R368). -/
def State.withdraw (s : State) (ns : List Nat) : State :=
  ns.foldl (fun t n => t.putSrc n { t.src n with sig := false }) s

/-- Sources are withdrawn and delivered again (R368). -/
def State.reroute (s : State) (ns : List Nat) : State := (s.withdraw ns).redeliver

/-- The highest priority among the sources signalled to the keeper of physical engine `p`, 0 for none (R371). -/
def State.irqLevel (s : State) (p : Nat) : Nat :=
  (s.signalled p).foldl (fun m n => max m (s.src n).prio.toNat) 0

/-- An interrupt entry is due at the keeper of physical engine `p` (R371). -/
def State.irqDue (s : State) (p : Nat) : Bool :=
  (s.eng p).ie && (s.eng p).level < s.irqLevel p

/-- The keeper has an interrupt, an event or a delivered trap pending (R152, R187, R374). -/
def State.keeperPending (s : State) (p : Nat) : Bool :=
  s.irqDue p || (s.eng p).disp != 0 || !(s.eng p).delivered.isEmpty

/-- Word `g` of the keeper's view (R370). -/
def State.pendGroup (s : State) (p g : Nat) : Word :=
  (s.signalled p).foldl (fun w n => if n / 32 = g then w ||| ((1 : Word) <<< (n % 32)) else w) 0

/-- EVT_LEVEL (Table EVC.3). -/
def Engine.levelWord (e : Engine) : Word := BitVec.ofNat 36 (e.level + 16 * e.pstack.length)

/-- The word that PENDQ g returns (R370). -/
def State.pendWord (s : State) (p g : Nat) : Word :=
  if g < 32 then s.pendGroup p g
  else if g = 32 then
    (List.range 32).foldl (fun w k => if s.pendGroup p k != 0 then w ||| ((1 : Word) <<< k) else w) 0
  else if g = 33 then (s.eng p).levelWord
  else 0

/-- CLAIM of source `n` (R369): its arrival counter, and the state with the source cleared. -/
def State.claimSrc (s : State) (n : Nat) : Nat × State :=
  let c := s.src n
  if !c.pend then (0, s) else (c.count.toNat, s.putSrc n { c with count := 0, pend := false, sig := false })

/-- The keeper leaves the events it must leave at a restart (Table EVC.3, last sentence). -/
def State.clearKeeperEvents (s : State) (p : Nat) : State :=
  let ns := s.signalled p
  (s.modEng p fun e => { e with ie := false, pstack := [], disp := 0 }).reroute ns

/-- A physical engine's keeper IE bit is written (R366, R368). -/
def State.setIe (s : State) (p : Nat) (ie : Bool) : State :=
  let ns := s.signalled p
  let t := s.modEng p fun e => { e with ie := ie }
  if ie then t.redeliver else t.reroute ns

/-- Context `c` of engine `p` becomes ASSIGNED: the local event of R374. -/
def State.dispatchEvent (s : State) (p c : Nat) : State :=
  (s.modEng p fun e => { e with disp := e.disp ||| ((1 : BitVec 8) <<< c) }).wakeKeeper p

/-! ## Blaze trace -/

/-- An entry joins the trace buffer (R460): with WRAP 0 a full buffer stops and source 710 fires. -/
def State.pushTrace (s : State) (e : BitVec 128) : State :=
  let d := s.dbg
  if d.trace.length < 2048 then
    let s := { s with dbg := { d with trace := d.trace ++ [e] } }
    if d.trace.length + 1 = 2048 ∧ !d.trcWrap then s.arrive 710 else s
  else if d.trcWrap then { s with dbg := { d with trace := d.trace.drop 1 ++ [e] } }
  else { s with dbg := { d with trcDrop := satInc d.trcDrop } }

/-- A blaze of kind `k` from a context (Table DBG.7). -/
def State.blaze (s : State) (p c k : Nat) (pc : SAddr) (info : Nat) : State :=
  let d := s.dbg
  let l := s.logicalNum p
  if d.trcEn && d.attached && d.scope == 1 && d.trcKinds.getLsbD (k - 1) && (d.trcAll || d.trcEngine.toNat == l) then
    s.pushTrace (BitVec.ofNat 128 (k * 2 ^ 124 + l * 2 ^ 116 + c * 2 ^ 113 + pc.toNat * 2 ^ 87 + s.now % 2 ^ 48 * 2 ^ 39 +
      info % 2 ^ 39))
  else s

end Sys2Proof.Machine
end

