-- ==== Sys2Proof/Machine/Host.lean ====
section
/-!
DEFINITION. The host ports (R49 to R62): steering, credits, tags, and requests that wait for them.
-/

namespace Sys2Proof.Machine

/-- The code of a request type (Table HST.1). -/
def ReqType.code : ReqType → BitVec 3
  | .read => 0
  | .write => 1
  | .writeFull => 2
  | .atomicOr => 3
  | .msg => 4

/-- Hn_RQ_ATTR (Table HST.2). -/
def HostReq.attr (r : HostReq) : BitVec 6 :=
  BitVec.ofNat 6 (r.space.toNat + 4 * bit (r.typ == .msg) + 8 * bit r.relaxed)

/-- The parity of address bits [47:12] is odd. -/
def oddParity (a : HAddr) : Bool := (List.range 36).foldl (fun p k => p != a.getLsbD (12 + k)) false

/-- The port the steering rule names (R57). -/
def State.steered (s : State) (r : HostReq) : Nat :=
  if s.steer == 0 then bit (oddParity r.addr) else if s.steer == 1 then 0 else bit (r.inst.getLsbD 0)

/-- A port takes new requests (R55, R56). -/
def Port.takes (p : Port) : Bool := p.en && p.up

/-- The port a new request goes to, if one is UP (R57). -/
def State.portFor (s : State) (r : HostReq) : Option Nat :=
  let n := s.steered r
  if (s.port n).takes then some n else if (s.port (1 - n)).takes then some (1 - n) else none

/-- A tag that counts as held by the requester (R59, R62): not after its answer, and not after a timeout. -/
def TagUse.held (u : TagUse) : Bool :=
  match u.st with
  | .outstanding => true
  | .retryWait _ => true
  | .squashed => true
  | _ => false

/-- Tags that user `i` holds on a port (R391). -/
def Port.heldBy (p : Port) (i : BitVec 8) : Nat :=
  (p.tags.filter fun u => u.2.held && !u.2.req.mgr && u.2.req.inst == i).length

/-- The tags kept after a timeout (TAGLOST, R62). -/
def Port.lost (p : Port) : Nat := (p.tags.filter fun u => u.2.st == .lost).length

/-- The tag share of user `i` on port `n` in force (Table PTN.2). -/
def State.tagShare (s : State) (i : BitVec 8) (n : Nat) : Nat :=
  min 7936 ((((s.inst i.toNat).share 2).cur.extractLsb' (16 * n) 14).toNat)

/-- The first tag of a pool that is not in use: 0 to 7,935 for users, 7,936 to 8,191 for the manager pool (R59; which
tags form the pool: log entry 11). -/
def Port.freeTag (p : Port) (mgr : Bool) : Option Nat :=
  if mgr then Assoc.freeKey p.tags 256 7936 else Assoc.freeKey p.tags 7936 0

/-- A write that a fence stops (R38, R415). -/
def Purpose.fenced : Purpose → Bool
  | .releaseLine _ => true
  | .completion _ => true
  | .dirty .. => true
  | .message .. => true
  | _ => false

/-- The complex must not issue the writes of R38. -/
def State.fenceWanted (s : State) : Bool :=
  s.mir.selfFenced || s.chk.fatal != 0 || s.life.changed || s.life.porst || s.life.sysrst || s.life.power != .run ||
    s.life.waitLink || s.life.entryFenced || s.life.stopped || s.life.phase != 8 ||
    (match s.life.shut with
      | .clear => true
      | .selfTest => true
      | .done => true
      | _ => false)

/-- The clock of a host port is missing: what waits on the port stays waiting (R25). -/
def State.portStill (s : State) (n : Nat) : Bool := s.life.noClock.contains (if n = 0 then .hclk0 else .hclk1)

/-- A beat of a port shows that its clock runs again (log entry 39). -/
def State.clockBack (s : State) (c : ClockId) : State := { s with life := { s.life with noClock := s.life.noClock.filter (· != c) } }

/-- As `clockBack`, for the clock of host port `n`. -/
def State.portBack (s : State) (n : Nat) : State := s.clockBack (if n = 0 then .hclk0 else .hclk1)

/-- One waiting request goes out if a port, a credit and a tag allow it. Its limit of R62 is the value of HPI_Hn_TMO at its issue (log
entry 92). -/
def State.tryIssue (s : State) (r : HostReq) : Option State :=
  if r.purpose.fenced && s.fenceWanted then none else
  match s.portFor r with
  | none => none
  | some n =>
    let p := s.port n
    if p.credits = 0 ∨ s.portStill n then none
    else if !r.mgr && s.tagShare r.inst n ≤ p.heldBy r.inst then none
    else match p.freeTag r.mgr with
      | none => none
      | some t =>
        let u : TagUse := { req := r, due := s.now + max 1000 p.tmo.toNat }
        some ((s.putPort n { p with credits := p.credits - 1, tags := Assoc.insert p.tags t u }).emit
          (.host (n == 1) t r.typ.code r.addr r.inst r.attr r.oen r.data))

/-- An earlier message of the same vector still waits: the messages of a vector leave in order (R380). -/
def State.behind (s : State) (r : HostReq) : Bool :=
  match r.purpose with
  | .message v _ => s.hostWait.any fun q => match q.purpose with
    | .message u _ => u == v
    | _ => false
  | _ => false

/-- Waiting requests go out in their order, as far as ports, credits and tags allow (R54, R57, R59, R380). -/
def State.pumpList (s : State) : List HostReq → State
  | [] => s
  | r :: t =>
    match if s.behind r then none else s.tryIssue r with
    | some s' => s'.pumpList t
    | none => { s with hostWait := s.hostWait ++ [r] }.pumpList t

/-- Every waiting request is tried, oldest first. -/
def State.pump (s : State) : State := { s with hostWait := [] }.pumpList s.hostWait

/-- A request falls due. -/
def State.send (s : State) (r : HostReq) : State := { s with hostWait := s.hostWait ++ [r] }.pump

/-- A whole-line READ (R49, R50). Its data field, which Table HST.1 leaves undefined, is 0 here (log entry 92). -/
def readReq (addr : HAddr) (inst : BitVec 8) (space : BitVec 2) (p : Purpose) : HostReq :=
  { typ := .read, addr := addr &&& ~~~0x3F#64, inst := inst, space := space, relaxed := space == 0, oen := BitVec.allOnes 64,
    data := 0, purpose := p, mgr := space == 2 }

/-- A host line write of (octet, value) pairs: WRITE_FULL when all 64 are there, WRITE otherwise (R49, R103). -/
def writeReq (addr : HAddr) (inst : BitVec 8) (space : BitVec 2) (o : List (Nat × Octet)) (p : Purpose) : HostReq :=
  let e := oenOf o
  { typ := if e == BitVec.allOnes 64 then .writeFull else .write, addr := addr &&& ~~~0x3F#64, inst := inst, space := space,
    oen := e, data := lineOf o, purpose := p, mgr := space == 2 }

/-- The writes a fence waits for that have not been answered or timed out (R38). One that was answered RETRY is no longer in the
fabric, and it is not issued again while the fence stands (log entry 93). -/
def State.fencePending (s : State) : Bool :=
  [0, 1].any fun n => (s.port n).tags.any fun u => u.2.req.purpose.fenced && u.2.st == .outstanding

/-- PAIR_FENCED follows the fence (R38): it rises once the writes have stopped and ended, and it falls before the first
write after the fence. -/
def State.settleFence (s : State) : State :=
  if s.fenceWanted then
    if s.fencePending then s else { s with aon := { s.aon with fenced := true } }
  else ({ s with aon := { s.aon with fenced := false } }).pump

/-- A port whose EN is 0 is DOWN once nothing on it awaits an answer (R56). -/
def State.settlePort (s : State) (n : Nat) : State :=
  let p := s.port n
  if !p.en && p.up && p.tags.all (fun u => !u.2.held) then
    (s.putPort n { p with up := false }).arrive (561 + 16 * n)
  else s

/-- A port becomes UP (R55). -/
def State.portUp (s : State) (n : Nat) : State :=
  ((s.putPort n { s.port n with up := true }).arrive (560 + 16 * n)).pump

/-- A counter of Table HST.9 counts, and the attention cause of R66 follows with its source, except for SQDROP and NTCOAL and for a
port that is out of use (R55, R66). -/
def State.hostCount (s : State) (n k : Nat) : State :=
  let p := s.port n
  let c := Tab.get countDflt p.counts k
  let s := s.putPort n { p with counts := Tab.put p.counts k (satInc c) }
  if k = 3 ∨ k = 12 ∨ !p.en then s else (s.attn 0).arrive (562 + 16 * n)

/-! ## Requests that are given up (R234, Table PTN.5) -/

/-- A tag whose request is no longer wanted. Under SQUASH one that waits for its reissue is not sent again: its tag is quarantined at
once (log entry 128: DESIGN CHOICE). -/
def TagUse.drop (u : TagUse) (squash : Bool) : TagUse :=
  let st := if squash then (if u.st = .outstanding then TagState.squashed else .quarantined) else u.st
  { u with st := st, req := { u.req with purpose := .dropped } }

/-- The requests of some purposes are no longer wanted, on both ports: those not yet issued vanish, and the answers of the others are
dropped. -/
def State.dropReads (s : State) (f : Purpose → Bool) (squash : Bool) : State :=
  let s := { s with hostWait := s.hostWait.filter fun r => !f r.purpose }
  [0, 1].foldl (fun t n =>
    let p := t.port n
    t.putPort n { p with tags := p.tags.map fun u =>
      (u.1, if f u.2.req.purpose && u.2.held then u.2.drop squash else u.2) }) s

end Sys2Proof.Machine
end

