-- ==== Sys2Proof/Machine/Rings.lean ====
section
/-!
DEFINITION. Host interrupt messages (R377 to R380), dirty-page bits (R67, R68), and the record rings (R440 to R442,
R493).
-/

namespace Sys2Proof.Machine

/-! ## Messages -/

/-- Vector `v` of a user (R377). -/
def Inst.vec (x : Inst) (v : Nat) : Vec := Tab.get (fun _ => {}) x.vecs v

/-- The MSG write of vector `v` of user `i` (R51, R377, R380). -/
def State.sendMsg (s : State) (i v : Nat) (rid : Option Nat := none) : State :=
  let x := (s.inst i).vec v
  s.send { typ := .msg, addr := x.addr &&& ~~~3#64, inst := BitVec.ofNat 8 i, space := 1, oen := 0xF,
           data := putNum 0 4 x.data.toNat, purpose := .message (8 * i + v) rid }

/-- A message not sent because VALID is 0 (R378). -/
def State.dropMsg (s : State) : State := { s with evc := { s.evc with msgDrop := satInc s.evc.msgDrop } }

/-- A message falls due on vector `v` of user `i` (R378), for the mirror entry whose RETIRE follows it where there is one. -/
def State.messageDue (s : State) (i v : Nat) (rid : Option Nat := none) : State :=
  let x := s.inst i
  if !(x.vec v).valid then s.dropMsg
  else if x.mask.getLsbD v then s.putInst i { x with pend := x.pend ||| ((1 : BitVec 8) <<< v) }
  else s.sendMsg i v rid

/-! ## Dirty-page bits -/

/-- The bitmap line, octet and value of the bit for host address `a`, inside the logged window (R68). -/
def DirtyLog.bit (d : DirtyLog) (a : HAddr) : Option (HAddr × Nat × Octet) :=
  if a.toNat < d.low.toNat ∨ d.low.toNat + 4096 * d.pages.toNat ≤ a.toNat then none
  else
    let i := (a.toNat - d.low.toNat) / 4096
    some (d.base + BitVec.ofNat 64 (64 * (i / 512)), i / 8 % 64, BitVec.ofNat 8 (2 ^ (i % 8)))

/-- A write outside the logged window counts (R67). -/
def State.unlogged (s : State) (i : Nat) : State :=
  s.modInst i fun x => { x with dl := { x.dl with unlogged := satInc x.dl.unlogged } }

/-- The ATOMIC_OR of one bitmap line (R68). -/
def orReq (i : Nat) (line : HAddr) (o : List (Nat × Octet)) (p : Purpose) : HostReq :=
  { typ := .atomicOr, addr := line, inst := BitVec.ofNat 8 i, space := 2, oen := oenOf o, data := lineOf o, purpose := p,
    mgr := true }

/-! ## Rings -/

/-- The register set of a ring. -/
def State.ring (s : State) : RingId → Ring
  | .global => s.chk.ger
  | .telemetry => s.chk.tel
  | .inst i => (s.inst i.toNat).errRing

/-- The state with a ring replaced. -/
def State.putRing (s : State) (r : RingId) (x : Ring) : State :=
  match r with
  | .global => { s with chk := { s.chk with ger := x } }
  | .telemetry => { s with chk := { s.chk with tel := x } }
  | .inst i => s.modInst i.toNat fun y => { y with errRing := x }

/-- L as it acts (Table CHK.9). -/
def Ring.log2 (x : Ring) : Nat := if 6 ≤ x.l.toNat ∧ x.l.toNat ≤ 16 then x.l.toNat else 6

/-- The user number and the space of a ring's requests (R440). -/
def ringInst : RingId → BitVec 8
  | .inst i => i
  | _ => 0

/-- RING for a user's ring, MGR for the others. -/
def ringSpace : RingId → BitVec 2
  | .inst _ => 1
  | _ => 2

/-- Room for one more position (R440). -/
def Ring.room (x : Ring) : Bool := (x.tail - x.head).toNat < 2 ^ x.log2

/-- The host address of position `p` (R440). -/
def Ring.slotAddr (x : Ring) (p : BitVec 32) : HAddr := x.base + BitVec.ofNat 64 (64 * (p.toNat % 2 ^ x.log2))

/-- The 64 octets of a record at position `p`: PHASE and position filled in (Table CHK.5). -/
def Ring.line (x : Ring) (r : RingRec) (p : BitVec 32) : Line :=
  r.body ||| putNum 1 1 (1 - bit (p.getLsbD x.log2)) ||| putNum 4 4 p.toNat

/-- All octets of a line. -/
def allOctets (l : Line) : List (Nat × Octet) := (List.range 64).map fun i => (i, lineOctet l i)

/-- The write of the record at position `p`. -/
def Ring.writeOf (x : Ring) (id : RingId) (r : RingRec) (p : BitVec 32) : HostReq :=
  { typ := .writeFull, addr := x.slotAddr p, inst := ringInst id, space := ringSpace id, oen := BitVec.allOnes 64,
    data := x.line r p, purpose := .record id p r.job, mgr := ringSpace id == 2 }

/-- A record is lost: DROP counts it, and the attention cause DROP follows for an error record (R440). -/
def State.dropRecord (s : State) (id : RingId) : State :=
  let x := s.ring id
  let s := s.putRing id { x with drop := satInc x.drop }
  if id = .telemetry then s else s.attn 5

/-- The record at position `p` goes out: its dirty bit first where one is due, else its write (R67, R68). -/
def State.launch (s : State) (id : RingId) (r : RingRec) (p : BitVec 32) : RecStage × State :=
  let x := s.ring id
  match id with
  | .inst i =>
    let d := (s.inst i.toNat).dl
    if !d.en then (.writing, s.send (x.writeOf id r p))
    else match d.bit (x.slotAddr p) with
      | none => (.writing, (s.unlogged i.toNat).send (x.writeOf id r p))
      | some (line, o, b) => (.dirty, s.send (orReq i.toNat line [(o, b)] (.dirty i.toNat none (some (id, p)))))
  | _ => (.writing, s.send (x.writeOf id r p))

/-- The records that wait take positions while there is room, oldest first (R440, R441). -/
def State.flushList (s : State) (id : RingId) : List RingRec → List RingRec × State
  | [] => ([], s)
  | r :: t =>
    let x := s.ring id
    if r.stage = .waiting ∧ r.pos = none ∧ x.en ∧ !x.starting ∧ x.room then
      let p := x.tail
      let s := s.putRing id { x with tail := x.tail + 1 }
      let q := s.launch id r p
      let u := q.2.flushList id t
      ({ r with pos := some p, stage := q.1 } :: u.1, u.2)
    else
      let u := s.flushList id t
      (r :: u.1, u.2)

/-- As `flushList`, over the ring's own line. -/
def State.flushRing (s : State) (id : RingId) : State :=
  let q := s.flushList id (s.ring id).wait
  q.2.putRing id { q.2.ring id with wait := q.1 }

/-- A record of the line still waits for room. -/
def Ring.starved (x : Ring) : Bool := x.wait.any fun r => r.stage == .waiting

/-- The control line is read again, at most once per µs (R440). -/
def State.readControl (s : State) (id : RingId) (why : CtlWhy) : State :=
  let x := s.ring id
  if x.ctlOut then s else
  (s.putRing id { x with ctlOut := true, ctlAt := some s.now }).send
    { readReq x.cline (ringInst id) (ringSpace id) (.ringLine id why) with mgr := ringSpace id == 2 }

/-- A record falls due at a ring (R440, R441). -/
def State.toRing (s : State) (id : RingId) (body : Line) (job : Option Nat) : State :=
  let x := s.ring id
  if !x.en ∧ job = none then s.dropRecord id else
  let s := (s.putRing id { x with wait := x.wait ++ [{ body := body, job := job }] }).flushRing id
  let x := s.ring id
  if x.starved && x.en && !x.starting && (x.ctlAt.all fun t => t + 100 ≤ s.now) then s.readControl id .full else s

/-- The octets of a record that do not depend on the ring (Table CHK.5). `place` is stand, logical engine, context. -/
def recordBody (now typ sev : Nat) (inst : Option (BitVec 8)) (place : Nat × Nat × Nat) (code addr : Nat) (detail : Line) :
    Line :=
  putNum 0 1 typ ||| putNum 1 1 (2 * bit inst.isSome) ||| putNum 2 1 sev ||| putNum 3 1 ((inst.getD 0).toNat) |||
    putNum 8 8 now ||| putNum 16 1 place.1 ||| putNum 17 1 place.2.1 ||| putNum 18 1 place.2.2 |||
    putNum 20 4 code ||| putNum 24 8 addr ||| detail

/-- No stand, engine or context applies (Table CHK.5). -/
def noPlace : Nat × Nat × Nat := (0xFF, 0xFF, 0xFF)

/-- A record of a type that goes to the global ring only (Table CHK.6). -/
def State.recordGlobal (s : State) (typ sev : Nat) (inst : Option (BitVec 8)) (place : Nat × Nat × Nat) (code addr : Nat)
    (detail : Line := 0) : State :=
  s.toRing .global (recordBody s.now typ sev inst place code addr detail) none

/-- A record of a type that goes to the global ring and to the ring of the user it names (R442). -/
def State.recordBoth (s : State) (typ sev : Nat) (inst : Option (BitVec 8)) (place : Nat × Nat × Nat) (code addr : Nat)
    (detail : Line := 0) : State :=
  let b := recordBody s.now typ sev inst place code addr detail
  let s := s.toRing .global b none
  match inst with
  | none => s
  | some i => s.toRing (.inst i) b none

/-- A trace entry of a telemetry record: KIND 0xF (Table DBG.7). -/
def ofTelemetry (e : BitVec 128) : Bool := e.extractLsb' 124 4 == 0xF

/-- The first `n` entries of KIND 0xF leave the trace buffer. -/
def dropTelemetry : (n : Nat) → List (BitVec 128) → List (BitVec 128)
  | _, [] => []
  | n, e :: t => if ofTelemetry e then (if n = 0 then e :: t else dropTelemetry (n - 1) t) else e :: dropTelemetry n t

/-- Telemetry records leave the trace buffer, oldest first, once their ring has written or lost them (R442, log entry 96). -/
def State.passTelemetry (s : State) : State :=
  let held := (s.dbg.trace.filter ofTelemetry).length
  let due := 4 * s.chk.tel.wait.length
  if held ≤ due then s else { s with dbg := { s.dbg with trace := dropTelemetry (held - due) s.dbg.trace } }

/-- A telemetry record: it occupies 4 entries of KIND 0xF of the trace buffer on its way to the ring, in place of the oldest entries of a
full one (R442, R460); a debugger's claim on the buffer drops it (Table CHK.7). -/
def State.telemetry (s : State) (typ : Nat) (place : Nat × Nat × Nat) (addr : Nat) (values : List Nat) : State :=
  if s.dbg.attached then { s with chk := { s.chk with tdrop := satInc s.chk.tdrop } }
  else
    let r := recordBody s.now typ 0 none place 0 addr ((Config.telemetryDetail typ values).setWidth 512 <<< 256)
    let trace := s.dbg.trace ++ (List.range 4).map fun k => (0xF : BitVec 4) ++ Config.traceEntry r k
    let s := { s with dbg := { s.dbg with trace := trace.drop (trace.length - 2048) } }
    (s.toRing .telemetry r none).passTelemetry

/-- The row of Table HST.5 for a purpose, from 1; 0 where no row names it (log entry 12). -/
def Purpose.row : Purpose → Nat
  | .xfer .. => 1
  | .pgmTable _ => 1
  | .image .. => 1
  | .signature .. => 1
  | .publicKey .. => 1
  | .regions .. => 1
  | .chanTable _ => 2
  | .doorbell .. => 3
  | .descriptor .. => 3
  | .scanSlot .. => 3
  | .releaseLine _ => 4
  | .completion _ => 5
  | .dirty .. => 6
  | .message .. => 7
  | .record .. => 8
  | .ringLine .. => 9
  | .periodLine .. => 0
  | .heldTable _ => 2
  | .heldBell _ => 3
  | .heldSlot _ => 3
  | .suycia => 0
  | .suyLine _ => 9
  | .dropped => 1

/-- The request is one of the Suycia monitor, which serves no user. -/
def Purpose.ofMonitor : Purpose → Bool
  | .suycia => true
  | .suyLine _ => true
  | _ => false

/-- The ring a purpose serves. -/
def Purpose.ring? : Purpose → Option RingId
  | .record r .. => some r
  | .ringLine r _ => some r
  | _ => none

/-- The HOST record of a request that failed or of a logged violation (R63, R66, R493): not to the ring concerned, and
none for a global or telemetry ring request. -/
def State.recordHost (s : State) (n : Nat) (counter code : Nat) (tag : Nat) (r : Option HostReq) : State :=
  let ring := r.bind fun q => q.purpose.ring?
  if ring = some .global ∨ ring = some .telemetry then s else
  let row := match r with
    | some q => q.purpose.row
    | none => 0
  let inst : Option (BitVec 8) := match r with
    | some q => if q.purpose.ofMonitor then none else some q.inst
    | none => none
  let addr := match r with
    | some q => q.addr.toNat
    | none => tag
  let w := counter + 256 * code + 2048 * n + 65536 * row
  let b := recordBody s.now 2 1 inst noPlace w addr (putNum 32 2 tag)
  let s := s.toRing .global b none
  match inst with
  | none => s
  | some i => if ring.isSome then s else s.toRing (.inst i) b none

/-- The write of a ring record ended: the message of R378, or the loss of the record (R440, R441, Table HST.5). The job
whose completion it carried comes back where the completion is delivered. -/
def State.recordWritten (s : State) (id : RingId) (p : BitVec 32) (job : Option Nat) (ok : Bool) : Option Nat × State :=
  let x := s.ring id
  let here := fun (r : RingRec) => decide (r.pos = some p ∧ r.job = job)
  if ok then
    let s := s.putRing id { x with wait := x.wait.filter fun r => !(here r || (decide (r.job = job) && job.isSome)) }
    let s := match id with
      | .inst i => let y := s.inst i.toNat; if y.erruse then s.messageDue i.toNat y.errv.toNat else s
      | _ => s
    (job, s)
  else if job.isSome then
    (none, s.putRing id { x with wait := x.wait.map fun r => if here r then { r with stage := .failed, due := s.now + 10000 } else r })
  else (none, (s.putRing id { x with wait := x.wait.filter fun r => !here r }).dropRecord id)

/-- The dirty bit of a ring record is set or has failed: its write follows (R68). -/
def State.recordDirtied (s : State) (id : RingId) (p : BitVec 32) : State :=
  let x := s.ring id
  match x.wait.find? (fun r => r.stage == .dirty && r.pos == some p) with
  | none => s
  | some r =>
    (s.putRing id { x with wait := x.wait.map fun q =>
      if q.stage == .dirty && q.pos == some p then { q with stage := .writing } else q }).send (x.writeOf id r p)

/-- A control line read ended: H takes the value read, or stays (R440). -/
def State.controlRead (s : State) (id : RingId) (why : CtlWhy) (h : Option (BitVec 32)) : State :=
  let x := s.ring id
  let x := { x with ctlOut := false, head := h.getD x.head }
  let x := if why = .enable ∨ x.starting then { x with tail := x.head, starting := false } else x
  let s := (s.putRing id x).flushRing id
  let x := s.ring id
  if why = .full then
    let lost := x.wait.filter fun r => r.stage == .waiting && r.job == none
    lost.foldl (fun t _ => t.dropRecord id)
      (s.putRing id { x with wait := x.wait.filter fun r => !(r.stage == .waiting && r.job == none) })
  else s

/-- The request is a read of a ring's control line. -/
def Purpose.readsLine (id : RingId) : Purpose → Bool
  | .ringLine k _ => k == id
  | _ => false

/-- The request is a read of the monitor's control line. -/
def Purpose.readsSuyLine : Purpose → Bool
  | .suyLine _ => true
  | _ => false

/-- A write of EN to a ring's CTL register (R440, R441). Setting EN reads the control line: P starts at what this read brings, and at
no earlier one that is still out. -/
def State.enableRing (s : State) (id : RingId) (en : Bool) : State :=
  let x := s.ring id
  if en = x.en then s
  else if en then
    ((s.dropReads (Purpose.readsLine id) false).putRing id { x with en := true, starting := true, ctlOut := false }).readControl id .enable
  else
    let goes := fun (r : RingRec) => r.job == none && (r.stage == .waiting || r.stage == .dirty)
    let gone := x.wait.filter goes
    let keep := (x.wait.filter fun r => !goes r).map fun r =>
      if r.job.isSome then { r with pos := none, stage := .waiting } else r
    gone.foldl (fun t _ => t.dropRecord id) (s.putRing id { x with en := false, starting := false, wait := keep })

/-- The monitor reads its control line, at most once per µs but for the read at the setting of EN, which takes the place of one still
out (R440, R461). -/
def State.readSuyLine (s : State) (starts : Bool) : State :=
  let s := if starts then s.dropReads Purpose.readsSuyLine false else s
  let d := s.dbg
  if !starts && (d.suyOut || !(d.suyAt.all fun t => t + 100 ≤ s.now)) then s
  else ({ s with dbg := { d with suyOut := true, suyAt := some s.now } }).send (readReq d.suyCline 0 2 (.suyLine starts))

/-- A read of the monitor's control line has ended: the response head takes the value read, or stays; after EN was set both positions start
at the values of the line (R440, log entry 94). -/
def State.suyLineRead (s : State) (starts : Bool) (v : Option (BitVec 32 × BitVec 32)) : State :=
  let d := { s.dbg with suyOut := false, suyHead := (v.map (·.2)).getD s.dbg.suyHead }
  let d := if starts || d.suyStart then { d with suyStart := false, suyPos := d.suyHead, suyReq := (v.map (·.1)).getD d.suyReq } else d
  { s with dbg := d }

/-- Marks on a physical place for a record: stand, logical engine, context. -/
def State.place (s : State) (p c : Nat) : Nat × Nat × Nat :=
  (standOf p, (s.logicalOf p).getD 0xFF, c)

/-- A violation by a beat whose request has had its answer: counted, and logged in the global ring with port, tag and code, but for a
beat to a global or telemetry ring request (R66). -/
def State.violationLate (s : State) (n k code tag : Nat) (r : HostReq) : State :=
  let s := s.hostCount n k
  match r.purpose.ring? with
  | some .global => s
  | some .telemetry => s
  | _ => s.recordHost n k code tag none

/-- A host-port violation: counted, and recorded when the row is logged (R66). -/
def State.violation (s : State) (n k code tag : Nat) (r : Option HostReq) : State :=
  (s.hostCount n k).recordHost n k code tag r

end Sys2Proof.Machine
end

