-- ==== Sys2Proof/Machine/Mirror.lean ====
section
/-!
DEFINITION. The sending side of the mirror link: frames, lanes and replay buffers (R401 to R406), commit records, their
cost and their entries (R410 to R412).
-/

namespace Sys2Proof.Machine

/-! ## Frames -/

/-- `v` in frame bits [lo + w - 1 : lo]. -/
def fld (lo w v : Nat) : BitVec 256 := BitVec.ofNat 256 (v % 2 ^ w) <<< lo

/-- Frame bits [lo + w - 1 : lo]. -/
def fget (f : BitVec 256) (lo w : Nat) : Nat := (f.extractLsb' lo w).toNat

/-- The CRC of a frame: CRC-32C of bits [255:32], bits [255:248] first (R401). -/
def frameCrc (f : BitVec 256) : BitVec 32 :=
  crc32c ((List.range 28).map fun i => f.extractLsb' (248 - 8 * i) 8)

/-- A whole frame (Table MIR.2). -/
def mkFrame (typ : BitVec 4) (seq rseq : BitVec 24) (body : BitVec 172) : BitVec 256 :=
  let f := fld 252 4 typ.toNat ||| fld 228 24 seq.toNat ||| fld 204 24 rseq.toNat ||| fld 32 172 body.toNat
  f ||| fld 0 32 (frameCrc f).toNat

/-- A BODY from values placed by their frame bit numbers. -/
def bodyOf (l : List (Nat × Nat × Nat)) : BitVec 172 :=
  ((l.foldl (fun f x => f ||| fld x.1 x.2.1 x.2.2) (0 : BitVec 256)) >>> 32).setWidth 172

/-- MCLK is missing: no frame leaves (R25). -/
def State.linkStill (s : State) : Bool := s.life.noClock.contains .mclk

/-- An unsequenced frame goes out: SEQ is the next SEQ of the lane (R402). -/
def State.sendPlain (s : State) (k : Nat) (typ : BitVec 4) (body : BitVec 172) : State :=
  let l := s.lane k
  if s.linkStill then s else (s.putLane k { l with accepted := 0 }).emit (.frame (k == 1) (mkFrame typ l.txSeq l.rxSeq body))

/-- Sequenced frames that wait go out while the replay buffer has room (R405) and MCLK runs. -/
def State.drainLane (s : State) (k : Nat) : List (BitVec 4 × BitVec 172) → State
  | [] => s.putLane k { s.lane k with queue := [] }
  | (typ, body) :: t =>
    let l := s.lane k
    if 4096 ≤ l.replay.length ∨ s.linkStill then s.putLane k { l with queue := (typ, body) :: t }
    else
      let f := mkFrame typ l.txSeq l.rxSeq body
      ((s.putLane k { l with txSeq := l.txSeq + 1, replay := l.replay ++ [f], accepted := 0 }).emit
        (.frame (k == 1) f)).drainLane k t

/-- A sequenced frame takes the next SEQ of its lane and enters the replay buffer (R402). -/
def State.sendSeq (s : State) (k : Nat) (typ : BitVec 4) (body : BitVec 172) : State :=
  s.drainLane k ((s.lane k).queue ++ [(typ, body)])

/-- The lane for new records: the one with fewer frames in its replay buffer, lane 0 on a tie (R406); the lane that is
up when only one is. ACK, RETIRE, ATTEST and STATE_SYNC take the same lane (log entry 13). -/
def State.pickLane (s : State) : Nat :=
  let a := s.lane 0
  let b := s.lane 1
  if a.up && b.up then (if b.replay.length < a.replay.length then 1 else 0) else if b.up then 1 else 0

/-- The code of a link state (Table MIR.5). -/
def Link.code : Link → Nat
  | .disabled => 0
  | .bringup => 1
  | .sync => 2
  | .paired => 3
  | .lost => 4
  | .replaced => 5

/-- The units of this complex's own mirror reserve: 256 to a granule (R410, R138). -/
def State.reserveUnits (s : State) : Nat := 256 * min 992 s.ldk.mirRes.cur.toNat

/-- HELLO on a lane (Table MIR.4). -/
def State.sendHello (s : State) (k : Nat) : State :=
  s.sendPlain k 0 (bodyOf [(200, 4, 3), (199, 1, k), (198, 1, bit s.aon.fenced), (195, 3, s.mir.link.code),
    (147, 48, s.mir.nonce.toNat), (115, 32, s.mir.start.toNat), (97, 18, s.reserveUnits - s.mir.heldUnits)])

/-- HEARTBEAT on a lane. -/
def State.sendHeartbeat (s : State) (k : Nat) : State :=
  s.sendPlain k 6 (bodyOf [(203, 1, bit s.aon.fenced), (200, 3, s.mir.link.code), (168, 32, s.mir.start.toNat)])

/-- The partner is informed: a HEARTBEAT with FENCED 1 on each lane that is up. -/
def State.informPartner (s : State) : State :=
  [0, 1].foldl (fun t k => if (t.lane k).up then t.sendHeartbeat k else t) s

/-- NACK on a lane, at most one in a µs (R404). -/
def State.sendNack (s : State) (k : Nat) : State :=
  let l := s.lane k
  match l.lastNack with
  | some t => if s.now < t + 100 then s else (s.putLane k { l with lastNack := some s.now }).sendPlain k 8 0
  | none => (s.putLane k { l with lastNack := some s.now }).sendPlain k 8 0

/-- ATTEST (R408). -/
def State.sendAttest (s : State) (digest : BitVec 64) : State :=
  s.sendSeq s.pickLane 1 (bodyOf [(140, 64, digest.toNat), (92, 48, s.mir.peerNonce.toNat)])

/-- STATE_SYNC (R418). -/
def State.sendSync (s : State) (done : Bool) : State :=
  s.sendSeq s.pickLane 7 (bodyOf [(172, 32, s.mir.peerStart.toNat), (158, 14, s.mir.held.length), (157, 1, bit done),
    (156, 1, bit s.mir.tookOver)])

/-- ACK of a record: 0 STORED, 1 REFUSED. -/
def State.sendAck (s : State) (rid : Nat) (csn : BitVec 48) (result : Nat) : State :=
  s.sendSeq s.pickLane 4 (bodyOf [(191, 13, rid), (143, 48, csn.toNat), (141, 2, result)])

/-- RETIRE of a record. -/
def State.sendRetire (s : State) (rid : Nat) (csn : BitVec 48) : State :=
  s.sendSeq s.pickLane 5 (bodyOf [(191, 13, rid), (143, 48, csn.toNat)])

/-- No lane is up, and every sequence starts over; only when a lane last sent a NACK stays known (R404). -/
def State.dropLanes (s : State) : State :=
  { s with mir := { s.mir with lanes := (s.mir.lanes.filter fun l => l.2.lastNack.isSome).map fun l => (l.1, { lastNack := l.2.lastNack }) } }

/-- A counter of MIR_CNT_INDEX counts. -/
def State.mirCount (s : State) (k : Nat) : State :=
  { s with mir := { s.mir with counts := Tab.put s.mir.counts k (satInc (Tab.get countDflt s.mir.counts k)) } }

/-! ## Records -/

/-- A set of octets grouped by host line, in address order: line address and its (octet, value) pairs. The set is in
rising address order. -/
def byLine : List (Nat × Octet) → List (Nat × List (Nat × Octet))
  | [] => []
  | (a, o) :: t =>
    match byLine t with
    | (l, os) :: r => if l = a / 64 then (l, (a % 64, o) :: os) :: r else (a / 64, [(a % 64, o)]) :: (l, os) :: r
    | [] => [(a / 64, [(a % 64, o)])]

/-- An extent of a release list: its first line, the lines it covers with their octets, and whether they are whole
(R410). -/
structure Extent where
  line : Nat
  whole : Bool
  lines : List (List (Nat × Octet))
  deriving DecidableEq, Repr

/-- The extents of a set: runs of whole lines, and one for each partly covered line, in address order (R410). -/
def extentsOf : List (Nat × List (Nat × Octet)) → List Extent
  | [] => []
  | (l, os) :: t =>
    if os.length = 64 then
      match extentsOf t with
      | e :: r =>
        if e.whole && e.line == l + 1 && e.lines.length < 1048575 then { line := l, whole := true, lines := os :: e.lines } :: r
        else { line := l, whole := true, lines := [os] } :: e :: r
      | [] => [{ line := l, whole := true, lines := [os] }]
    else { line := l, whole := false, lines := [os] } :: extentsOf t

/-- The cost of a record in units (R410). -/
def Record.cost (r : Record) : Nat :=
  if r.pay then
    let e := extentsOf (byLine r.data)
    1 + e.length + (e.map fun x => x.lines.length).foldl (· + ·) 0
  else 1

/-- The DATA frame of quarter `q` of a line (Table MIR.4). -/
def dataBody (rid : Nat) (os : List (Nat × Octet)) (q : Nat) : BitVec 172 :=
  bodyOf ((191, 13, rid) :: (189, 2, 2) :: (List.range 16).map fun i =>
    (152 - 8 * i, 8, ((Assoc.lookup os (16 * q + i)).getD 0).toNat))

/-- The frames of one extent: EXTENT, then four DATA frames a line. -/
def extentFrames (rid : Nat) (e : Extent) : List (BitVec 4 × BitVec 172) :=
  let head := if e.whole then bodyOf [(191, 13, rid), (189, 2, 1), (131, 58, e.line), (110, 20, e.lines.length)]
    else bodyOf [(191, 13, rid), (189, 2, 1), (131, 58, e.line), (130, 1, 1),
      (66, 64, (oenOf (e.lines.headD [])).toNat)]
  (3, head) :: e.lines.flatMap fun os => (List.range 4).map fun q => ((3 : BitVec 4), dataBody rid os q)

/-- Every frame of a record, in order (R410). -/
def recordFrames (rid : Nat) (r : Record) : List (BitVec 4 × BitVec 172) :=
  let e := if r.pay then extentsOf (byLine r.data) else []
  (2, bodyOf [(191, 13, rid), (183, 8, r.inst.toNat), (170, 13, r.chan.toNat), (138, 32, r.pos.toNat),
      (90, 48, r.csn.toNat), (70, 20, e.length), (69, 1, bit r.pay)]) ::
  (3, bodyOf [(191, 13, rid), (189, 2, 0), (157, 32, r.tag.toNat), (125, 32, r.octets.toNat), (117, 8, r.engine.toNat),
      (114, 3, r.ctx.toNat), (107, 7, r.ledger.toNat)]) ::
  e.flatMap (extentFrames rid)

/-- All frames of a record go on one lane (R406). -/
def State.sendRecord (s : State) (k rid : Nat) (r : Record) : State :=
  (recordFrames rid r).foldl (fun t f => t.sendSeq k f.1 f.2) s

/-- Own mirror record entry `rid`. -/
def State.own (s : State) (rid : Nat) : Option OwnRec := Assoc.lookup s.mir.own rid

/-- The state with own entry `rid` set. -/
def State.putOwn (s : State) (rid : Nat) (o : OwnRec) : State :=
  { s with mir := { s.mir with own := Assoc.insert s.mir.own rid o } }

/-- Own entry `rid` is released. -/
def State.dropOwn (s : State) (rid : Nat) : State :=
  { s with mir := { s.mir with own := Assoc.erase s.mir.own rid } }

/-- A record costs more than the partner's whole announced reserve: it is sent without its payload (R410). -/
def State.oversize (s : State) (r : Record) : Bool := s.mir.announced < r.cost

/-- A record as it goes out: an oversize one with PAY 0. -/
def State.fitted (s : State) (r : Record) : Record := if s.oversize r then { r with pay := false, data := [] } else r

/-- The units that a record takes of the partner's reserve: none where even PAY 0 exceeds the whole of it, and no credit could ever
come. -/
def State.charge (s : State) (r : Record) : Nat := if s.oversize (s.fitted r) then 0 else (s.fitted r).cost

/-- A sealed commit takes an entry and sends its record, where the link is PAIRED, an entry is free and the cost fits
(R410). The answer names the entry. -/
def State.takeEntry (s : State) (job : Nat) (r : Record) : Option (Nat × State) :=
  if s.mir.link ≠ .paired then none else
  match Assoc.freeKey s.mir.own 8192 0 with
  | none => none
  | some rid =>
    let big := s.oversize r
    let c := s.charge r
    let r := s.fitted r
    if s.mir.credit < c then none else
    let s := if big then s.mirCount 11 else s
    let k := s.pickLane
    let s := { s with mir := { s.mir with credit := s.mir.credit - c } }
    let body := { r with nExt := (extentsOf (byLine r.data)).length }
    let o : OwnRec := { job := some job, body := body, lane := k == 1, cost := c }
    some (rid, (s.putOwn rid o).sendRecord k rid r)

/-- A RETIRE that cannot be sent joins the retire list; a full list loses its oldest place (R412). -/
def State.retireLater (s : State) (rid : Nat) (o : OwnRec) : State :=
  let l := s.mir.retire
  let q := (rid, o.body.csn, o.cost)
  if 8192 ≤ l.length then { s with mir := { s.mir with retire := l.drop 1 ++ [q] } }.mirCount 7
  else { s with mir := { s.mir with retire := l ++ [q] } }

/-- The link carries frames of a session. -/
def Link.talks (l : Link) : Bool :=
  match l with
  | .bringup => true
  | .sync => true
  | .paired => true
  | _ => false

/-- A RETIRE can follow a record: the link is PAIRED, or in SYNC with the partner's STATE_SYNC acted on (R12, R412, R418). -/
def State.mayRetire (s : State) : Bool := s.mir.link == .paired || (s.mir.link == .sync && s.mir.gotSync)

/-- Step 8 of the commit sequence for entry `rid` (R12, R412): the RETIRE goes out where the link allows it and the record has gone
out; it waits for STATE_SYNC in BRINGUP and SYNC, and behind a record that waits for credit; else the entry moves to the retire
list. -/
def State.retireEntry (s : State) (rid : Nat) : State :=
  match s.own rid with
  | none => s
  | some o =>
    if s.mayRetire && !o.unsent then
      let k := s.pickLane
      let seq := (s.lane k).txSeq + BitVec.ofNat 24 (s.lane k).queue.length
      (s.putOwn rid { o with posted := true, job := none, lane := k == 1, retireSeq := some seq }).sendRetire rid o.body.csn
    else if s.mir.link.talks then s.putOwn rid { o with posted := true, job := none }
    else (s.dropOwn rid).retireLater rid o

end Sys2Proof.Machine
end

