-- ==== Sys2Proof/Machine/Jobs.lean ====
section
/-!
DEFINITION. The operation tracker's accepted-job entries from fetch to completion (R84 to R117): ends, restarts, the
commit sequence of Table CPX.2, and the one completion.
-/

namespace Sys2Proof.Machine

/-! ## Descriptor fields (Table CHP.3) -/

/-- Octets `i` to `i + n - 1` of the descriptor. -/
def Job.num (j : Job) (i n : Nat) : Nat := lineNum j.desc i n

/-- Commit policy. -/
def Job.policy (j : Job) : Nat := j.num 3 1

/-- Host job tag. -/
def Job.tag (j : Job) : Nat := j.num 4 4

/-- Output capacity. -/
def Job.capacity (j : Job) : Nat := j.num 28 4

/-- Serialisation key. -/
def Job.serial (j : Job) : Nat := j.num 32 4

/-- The job waits for the completion before it (R98). -/
def Job.ordered (j : Job) : Bool := j.entry.ordered || j.desc.getLsbD 16

/-- DURABLE of the descriptor. -/
def Job.durable (j : Job) : Bool := j.desc.getLsbD 17

/-- NO_MSG of the descriptor. -/
def Job.noMsg (j : Job) : Bool := j.desc.getLsbD 18

/-- Granules that R101 reserves. -/
def Job.reserve (j : Job) : Nat := if j.policy = 0 then 0 else (j.capacity + 16383) / 16384 + 1

/-! ## Completion entries (R93, R94) -/

/-- The host address of the completion slot (R76). -/
def Job.slotAddr (j : Job) : HAddr := j.entry.cpl + BitVec.ofNat 64 (32 * (j.pos.toNat % 2 ^ j.entry.l))

/-- PH(p) (R77). -/
def phase (p : BitVec 32) (l : Nat) : Nat := 1 - bit (p.getLsbD l)

/-- The completion entry as 32 octets, octet 0 lowest (Table CHP.7). -/
def Job.completion (j : Job) : Line :=
  putNum 0 4 j.tag ||| putNum 4 1 j.status.toNat ||| putNum 5 1 j.detail.toNat ||| putNum 6 1 (phase j.pos j.entry.l) |||
    putNum 7 1 j.ledger.toNat ||| putNum 8 4 j.octets.toNat ||| putNum 12 6 j.csn.toNat ||| putNum 18 1 j.lastEng.toNat |||
    putNum 19 1 j.lastCtx.toNat ||| putNum 20 4 j.pos.toNat

/-- The one WRITE of the completion entry. -/
def Job.completionReq (j : Job) (id : Nat) : HostReq :=
  let o := j.slotAddr.toNat % 64
  writeReq j.slotAddr j.inst 1 ((List.range 32).map fun i => (o + i, lineOctet j.completion i)) (.completion id)

/-- The ledger summary of a context (Table CHP.7, Table LDG.5): KNZ and BZ are live. -/
def Ledger.summary (l : Ledger) : BitVec 8 :=
  let knz := (List.range 4).any fun a => (Tab.get (fun _ => {}) l.accs a : Accum).kerf != 0
  (l.status.setWidth 8 &&& 0x73) ||| BitVec.ofNat 8 (4 * bit knz + 8 * bit (l.bal == 0))

/-! ## Contexts leave their jobs -/

/-- The stand-local context number of the extension port (R34). -/
def extCtx (p c : Nat) : Nat := 8 * (p % 17) + c

/-- A live extension request is abandoned with a KILL beat; its generation stays unanswered (R37), also where the request had not
transferred yet (log entry 97). -/
def State.killExt (s : State) (p c : Nat) : State :=
  let x := s.ext (standOf p)
  match Assoc.lookup x.live (extCtx p c) with
  | none => s
  | some r =>
    let k := extCtx p c
    (s.putExt (standOf p) { x with live := Assoc.erase x.live k, unanswered := x.unanswered ++ [(k, r.gen)] }).emit
      (.ext (standOf p) (BitVec.ofNat 8 k) r.gen r.op r.a r.b true)

/-- A context is cleared to Table ENG.2; only the extension generation stays (R148, R154). -/
def State.clearCtx (s : State) (p c : Nat) : State :=
  let s := s.killExt p c
  let s := { s with
    ldk := { s.ldk with resv := s.ldk.resv.filter fun r => r.2 != (p, c) }
    units := { s.units with waiting := s.units.waiting.filter (· != (p, c)) } }
  s.modEng p fun e =>
    let e := { e with
      delivered := e.delivered.filter fun d => d.ctx != c
      slot := e.slot.filter fun d => d.ctx != c
      stepping := e.stepping.filter (· != c)
      micro := { e.micro with busy := e.micro.busy.filter fun r => r.1 != c } }
    e.putCtx c { extGen := (e.ctx c).extGen }

/-- Requests of a job that the host has not answered: those not yet issued vanish, the answers of the others are
dropped, and under SQUASH the tags count as squashed (R234, Table PTN.5). -/
def Purpose.ofJob (id : Nat) : Purpose → Bool
  | .xfer j _ _ => j == id
  | .pgmTable j => j == id
  | .image j _ => j == id
  | .signature j _ => j == id
  | .publicKey j _ => j == id
  | .regions j _ _ => j == id
  | _ => false

/-- The unit requests of a job that ended without COMMIT (R338): queued ones are withdrawn, those on a lane write
nothing further. -/
def State.endUnits (s : State) (id : Nat) : State :=
  { s with units := { s.units with
      reqs := (s.units.reqs.filter fun r => !(r.2.job == id && r.2.lane.isNone)).map fun r =>
        if r.2.job = id then (r.1, { r.2 with dead := true }) else r } }

/-! ## Posting -/

/-- The completion entry goes out. -/
def State.writeCompletion (s : State) (id : Nat) : State :=
  match s.job id with
  | none => s
  | some j => s.send (j.completionReq id)

/-- A job posts its completion on a path other than steps 1 to 5 of the commit sequence: the dirty bit of the entry's
page comes first where one is due (R68). -/
def State.post (s : State) (id : Nat) : State :=
  match s.job id with
  | none => s
  | some j =>
    let d := (s.inst j.inst.toNat).dl
    if !d.en then (s.putJob id { j with st := .posting }).writeCompletion id
    else match d.bit j.slotAddr with
      | none => ((s.putJob id { j with st := .posting }).unlogged j.inst.toNat).writeCompletion id
      | some (line, o, b) =>
        (s.putJob id { j with st := .posting, dirtyDue := 1 }).send
          (orReq j.inst.toNat line [(o, b)] (.dirty j.inst.toNat (some id) none))

/-- A job that has not sealed ends with a status and a detail: nothing of it is released, its context is cleared, and
its one completion posts (R13, R96, R111, Table CHP.9). A squash that reached the entry first decides the outcome (R390). The
ledger summary of a job that never held a context is 0 (log entry 99). -/
def State.endJob (s : State) (id : Nat) (status' detail' : Nat) : State :=
  match s.job id with
  | none => s
  | some j =>
    let status := if j.squashDue then 8 else status'
    let detail := if j.squashDue then 2 else detail'
    let led := match j.place with
      | some (p, c) => (s.ctx p c).ledger.summary
      | none => 0
    let s := match j.place with
      | some (p, c) => s.clearCtx p c
      | none => s
    let s := (s.dropReads (Purpose.ofJob id) (status == 8)).endUnits id
    let s := s.putJob id { j with
      queued := false, place := none, staged := [], lists := [], holds := [], asked := [], load := .notStarted, imageOctets := [], keyOctets := []
      status := BitVec.ofNat 8 status, detail := BitVec.ofNat 8 detail, ledger := led, csn := 0, octets := 0 }
    let s := if status = 8 then s.modInst j.inst.toNat fun x => { x with sq := satInc x.sq } else s
    s.post id

/-- The home stand of a channel (R130). -/
def State.homeStand (s : State) (c : Nat) : Nat :=
  let h := Config.affinityHash s.dsp.affKey c % 16
  (((List.range 16).map fun k => (h + k) % 16).find? fun d => s.dsp.affFront.getLsbD d).getD h

/-- A job goes back from RUNNING to ACCEPTED (R112, R113, R134), or ends: at the restart limit, or where a squash came first (R390). A
restart is no end: the job goes on holding the granules that it accessed (R139). -/
def State.returnJob (s : State) (id : Nat) : State :=
  match s.job id with
  | none => s
  | some j =>
    let j' := { j with restarts := j.restarts + 1 }
    if 3 ≤ j'.restarts ∨ j.squashDue then (s.putJob id j').endJob id 0x0A 0x02
    else
      let s := match j.place with
        | some (p, c) => s.clearCtx p c
        | none => s
      let s := (s.dropReads (Purpose.ofJob id) false).endUnits id
      s.putJob id { j' with
        st := .accepted, queued := true, returned := true, stand := s.homeStand j.chan.toNat, place := none, staged := [], asked := []
        load := .notStarted, imageOctets := [], keyOctets := [] }

/-! ## Release (R103, R107, R108) -/

/-- The lines of a set. -/
def linesOf (o : List (Nat × Octet)) : List Nat := (byLine o).map (·.1)

/-- The octets of a set in one line, by octet number. -/
def octetsIn (o : List (Nat × Octet)) (l : Nat) : List (Nat × Octet) :=
  (o.filter fun x => x.1 / 64 == l).map fun x => (x.1 % 64, x.2)

/-- Commit sequence number `a` is before `b`, modulo 2^48 (R105). -/
def csnBefore (a b : BitVec 48) : Bool := a != b && (b - a).toNat < 2 ^ 47

/-- A set of the same user with an earlier number has not ended its write of the line (R107). -/
def State.lineBlocked (s : State) (j : Job) (l : Nat) : Bool :=
  s.jobs.any fun x => x.2.inst == j.inst && (x.2.st == .sealed || x.2.st == .released) && csnBefore x.2.csn j.csn &&
    (x.2.toRelease.contains l || x.2.released.contains l)

/-- The release write of one line of a set (R103). -/
def Job.releaseReq (j : Job) (id l : Nat) : HostReq :=
  writeReq (BitVec.ofNat 64 (64 * l)) j.inst 0 (octetsIn j.staged l) (.releaseLine id)

/-- An uncorrectable log deck word holds a part of line `l` of the set (R143, log entry 9). -/
def State.lineBad (s : State) (j : Job) (l : Nat) : Bool := s.ldk.bad.any fun w => Config.stagedLine j.order w == some l

/-- The lines of one set that may go out do. The staging hardware reads each of them as it goes: an uncorrectable one ends the set with
INTERNAL 0x03, and the lines already released stay released (R143, Table CHP.9). -/
def State.releaseLines (s : State) (id : Nat) : List Nat → State
  | [] => s
  | l :: t =>
    match s.job id with
    | none => s
    | some j =>
      if s.lineBlocked j l then s.releaseLines id t
      else if s.lineBad j l then s.putJob id { j with status := 0x0A, detail := 0x03, toRelease := [] }
      else
        ((s.putJob id { j with toRelease := j.toRelease.filter (· != l), released := j.released ++ [l] }).send
          (j.releaseReq id l)).releaseLines id t

/-- Steps 4 and 5 go on for one set: once every line is issued the entry is RELEASED, and once every write and dirty bit
is answered the completion is written (Table CPX.2). -/
def State.stepSet (s : State) (id : Nat) : State :=
  match s.job id with
  | none => s
  | some j =>
    if !j.releasing || !(j.st == .sealed || j.st == .released) then s else
    let s := s.releaseLines id j.toRelease
    match s.job id with
    | none => s
    | some j =>
      if !j.toRelease.isEmpty then s else
      if !j.released.isEmpty || 0 < j.dirtyDue then s.putJob id { j with st := .released } else
      let st := if j.releaseFailed && j.status != 0x0A then (if j.status = 9 then (9, 1) else (5, 2)) else (j.status.toNat, j.detail.toNat)
      (s.putJob id { j with st := .posting, releasing := false, status := BitVec.ofNat 8 st.1, detail := BitVec.ofNat 8 st.2 }).writeCompletion id

/-- Every set in release goes on: an answer may have freed a line that a later set waits for. -/
def State.stepSets (s : State) : State := (s.jobs.map (·.1)).foldl State.stepSet s

/-- The bitmap bits of a set and of its completion slot, grouped by bitmap line, and the writes outside the window
(R67, R68). -/
def DirtyLog.bits (d : DirtyLog) (lines : List Nat) (slot : HAddr) : List (Nat × List (Nat × Octet)) × Nat :=
  let addrs := lines.map (fun l => BitVec.ofNat 64 (64 * l)) ++ [slot]
  let hits := addrs.filterMap fun a => d.bit a
  let merged := hits.foldl (fun m h =>
    let old := (Assoc.lookup m h.1.toNat).getD []
    Assoc.insert m h.1.toNat (Assoc.insert old h.2.1 (((Assoc.lookup old h.2.1).getD 0) ||| h.2.2))) []
  (merged, addrs.length - hits.length)

/-- Step 4 begins: the set's dirty bits go out, and its lines follow (R12, R68). -/
def State.beginRelease (s : State) (id : Nat) : State :=
  match s.job id with
  | none => s
  | some j =>
    let d := (s.inst j.inst.toNat).dl
    let b := if d.en then d.bits j.toRelease j.slotAddr else ([], 0)
    let s := (List.range b.2).foldl (fun t _ => t.unlogged j.inst.toNat) s
    let s := s.putJob id { j with releasing := true, dirtyDue := b.1.length }
    let s := b.1.foldl (fun t x => t.send
      (orReq j.inst.toNat (BitVec.ofNat 64 x.1) x.2 (.dirty j.inst.toNat (some id) none))) s
    s.stepSet id

/-! ## Mirroring (step 3) -/

/-- Step 3 ends: with the partner's copy, or with UNMIRRORED set (R106, R411, R412). -/
def State.endMirror (s : State) (id : Nat) (stored : Bool) : State :=
  match s.job id with
  | none => s
  | some j =>
    if j.st ≠ .sealed ∨ j.releasing ∨ j.mirroring ≠ .waiting then s else
    (s.putJob id { j with
      mirroring := if stored then .acked else .unmirrored
      detail := if stored then j.detail else j.detail ||| 1 }).beginRelease id

/-- The commit record of a sealed set (R106, R410). -/
def Job.record (j : Job) : Record :=
  let pay := j.snap.durable == 1 || j.entry.durable || j.durable
  { inst := j.inst, chan := j.chan, pos := j.pos, csn := j.csn, pay := pay, tag := BitVec.ofNat 32 j.tag,
    octets := BitVec.ofNat 32 j.staged.length, engine := j.lastEng, ctx := j.lastCtx, ledger := j.ledger.setWidth 7,
    data := if pay then j.staged else [] }

/-- A set in step 3 without an entry takes one, where the link and the credit allow it. -/
def State.mirrorJob (s : State) (id : Nat) : State :=
  match s.job id with
  | none => s
  | some j =>
    if j.mirroring ≠ .waiting ∨ j.rid ≠ none ∨ j.st ≠ .sealed then s else
    let big := s.oversize j.record
    match s.takeEntry id j.record with
    | none => s
    | some (rid, s) => s.putJob id { j with rid := some rid, detail := if big then j.detail ||| 1 else j.detail }

/-- Every set that waits in step 3 is tried, in seal order as far as the entries' order gives it. -/
def State.mirrorPump (s : State) : State :=
  let ids := (s.jobs.filter fun x => x.2.mirroring == .waiting && x.2.rid == none).map (·.1)
  ids.foldl State.mirrorJob s

/-! ## Seal -/

/-- The number after a commit sequence number, skipping 0 (R105). -/
def csnNext (n : BitVec 48) : BitVec 48 := if n + 1 = 0 then 1 else n + 1

/-- Step 2: the set is frozen under the next commit sequence number, the COMMIT blazes (Table DBG.7), and the context is released
(R105). Step 3 follows, or is skipped (R106, R412). -/
def State.seal (s : State) (id : Nat) : State :=
  match s.job id with
  | none => s
  | some j =>
    let i := j.inst.toNat
    let x := s.inst i
    let n := if x.csn = 0 then 1 else x.csn
    let next := csnNext n
    let led := match j.place with
      | some (p, c) => (s.ctx p c).ledger.summary
      | none => 0
    let s := match j.place with
      | some (p, c) => (s.blaze p c 4 (s.ctx p c).waitPc n.toNat).clearCtx p c
      | none => s
    let s := s.putInst i { s.inst i with csn := next, csnLast := n }
    let s := if n + 1 = 0 then (s.arrive i).recordBoth 3 1 (some j.inst) noPlace 0x12 j.chan.toNat (putNum 32 6 next.toNat) else s
    let mirrored := j.snap.durable != 2 && s.mir.link == .paired
    let s := s.putJob id { j with
      st := .sealed, place := none, csn := n, ledger := led, status := 0, detail := 0, toRelease := linesOf j.staged
      mirroring := .waiting }
    if mirrored then s.mirrorJob id else s.endMirror id false

/-- A policy 0 job past step 1 posts OK with READONLY (R104). -/
def State.readonlyEnd (s : State) (id : Nat) : State := s.endJob id 0 2

/-- Step 1 (R104): what the policy demands, then the seal. -/
def State.commitJob (s : State) (id : Nat) : State :=
  match s.job id with
  | none => s
  | some j =>
    let bal : Int := match j.place with
      | some (p, c) => (s.ctx p c).ledger.bal
      | none => 0
    if j.policy = 1 ∧ bal ≠ 0 then s.endJob id 1 0
    else if j.policy = 0 then (if j.staged.isEmpty then s.readonlyEnd id else s.endJob id 2 0x83)
    else s.seal id

/-- A unit request of the job is still in a unit (R235, step 4). -/
def State.unitsBusy (s : State) (id : Nat) : Bool := s.units.reqs.any fun r => r.2.job == id && !r.2.dead

/-- A context waits for its seal: once every XFER and unit request has ended, the commit goes on (R235). -/
def State.trySeal (s : State) (p c : Nat) : State :=
  let x := s.ctx p c
  match x.wait, x.job with
  | .seal, some id => if x.xfers.isEmpty && !s.unitsBusy id then s.commitJob id else s
  | _, _ => s

/-! ## The completion ends -/

/-- The message of mirror entry `rid` has fallen due and has not been issued. -/
def State.msgPending (s : State) (rid : Nat) : Bool :=
  s.hostWait.any fun r => match r.purpose with
    | .message _ (some k) => k == rid
    | _ => false

/-- Step 8 follows step 7 (Table CPX.2): RETIRE goes out once the message has been issued. -/
def State.retireAfter (s : State) (rid : Nat) : State :=
  if !s.msgPending rid then s.retireEntry rid
  else match s.own rid with
    | some o => s.putOwn rid { o with job := none, msgWait := true }
    | none => s

/-- Mirror entries whose message has been issued meanwhile go on to step 8. -/
def State.retirePump (s : State) : State :=
  (s.mir.own.filter fun x => x.2.msgWait && !s.msgPending x.1).foldl (fun t x =>
    (t.putOwn x.1 { x.2 with msgWait := false }).retireEntry x.1) s

/-- Steps 7 and 8: the message where it is due, then RETIRE; the entry leaves the tracker (R110 to R112). -/
def State.delivered (s : State) (id : Nat) (message : Bool) : State :=
  match s.job id with
  | none => s
  | some j =>
    let s := { s with jobs := Assoc.erase s.jobs id }
    let s := if message && j.entry.useMsg && !j.noMsg then s.messageDue j.inst.toNat j.entry.vector.toNat j.rid else s
    match j.rid with
    | some rid => s.retireAfter rid
    | none => s

/-- The completion write failed: the entry goes to the error ring, the channel is BROKEN, and step 8 proceeds (R109). -/
def State.completionFailed (s : State) (id : Nat) : State :=
  match s.job id with
  | none => s
  | some j =>
    let place := if j.dispatched then (j.lastEng.toNat / 16, j.lastEng.toNat, j.lastCtx.toNat) else noPlace
    let body := recordBody s.now 1 1 (some j.inst) place (j.status.toNat + 256 * j.detail.toNat) j.slotAddr.toNat
      (j.completion <<< 256)
    let s := s.putJob id { j with rid := none }
    let s := match j.rid with
      | some rid => s.retireEntry rid
      | none => s
    let s := (s.modChan j.chan.toNat fun x => { x with broken := true }).arrive j.inst.toNat
    s.toRing (.inst j.inst) body (some id)

/-- One dirty bit of a job is answered (R68, Table HST.5): the release or the completion goes on. -/
def State.dirtied (s : State) (id : Nat) : State :=
  match s.job id with
  | none => s
  | some j =>
    let s := s.putJob id { j with dirtyDue := j.dirtyDue - 1 }
    if j.st = .posting then (if j.dirtyDue ≤ 1 then s.writeCompletion id else s) else s.stepSet id

/-- One release write of a job is answered (R108). -/
def State.lineReleased (s : State) (id l : Nat) (ok : Bool) : State :=
  match s.job id with
  | none => s
  | some j =>
    let n := (octetsIn j.staged l).length
    (s.putJob id { j with
      released := j.released.filter (· != l)
      octets := if ok && j.status != 9 then j.octets + BitVec.ofNat 32 n else j.octets
      releaseFailed := j.releaseFailed || !ok }).stepSets

/-! ## Virtual users' resets (R388 to R393) -/

/-- A request of the complex's own rings or of the monitor: it belongs to no user. -/
def Purpose.ownRing : Purpose → Bool
  | .record .global _ _ => true
  | .record .telemetry _ _ => true
  | .ringLine .global _ => true
  | .ringLine .telemetry _ => true
  | .suycia => true
  | .suyLine _ => true
  | _ => false

/-- A request that RESET waits for: every one that carries the user, from either pool (R391, R395). -/
def HostReq.onBehalf (r : HostReq) (b : BitVec 8) : Bool := r.inst == b && !r.purpose.ownRing

/-- The tracker holds no entry of user `i` in any class (R391). -/
def State.trackerEmpty (s : State) (i : Nat) : Bool :=
  let b := BitVec.ofNat 8 i
  s.jobs.all (fun x => x.2.inst != b) && [0, 1].all (fun n => (s.port n).tags.all fun u => !(u.2.held && u.2.req.onBehalf b)) &&
    s.hostWait.all (fun r => !r.onBehalf b) && s.units.reqs.all (fun r => r.2.inst != b) &&
    s.mir.own.all (fun r => r.2.body.inst != b)

/-- A user whose tracker has emptied reaches RESET (R391). -/
def State.settleInst (s : State) (i : Nat) : State :=
  let x := s.inst i
  if (x.rstate == .draining || x.rstate == .squashing) && s.trackerEmpty i then
    (s.putInst i { x with rstate := .reset, rstDue := none }).arrive i
  else s

/-- Channel `c` is one of user `i` (R72); a channel in several ranges belongs to the lowest user. -/
def State.ownsChan (s : State) (i c : Nat) : Bool :=
  let x := s.inst i
  decide (x.first ≤ c ∧ c < min 8192 (x.first + x.count))

/-- The user that owns channel `c`. -/
def State.ownerOf (s : State) (c : Nat) : Option Nat :=
  (s.insts.find? fun x => s.ownsChan x.1 c).map (·.1)

/-- The user whose entry a channel has in force. -/
def State.chanInst (s : State) (c : Nat) : Option (BitVec 8) := (s.chan c).entry.map (·.inst)

/-- Context `c` of engine `p` is at a boundary: no branch waits for its slot, no data is on its way, and no micro-routine runs. A
halted one stays where it is. -/
def State.atBoundary (s : State) (p c : Nat) : Bool :=
  let x := s.ctx p c
  x.state == .halted || (x.memWait.isNone && !(s.eng p).slot.any (·.ctx == c) && !(s.eng p).micro.busy.any (·.1 == c))

/-- SQUASH reaches a job that has not sealed: it ends at its context's next boundary (Table PTN.5). Of a halted context the
debugger hears (R456). -/
def State.squashJob (s : State) (id : Nat) : State :=
  match s.job id with
  | none => s
  | some j =>
    let ends := fun (t : State) => t.endJob id 8 (if j.dispatched then 2 else 1)
    match j.place with
    | none => ends s
    | some (p, c) =>
      if !s.atBoundary p c then s.putJob id { j with squashDue := true }
      else if (s.ctx p c).state = .halted then (ends s).arrive 711
      else ends s

/-- Entry to SQUASHING (R389, Table PTN.5). -/
def State.squashInst (s : State) (i : Nat) : State :=
  let s := s.modInst i fun x => { x with rstate := .squashing, rstDue := none }
  let b := BitVec.ofNat 8 i
  let s := s.dropReads (fun p => match p with
      | .descriptor c _ => (s.chan c).fetchEntry.any (·.inst == b)
      | _ => false) true
  let stop := fun (x : Nat × Chan) => if x.2.fetchEntry.any (·.inst == b) then (x.1, { x.2 with fetching := false }) else x
  let s := { s with chans := s.chans.map stop }
  let ids := (s.jobs.filter fun x => x.2.inst == b && (x.2.st == .accepted || x.2.st == .running)).map (·.1)
  (ids.foldl State.squashJob s).settleInst i

/-! ## What follows from an emptied tracker -/

/-- The operation tracker holds nothing of any class (Table PRT.9), and no host request waits for it but a message behind the
fence. -/
def State.trackerIdle (s : State) : Bool :=
  s.jobs.isEmpty && s.units.reqs.isEmpty && s.mir.own.isEmpty &&
    (s.hostWait.all fun r => s.life.entryFenced && r.purpose.fenced) &&
    [0, 1].all fun n => (s.port n).tags.all fun u => !u.2.held

/-- Every secret of the complex is zero (R32, R468). -/
def State.clearSecrets (s : State) : State :=
  { s with
    units := { s.units with
      slots := s.units.slots.map fun x => (x.1, { x.2 with front := {}, back := none, work := none })
      reqs := s.units.reqs.map fun r => (r.1, { r.2 with share0 := 0, share1 := 0, keyLost := r.2.keyLost || r.2.kind != 0 })
      drbgState := 0, drbgKey := 0, drbgV := 0, shades := [], patchKey := 0, rootKey0 := 0, rootKey1 := 0, entropy := [] }
    life := { s.life with key := 0, keyHeld := false } }

/-- The event timers stand (Table LCB.3, step 2). -/
def State.stopTimers (s : State) : State :=
  let stop := fun (x : Nat × EvTimer) => (x.1, { x.2 with timer := x.2.timer.pause s.now })
  { s with evc := { s.evc with timers := s.evc.timers.map stop } }

/-- The event timers run on. -/
def State.runTimers (s : State) : State :=
  let run := fun (x : Nat × EvTimer) => (x.1, if x.2.en then { x.2 with timer := x.2.timer.resume s.now } else x.2)
  { s with evc := { s.evc with timers := s.evc.timers.map run } }

/-- The last RETIRE has been sent: no job is left, none can come, and no write that a fence stops is due. -/
def State.lastRetired (s : State) : Bool :=
  s.jobs.isEmpty && (s.mir.own.all fun x => x.2.retireSeq.isSome) && (s.chans.all fun x => !x.2.fetching) &&
    (s.hostWait.all fun r => !r.purpose.fenced) && !s.fencePending

/-- A shutdown fences the complex and informs the partner after the last RETIRE (Table LCB.3, step 1). -/
def State.fenceShut (s : State) : State :=
  if (s.life.shut == .drain || s.life.shut == .squash) && !s.life.entryFenced && s.lastRetired then
    ({ s with life := { s.life with entryFenced := true } }.settleFence).informPartner
  else s

/-! ## Period table loads (R129) -/

/-- A running job of user `i` reads the back copy. A sealed or released job reads no table any more, and holds no load up (log entry
129: DESIGN CHOICE). -/
def State.backRead (s : State) (i : Nat) : Bool :=
  s.jobs.any fun x => x.2.inst.toNat == i && x.2.st == .running && x.2.snap.ptSel != (s.inst i).period.front

/-- The 18 lines of a period table are read into the back copy. -/
def State.readPeriod (s : State) (i : Nat) : State :=
  let x := s.inst i
  let ks := List.range 18
  let s := s.putInst i { x with period := { x.period with held := false, ready := false, loading := ks, got := [] } }
  ks.foldl (fun t k => t.send
    (readReq (x.period.host + BitVec.ofNat 64 (64 * k)) (BitVec.ofNat 8 i) 2 (.periodLine i k))) s

/-- A held load begins once every job that reads the old back copy has ended. -/
def State.settlePeriod (s : State) (i : Nat) : State :=
  if (s.inst i).period.held && !s.backRead i then s.readPeriod i else s

end Sys2Proof.Machine
end

