-- ==== Sys2Proof/Machine/Operands.lean ====
section
/-!
DEFINITION. The operand forms of the engine: cells of the data stack, the address and return stacks, engine addresses
and their access checks, engine-private I/O words, and words in memory seen through the store buffer.
-/

namespace Sys2Proof.Machine

/-! ## Outcomes of an instruction's own work -/

/-- What the work of an instruction gives: a result, a trap before any effect, or a wait before issue (R311). -/
inductive Res (α : Type) where
  | ok (a : α)
  | trap (code sub : Nat) (split : Bool := false)
  | wait
  deriving Repr

/-- The outcome is a wait. -/
def Res.waits {α : Type} (r : Res α) : Bool :=
  match r with
  | .wait => true
  | _ => false

/-- Sequencing of outcomes. -/
def Res.bind {α β : Type} (r : Res α) (f : α → Res β) : Res β :=
  match r with
  | .ok a => f a
  | .trap k j b => .trap k j b
  | .wait => .wait

/-! ## Data stack cells (R160 to R165) -/

/-- The current window: the trap window while TW is 1 (R177). -/
def Ctx.win (x : Ctx) : Window := if x.tw then x.trapWin else x.windows.headD Window.empty

/-- The context with its current window replaced. -/
def Ctx.setWin (x : Ctx) (w : Window) : Ctx :=
  if x.tw then { x with trapWin := w } else { x with windows := w :: x.windows.tail }

/-- Cell `k` of a window. -/
def Window.cell (w : Window) (k : Nat) : Word := Tab.get wordDflt w.cells k

/-- A cell is written: its group becomes dirty (R164). -/
def Window.write (w : Window) (k : Nat) (v : Word) : Window :=
  { w with cells := Tab.set wordDflt w.cells k v, dirty := w.dirty ||| ((1 : BitVec 4) <<< (k / 4)) }

/-- Depth of the current window. -/
def Ctx.depth (x : Ctx) : Nat := x.win.depth

/-- Cell `k` of the current window as an instruction reads it: the old content of a slot whose load lies one instruction
back in native mode (R171). -/
def Ctx.cell (x : Ctx) (k : Nat) : Word := (Assoc.lookup x.shadow k).getD (x.win.cell k)

/-- Cell `n` below T. -/
def Ctx.top (x : Ctx) (n : Nat) : Word := x.cell (x.depth - 1 - n)

/-- The context with its depth changed. -/
def Ctx.setDepth (x : Ctx) (d : Nat) : Ctx := x.setWin { x.win with depth := d }

/-- The context without its top `n` cells. Their contents stay in place (R171). -/
def Ctx.drop (x : Ctx) (n : Nat) : Ctx := x.setDepth (x.depth - n)

/-- A cell is pushed. The instruction's own result takes the place of an old content. -/
def Ctx.push (x : Ctx) (v : Word) : Ctx :=
  let w := x.win
  { x with shadow := Assoc.erase x.shadow w.depth }.setWin { (w.write w.depth v) with depth := w.depth + 1 }

/-- Cells are pushed, the first one deepest. -/
def Ctx.pushAll (x : Ctx) : List Word → Ctx
  | [] => x
  | v :: t => (x.push v).pushAll t

/-- The top `n` cells are replaced by `vs`, the first one deepest: all pops come before any push (R205). -/
def Ctx.replace (x : Ctx) (n : Nat) (vs : List Word) : Ctx := (x.drop n).pushAll vs

/-- A double cell value from high and low words (R147). -/
def dbl (hi lo : Word) : BitVec 72 := hi ++ lo

/-- The high word of a double cell. -/
def hiWord (v : BitVec 72) : Word := v.extractLsb' 36 36

/-- The low word of a double cell. -/
def loWord (v : BitVec 72) : Word := v.extractLsb' 0 36

/-- The double cell whose high word is cell `n` below T and whose low word lies below it. -/
def Ctx.dblTop (x : Ctx) (n : Nat) : BitVec 72 := dbl (x.top n) (x.top (n + 1))

/-! ## Held ledger values (R272) -/

/-- Accumulator `a` with its kerf. -/
def Ledger.acc (l : Ledger) (a : BitVec 2) : Accum := Tab.get (fun _ => {}) l.accs a.toNat

/-- The values that carry a residue: 0 to 3 the accumulators, 4 to 7 their kerfs, 8 BAL, 9 and 10 T and U of the share state. -/
def Ledger.held (l : Ledger) (k : Nat) : Int :=
  if k < 4 then (l.acc (BitVec.ofNat 2 k)).coef
  else if k < 8 then (l.acc (BitVec.ofNat 2 k)).kerf
  else if k = 8 then l.bal
  else match l.share with
    | none => 0
    | some h => if k = 9 then h.total else h.allotted

/-- The residue of a coefficient modulo 9. -/
def residue (v : Int) : Nat := (v % 9).toNat

/-- Held value `k` has the residue carried beside it. -/
def Ledger.sound (l : Ledger) (k : Nat) : Bool := l.res.getD k 0 == residue (l.held k)

/-- The values an instruction has written carry their new residues. -/
def Ledger.seal (l old : Ledger) : Ledger :=
  { l with res := (List.range 11).map fun k => if l.held k = old.held k then old.res.getD k 0 else residue (l.held k) }

/-! ## Syllable addresses (R189 to R196) -/

/-- `d` syllables after `a`, modulo 2^18 within the bank (R191). -/
def SAddr.plus (a : SAddr) (d : Nat) : SAddr := (a.extractLsb' 18 8) ++ ((a.extractLsb' 0 18) + BitVec.ofNat 18 d)

/-- `a` displaced by a signed syllable count, modulo 2^18 within the bank. -/
def SAddr.offset (a : SAddr) (d : Int) : SAddr := (a.extractLsb' 18 8) ++ ((a.extractLsb' 0 18) + BitVec.ofInt 18 d)

/-- Syllable 0 of the word `d` words from the word of `a`, within the bank (R196). -/
def SAddr.wordOffset (a : SAddr) (d : Int) : SAddr :=
  (a.extractLsb' 18 8) ++ ((a.extractLsb' 2 16) + BitVec.ofInt 16 d) ++ (0 : BitVec 2)

/-- The word address of a syllable address. -/
def SAddr.word (a : SAddr) : WAddr := a.extractLsb' 2 24

/-- Syllable 0 of a word. -/
def syl0 (w : WAddr) : SAddr := w ++ (0 : BitVec 2)

/-- The distance from `a` up to `b`, modulo 2^18. -/
def SAddr.dist (a b : SAddr) : Nat := ((b.extractLsb' 0 18) - (a.extractLsb' 0 18)).toNat

/-- A syllable lies in the body of a loop level (R173). -/
def LoopLevel.body (l : LoopLevel) (a : SAddr) : Bool :=
  (a.extractLsb' 18 8 == l.start.extractLsb' 18 8) && SAddr.dist l.start a ≤ SAddr.dist l.start l.stop

/-! ## Word addresses (R147, R157) -/

/-- `d` words after `a`, modulo 2^16 within the bank. -/
def WAddr.plus (a : WAddr) (d : Nat) : WAddr := (a.extractLsb' 16 8) ++ ((a.extractLsb' 0 16) + BitVec.ofNat 16 d)

/-- The top of the address stack. -/
def Ctx.atop (x : Ctx) : WAddr := x.astack.headD 0

/-! ## Places and access checks (R155, R156, R140) -/

/-- What an engine address names (Table ENG.4). -/
inductive Place where
  | store (a : Nat)
  | io (a : Nat)
  | deck (w : Nat)
  | rom (a : Nat)
  /-- Nothing: the ACCESS sub-code of Table ENG.13. -/
  | none (sub : Nat)
  deriving DecidableEq, Repr

/-- The place of an engine address. -/
def placeOf (a : WAddr) : Place :=
  let b := (a.extractLsb' 16 8).toNat
  let h := (a.extractLsb' 0 16).toNat
  if b = 0 then
    if h < 0x4000 then .store h else if 0x8000 ≤ h ∧ h < 0x9000 then .io h else .none 2
  else if 0x40 ≤ b ∧ b < 0x80 then .deck (deckOffset a)
  else if b = 0x80 then .rom h
  else .none 1

/-- The rows of Table ENG.5, the first that matches. -/
inductive StoreRegion where
  | own
  | overlay
  | keeper
  | other
  deriving DecidableEq, Repr

/-- The region of local store word `a` for job context `c` (Table ENG.5). -/
def Engine.region (e : Engine) (c a : Nat) : StoreRegion :=
  let base := e.lsCtxBase.toNat + 512 * c
  if base ≤ a ∧ a < base + 512 then .own
  else if (e.block c).ovlLo.toNat ≤ a ∧ a < (e.block c).ovlHi.toNat then .overlay
  else if a < e.lsKeepEnd.toNat then .keeper
  else .other

/-- The job of a context. -/
def State.jobAt (s : State) (p c : Nat) : Option Job := (s.ctx p c).job.bind s.job

/-- Job `id` holds granule `g` (R139). -/
def State.holdsGran (s : State) (id g : Nat) : Bool :=
  (match s.job id with
    | some j => j.holds.contains g || j.asked.contains g
    | none => false) || s.units.reqs.any fun r => r.2.job == id && !r.2.dead && r.2.grans.contains g

/-- Granule `g` still has a holder (R139). -/
def State.granHeld (s : State) (g : Nat) : Bool :=
  s.jobs.any (fun j => j.2.holds.contains g || j.2.asked.contains g) || s.units.reqs.any fun r => r.2.grans.contains g

/-- A job of user `i` may access granule `g` (R140). -/
def State.jobMayGran (s : State) (id : Nat) (i : BitVec 8) (g : Nat) : Bool :=
  match (s.gran g).draining with
  | some k => k == .inst i && s.holdsGran id g
  | none => (s.gran g).applied == .inst i

/-- The ACCESS sub-code of a data access to an engine address, if Table ENG.4, Table ENG.5 or R140 forbids it. The keeper reaches a
DRAINING granule while a holder is left (log entry 101). -/
def State.accessBar (s : State) (p c : Nat) (write : Bool) (a : WAddr) : Option Nat :=
  match placeOf a with
  | .none k => some k
  | .io _ => if c = 0 then none else some 3
  | .store a =>
    if c = 0 then none else
    match (s.eng p).region c a with
    | .own => none
    | .overlay => if write then some 4 else none
    | _ => some 4
  | .rom _ => if write then some 5 else none
  | .deck w =>
    let g := granuleOf w
    if c = 0 then
      let k := (s.gran g).draining.getD (s.gran g).applied
      if write ∧ (k = .period ∨ k = .mirror) then some 8
      else if (s.gran g).draining.isSome && !s.granHeld g then some 7 else none
    else match (s.ctx p c).job with
      | none => some 7
      | some id => match s.job id with
        | none => some 7
        | some j => if s.jobMayGran id j.inst g then none else some 7

/-- The first forbidden address of a list. -/
def State.accessBars (s : State) (p c : Nat) (write : Bool) : List WAddr → Option Nat
  | [] => none
  | a :: t =>
    match s.accessBar p c write a with
    | some k => some k
    | none => s.accessBars p c write t

/-- The ACCESS sub-code of a fetch, if Table ENG.4 or Table ENG.5 forbids it (Table ENG.13, sub-code 6). -/
def State.fetchBar (s : State) (p c : Nat) (a : WAddr) : Option Nat :=
  match placeOf a with
  | .none k => some k
  | .io _ => some 6
  | .deck _ => some 6
  | .rom _ => if c = 0 then none else some 6
  | .store a =>
    if c = 0 then none else
    match (s.eng p).region c a with
    | .overlay => none
    | .keeper => none
    | _ => some 6

/-- A job's first access to a granule makes it a holder (R139). -/
def State.touch (s : State) (p c : Nat) (a : WAddr) : State :=
  match placeOf a, (s.ctx p c).job with
  | .deck w, some id => s.modJob id fun j =>
      if j.holds.contains (granuleOf w) then j else { j with holds := j.holds ++ [granuleOf w] }
  | _, _ => s

/-! ## Engine-private I/O (Tables ENG.6, ENG.7, EVC.3) -/

/-- The code of a context state (Table ENG.3). -/
def CtxState.code : CtxState → Nat
  | .free => 0
  | .assigned => 1
  | .ready => 2
  | .blocked => 3
  | .sleeping => 4
  | .frozen => 5
  | .halted => 6

/-- ENG_ID. -/
def State.engId (s : State) (p : Nat) : Word :=
  BitVec.ofNat 36 (s.logicalNum p + 256 * (p % 17) + 8192 * standOf p + 131072 * bit (p % 17 == 16 && (s.logicalOf p).isSome))

/-- ENG_CTXST. -/
def Engine.ctxst (e : Engine) : Word :=
  BitVec.ofNat 36 ((List.range 8).foldl (fun v c => v + (e.ctx c).state.code * 16 ^ c) 0)

/-- Ticks of the last hour that a list of ticks holds (R426). -/
def inHour (now : Nat) (l : List Nat) : List Nat := l.filter fun t => now < t + 360000000000

/-- CLK_ISL_STAT of an engine island (Table CHK.10). -/
def Engine.islStat (e : Engine) : Nat := e.step % 64 + 64 * min 1023 e.margin + 65536 * e.isState.toNat

/-- CHK_ENG_STAT of a logical engine (Table CHK.10). -/
def State.engStat (s : State) (e : Nat) : Nat :=
  let l := s.log e
  l.phys + 32 * l.state.toNat + 128 * min 31 (inHour s.now l.retryAt).length + 4096 * min 7 (inHour s.now l.mcAt).length

/-- A field of a job start block (Table ENG.7). -/
def StartBlock.word (b : StartBlock) (k : Nat) : Word :=
  match k with
  | 0 => b.start.setWidth 36
  | 1 => b.tvb.setWidth 36
  | 2 => b.wsp.setWidth 36
  | 3 => b.wsl.setWidth 36
  | 4 => b.mode.setWidth 36
  | 5 => b.cb.setWidth 36
  | 6 => b.ovlLo.setWidth 36
  | 7 => b.ovlHi.setWidth 36
  | _ => 0

/-- The value of an engine-private I/O word; an unassigned word reads 0 (R159). -/
def State.ioValue (s : State) (p a : Nat) : Word :=
  let e := s.eng p
  if a = 0x8000 then s.engId p
  else if a = 0x8001 then e.ctxst
  else if a = 0x8002 then e.goErr.setWidth 36
  else if a = 0x8010 then e.lsKeepEnd.setWidth 36
  else if a = 0x8011 then e.lsOvlEnd.setWidth 36
  else if a = 0x8012 then e.lsCtxBase.setWidth 36
  else if a = 0x8020 then e.wdtLoad.setWidth 36
  else if a = 0x8022 then BitVec.ofNat 36 (e.wdt.left s.now)
  else if 0x8090 ≤ a ∧ a < 0x8100 then (e.block ((a - 0x8080) / 16)).word (a % 16)
  else if 0x8100 ≤ a ∧ a < 0x8121 then s.pendWord p (a - 0x8100)
  else if a = 0x8121 then e.levelWord
  else if a = 0x8122 then e.ivec.setWidth 36
  else if a = 0x8123 then BitVec.ofNat 36 (bit e.ie)
  else if a = 0x8124 then e.disp.setWidth 36
  else if 0x8130 ≤ a ∧ a < 0x8140 then BitVec.ofNat 36 ((e.pstack.reverse).getD (a - 0x8130) 0)
  else if a = 0x8200 then BitVec.ofNat 36 e.mbox.length
  else if a = 0x8201 then e.mbRefused.setWidth 36
  else if a = 0x8300 then BitVec.ofNat 36 e.islStat
  else if a = 0x8301 then match s.logicalOf p with
    | some l => BitVec.ofNat 36 (s.engStat l)
    | none => 0
  else 0

/-- A read of an engine-private I/O word clears it when its access code is RC (R212). -/
def State.ioClear (s : State) (p a : Nat) : State :=
  if a = 0x8002 then s.modEng p fun e => { e with goErr := 0 }
  else if a = 0x8201 then s.modEng p fun e => { e with mbRefused := 0 }
  else s

/-- The watchdog is loaded (R186): 0 disables it, WDT_LEFT reads 0 from then on, and a later WDT_LOAD that is not 0 loads it again (log
entry 130: DESIGN CHOICE). On a halted engine it stands unless DBG_WDT_RUN.RUN is 1 (R458). -/
def Engine.kick (e : Engine) (now : Nat) (run : Bool) : Engine :=
  { e with wdt := if e.wdtLoad = 0 then .off else if e.halted && !run then .paused e.wdtLoad.toNat
                  else .until (now + e.wdtLoad.toNat) }

/-- GO for job context `c` (R153): START, TVB, WSP, WSL, MODE and CB are loaded, the job timer runs, and the context
becomes READY. A GO to a context that is not ASSIGNED is ignored and counted. -/
def State.go (s : State) (p c : Nat) : State :=
  let e := s.eng p
  let x := e.ctx c
  if x.state ≠ .assigned then s.putEng p { e with goErr := satInc e.goErr } else
  let b := e.block c
  let lim := match s.jobAt p c with
    | some j => j.snap.limit.toNat
    | none => 0
  let x := { x with
    pc := b.start, tvb := b.tvb, wsp := b.wsp, wsl := b.wsl, mode := b.mode, cb := b.cb, state := .ready
    jobTimer := if lim = 0 then .off else .until (s.now + lim) }
  let s := s.putEng p (e.putCtx c x)
  match x.job with
  | some id => s.modJob id fun j => { j with lastEng := BitVec.ofNat 8 (s.logicalNum p), lastCtx := BitVec.ofNat 3 c }
  | none => s

/-- A field of a job start block is written. -/
def StartBlock.set (b : StartBlock) (k : Nat) (w : Word) : StartBlock :=
  match k with
  | 0 => { b with start := w.setWidth 26 }
  | 1 => { b with tvb := w.setWidth 24 }
  | 2 => { b with wsp := w.setWidth 14 }
  | 3 => { b with wsl := w.setWidth 14 }
  | 4 => { b with mode := w.setWidth 4 }
  | 5 => { b with cb := w.setWidth 8 }
  | 6 => { b with ovlLo := w.setWidth 14 }
  | 7 => { b with ovlHi := w.setWidth 14 }
  | _ => b

/-- A write to an engine-private I/O word; one to an unassigned word is ignored (R159). WDT_LOAD 0 makes WDT_LEFT read 0 at once, and a
value after it loads the watchdog (log entry 130: DESIGN CHOICE). -/
def State.ioWrite (s : State) (p a : Nat) (w : Word) : State :=
  if a = 0x8010 then s.modEng p fun e => { e with lsKeepEnd := w.setWidth 14 }
  else if a = 0x8011 then s.modEng p fun e => { e with lsOvlEnd := w.setWidth 14 }
  else if a = 0x8012 then s.modEng p fun e => { e with lsCtxBase := w.setWidth 14 }
  else if a = 0x8020 then s.modEng p fun e =>
    let e := { e with wdtLoad := w.setWidth 24 }
    if e.wdtLoad = 0 then { e with wdt := .off } else if e.wdt = .off then e.kick s.now s.dbg.wdtRun else e
  else if a = 0x8021 then s.modEng p fun e => e.kick s.now s.dbg.wdtRun
  else if 0x8090 ≤ a ∧ a < 0x8100 then
    let c := (a - 0x8080) / 16
    if a % 16 = 8 then (if w.getLsbD 0 then s.go p c else s)
    else s.modEng p fun e => { e with blocks := Tab.put e.blocks c ((e.block c).set (a % 16) w) }
  else if a = 0x8122 then s.modEng p fun e => { e with ivec := w.setWidth 24 }
  else if a = 0x8123 then s.setIe p (w.getLsbD 0)
  else if a = 0x8124 then s.modEng p fun e => { e with disp := e.disp &&& ~~~(w.setWidth 8) }
  else s

/-! ## Words in memory -/

/-- The word that an enabled patch unit puts in place of a service ROM word (R459). -/
def State.romPatch (s : State) (p a : Nat) : Option Word :=
  (s.dbg.units.find? fun u => u.1 / 16 == standOf p && u.2.en && u.2.addr.toNat == a).map (·.2.word)

/-- A service ROM word as the stand's engines see it (R459). -/
def State.romWord (s : State) (p a : Nat) : Word := (s.romPatch p a).getD (Config.serviceRom a)

/-- The word at an engine address, without its side effect. -/
def State.wordAt (s : State) (p : Nat) (a : WAddr) : Word :=
  match placeOf a with
  | .store k => (s.eng p).word k
  | .io k => s.ioValue p k
  | .deck w => s.deck w
  | .rom k => s.romWord p k
  | .none _ => 0

/-- The ECC_UNCORR sub-code of a data read of an uncorrectable word (R210, R429). Table ENG.11 names none for service ROM data, which takes
that of local store data here (log entry 95); a patched word carries no ECC (R459). -/
def State.eccBar (s : State) (p : Nat) (a : WAddr) : Option Nat :=
  match placeOf a with
  | .store k => if (s.eng p).bad.contains k then some 1 else none
  | .deck w => if s.ldk.bad.contains w then some 2 else none
  | .rom k => if s.chk.romBad.contains (standOf p, k) && (s.romPatch p k).isNone then some 1 else none
  | _ => none

/-- A word of a memory without a counter register was corrected: memory code of Table CHK.11 (R429, Table CHK.2). -/
def State.countCorrected (s : State) (memory : Nat) : State :=
  { s with chk := { s.chk with corrected := Assoc.insert s.chk.corrected memory ((Assoc.lookup s.chk.corrected memory).getD 0 + 1) } }

/-- A read of an engine address was corrected, written back and counted (R143, Table CHK.2). -/
def State.correctedAt (s : State) (a : WAddr) : State :=
  match placeOf a with
  | .store _ => s.countCorrected 1
  | .deck _ => { s with ldk := { s.ldk with ce := satInc s.ldk.ce } }
  | _ => s

/-- The first uncorrectable word of a list. -/
def State.eccBars (s : State) (p : Nat) : List WAddr → Option Nat
  | [] => none
  | a :: t =>
    match s.eccBar p a with
    | some k => some k
    | none => s.eccBars p t

/-- A whole word is written at an engine address. -/
def State.putWord (s : State) (p c : Nat) (a : WAddr) (w : Word) : State :=
  match placeOf a with
  | .store k => s.modEng p fun e => e.putWord k w
  | .io k => s.ioWrite p k w
  | .deck k => s.putDeck (some (p, c)) k w
  | _ => s

/-- Words are written one after another from an address, within its bank. -/
def State.putWords (s : State) (p c : Nat) (a : WAddr) : List Word → State
  | [] => s
  | w :: t => (s.putWord p c a w).putWords p c (WAddr.plus a 1) t

/-- What a store leaves in the bytes that it does not write: the word as it stands, and 0 where a 1 written would act (R6:
EVT_LOCAL is W1C). -/
def State.under (s : State) (p : Nat) (a : WAddr) : Word := if placeOf a = .io 0x8124 then 0 else s.wordAt p a

/-- Bytes of a word are written: a word that is not written whole keeps its uncorrectable mark (R212). -/
def State.putBytes (s : State) (p c : Nat) (a : WAddr) (bytes : List Bool) (w : Word) : State :=
  if bytes.all id then s.putWord p c a w else
  let old := s.under p a
  let new := (List.range 4).foldl (fun v i => if bytes.getD i false then setWordByte v i (wordByte w i) else v) old
  let wasBad := (s.eccBar p a).isSome
  let s := s.putWord p c a new
  if !wasBad then s else
  match placeOf a with
  | .store k => s.modEng p fun e => { e with bad := k :: e.bad }
  | .deck k => { s with ldk := { s.ldk with bad := k :: s.ldk.bad } }
  | _ => s

/-! ## The store buffer (R308, R310) -/

/-- All four bytes. -/
def fullWord : List Bool := [true, true, true, true]

/-- Byte masks overlap. -/
def bytesMeet (a b : List Bool) : Bool := (List.range 4).any fun i => a.getD i false && b.getD i false

/-- The youngest entry that overlaps bytes of a word. The buffer is oldest first. -/
def youngest (b : List StoreEntry) (a : WAddr) (bytes : List Bool) : Option StoreEntry :=
  b.reverse.find? fun x => x.addr == a && bytesMeet x.bytes bytes

/-- A word as a load sees it (R310): forwarded on an exact overlap (`true`), from memory with no overlap, and a wait on
a partial one. -/
def State.loadWord (s : State) (p : Nat) (a : WAddr) (bytes : List Bool) : Res (Word × Bool) :=
  match youngest (s.eng p).sbuf a bytes with
  | none => .ok (s.wordAt p a, false)
  | some x => if x.bytes = bytes then .ok (x.data, true) else .wait

/-- Stores enter the buffer together, or wait for room (R183, R308). -/
def State.enqueue (s : State) (p : Nat) (l : List StoreEntry) : Res State :=
  let e := s.eng p
  if 4 < e.sbuf.length + l.length then .wait else .ok (s.putEng p { e with sbuf := e.sbuf ++ l })

/-- The oldest entry drains: the memory write happens (R212, R308). -/
def State.drainOne (s : State) (p : Nat) : State :=
  let e := s.eng p
  match e.sbuf with
  | [] => s
  | x :: t => (s.putEng p { e with sbuf := t }).putBytes p x.ctx x.addr x.bytes x.data

/-- Every entry drains, oldest first. -/
def State.drainAll (s : State) (p : Nat) : State := (s.eng p).sbuf.foldl (fun t _ => t.drainOne p) s

end Sys2Proof.Machine
end

