-- ==== Sys2Proof/Machine/Engine.lean ====
section
/-!
DEFINITION. What happens to engines and contexts around instructions: scheduling (R152, R216), halts (R453 to R458), trap
entry and delivered traps (R175 to R181), machine checks (R182, R435), register errors, substitution and removal (R426
to R434), loop levels (R173, R197), and blaze trace (R460).
-/

namespace Sys2Proof.Machine

/-! ## Scheduling (R152, R216) -/

/-- The scheduler level of a context (R126, R152): the keeper ranks at 0. -/
def State.schedLevel (s : State) (p c : Nat) : Nat :=
  match s.jobAt p c with
  | some j => j.snap.prio.toNat
  | none => 0

/-- No micro-routine runs but one of the keeper's own entries, which goes on (R324). -/
def Engine.entryFree (e : Engine) : Bool :=
  match e.micro.busy with
  | none => true
  | some r => r == (0, Routine.deliveredEntry.number) || r == (0, Routine.interruptEntry.number)

/-- No micro-routine runs but one of context `c`, which goes on (R324). -/
def Engine.routineFree (e : Engine) (c : Nat) : Bool :=
  match e.micro.busy with
  | none => true
  | some r => r.1 == c && r.2 < Routine.deliveredEntry.number

/-- The keeper takes a delivered trap or an interrupt at this boundary (R181, R371). -/
def State.entryDue (s : State) (p : Nat) : Bool :=
  let e := s.eng p
  let k := e.ctx 0
  s.clocked && e.running && e.substPend.isNone && k.state == .ready && k.memWait.isNone && e.slot.isNone && e.entryFree &&
    ((!e.delivered.isEmpty && !k.tw) || s.irqDue p)

/-- A context has a locked sequence open: a log deck reservation that another accessor or an eviction broke has ended it
(R141, R215), one that a deferred halt broke has not (R454). -/
def State.lockOpen (s : State) (p c : Nat) : Bool :=
  match (s.ctx p c).lock with
  | none => false
  | some l => !l.inDeck || l.broken || s.ldk.resv.contains (l.line, p, c)

/-- Job context with an open locked sequence, if any (R216). -/
def State.lockHolder (s : State) (p : Nat) : Option Nat := ((List.range 8).drop 1).find? fun c => s.lockOpen p c

/-- A context's LOCK waits for its data (R304): a HALT counts its sequence as open (R454). -/
def Ctx.locking (x : Ctx) : Bool :=
  match x.memWait with
  | some (.lock ..) => true
  | _ => false

/-- Context `c` stands inside a locked sequence, from the issue of its LOCK on. -/
def State.inLock (s : State) (p c : Nat) : Bool := s.lockOpen p c || (s.ctx p c).locking

/-- Some context of an engine stands inside a locked sequence. -/
def State.locked (s : State) (p : Nat) : Bool := (List.range 8).any fun c => s.inLock p c

/-- No other job context of the engine has a sequence open (R216). -/
def State.lockFree (s : State) (p c : Nat) : Bool := c == 0 || s.lockHolder p == none || s.lockHolder p == some c

/-- Context `c` can issue: READY, without data on its way. -/
def Engine.canIssue (e : Engine) (c : Nat) : Bool := (e.ctx c).state == .ready && (e.ctx c).memWait.isNone

/-- The context that issues at this boundary (R152). -/
def State.picked (s : State) (p : Nat) : Option Nat :=
  let e := s.eng p
  if e.canIssue 0 && s.keeperPending p then some 0 else
  let cs := (List.range 8).filter fun c => e.canIssue c && s.lockFree p c
  let best := cs.foldl (fun m c => max m (s.schedLevel p c)) 0
  let order := (List.range 8).map fun k => (e.lastIssued + 1 + k) % 8
  order.find? fun c => cs.contains c && s.schedLevel p c == best

/-- Context `c` of engine `p` issues at this boundary. A delay slot follows its branch with no boundary between (R172), and a
micro-routine that has not ended goes on (R324); a step runs the stepped context alone (R455), behind an open sequence of another
job context (R216). -/
def State.mayIssue (s : State) (p c : Nat) : Bool :=
  let e := s.eng p
  s.clocked && e.running && e.canIssue c && (e.substPend.isNone || e.slot.isSome) && e.routineFree c &&
    match e.slot with
    | some d => d.ctx == c
    | none => e.micro.busy.isSome || (!s.entryDue p &&
        ((e.stepping == some c && s.lockFree p c) || (!e.halted && s.picked p == some c)))

/-! ## Timers around a halt (R458) -/

/-- A timer that runs on after a halt holds at least 4,096 ticks. -/
def Timer.raise (x : Timer) (now : Nat) : Timer :=
  match x with
  | .until d => if d < now + 4096 then .until (max d (if d ≤ now then d else now + 4096)) else x
  | .paused l => .until (now + max l 4096)
  | .off => .off

/-! ## Halts (R453 to R457) -/

/-- A context is halted; its job timer stops unless DBG_WDT_RUN.RUN is 1. What it issues next does not follow a load at once (R171,
R303). -/
def Ctx.halt (x : Ctx) (now : Nat) (run : Bool) : Ctx :=
  if x.state = .halted then x else
  { x with state := .halted, haltedFrom := x.state, shadow := [], jobTimer := if run then x.jobTimer else x.jobTimer.pause now }

/-- The context returns to the state it would have (R453). -/
def Ctx.unhalt (x : Ctx) (now : Nat) : Ctx :=
  if x.state ≠ .halted then x else
  let st := if x.waitDone then .ready else x.haltedFrom
  { x with state := st, haltedFrom := .free, waitDone := false, jobTimer := x.jobTimer.raise now }

/-- Every context of an engine halts; the signalled sources are withdrawn and source 706 fires (R453). A halt for a
reason other than a step blazes. -/
def State.haltNow (s : State) (p : Nat) : State :=
  let run := s.dbg.wdtRun
  let ns := s.signalled p
  let e := s.eng p
  let e := (List.range 8).foldl (fun e c => e.putCtx c ((e.ctx c).halt s.now run)) e
  let e := { e with halted := true, haltPend := false, stepping := none, wdt := if run then e.wdt else e.wdt.pause s.now }
  (((s.putEng p e).blaze p 0 5 (e.ctx 0).pc 0).reroute ns).arrive 706

/-- The trigger groups that a halting engine fires (R457). -/
def State.haltOuts (s : State) (l : Nat) : List Nat :=
  (List.range 8).filter fun g => (Tab.get groupDflt s.dbg.groups (256 * g + l)).2

/-- A group fires: its halt-in members halt, or wait for their boundary outside a locked sequence. The groups that the members which
halt at once fire in turn (R457). -/
def State.fireGroup (s : State) (g : Nat) : State × List Nat :=
  let s := ({ s with dbg := { s.dbg with fired := s.dbg.fired ||| ((1 : BitVec 8) <<< g) } }).arrive 708
  let ms := (s.dbg.groups.filter fun x => x.1 / 256 == g && x.2.1).map fun x => x.1 % 256
  ms.foldl (fun u l =>
    let p := u.1.physOf l
    let e := u.1.eng p
    if !u.1.inService l || e.halted then u
    else if u.1.locked p || e.slot.isSome || e.micro.busy.isSome || !e.running then
      (u.1.modEng p fun e => { e with haltPend := true }, u.2)
    else (u.1.haltNow p, u.2 ++ u.1.haltOuts l)) (s, [])

/-- Groups fire one after another, and with them the groups that they make fire. An engine halts once, and it fires at most 8 groups:
`allFirings` are enough. -/
def State.fireGroups : (fuel : Nat) → State → List Nat → State
  | 0, s, _ => s
  | _ + 1, s, [] => s
  | f + 1, s, g :: t => State.fireGroups f (s.fireGroup g).1 (t ++ (s.fireGroup g).2)

/-- As many firings as 256 engines and one packet or halt can cause. -/
def allFirings : Nat := 8 * 256 + 8

/-- An engine halts at its boundary; its halt-out groups fire (R453, R457). -/
def State.haltEngine (s : State) (p : Nat) : State :=
  if (s.eng p).halted then s else
  match s.logicalOf p with
  | some l => State.fireGroups allFirings (s.haltNow p) (s.haltOuts l)
  | none => s.haltNow p

/-- Contexts that a HALT in field scope names halt outside their locked sequences (R450). -/
def State.haltCtxs (s : State) (p : Nat) : State :=
  if (s.eng p).slot.isSome || (s.eng p).micro.busy.isSome then s else
  (List.range 8).foldl (fun t c =>
    let x := t.ctx p c
    if x.haltPend && !t.inLock p c then t.putCtx p c { x.halt t.now t.dbg.wdtRun with haltPend := false } else t) s

/-- A HALT that waits takes effect at the first boundary outside a locked sequence (R453, R454). -/
def State.settleHalt (s : State) (p : Nat) : State :=
  let s := if (List.range 8).any fun c => (s.ctx p c).haltPend then s.haltCtxs p else s
  let e := s.eng p
  if e.haltPend && e.slot.isNone && e.micro.busy.isNone && !s.locked p then s.haltEngine p else s

/-! ## Locked sequences (R213 to R215) -/

/-- A sequence ends and its reservation is released. -/
def State.endLock (s : State) (p c : Nat) : State :=
  let s := { s with ldk := { s.ldk with resv := s.ldk.resv.filter fun r => r.2 != (p, c) } }
  s.modCtx p c fun x => { x with lock := none }

/-- Every sequence of an engine's contexts ends: the keeper takes an entry (R215). -/
def State.endLocks (s : State) (p : Nat) : State :=
  let held := (List.range 8).filter fun c => ((s.eng p).ctx c).lock.isSome
  held.foldl (fun t c => t.endLock p c) s

/-! ## Entries (R167, R169, R177, R178) -/

/-- Bits of MODE (Table ENG.9). -/
def Ctx.fr (x : Ctx) : Bool := x.mode.getLsbD 0
/-- Subnormal handling. -/
def Ctx.fsub (x : Ctx) : Bool := x.mode.getLsbD 1
/-- Return-stack overflow wraps. -/
def Ctx.rsov (x : Ctx) : Bool := x.mode.getLsbD 2
/-- Logic instructions leave C and V. -/
def Ctx.flk (x : Ctx) : Bool := x.mode.getLsbD 3

/-- A MODE change: for each bit set in `m`, the bit of `v`. -/
def setMode (old m v : BitVec 4) : BitVec 4 := (old &&& ~~~m) ||| (v &&& m)

/-- Pending MODE changes take effect at an entry (R169). -/
def Ctx.applyModes (x : Ctx) : Ctx :=
  { x with mode := x.modePend.foldl (fun o p => setMode o p.2.1 p.2.2) x.mode, modePend := [] }

/-- A push onto the return stack; in wrap mode a 33rd entry discards the oldest (R167). -/
def Ctx.rpush (x : Ctx) (a : SAddr) : Ctx := { x with rstack := (a :: x.rstack).take 32 }

/-- The flags entry (Table ENG.12). -/
def Ctx.flagsEntry (x : Ctx) : SAddr :=
  BitVec.ofNat 26 (bit x.c + 2 * bit x.v + 4 * bit x.z + 8 * bit x.n + 16 * bit x.tw + 32 * bit x.rep.isSome +
    64 * (x.rep.getD 0).toNat)

/-- There is return-stack room for an entry (R167). -/
def Ctx.entryRoom (x : Ctx) : Bool := x.rsov || x.rstack.length ≤ 30

/-- The part that trap entry and interrupt entry share: pending MODE changes, the two return-stack entries, and the
context stopped in nothing (R167, R169, R174). -/
def Ctx.enter (x : Ctx) (resume : SAddr) : Ctx :=
  let x := x.applyModes
  { ((x.rpush resume).rpush x.flagsEntry) with rep := none, shadow := [], lock := none }

/-- The trap word (Table ENG.12). -/
def trapWord (code sub ctx : Nat) (split : Bool) (first : Nat) : Word :=
  BitVec.ofNat 36 (code % 32 + 32 * (sub % 256) + 8192 * (ctx % 8) + 65536 * bit split + 131072 * (first % 32))

/-- The trap window opens with the faulting syllable address as N and the trap word as T, and the handler starts
(R177). -/
def Ctx.trapEntry (x : Ctx) (resume : SAddr) (n t : Word) (code : Nat) : Ctx :=
  let x := x.enter resume
  let x := { x with tw := true, twCause := code, trapWin := Window.empty }
  { ((x.push n).push t) with pc := syl0 (WAddr.plus x.tvb (4 * code)) }

/-- RETI's part after the pops: flags, TW and the REP state from the entry; a trap window that closes is discarded
(R178). -/
def Ctx.leave (x : Ctx) (e : SAddr) : Ctx :=
  let tw := e.getLsbD 4
  let x := { x with
    c := e.getLsbD 0, v := e.getLsbD 1, z := e.getLsbD 2, n := e.getLsbD 3
    rep := if e.getLsbD 5 then some (e.extractLsb' 6 8) else none }
  if x.tw && !tw then { x with tw := false, trapWin := Window.empty } else { x with tw := tw }

/-! ## Delivered traps and the end of a frozen context's job (R179 to R181) -/

/-- Deliveries stay in context order: the lowest context is taken first (R181). -/
def deliverInto (l : List Delivered) (d : Delivered) : List Delivered :=
  (l.filter fun x => x.ctx < d.ctx) ++ d :: l.filter fun x => !(x.ctx < d.ctx)

/-- A job context is FROZEN, its wait is abandoned, and a trap is delivered to the keeper, which wakes (R179, R180). Its XFERs end
here: reads that are out are dropped when they return (R97; for DOUBLE_FAULT log entry 124). -/
def State.freeze (s : State) (p c : Nat) (word : Word) : State :=
  let job := (s.ctx p c).job
  let s := ((s.endLock p c).killExt p c).dropReads (fun q => match q with
      | .xfer j _ _ => job == some j
      | _ => false) false
  let s := { s with units := { s.units with waiting := s.units.waiting.filter (· != (p, c)) } }
  let s := s.modEng p fun e =>
    let x := e.ctx c
    let e := e.putCtx c { x with
      state := .frozen, wait := .nothing, waitDone := false, memWait := none, memAt := [], memGot := []
      xfers := [], jobTimer := .off, shadow := [], haltedFrom := .free }
    { e with
      micro := { e.micro with busy := e.micro.busy.filter fun r => r.1 != c }
      delivered := deliverInto e.delivered ⟨c, word, x.pc⟩, slot := e.slot.filter fun d => d.ctx != c }
  s.wakeKeeper p

/-! ## Affinity after a stand changes (R128, R130, R434) -/

/-- The stands that hold a logical engine. -/
def State.standMask (s : State) : BitVec 16 :=
  (List.range 16).foldl (fun m d => if s.standLive d then m ||| ((1 : BitVec 16) <<< d) else m) 0

/-- A stand lost its last logical engine: the affinity table's back copy is rebuilt (R128). -/
def State.rebuildAffinity (s : State) : State := { s with dsp := { s.dsp with affBack := some s.standMask, affReady := none } }

/-- A fatal cause is set (Table CHK.4). -/
def State.setFatal (s : State) (k : Nat) : State :=
  ({ s with chk := { s.chk with fatal := s.chk.fatal ||| ((1 : BitVec 7) <<< k) } }).settleFence

/-! ## Removal, substitution, machine checks -/

/-- The jobs on an engine that have not sealed go back to ACCEPTED (R112, R134). -/
def State.returnJobs (s : State) (p : Nat) : State :=
  let ids := (s.jobs.filter fun x => match x.2.place with
    | some q => q.1 == p
    | none => false).map (·.1)
  ids.foldl State.returnJob s

/-- The line reservations of an engine go with it. -/
def State.dropReserved (s : State) (p : Nat) : State :=
  { s with ldk := { s.ldk with resv := s.ldk.resv.filter fun r => r.2.1 != p } }

/-- An engine out of service: power-gated, and RETIRED after a cruise retirement (R434, R439). -/
def Engine.gone (e : Engine) (trigger : Nat) : Engine :=
  { e with
    running := false, isState := if trigger = 4 then 2 else 1, slot := none, stepping := none, substPend := none, ctxs := []
    checking := false, micro := {}, delivered := [], haltPend := false, halted := false, sbuf := [] }

/-- An engine is removed (R434). -/
def State.removeEngine (s : State) (p trigger : Nat) : State :=
  match s.logicalOf p with
  | none => s
  | some l =>
    let ns := s.signalled p
    let s := s.returnJobs p
    let s := s.putLog l { s.log l with state := 2 }
    let s := s.modEng p fun e => e.gone trigger
    let s := (s.dropReserved p).reroute ns
    let d := standOf p
    let s := s.putSpare d { s.spare d with removed := (s.spare d).removed + 1 }
    let s := ((s.arrive (528 + d)).attn 3).recordGlobal 8 2 none (d, l, 0xFF) trigger p
    let s := if s.standLive d then s else s.rebuildAffinity
    if s.liveEngines = 0 then s.setFatal 5 else s

/-- Island 17s + 16: the coppice engine of a stand. -/
def coppiceOf (d : Nat) : Nat := 17 * d + 16

/-- Steps 1 and 2 of Table CHK.3 begin: the engine stops, checked stores drain, source 544 + s fires and the SUBST record
is written (R431, R432). -/
def State.beginSubst (s : State) (p trigger : Nat) : State :=
  let d := standOf p
  match s.logicalOf p with
  | none => s
  | some l =>
    let s := (s.drainAll p).modEng p fun e => { e with running := false, substPend := none, slot := none }
    let s := s.putSpare d { s.spare d with copying := some (l, trigger) }
    (s.arrive (544 + d)).recordGlobal 7 1 none (d, l, 0xFF) trigger p

/-- The spare of a stand is READY and not being filled. -/
def State.spareReady (s : State) (d : Nat) : Bool := (s.spare d).st == 0 && (s.spare d).copying.isNone

/-- A substitution or a removal waits: for RESUME or STEP while the engine is halted, for a branch's slot, or for the end of a
micro-routine (R324, R456). -/
def Engine.held (e : Engine) : Bool := (e.halted && e.stepping.isNone) || e.slot.isSome || e.micro.busy.isSome

/-- The trigger that waits when another one strikes: a third failure, a retirement or machine checks stand (R426, R434). -/
def Engine.trigger (e : Engine) (t : Nat) : Nat :=
  match e.substPend with
  | some k => if k = 1 ∨ k = 4 ∨ k = 5 then k else t
  | none => t

/-- A substitution or a removal follows at the engine's boundary (R430, R434): a substitution waits for
COPPICE_SUBSTITUTION, and a removal for RESUME when the engine is halted, or for a branch and its slot (R456). -/
def State.replaceEngine (s : State) (p trigger : Nat) : State :=
  let e := s.eng p
  if e.held || s.spareReady (standOf p) then s.modEng p fun e => { e with substPend := some (e.trigger trigger) }
  else s.removeEngine p trigger

/-- A planned substitution; without a READY spare only the attention cause SPARE follows (R426, R428). -/
def State.planSubst (s : State) (p trigger : Nat) : State :=
  if s.spareReady (standOf p) then s.replaceEngine p trigger else s.attn 2

/-- A substitution finds the spare not READY: the engine is removed after a third failure, a retirement or machine checks,
and else only the attention cause SPARE follows (R426, R428, R434, R439, R435). -/
def State.withoutSpare (s : State) (p trigger : Nat) : State :=
  let s := s.modEng p fun e => { e with substPend := none }
  if trigger = 1 ∨ trigger = 4 ∨ trigger = 5 then s.removeEngine p trigger else s.attn 2

/-- What waited for a boundary runs now, where no spare is READY (R434, R456). -/
def State.settleSubst (s : State) (p : Nat) : State :=
  let e := s.eng p
  match e.substPend with
  | some t => if e.held || s.spareReady (standOf p) then s else s.withoutSpare p t
  | none => s

/-! ## RESUME and DETACH (R451, R453, R458) -/

/-- The contexts of an engine return to the states they would have (R453). -/
def Engine.unhalt (e : Engine) (now : Nat) : Engine :=
  (List.range 8).foldl (fun e c => e.putCtx c ((e.ctx c).unhalt now)) e

/-- RESUME: the engine runs on; a HALT that waits is withdrawn. -/
def State.resumeEngine (s : State) (p : Nat) : State :=
  let e := s.eng p
  if !e.halted then s.putEng p { e with haltPend := false } else
  let pc := (e.ctx 0).pc
  let e := { e.unhalt s.now with halted := false, haltPend := false, stepping := none, wdt := e.wdt.raise s.now }
  ((((s.putEng p e).blaze p 0 6 pc 0).arrive 707).redeliver).settleSubst p

/-- Every engine and context that the debugger halted goes on. -/
def State.resumeAll (s : State) : State :=
  s.engines.foldl (fun t x =>
    if (t.eng x.1).halted || (t.eng x.1).haltPend then t.resumeEngine x.1
    else t.modEng x.1 fun e =>
      { (List.range 8).foldl (fun e c => e.putCtx c { (e.ctx c).unhalt s.now with haltPend := false }) e with stepping := none }) s

/-- DETACH (R451). -/
def State.detach (s : State) : State :=
  let s := s.resumeAll
  ({ s with dbg := { s.dbg with attached := false, path := .wire, scope := 0, inst := 0, groups := [] } }).arrive 705

/-! ## The keeper restart -/

/-- The keeper starts again from the service ROM (R182, Table EVC.3); its overlays are rebuilt by firmware, and its watchdog is loaded
(log entry 130: DESIGN CHOICE). On a halted engine it waits for RESUME or STEP like every context. -/
def State.restartKeeper (s : State) (p : Nat) : State :=
  let s := (s.endLocks p).clearKeeperEvents p
  let s := s.killExt p 0
  s.modEng p fun e =>
    let e := { e with slot := none, delivered := [], overlays := [] }
    let k : Ctx := { extGen := (e.ctx 0).extGen, state := .ready, pc := Config.keeperEntry }
    (e.putCtx 0 (if e.halted then { k with state := .halted, haltedFrom := .ready } else k)).kick s.now s.dbg.wdtRun

/-! ## What a patched routine leaves (R320, R324, log entry 53) -/

/-- A free number of `n` words, below a bound. -/
def freeInt (k n bound : Nat) : Int :=
  let v := (List.range n).foldl (fun (v : Nat) i => v * 2 ^ 36 + (Config.freeWord (k + i)).toNat) 0
  (if Config.freeChoice k then -1 else 1) * (v % bound : Nat)

/-- The ledger state that an END word may write: accumulators, kerfs, BAL and the status word, as free values. -/
def Ledger.free (l : Ledger) (k : Nat) : Ledger :=
  let acc := fun (m : List (Nat × Accum)) a =>
    Tab.set (fun _ => {}) m a { l.acc (BitVec.ofNat 2 a) with
      coef := freeInt (k + 20 * a) 10 (10 ^ 98), kerf := freeInt (k + 20 * a + 10) 5 (10 ^ 44) }
  ({ l with accs := (List.range 4).foldl acc l.accs, bal := freeInt (k + 80) 10 (10 ^ 98), status := Config.freeWord (k + 90) }).seal l

/-- What an END word may write of a context: the cells and the depths of its stacks, flags, accumulators, kerfs, BAL and status words,
as free values from draw `k` on. -/
def Ctx.freed (x : Ctx) (k : Nat) : Ctx :=
  let w := fun i => Config.freeWord (k + i)
  let x := x.setWin
    { cells := (List.range 16).foldl (fun m i => Tab.set wordDflt m i (w i)) [], depth := (w 16).toNat % 17, dirty := 15 }
  { x with
    astack := (List.range ((w 17).toNat % 9)).map fun i => (w (18 + i)).setWidth 24
    c := (w 26).getLsbD 0, v := (w 26).getLsbD 1, z := (w 26).getLsbD 2, n := (w 26).getLsbD 3
    ledger := x.ledger.free (k + 32), fpu := { x.fpu with status := w 27 } }

/-- A store buffer entry that an END word may write: to a free word of the bank that its BNK names, where the context may write. -/
def State.freeStore (s : State) (p c k : Nat) : State :=
  let e := s.eng p
  let a : WAddr := e.micro.bank ++ (Config.freeWord k).extractLsb' 0 16
  if Config.freeChoice k && e.sbuf.length < 4 && (s.accessBar p c true a).isNone then
    s.putEng p { e with sbuf := e.sbuf ++ [⟨a, fullWord, Config.freeWord (k + 1), c, false⟩] }
  else s

/-- The END word of a routine in which a word of patch RAM has run: what it writes is open, since the codes of its fields are not
printed. -/
def State.freed (s : State) (p c : Nat) : State :=
  ({ s with draws := s.draws + 160 }.freeStore p c (s.draws + 150)).modCtx p c fun x => x.freed s.draws

/-- The third attempt failed (R427): the instruction takes no effect, and the engine is substituted or removed. -/
def State.checkFailed (s : State) (p c row : Nat) (pc : SAddr) : State :=
  let s := s.recordGlobal 6 2 ((s.jobAt p c).map (·.inst)) (s.place p c) row pc.toNat (putNum 32 1 3)
  s.replaceEngine p 1

/-- The ECC_UE record of an uncorrectable word, with the attention cause; a log deck word's record also goes to its
owner (R143, R429, Table CHK.11). -/
def State.recordUe (s : State) (memory addr found : Nat) (owner : Option (BitVec 8)) : State :=
  (s.attn 4).recordBoth 4 2 owner noPlace memory addr (putNum 32 1 found)

/-- An uncorrectable microword is counted and recorded once (R327, R429). -/
def State.badMicro (s : State) (d a found : Nat) : State :=
  if s.mcs.bad.contains (d, a) then s
  else ({ s with mcs := { s.mcs with ue := satInc s.mcs.ue, bad := (d, a) :: s.mcs.bad } }).recordUe 4 a found none

/-- The working sub-code register of an engine. -/
def Engine.subCode (e : Engine) : Nat := e.micro.sub.toNat

/-- An engine machine check (R182, R435). The keeper restart is a micro-routine (Table MCS.1): a fault of its own is a further
machine check, the fourth within an hour replaces the engine, and a trap that it requests is `trap`. -/
def State.machineCheckBy (trap : State → (code sub : Nat) → State) : (fuel : Nat) → State → (p cause : Nat) → State
  | 0, s, p, _ => s.restartKeeper p
  | f + 1, s, p, cause =>
    match s.logicalOf p with
    | none => s
    | some l =>
      let x := s.log l
      let recent := inHour s.now x.mcAt ++ [s.now]
      let s := s.putLog l { x with mcAt := recent }
      let d := standOf p
      let pc := (s.ctx p 0).pc
      let s := s.recordGlobal 9 2 none (d, l, 0) cause pc.toNat (putNum 32 1 recent.length)
      let s := (s.returnJobs p).modEng p fun e => { e with micro := { e.micro with busy := none } }
      let s :=
        if 4 ≤ recent.length then
          ((s.modEng p fun e => { e with checking := true }).replaceEngine p 5).reroute (s.signalled p)
        else
        match s.microRoutine p 0 .keeperRestart with
        | (.fault, t) => State.machineCheckBy trap f t p 4
        | (.uncorrectable a, t) => State.machineCheckBy trap f (t.badMicro d a 1) p 5
        | (.parity, t) => t.checkFailed p 0 6 pc
        | (.trap _ code, t) => trap t code (t.eng p).subCode
        | (.waiting, t) => t
        | (.ended patched, t) => if patched then (t.restartKeeper p).freed p 0 else t.restartKeeper p
      s.settleHalt p |>.arrive (528 + d)

/-- As `State.machineCheckBy` states. A step ends with it: the engine halts again before the keeper's first instruction (R455). -/
def State.machineCheckWith (s : State) (trap : State → (code sub : Nat) → State) (p cause : Nat) : State :=
  let t := State.machineCheckBy trap 4 s p cause
  if (s.eng p).halted && (s.eng p).stepping.isSome && (t.eng p).halted then t.haltNow p else t

/-- A trap of a context is taken: `n` is the faulting syllable address, and `upd` what the trap writes beside its entry. While TW is 1,
or without return-stack room, it is a DOUBLE_FAULT: a job context is FROZEN and the trap delivered, and in the keeper it is a machine
check (R167, R177, R179). A trap that the entry's own micro-routine requests is raised in its place (R325); one that does so
without end never ends. -/
def State.trapBy : (fuel : Nat) → State → (p c code sub : Nat) → (split : Bool) → (n resume : SAddr) → (upd : Ctx → Ctx) → State
  | 0, s, _, _, _, _, _, _, _, _ => s
  | f + 1, s, p, c, code, sub, split, n, resume, upd =>
    let s := s.endLock p c
    let x := s.ctx p c
    let check := fun (t : State) cause => t.machineCheckWith
      (fun u k j => State.trapBy f u p 0 k j false (u.ctx p 0).pc (u.ctx p 0).pc id) p cause
    if x.tw || !x.applyModes.entryRoom then
      if c = 0 then check s 1 else s.freeze p c (trapWord 12 sub c split code)
    else
      let w := trapWord code sub c split 0
      match s.microRoutine p c .trapEntry with
      | (.fault, t) => check t 4
      | (.uncorrectable a, t) => check (t.badMicro (standOf p) a 1) 5
      | (.parity, t) => t.checkFailed p c 6 x.pc
      | (.trap _ k, t) => State.trapBy f t p c k (t.eng p).subCode false n resume id
      | (.waiting, t) => t
      | (.ended patched, t) =>
        let t := (t.putCtx p c ((upd x).trapEntry resume (n.setWidth 36) w code)).blaze p c 2 n w.toNat
        if patched then t.freed p c else t

/-- As many traps in a row as the model follows. -/
def trapFuel : Nat := 8

/-- A trap of a context is taken. -/
def State.takeTrap (s : State) (p c code sub : Nat) (split : Bool) (n resume : SAddr) (upd : Ctx → Ctx := id) : State :=
  State.trapBy trapFuel s p c code sub split n resume upd

/-- An engine machine check. -/
def State.machineCheck (s : State) (p cause : Nat) : State :=
  s.machineCheckWith (fun u k j => u.takeTrap p 0 k j false (u.ctx p 0).pc (u.ctx p 0).pc) p cause

/-- A micro-routine of context `c` of engine `p` runs to its end. What its END word writes is `done`, which hears whether a word of patch
RAM has run; a word that requests a trap gives `trap`; a routine that has not ended goes on at its next issue (R322, R324 to
R327). -/
def State.routine (s : State) (p c : Nat) (r : Routine) (trap : Bool → Nat → State → State) (done : Bool → State → State) : State :=
  match s.microRoutine p c r with
  | (.ended patched, t) => done patched t
  | (.waiting, t) => t
  | (.fault, t) => t.machineCheck p 4
  | (.uncorrectable a, t) => (t.badMicro (standOf p) a 1).machineCheck p 5
  | (.parity, t) => t.checkFailed p c 6 (s.ctx p c).pc
  | (.trap consume code, t) => trap consume code t

/-- A successful retry is counted and recorded, with the user whose job the context held when the instruction issued; the seventeenth
within an hour plans a substitution (R426, R442). -/
def State.retried (s : State) (p c row attempts : Nat) (pc : SAddr) (inst : Option (BitVec 8)) : State :=
  match s.logicalOf p with
  | none => s
  | some l =>
    let x := s.log l
    let recent := inHour s.now x.retryAt ++ [s.now]
    let s := s.putLog l { x with retryAt := recent, retries := satInc x.retries }
    let s := s.recordGlobal 5 1 inst (standOf p, l, c) row pc.toNat (putNum 32 1 attempts)
    if recent.length = 17 then s.planSubst p 2 else s

/-- A register error (R428): counted, and the second of an engine within an hour plans a substitution. In a job context the
job is returned and a REGERR record written; in the keeper it is a machine check as well (log entry 87). -/
def State.registerError (s : State) (p c cause : Nat) : State :=
  match s.logicalOf p with
  | none => s
  | some l =>
    let pc := (s.ctx p c).pc
    let x := s.log l
    let recent := inHour s.now x.regAt ++ [s.now]
    let s := s.putLog l { x with regAt := recent, regErrs := satInc x.regErrs }
    let s :=
      if c = 0 then s.machineCheck p 6 else
      let s := s.recordGlobal 0x0A 2 ((s.jobAt p c).map (·.inst)) (standOf p, l, c) cause pc.toNat
      match (s.ctx p c).job with
      | some id => s.returnJob id
      | none => s.clearCtx p c
    if recent.length = 2 ∧ (s.logicalOf p).isSome ∧ (s.eng p).substPend.isNone then s.planSubst p 3 else s

/-! ## The end of a step (R455) -/

/-- The keeper takes the delivered trap of the lowest context (R181), and ends its job: INTERNAL 0x01 for DOUBLE_FAULT,
JOB_TIMEOUT for JOB_TIMER. The keeper's part is firmware, and is done at the entry (log entry 31). -/
def State.enterDelivered (s : State) (p : Nat) : State :=
  match (s.eng p).delivered with
  | [] => s
  | d :: t =>
    let s := s.endLocks p
    let x := s.ctx p 0
    let code := d.word.toNat % 32
    let job := (s.ctx p d.ctx).job
    if !x.applyModes.entryRoom then s.machineCheck p 1 else
    s.routine p 0 .deliveredEntry (fun _ k u => u.takeTrap p 0 k (u.eng p).subCode false x.pc x.pc) fun patched u =>
      let u := u.modEng p fun e => { e with delivered := t, lastIssued := 0 }
      let u := (u.putCtx p 0 (x.trapEntry x.pc (d.pc.setWidth 36) d.word code)).blaze p 0 2 d.pc d.word.toNat
      let u := if patched then u.freed p 0 else u
      match job with
      | some id => u.endJob id (if code = 13 then 7 else 0x0A) (if code = 13 then 0 else 1)
      | none => u

/-- A halted engine's keeper would take a delivered trap now. -/
def Engine.deliveryDue (e : Engine) : Bool :=
  let k := e.ctx 0
  !e.delivered.isEmpty && !k.tw && k.memWait.isNone && (k.state == .ready || (k.state == .halted && k.haltedFrom == .ready))

/-- JOB_TIMER is delivered to the keeper (R180). -/
def State.jobTimeout (s : State) (p c : Nat) : State := s.freeze p c (trapWord 13 0 c false 0)

/-- A job timer runs for context `c`, which is READY, BLOCKED or SLEEPING, or would be while a step is under way (R180, R458). -/
def State.timed (s : State) (p c : Nat) : Bool :=
  let live := fun (k : CtxState) => k == .ready || k == .blocked || k == .sleeping
  let x := s.ctx p c
  c != 0 && (live x.state || (x.state == .halted && live x.haltedFrom && (s.eng p).halted && (s.eng p).stepping.isSome))

/-- The job timers that expired during a halt are acted on at the boundary behind a step (R458). -/
def State.expireTimers (s : State) (p : Nat) : State :=
  (List.range 8).foldl (fun t c => if t.timed p c && (t.ctx p c).jobTimer.due t.now && (t.ctx p c).memWait.isNone then t.jobTimeout p c
    else t) s

/-- A step of context `c` ends: expired job timers are acted on, a delivered-trap entry that fell due is taken, and the engine, or the
context stepped in field scope, halts again (R450, R455, R458). -/
def State.endStep (s : State) (p c : Nat) : State :=
  if (s.eng p).halted then
    let s := (s.expireTimers p).modEng p fun e => { e with stepping := none }
    let s := if (s.eng p).deliveryDue then
        (s.modCtx p 0 fun k => { k with state := .ready, haltedFrom := .free }).enterDelivered p
      else s
    s.haltNow p
  else
    let run := s.dbg.wdtRun
    s.modEng p fun e => { (e.putCtx c ((e.ctx c).halt s.now run)) with stepping := none }

/-- As `endStep`, where context `c` is being stepped and has no locked sequence open. -/
def State.closeStep (s : State) (p c : Nat) : State :=
  if (s.eng p).stepping = some c ∧ !s.lockOpen p c then s.endStep p c else s

/-! ## Uncorrectable words (R143, R429) -/

/-- The owner of a log deck word, for its records (R143): of a DRAINING granule the old one, until zeroing hands it over (R139). -/
def State.deckOwner (s : State) (w : Nat) : Option (BitVec 8) :=
  let g := s.gran (granuleOf w)
  match g.draining.getD g.applied with
  | .inst i => some i
  | _ => none

/-- A word is found uncorrectable: it is marked, and counted and recorded the first time (R143, R429). -/
def State.markBad (s : State) (p : Nat) (a : WAddr) (found : Nat) : State :=
  match placeOf a with
  | .store k => if (s.eng p).bad.contains k then s else
      (s.modEng p fun e => { e with bad := k :: e.bad }).recordUe 1 k found none
  | .deck w => if s.ldk.bad.contains w then s else
      ({ s with ldk := { s.ldk with bad := w :: s.ldk.bad, ue := satInc s.ldk.ue } }).recordUe 3 a.toNat found (s.deckOwner w)
  | .rom k => if s.chk.romBad.contains (standOf p, k) || (s.romPatch p k).isSome then s else
      ({ s with chk := { s.chk with romBad := (standOf p, k) :: s.chk.romBad } }).recordUe 2 k found none
  | _ => s

/-! ## Loop levels and the program counter (R173, R174, R191, R197, R220) -/

/-- Transfers that close the levels they leave: branches, JMPT, RET, RETW, RETI and BREAKL. The first level whose body
holds `at'` but not the target closes with every deeper one. -/
def closeLeft (pc target : SAddr) : List LoopLevel → List LoopLevel
  | [] => []
  | l :: t => if l.body pc && !l.body target then [] else l :: closeLeft pc target t

/-- The end syllable of a level lies in an instruction at `pc` of `len` syllables. -/
def LoopLevel.passedBy (l : LoopLevel) (pc : SAddr) (len : Nat) : Bool :=
  (List.range len).any fun k => SAddr.plus pc k == l.stop

/-- The end syllables that an instruction passes, from the innermost level outward. The list is innermost first. Without a
transfer, a level whose count stays above 0 repeats its body; one that closes lets the next level outward be passed, and
closes every deeper one with it (R173, R197, R220). -/
def passEnds (pc : SAddr) (len : Nat) (next : SAddr) (transfer : Bool) : List LoopLevel → List LoopLevel × SAddr
  | [] => ([], next)
  | l :: t =>
    if l.passedBy pc len then
      if 1 < l.count.toNat then ({ l with count := l.count - 1 } :: t, if transfer then next else l.start)
      else passEnds pc len next transfer t
    else
      let q := passEnds pc len next transfer t
      if q.1.length < t.length then q else (l :: q.1, q.2)

/-- Where an instruction goes on and what its loop levels become. -/
def Ctx.advance (x : Ctx) (pc : SAddr) (len : Nat) (next : SAddr) (transfer closes : Bool) : Ctx :=
  let ls := if closes then closeLeft pc next x.loops else x.loops
  let q := passEnds pc len next transfer ls.reverse
  { x with loops := q.1.reverse, pc := q.2 }

end Sys2Proof.Machine
end

