-- ==== Sys2Proof/Machine/Settle.lean ====
section
/-!
DEFINITION. What follows at once from any command that ends work: users reach RESET, held period loads begin, ports go DOWN,
and a shutdown goes on (R129, R391, R475).
-/

namespace Sys2Proof.Machine

/-- Step 1 or 2 of the shutdown sequence ends when the tracker is empty: the fence stands, the partner has been informed, the
debugger is detached, and step 3 begins with the clearing of the secrets (Table LCB.3, R451). -/
def State.settleShut (s : State) : State :=
  if (s.life.shut == .drain || s.life.shut == .squash) && s.trackerIdle then
    let s := if s.dbg.attached then s.detach else s
    let s := { s with
      life := { s.life with shut := .clear, shutDue := none, compareFails := 0 }, dbg := { s.dbg with pending := none, groups := [] } }
    let s := s.stopTimers.settleFence
    (if s.life.entryFenced then s else s.informPartner).clearSecrets
  else s

/-- What follows at once from any command that ends work: users reach RESET, held period loads begin, ports go DOWN, the
shutdown goes on, and PAIR_FENCED follows. -/
def State.settle (s : State) : State :=
  let s := s.retirePump
  let s := (s.insts.map (·.1)).foldl (fun t i => (t.settleInst i).settlePeriod i) s
  let s := (s.settlePort 0).settlePort 1
  s.fenceShut.settleShut.settleFence

end Sys2Proof.Machine
end

