-- ==== Sys2Proof/Machine/Flags.lean ====
section
/-!
DEFINITION. The flags C, V, Z and N (R168, R217): how each class of integer instruction sets them. Sums and differences
are computed exactly in numbers and then narrowed.
-/

namespace Sys2Proof.Machine

/-- The four flags. -/
structure Cvzn where
  c : Bool
  v : Bool
  z : Bool
  n : Bool
  deriving DecidableEq, Repr

/-- The context with its flags set. -/
def Ctx.setFlags (x : Ctx) (f : Cvzn) : Ctx := { x with c := f.c, v := f.v, z := f.z, n := f.n }

/-- The flags of a context. -/
def Ctx.flags (x : Ctx) : Cvzn := ⟨x.c, x.v, x.z, x.n⟩

/-- A 36-bit value is a signed number in range. -/
def fits36 (i : Int) : Bool := -(2 ^ 35) ≤ i && i < 2 ^ 35

/-- a + b + carry (ADD, ADC). -/
def addWord (a b : Word) (k : Bool) : Word × Cvzn :=
  let u := a.toNat + b.toNat + bit k
  let r := BitVec.ofNat 36 u
  (r, ⟨2 ^ 36 ≤ u, !fits36 (a.toInt + b.toInt + bit k), r == 0, r.msb⟩)

/-- a − b − borrow (SUB, SBB, NEG, CMP): C = 1 means a borrow. -/
def subWord (a b : Word) (k : Bool) : Word × Cvzn :=
  let u : Int := (a.toNat : Int) - b.toNat - bit k
  let r := BitVec.ofInt 36 u
  (r, ⟨u < 0, !fits36 (a.toInt - b.toInt - bit k), r == 0, r.msb⟩)

/-- The flags of a logic result under MODE.FLK (R217). -/
def Ctx.logicFlags (x : Ctx) (r : Word) : Cvzn :=
  if x.flk then ⟨x.c, x.v, r == 0, r.msb⟩ else ⟨false, false, r == 0, r.msb⟩

/-- The shifts and rotates of Table INS.4. -/
inductive Shift where
  | left
  | right
  | arith
  | rotl
  | rotr
  deriving DecidableEq, Repr

/-- A shift or rotate by `k`, 0 to 35, with the last bit shifted or rotated out, 0 for a count of 0 (R217). -/
def shiftWord (op : Shift) (a : Word) (k : Nat) : Word × Bool :=
  match op with
  | .left => (a <<< k, k != 0 && a.getLsbD (36 - k))
  | .right => (a >>> k, k != 0 && a.getLsbD (k - 1))
  | .arith => (a.sshiftRight k, k != 0 && a.getLsbD (k - 1))
  | .rotl => (a.rotateLeft k, k != 0 && a.getLsbD (36 - k))
  | .rotr => (a.rotateRight k, k != 0 && a.getLsbD (k - 1))

/-- The result and flags of a shift: V is cleared. -/
def shiftFlags (op : Shift) (a : Word) (k : Nat) : Word × Cvzn :=
  let q := shiftWord op a k
  (q.1, ⟨q.2, false, q.1 == 0, q.1.msb⟩)

/-- The CMP relation word (Table INS.5). -/
def relation (a b : Word) : Word :=
  BitVec.ofNat 36 (bit (a == b) + 2 * bit (decide (a.toInt < b.toInt)) + 4 * bit (decide (a.toNat < b.toNat)) +
    8 * bit (decide (b.toInt < a.toInt)) + 16 * bit (decide (b.toNat < a.toNat)))

/-- Leading zero bits, 0 to 36 (CLZ). -/
def leadingZeros (a : Word) : Nat :=
  ((List.range 36).find? fun k => a.getLsbD (35 - k)).getD 36

/-- Z and N of a double cell describe all 72 bits (R168). -/
def dblFlags (v : BitVec 72) (c o : Bool) : Cvzn := ⟨c, o, v == 0, v.msb⟩

end Sys2Proof.Machine
end

