-- ==== Sys2Proof/Machine/Issue.lean ====
section
/-!
DEFINITION. The issue of one engine instruction: what every instruction meets before its own work (R152, R176, R199,
R200, R206, R216, R311, R424 to R428) and what follows it at its boundary (R169 to R174, R197, R215, R220).
-/

namespace Sys2Proof.Machine

/-- Who may execute an instruction (R200). -/
inductive Who where
  | any
  | keeper
  | job
  deriving DecidableEq, Repr

/-- What the decoder and the checks need to know of an instruction. -/
structure Shape where
  /-- Syllables: 1 short, 2 long. -/
  len : Nat := 1
  /-- Cells taken from and left on D and A (R206). -/
  dIn : Nat := 0
  dOut : Nat := 0
  aIn : Nat := 0
  aOut : Nat := 0
  who : Who := .any
  /-- REP may repeat it (Table INS.7). -/
  rep : Bool := false
  /-- It ends a locked sequence before it runs (R215). -/
  endsLock : Bool := false
  /-- It may not stand in a delay slot though it is short (R172). -/
  noSlot : Bool := false
  /-- A reserved field value (Table ENC.3). -/
  reserved : Bool := false
  /-- A further ILLEGAL cause that the context decides: 0x07, 0x08, 0x09 or 0x0C. -/
  misuse : Ctx → Option Nat := fun _ => none
  /-- The leader index of an absent extension (R33). -/
  absent : Option Nat := none
  /-- It waits for every floating-point operation of the context (R295, R311). -/
  fpWait : Bool := false
  /-- The row of Table CHK.1 that checks it. -/
  row : Nat := 1
  /-- The multiplier runs its significand passes (Table CHK.1 row 2). -/
  mul : Bool := false
  /-- The first word of data it reads, where it reads memory. -/
  data : Ctx → Option WAddr := fun _ => none
  /-- An operand that no code of Table ENC.1 or ENC.2 carries: the ILLEGAL sub-code of the code it would be. -/
  unassigned : Option Nat := none
  /-- A trap ahead of the stack checks (R179). -/
  first : Ctx → Option (Nat × Nat) := fun _ => none
  /-- It reads this cell below T alone and only pushes above the others (R312). -/
  copies : Option Nat := none
  /-- The held ledger values that it reads (R274). -/
  reads : List Nat := []
  /-- Its micro-routine (Table MCS.1). -/
  micro : Option Routine := none

/-- How an instruction goes on. -/
inductive Flow where
  /-- At the next instruction. -/
  | next
  /-- At a syllable address; `closes` when the transfer closes the levels it leaves. -/
  | jump (target : SAddr) (closes : Bool)
  /-- A taken forerunner branch: the slot comes first. -/
  | slot (target : SAddr) (closes : Bool)
  /-- It has not completed: the context stays at it until an answer arrives. -/
  | stay
  /-- The context is gone: its job ended. -/
  | gone
  deriving DecidableEq, Repr

/-- What an instruction leaves: the state, its context, how it goes on, and a trap taken after it. -/
structure Done where
  s : State
  x : Ctx
  flow : Flow := .next
  late : Option (Nat × Nat) := none
  /-- Slots whose load data the next instruction cannot see, with their old content (R171). -/
  shadow : List (Nat × Word) := []
  deriving Repr

/-- The work of an instruction at engine `p`, context `c`. -/
abbrev Work := State → Nat → Nat → Ctx → Res Done

/-! ## Stack checks (R206) -/

/-- STACK_UNDER and STACK_OVER of an instruction's shape: D before A, and too few before too many (log entry 21). -/
def Ctx.stackBar (x : Ctx) (h : Shape) : Option (Nat × Nat) :=
  if x.depth < h.dIn then some (3, 0)
  else if x.astack.length < h.aIn then some (3, 1)
  else if 16 < x.depth - h.dIn + h.dOut then some (4, 0)
  else if 8 < x.astack.length - h.aIn + h.aOut then some (4, 1)
  else none

/-! ## Floating-point marks (R312) -/

/-- A floating-point result is due in a cell that the instruction reads, overwrites or discards. -/
def Ctx.marked (x : Ctx) (h : Shape) : Bool :=
  let lo := match h.copies with
    | some n => x.depth - 1 - n
    | none => x.depth - h.dIn
  let hi := match h.copies with
    | some n => x.depth - n
    | none => x.depth
  (h.fpWait && !x.fpu.inflight.isEmpty) ||
    x.fpu.inflight.any fun o => o.inTrap == x.tw && lo < o.pos + 1 && o.pos + 1 - o.size < hi

/-! ## ILLEGAL (R199) -/

/-- The lowest ILLEGAL sub-code that applies to an instruction at syllable `pc` (Table ENC.4). Before an instruction that meets a lower
cause of its own, REP's 0x08 gives way to that cause, with N at the instruction (log entry 132: DESIGN CHOICE). -/
def Ctx.illegal (x : Ctx) (h : Shape) (c : Nat) (inSlot : Bool) : Option Nat :=
  if h.unassigned.isSome then h.unassigned
  else if h.len = 2 ∧ x.pc.getLsbD 0 then some 3
  else if h.len = 2 ∧ h.reserved then some 4
  else if h.who = .keeper ∧ c ≠ 0 then some 5
  else if h.who = .job ∧ c = 0 then some 6
  else
    let m := (h.misuse x).getD 0x100
    let r := if x.rep.isSome ∧ !h.rep then 8 else 0x100
    let t := if inSlot ∧ (h.len = 2 ∨ h.noSlot) then 0x0A else 0x100
    let k := min m (min r t)
    if k < 0x100 then some k else none

/-! ## Before the work -/

/-- Boundary traps (R176, R293): an expired job timer, then a pending FP_SUBNORMAL, then a pending FP trap. -/
inductive Boundary where
  | timer
  | sub (r : FpRecord)
  | fp (r : FpRecord)
  | clear
  deriving DecidableEq, Repr

/-- What waits at the boundary before an instruction of a context. -/
def Ctx.boundary (x : Ctx) (c now : Nat) : Boundary :=
  if c ≠ 0 ∧ x.jobTimer.due now then .timer
  else if x.tw then .clear
  else match x.fpu.pendSub, x.fpu.pendFp with
    | some r, _ => .sub r
    | none, some r => .fp r
    | none, none => .clear

/-- What the entry of a pending floating-point trap writes beside it: its record becomes the exception record, and its cause is no
longer pending (R292, R293). -/
def Ctx.fpTaken (x : Ctx) (code : Nat) (r : FpRecord) : Ctx :=
  { x with fpu := { x.fpu with
      record := r
      pendSub := if code = 11 then none else x.fpu.pendSub
      pendFp := if code = 10 then none else x.fpu.pendFp } }

/-- A pending floating-point trap is taken: N holds FPXADDR, the address of the faulting instruction, and the context resumes at the
boundary (Table BIN.7, R177, R293, R294). -/
def State.takeFp (s : State) (p c code : Nat) (r : FpRecord) : State :=
  let pc := (s.ctx p c).pc
  s.takeTrap p c code 0 false r.addr pc fun x => x.fpTaken code r

/-! ## After the work -/

/-- Pending MODE changes count this instruction (R169). -/
def Ctx.tickModes (x : Ctx) (old : List (Nat × BitVec 4 × BitVec 4)) : Ctx :=
  let fresh := x.modePend.drop old.length
  let aged := old.map fun m => (m.1 - 1, m.2)
  let due := aged.filter fun m => m.1 == 0
  { x with mode := due.foldl (fun o m => setMode o m.2.1 m.2.2) x.mode, modePend := aged.filter (fun m => m.1 != 0) ++ fresh }

/-- The locked sequence that was open before this instruction counts it, and ends after its n-th (R215). -/
def State.tickLock (s : State) (p c : Nat) (before : Option LockSeq) : State :=
  let x := s.ctx p c
  match x.lock, before with
  | some l, some b =>
    if l = b then
      if l.left ≤ 1 then s.endLock p c else s.putCtx p c { x with lock := some { l with left := l.left - 1 } }
    else s
  | _, _ => s

/-- The end of the context's job that waits for this boundary: one an instruction asked for, or a squash (Table PTN.5). -/
def State.endDue (s : State) (p c : Nat) : State :=
  match (s.ctx p c).ending, (s.ctx p c).job with
  | some q, some id => s.endJob id q.1.toNat q.2.toNat
  | none, some id => if (s.job id).any (fun (j : Job) => j.squashDue) then s.endJob id 8 2 else s
  | _, _ => s

/-- The engine's boundary after a completed instruction: a step or a waiting halt or substitution takes effect. There is none before a
delay slot (R172), nor within a micro-routine (R324). -/
def State.boundaryAfter (s : State) (p c : Nat) : State :=
  if (s.eng p).slot.isSome || (s.eng p).micro.busy.isSome then s else (((s.endDue p c).closeStep p c).settleHalt p).settleSubst p

/-- A completed instruction of context `c`: `x0` is the context before it, `d` what its work left. -/
def State.finish (s : State) (p c : Nat) (h : Shape) (x0 : Ctx) (d : Done) : State :=
  let e := s.eng p
  let x := { d.x.tickModes x0.modePend with shadow := d.shadow }
  match d.flow, e.slot.filter (·.ctx == c) with
  | .slot t k, _ =>
    -- The branch and its slot retire together: the slot follows with no boundary.
    let x := { x with pc := SAddr.plus x0.pc h.len }
    (s.putEng p { (e.putCtx c x) with slot := some ⟨c, x0, t, k⟩ }).tickLock p c x0.lock
  | fl, sl =>
    let x :=
      match sl with
      | some q => x.advance q.saved.pc (SAddr.dist q.saved.pc x0.pc + h.len) q.target true q.leaves
      | none =>
        match x0.rep with
        | some r =>
          if 1 < r.toNat then { x with rep := some (r - 1) }
          else { x with rep := none }.advance x0.pc h.len (SAddr.plus x0.pc h.len) false false
        | none =>
          match fl with
          | .jump t k => x.advance x0.pc h.len t true k
          | _ => x.advance x0.pc h.len (SAddr.plus x0.pc h.len) false false
    let s := (s.putEng p { (e.putCtx c x) with slot := e.slot.filter (·.ctx != c) }).tickLock p c x0.lock
    let s := match fl with
      | .jump t _ => s.blaze p c 1 x0.pc t.toNat
      | _ => match sl with
        | some q => s.blaze p c 1 q.saved.pc q.target.toNat
        | none => s
    let s := match d.late with
      | some (code, sub) => s.takeTrap p c code sub false x0.pc (s.ctx p c).pc
      | none => s
    s.boundaryAfter p c

/-- A branch and its open slot are undone: the state returns to what it was before the branch (R172). -/
def State.unslot (s : State) (p c : Nat) : State :=
  match (s.eng p).slot.filter (·.ctx == c) with
  | some q => s.putEng p { ((s.eng p).putCtx c q.saved) with slot := none }
  | none => s

/-- A trap before any effect: in a delay slot the state returns to what it was before the branch, and the trap names the
branch (R172, R175). -/
def State.refuse (s : State) (p c code sub : Nat) (split : Bool) (n : SAddr) : State :=
  let e := s.eng p
  match e.slot.filter (·.ctx == c) with
  | some q => ((s.unslot p c).takeTrap p c code sub split q.saved.pc q.saved.pc).boundaryAfter p c
  | none =>
    let x := e.ctx c
    ((s.putCtx p c { x with rep := if code = 0 ∧ sub = 8 then none else x.rep }).takeTrap p c code sub split n n).boundaryAfter p c

/-- A context has the engine's turn: it issues last (R152), and the other contexts' issues have ended its visible load delay
(R171). -/
def Engine.takeTurn (e : Engine) (c : Nat) : Engine :=
  let x := e.ctx c
  let e := if e.lastIssued = c ∨ x.shadow.isEmpty then e else e.putCtx c { x with shadow := [] }
  { e with lastIssued := c }

/-- The instruction waits before issue (R311): it no longer follows a load at once (R171, R303). -/
def State.waits (s : State) (p c : Nat) : State :=
  if (s.ctx p c).shadow.isEmpty then s else s.modCtx p c fun x => { x with shadow := [] }

/-- As `State.waits` states, where the wait began in this turn: the context that issued last stays the one that did (R152, R299). -/
def State.waitsAfter (s : State) (p c last : Nat) : State := (s.modEng p fun e => { e with lastIssued := last }).waits p c

/-- The work's outcome. -/
def State.conclude (s : State) (p c : Nat) (h : Shape) (x0 : Ctx) (r : Res Done) : State :=
  match r with
  | .wait => s.waits p c
  | .trap code sub split => s.refuse p c code sub split x0.pc
  | .ok d =>
    match d.flow with
    | .gone => (d.s.modEng p fun e => { e with stepping := (s.eng p).stepping }).boundaryAfter p c
    | .stay => d.s.putCtx p c d.x
    | _ =>
      -- LEDGER in a delay slot also returns to the branch (R172).
      if (s.eng p).slot.any (·.ctx == c) && d.late.isSome then
        match d.late with
        | some (code, sub) => s.refuse p c code sub false x0.pc
        | none => d.s
      else d.s.finish p c h x0 d

/-- The operands of an instruction leave, and a trap that a microword requested follows (R325). -/
def Ctx.popped (x : Ctx) (h : Shape) : Ctx := { x.drop h.dIn with astack := x.astack.drop h.aIn }

/-- The work of an instruction whose routine was patched (R320, log entry 53): a free choice tells whether its own requests and accesses
happen, and what its END word writes are free values. -/
def State.patchedWork (w : Work) : Work := fun s p c x =>
  let s' := { s with draws := s.draws + 1 }
  match if Config.freeChoice s.draws then w s' p c x else .ok { s := s', x := x } with
  | .ok d =>
    if d.flow = .next then .ok { d with s := { d.s.freeStore p c (d.s.draws + 150) with draws := d.s.draws + 160 }, x := d.x.freed d.s.draws }
    else .ok d
  | r => r

/-- The work of an instruction that has met no trap and no mark; `last` is the context that issued before it. A micro-coded one runs its
routine, and has its effect at the routine's END word (R324); a routine's own trap comes before any effect, or after the operand
pops under CONSUME (R325). -/
def State.runWork (s : State) (p c : Nat) (h : Shape) (x : Ctx) (w : Work) (last : Nat) : State :=
  if (w s p c x).waits then s.waitsAfter p c last else
  match h.micro with
  | none => s.conclude p c h x (w s p c x)
  | some r =>
    s.routine p c r
      (fun consume code t =>
        let sub := (t.eng p).subCode
        t.conclude p c h x (if consume then .ok { s := t, x := x.popped h, late := some (code, sub) } else .trap code sub))
      (fun patched t => t.conclude p c h x ((if patched then State.patchedWork w else w) t p c x))

/-- An uncorrectable fetch or data word that this instruction finds (R143, R429): the word is marked, and the
instruction traps where it reads it. -/
def State.eccFound (s : State) (p c : Nat) (h : Shape) (k : Check) : State :=
  let x := s.ctx p c
  match k, h.data x with
  | .ueFetch, _ => s.markBad p (SAddr.word x.pc) 1
  | .ueData, some a => s.markBad p a 1
  | _, _ => s

/-- A patch unit stands in for the service ROM word at an address: that word carries no ECC (R459). -/
def State.patchedAt (s : State) (p : Nat) (a : WAddr) : Bool :=
  match placeOf a with
  | .rom k => (s.romPatch p k).isSome
  | _ => false

/-- ACCESS and ECC_UNCORR on fetch, and ILLEGAL (R176): `bad` is the sub-code of syllables that are no valid encoding. -/
def State.fetchTrap (s : State) (p c : Nat) (h : Shape) (bad : Option Nat) (k : Check) : Option (Nat × Nat) :=
  let x := s.ctx p c
  match s.fetchBar p c (SAddr.word x.pc) with
  | some sub => some (2, sub)
  | none =>
    if (k = .ueFetch ∧ !s.patchedAt p (SAddr.word x.pc)) ∨ (s.eccBar p (SAddr.word x.pc)).isSome then some (14, 0) else
    match bad with
    | some sub => some (0, sub)
    | none => (x.illegal h c (s.eng p).slot.isSome).map fun sub => (0, sub)

/-- EXT_ABSENT, and what comes with the stacks (R176, R179). -/
def Ctx.stackTrap (x : Ctx) (h : Shape) : Option (Nat × Nat) :=
  match h.absent with
  | some l => some (1, l)
  | none =>
    match h.first x with
    | some t => some t
    | none => x.stackBar h

/-- The instruction itself, once it has the engine's turn and no boundary trap is due. -/
def State.perform (s : State) (p c : Nat) (h : Shape) (bad : Option Nat) (k : Check) (w : Work) : State :=
  let last := (s.eng p).lastIssued
  let s := s.modEng p fun e => e.takeTurn c
  let x := s.ctx p c
  match s.fetchTrap p c h bad k with
  | some (code, sub) => (s.eccFound p c h k).refuse p c code sub false (if code = 0 ∧ sub = 8 ∧ x.rep.isSome then SAddr.offset x.pc (-1) else x.pc)
  | none =>
    if x.rep = some 0 then
      -- RC was 0: the instruction is skipped, and the end syllable is passed once (R174).
      (s.putCtx p c ({ x with rep := none, shadow := [] }.advance x.pc h.len (SAddr.plus x.pc h.len) false false)).boundaryAfter p c
    else
      match x.stackTrap h with
      | some (code, sub) => s.refuse p c code sub false x.pc
      | none =>
        if x.marked h then s.waitsAfter p c last
        else if h.reads.any (fun k => !x.ledger.sound k) then ((s.unslot p c).registerError p c 2).boundaryAfter p c
        else
          let s := s.eccFound p c h k
          let s := if h.endsLock then s.endLock p c else s
          s.runWork p c h (s.ctx p c) w last

/-- The row of Table CHK.1 that this outcome names, and the attempt that passed, none where the third failed: the work's own row, row 2
for a significand pass of the multiplier, or row 6 for PAR at the sequencer latch, which only micro-coded work meets (R319,
R326). -/
def checkAttempts (k : Check) (h : Shape) (micro : Bool) : Option (Nat × Option Nat) :=
  match k with
  | .second => some (h.row, some 2)
  | .third => some (h.row, some 3)
  | .failed => some (h.row, none)
  | .mulSecond => if h.mul then some (2, some 2) else none
  | .mulThird => if h.mul then some (2, some 3) else none
  | .mulFailed => if h.mul then some (2, none) else none
  | .parSecond => if micro then some (6, some 2) else none
  | .parThird => if micro then some (6, some 3) else none
  | .parFailed => if micro then some (6, none) else none
  | _ => none

/-- Between two states the context took a trap entry, or its engine's keeper restarted: both are micro-coded (Table MCS.1). -/
def State.entered (s t : State) (p c : Nat) : Bool :=
  let x := s.ctx p c
  let y := t.ctx p c
  (!x.tw && y.tw && x.rstack.length ≤ y.rstack.length) || (s.log (s.logicalNum p)).mcAt != (t.log (s.logicalNum p)).mcAt

/-- The checks of Tables CHK.1 and CHK.2 around an instruction or an entry of context `c` (R425 to R428, R326, R327). Micro-coded are the
shapes that say so, and every trap entry and keeper restart that the work comes to. -/
def State.checked (s : State) (p c : Nat) (h : Shape) (k : Check) (go : State → State) : State :=
  if k = .pass then go s else
  let x := s.ctx p c
  let inst := (s.jobAt p c).map (·.inst)
  let micro := h.micro.isSome || s.entered (go s) p c
  match checkAttempts k h micro with
  | some (r, some n) => (go s).retried p c r n x.pc inst
  | some (r, none) => ((s.unslot p c).checkFailed p c r x.pc).boundaryAfter p c
  | none =>
    match k, micro with
    | .regCell, _ => ((s.unslot p c).registerError p c 1).boundaryAfter p c
    | .regLedger, _ => ((s.unslot p c).registerError p c 2).boundaryAfter p c
    | .microUnc a, true => (((s.unslot p c).badMicro (standOf p) a.toNat 1).machineCheck p 5).boundaryAfter p c
    | .microCorrected _, true => go s.microCorrected
    | _, _ => go s

/-- The shape of an entry: micro-coded, with the row of its own checks. -/
def entryShape (r : Routine) : Shape := { micro := some r }

/-- The syllables at the PC that a command shows are no valid encoding: their ILLEGAL sub-code (R190, R199). -/
def Ctx.badCode (x : Ctx) (i : Issue) : Option Nat := i.bad.bind fun q => syllableFault i q.1 q.2 (x.pc.getLsbD 0)

/-- One issue of an instruction. A context whose turn it is not changes nothing. At a boundary an expired job timer and
pending floating-point traps come first. -/
def State.issue (s : State) (i : Issue) (h : Shape) (w : Work) : State :=
  let p := i.isl.val
  let c := i.ctx.val
  let s := { s with out := [] }
  let x := s.ctx p c
  if !s.mayIssue p c || (i.bad.isSome && (x.badCode i).isNone) then s else
  let go := fun (s : State) => s.checked p c h i.check fun t => t.perform p c h (x.badCode i) i.check w
  let fp := fun code r => s.checked p c (entryShape .trapEntry) i.check fun t => (t.takeFp p c code r).boundaryAfter p c
  if (s.eng p).slot.isSome || (s.eng p).micro.busy.isSome then go s else
  match x.boundary c s.now with
  | .timer => (s.jobTimeout p c).boundaryAfter p c
  | .sub r => fp 11 r
  | .fp r => fp 10 r
  | .clear => go s

/-- The outcome of a command: always a next state. -/
abbrev Out := Host.Outcome State Fault Refusal

/-- An engine instruction as a command. -/
def issue (i : Issue) (h : Shape) (w : Work) (s : State) : Out := .next (s.issue i h w)

/-- Work that changes its context alone. -/
def onCtx (f : Ctx → Ctx) : Work := fun s _ _ x => .ok { s := s, x := f x }

end Sys2Proof.Machine
end

