-- ==== Sys2Proof/Machine/Alu.lean ====
section
/-!
DEFINITION. Integer, shift and bit-field instructions (Table INS.4), multiplication and division steps (R279 to R281).
-/

namespace Sys2Proof.Machine

/-- A repeatable ALU shape. -/
def alu (dIn dOut : Nat) : Shape := { dIn := dIn, dOut := dOut, rep := true }

/-- A long ALU shape. -/
def aluLong (dIn dOut : Nat) (reserved : Bool) : Shape := { len := 2, dIn := dIn, dOut := dOut, reserved := reserved }

/-- The result and flags of two cells. -/
def binary (f : Ctx → Word → Word → Word × Cvzn) : Work := onCtx fun x =>
  let q := f x (x.top 1) (x.top 0)
  (x.replace 2 [q.1]).setFlags q.2

/-- The result and flags of one cell. -/
def unary (f : Ctx → Word → Word × Cvzn) : Work := onCtx fun x =>
  let q := f x (x.top 0)
  (x.replace 1 [q.1]).setFlags q.2

/-- A result of one cell that sets no flags. -/
def plainUnary (f : Word → Word) : Work := onCtx fun x => x.replace 1 [f (x.top 0)]

/-- ADD ( a b -- r ). -/
def execAdd (i : Issue) : State → Out := issue i (alu 2 1) (binary fun _ a b => addWord a b false)

/-- ADC ( a b -- r ). -/
def execAdc (i : Issue) : State → Out := issue i (alu 2 1) (binary fun x a b => addWord a b x.c)

/-- SUB ( a b -- r ). -/
def execSub (i : Issue) : State → Out := issue i (alu 2 1) (binary fun _ a b => subWord a b false)

/-- SBB ( a b -- r ). -/
def execSbb (i : Issue) : State → Out := issue i (alu 2 1) (binary fun x a b => subWord a b x.c)

/-- NEG ( a -- r ). -/
def execNeg (i : Issue) : State → Out := issue i (alu 1 1) (unary fun _ a => subWord 0 a false)

/-- AND ( a b -- r ). -/
def execAnd (i : Issue) : State → Out :=
  issue i (alu 2 1) (binary fun x a b => (a &&& b, x.logicFlags (a &&& b)))

/-- OR ( a b -- r ). -/
def execOr (i : Issue) : State → Out :=
  issue i (alu 2 1) (binary fun x a b => (a ||| b, x.logicFlags (a ||| b)))

/-- XOR ( a b -- r ). -/
def execXor (i : Issue) : State → Out :=
  issue i (alu 2 1) (binary fun x a b => (a ^^^ b, x.logicFlags (a ^^^ b)))

/-- NOT ( a -- r ). -/
def execNot (i : Issue) : State → Out := issue i (alu 1 1) (unary fun x a => (~~~a, x.logicFlags (~~~a)))

/-- SHL ( a -- r ). -/
def execShl (i : Issue) : State → Out := issue i (alu 1 1) (unary fun _ a => shiftFlags .left a 1)

/-- SHR ( a -- r ). -/
def execShr (i : Issue) : State → Out := issue i (alu 1 1) (unary fun _ a => shiftFlags .right a 1)

/-- ASR ( a -- r ). -/
def execAsr (i : Issue) : State → Out := issue i (alu 1 1) (unary fun _ a => shiftFlags .arith a 1)

/-- ROL ( a -- r ). -/
def execRol (i : Issue) : State → Out := issue i (alu 1 1) (unary fun _ a => shiftFlags .rotl a 1)

/-- ROR ( a -- r ). -/
def execRor (i : Issue) : State → Out := issue i (alu 1 1) (unary fun _ a => shiftFlags .rotr a 1)

/-- SHLI ( a -- r ). -/
def execShli (i : Issue) (n : BitVec 6) : State → Out :=
  issue i (aluLong 1 1 (35 < n.toNat)) (unary fun _ a => shiftFlags .left a n.toNat)

/-- SHRI ( a -- r ). -/
def execShri (i : Issue) (n : BitVec 6) : State → Out :=
  issue i (aluLong 1 1 (35 < n.toNat)) (unary fun _ a => shiftFlags .right a n.toNat)

/-- ASRI ( a -- r ). -/
def execAsri (i : Issue) (n : BitVec 6) : State → Out :=
  issue i (aluLong 1 1 (35 < n.toNat)) (unary fun _ a => shiftFlags .arith a n.toNat)

/-- ROLI ( a -- r ). -/
def execRoli (i : Issue) (n : BitVec 6) : State → Out :=
  issue i (aluLong 1 1 (35 < n.toNat)) (unary fun _ a => shiftFlags .rotl a n.toNat)

/-- RORI ( a -- r ). -/
def execRori (i : Issue) (n : BitVec 6) : State → Out :=
  issue i (aluLong 1 1 (35 < n.toNat)) (unary fun _ a => shiftFlags .rotr a n.toNat)

/-- CMP ( a b -- r ): the relation word, flags as for a − b (Table INS.5). -/
def execCmp (i : Issue) : State → Out :=
  issue i (alu 2 1) (binary fun _ a b => (relation a b, (subWord a b false).2))

/-- CLZ ( a -- n ). -/
def execClz (i : Issue) : State → Out := issue i (alu 1 1) (plainUnary fun a => BitVec.ofNat 36 (leadingZeros a))

/-- A mask of `w` bits at `lsb`. -/
def maskAt (lsb w : Nat) : Word := BitVec.ofNat 36 (2 ^ w - 1) <<< lsb

/-- BFX ( a -- f ): bits [lsb + width − 1 : lsb], zero-extended. -/
def execBfx (i : Issue) (lsb : BitVec 6) (wm1 : BitVec 5) : State → Out :=
  issue i (aluLong 1 1 (35 < lsb.toNat || 36 < lsb.toNat + wm1.toNat + 1))
    (plainUnary fun a => (a >>> lsb.toNat) &&& maskAt 0 (wm1.toNat + 1))

/-- BFI ( a f -- r ): a with those bits replaced. -/
def execBfi (i : Issue) (lsb : BitVec 6) (wm1 : BitVec 5) : State → Out :=
  issue i (aluLong 2 1 (35 < lsb.toNat || 36 < lsb.toNat + wm1.toNat + 1)) (onCtx fun x =>
    let m := maskAt lsb.toNat (wm1.toNat + 1)
    x.replace 2 [(x.top 1 &&& ~~~m) ||| ((x.top 0 <<< lsb.toNat) &&& m)])

/-- BPERM ( a -- r ): byte i of r is byte sel(i) of a. -/
def execBperm (i : Issue) (sel : BitVec 8) : State → Out :=
  issue i (aluLong 1 1 false) (plainUnary fun a =>
    wordOfBytes ((List.range 4).map fun k => wordByte a (sel.extractLsb' (2 * k) 2).toNat))

/-! ## Multiply and divide steps (R279 to R281) -/

/-- The signed product as a double cell, and whether it lies outside one signed cell. -/
def mulSigned (a b : Word) : BitVec 72 × Bool :=
  let p := a.toInt * b.toInt
  (BitVec.ofInt 72 p, !fits36 p)

/-- The unsigned product as a double cell. -/
def mulUnsigned (a b : Word) : BitVec 72 := BitVec.ofNat 72 (a.toNat * b.toNat)

/-- MUL ( a b -- lo hi ): V and C tell a product outside one signed cell. -/
def execMul (i : Issue) : State → Out :=
  issue i { alu 2 2 with row := 2 } (onCtx fun x =>
    let q := mulSigned (x.top 1) (x.top 0)
    (x.replace 2 [loWord q.1, hiWord q.1]).setFlags (dblFlags q.1 q.2 q.2))

/-- MULU ( a b -- lo hi ): C tells a nonzero high cell. -/
def execMulu (i : Issue) : State → Out :=
  issue i { alu 2 2 with row := 2 } (onCtx fun x =>
    let q := mulUnsigned (x.top 1) (x.top 0)
    (x.replace 2 [loWord q, hiWord q]).setFlags (dblFlags q (hiWord q != 0) false))

/-- One step of restoring division on r, q and d (R280). -/
def divStep (r q d : Word) : Word × Word :=
  let t := 2 * r.toNat + bit q.msb
  let take := decide (d.toNat ≤ t)
  let t := if take then t - d.toNat else t
  (BitVec.ofNat 36 t, BitVec.ofNat 36 (2 * q.toNat + bit take))

/-- DSTEP ( r q d -- r' q' d ). -/
def execDstep (i : Issue) : State → Out :=
  issue i (alu 3 3) (onCtx fun x =>
    let q := divStep (x.top 2) (x.top 1) (x.top 0)
    x.replace 3 [q.1, q.2, x.top 0])

end Sys2Proof.Machine
end

