-- ==== Sys2Proof/Machine/Crypto.lean ====
section
/-!
DEFINITION. The published algorithms that the manual names (R341, R346 to R351, Table MCS.6): AES, CMAC, the counter-mode
KDF, GCM, XTS, CTR, KW, CTR_DRBG, SHA-384 and ECDSA on P-384. Their definitions are those of the standards named there
(log entry 24). Octet strings are lists, first octet first.
-/

namespace Sys2Proof.Machine

/-! ## AES (FIPS 197) -/

/-- Product in GF(2^8) modulo x^8 + x^4 + x^3 + x + 1. -/
def gmul (a b : Octet) : Octet :=
  let q := (List.range 8).foldl (fun (s : Octet × Octet) k =>
    let r := if b.getLsbD k then s.1 ^^^ s.2 else s.1
    (r, (s.2 <<< 1) ^^^ (if s.2.msb then 0x1B else 0))) ((0 : Octet), a)
  q.1

/-- a^254, the inverse (0 for 0). -/
def ginv (a : Octet) : Octet :=
  let sq := fun (x : Octet) => gmul x x
  let a2 := sq a
  let a4 := sq a2
  let a8 := sq a4
  let a16 := sq a8
  let a32 := sq a16
  let a64 := sq a32
  let a128 := sq a64
  gmul (gmul (gmul a2 a4) (gmul a8 a16)) (gmul (gmul a32 a64) a128)

/-- The S-box. -/
def sbox (a : Octet) : Octet :=
  let b := ginv a
  b ^^^ b.rotateLeft 1 ^^^ b.rotateLeft 2 ^^^ b.rotateLeft 3 ^^^ b.rotateLeft 4 ^^^ 0x63

/-- The inverse S-box. -/
def sboxInv (a : Octet) : Octet :=
  ginv (a.rotateLeft 1 ^^^ a.rotateLeft 3 ^^^ a.rotateLeft 6 ^^^ 0x05)

/-- Octet-wise exclusive or. -/
def xorL (a b : List Octet) : List Octet := List.zipWith (· ^^^ ·) a b

/-- x^(k) in GF(2^8): the round constant of step k + 1. -/
def rcon : Nat → Octet
  | 0 => 1
  | k + 1 => gmul 2 (rcon k)

/-- One more four-octet word of the key schedule: `ws` newest first, `nk` words of key, index `i`. -/
def nextKeyWord (nk i : Nat) (ws : List (List Octet)) : List Octet :=
  let prev := ws.headD []
  let old := ws.getD (nk - 1) []
  let t :=
    if i % nk = 0 then xorL ((prev.drop 1 ++ prev.take 1).map sbox) [rcon (i / nk - 1), 0, 0, 0]
    else if 6 < nk ∧ i % nk = 4 then prev.map sbox
    else prev
  xorL old t

/-- The list in pieces of `n`. -/
def chunks (n : Nat) : (fuel : Nat) → List Octet → List (List Octet)
  | 0, _ => []
  | f + 1, l => if l.isEmpty then [] else l.take n :: chunks n f (l.drop n)

/-- The list in pieces of 16 octets; the last may be short. -/
def blocks (l : List Octet) : List (List Octet) := chunks 16 (l.length / 16 + 1) l

/-- The round keys, first round first. -/
def roundKeys (key : List Octet) : List (List Octet) :=
  let nk := key.length / 4
  let rounds := nk + 6
  let ws := (List.range (4 * (rounds + 1) - nk)).foldl (fun ws k => nextKeyWord nk (nk + k) ws :: ws)
    ((chunks 4 8 key).reverse)
  blocks (ws.reverse.flatMap id)

/-- Row shift of the 16-octet state, column after column. -/
def shiftRows (s : List Octet) : List Octet := (List.range 16).map fun i => s.getD ((i + 4 * (i % 4)) % 16) 0

/-- The inverse row shift. -/
def unshiftRows (s : List Octet) : List Octet := (List.range 16).map fun i => s.getD ((i + 12 * (i % 4)) % 16) 0

/-- A column matrix with first row `m` (each next row turned right by one) applied to every column. -/
def mixWith (m : List Octet) (s : List Octet) : List Octet :=
  (List.range 16).map fun i =>
    (List.range 4).foldl (fun a k => a ^^^ gmul (m.getD ((k + 4 - i % 4) % 4) 0) (s.getD (4 * (i / 4) + k) 0)) 0

/-- AES of one block. -/
def aesEnc (key b : List Octet) : List Octet :=
  let ks := roundKeys key
  let n := ks.length - 1
  let s := (List.range (n - 1)).foldl (fun s r =>
    xorL (mixWith [2, 3, 1, 1] (shiftRows (s.map sbox))) (ks.getD (r + 1) [])) (xorL b (ks.headD []))
  xorL (shiftRows (s.map sbox)) (ks.getD n [])

/-- The inverse cipher. -/
def aesDec (key b : List Octet) : List Octet :=
  let ks := (roundKeys key).reverse
  let n := ks.length - 1
  let s := (List.range (n - 1)).foldl (fun s r =>
    mixWith [14, 11, 13, 9] (xorL ((unshiftRows s).map sboxInv) (ks.getD (r + 1) []))) (xorL b (ks.headD []))
  xorL ((unshiftRows s).map sboxInv) (ks.getD n [])

/-! ## CMAC (SP 800-38B) and the KDF (SP 800-108, R341) -/

/-- A block of 16 zero octets. -/
def zeroBlock : List Octet := List.replicate 16 0

/-- Doubling in GF(2^128), most significant bit first. -/
def cmacDouble (b : List Octet) : List Octet :=
  let v := beNat b
  let w := (2 * v) % 2 ^ 128
  beOctets 16 (if 2 ^ 127 ≤ v then w ^^^ 0x87 else w)

/-- CMAC with AES. -/
def cmac (key msg : List Octet) : List Octet :=
  let k1 := cmacDouble (aesEnc key zeroBlock)
  let k2 := cmacDouble k1
  let n := max 1 ((msg.length + 15) / 16)
  let body := msg.take (16 * (n - 1))
  let last := msg.drop (16 * (n - 1))
  let lastBlock := if last.length = 16 then xorL last k1
    else xorL (last ++ 0x80 :: List.replicate (15 - last.length) 0) k2
  let c := (blocks body).foldl (fun c b => aesEnc key (xorL c b)) zeroBlock
  aesEnc key (xorL c lastBlock)

/-- The derived key of `bits` bits (R341). -/
def kdf (root label : List Octet) (inst gen bits : Nat) : List Octet :=
  let block := fun (i : Nat) =>
    cmac root (beOctets 4 i ++ label ++ [0] ++ beOctets 1 inst ++ beOctets 4 gen ++ beOctets 4 bits)
  (((List.range ((bits + 127) / 128)).flatMap fun i => block (i + 1))).take (bits / 8)

/-! ## Modes (SP 800-38A, SP 800-38D, IEEE 1619, SP 800-38F) -/

/-- CTR over any length; the whole block is the counter. -/
def ctrCrypt (key : List Octet) (start : Nat) (data : List Octet) : List Octet :=
  let bs := blocks data
  (bs.zipIdx).flatMap fun q => xorL q.1 (aesEnc key (beOctets 16 ((start + q.2) % 2 ^ 128)))

/-- Product in the field of GHASH. -/
def ghashMul (x y : Nat) : Nat :=
  ((List.range 128).foldl (fun (s : Nat × Nat) k =>
    let z := if x.testBit (127 - k) then s.1 ^^^ s.2 else s.1
    (z, if s.2 % 2 = 1 then (s.2 / 2) ^^^ (0xE1 * 2 ^ 120) else s.2 / 2)) (0, y)).1

/-- A string padded with zero octets to whole blocks. -/
def padBlocks (l : List Octet) : List Octet := l ++ List.replicate ((16 - l.length % 16) % 16) 0

/-- GHASH. -/
def ghash (h : Nat) (l : List Octet) : Nat := (blocks l).foldl (fun y b => ghashMul (y ^^^ beNat b) h) 0

/-- CTR with a 32-bit increment, as GCM counts. -/
def gctr (key : List Octet) (icb : Nat) (data : List Octet) : List Octet :=
  let hi := icb / 2 ^ 32
  (blocks data).zipIdx.flatMap fun q => xorL q.1 (aesEnc key (beOctets 16 (hi * 2 ^ 32 + (icb + q.2) % 2 ^ 32)))

/-- The full GCM tag of AAD and ciphertext under a 96-bit IV. -/
def gcmTag (key iv aad ct : List Octet) : List Octet :=
  let h := beNat (aesEnc key zeroBlock)
  let s := ghash h (padBlocks aad ++ padBlocks ct ++ beOctets 8 (8 * aad.length) ++ beOctets 8 (8 * ct.length))
  gctr key (beNat iv * 2 ^ 32 + 1) (beOctets 16 s)

/-- GCM encryption or decryption of the text alone. -/
def gcmText (key iv text : List Octet) : List Octet := gctr key (beNat iv * 2 ^ 32 + 2) text

/-- Multiplication by the primitive element of XTS; octet 0 least significant. -/
def xtsDouble (t : Nat) : Nat :=
  let w := (2 * t) % 2 ^ 128
  if 2 ^ 127 ≤ t then w ^^^ 0x87 else w

/-- `xtsDouble` applied k times. -/
def xtsPower : Nat → Nat → Nat
  | 0, t => t
  | k + 1, t => xtsDouble (xtsPower k t)

/-- One XTS block under tweak value `t`. -/
def xtsBlock (f : List Octet → List Octet) (t : Nat) (b : List Octet) : List Octet :=
  xorL (f (xorL b (leOctets 16 t))) (leOctets 16 t)

/-- One data unit under data key `k1` and tweak key `k2`, with ciphertext stealing. -/
def xtsUnit (dec : Bool) (k1 k2 : List Octet) (unit : Nat) (data : List Octet) : List Octet :=
  let f := if dec then aesDec k1 else aesEnc k1
  let t0 := leNat (aesEnc k2 (leOctets 16 unit))
  let m := data.length / 16
  let b := data.length % 16
  let blk := fun (j : Nat) => (data.drop (16 * j)).take 16
  let whole := fun (n : Nat) => (List.range n).flatMap fun j => xtsBlock f (xtsPower j t0) (blk j)
  if b = 0 then whole m
  else
    let tail := data.drop (16 * m)
    let ta := xtsPower (if dec then m else m - 1) t0
    let tb := xtsPower (if dec then m - 1 else m) t0
    let cc := xtsBlock f ta (blk (m - 1))
    let pp := xtsBlock f tb (tail ++ cc.drop b)
    whole (m - 1) ++ pp ++ cc.take b

/-- Data units one after another; each later unit takes the tweak plus 1 (Table CIZ.6). -/
def xtsCrypt (dec : Bool) (k1 k2 : List Octet) (tweak u : Nat) (data : List Octet) : List Octet :=
  (chunks u (data.length / (max u 1) + 1) data).zipIdx.flatMap fun q => xtsUnit dec k1 k2 ((tweak + q.2) % 2 ^ 128) q.1

/-- One pass of the KW wrapping function. -/
def kwStep (key : List Octet) (n : Nat) (s : List Octet × List (List Octet)) (t : Nat) : List Octet × List (List Octet) :=
  let i := t % n
  let b := aesEnc key (s.1 ++ s.2.getD i [])
  (beOctets 8 (beNat (b.take 8) ^^^ (t + 1)), s.2.set i (b.drop 8))

/-- KW of SP 800-38F. -/
def keyWrap (key data : List Octet) : List Octet :=
  let rs := chunks 8 (data.length / 8 + 1) data
  let n := rs.length
  let q := (List.range (6 * n)).foldl (kwStep key n) (List.replicate 8 0xA6, rs)
  q.1 ++ q.2.flatMap id

/-! ## CTR_DRBG (SP 800-90A, R351) -/

/-- The block cipher chaining function of the derivation. -/
def bcc (key data : List Octet) : List Octet := (blocks data).foldl (fun c b => aesEnc key (xorL c b)) zeroBlock

/-- Block_Cipher_df for 48 octets of output. -/
def drbgDf (input : List Octet) : List Octet :=
  let s := padBlocks (beOctets 4 input.length ++ beOctets 4 48 ++ input ++ [0x80])
  let k0 := (List.range 32).map fun i => BitVec.ofNat 8 i
  let temp := (List.range 3).flatMap fun i => bcc k0 (beOctets 4 i ++ List.replicate 12 0 ++ s)
  let k := temp.take 32
  let x := (temp.drop 32).take 16
  let y1 := aesEnc k x
  let y2 := aesEnc k y1
  y1 ++ y2 ++ aesEnc k y2

/-- CTR_DRBG_Update. -/
def drbgUpdate (data key : List Octet) (v : Nat) : List Octet × Nat :=
  let out := (List.range 3).flatMap fun i => aesEnc key (beOctets 16 ((v + i + 1) % 2 ^ 128))
  let t := xorL out data
  (t.take 32, beNat (t.drop 32))

/-- Instantiation from entropy and a personalization string. -/
def drbgInit (entropy pers : List Octet) : List Octet × Nat :=
  drbgUpdate (drbgDf (entropy ++ pers)) (List.replicate 32 0) 0

/-- Reseed from entropy. -/
def drbgReseed (key : List Octet) (v : Nat) (entropy : List Octet) : List Octet × Nat := drbgUpdate (drbgDf entropy) key v

/-- 64 octets of output and the state after it. -/
def drbgGen (key : List Octet) (v : Nat) : List Octet × List Octet × Nat :=
  let out := (List.range 4).flatMap fun i => aesEnc key (beOctets 16 ((v + i + 1) % 2 ^ 128))
  let q := drbgUpdate (List.replicate 48 0) key ((v + 4) % 2 ^ 128)
  (out, q.1, q.2)

/-! ## SHA-384 (FIPS 180-4) -/

/-- The first `n` primes among the numbers below 512. -/
def primes (n : Nat) : List Nat :=
  (((List.range 512).filter fun p => 2 ≤ p && (List.range 23).all fun d => d < 2 || d == p || p % d != 0 || p ≤ d)).take n

/-- The largest number below 2^`w` whose `k`-th power is at most `n`. -/
def rootBits (k n w : Nat) : Nat :=
  (List.range w).foldl (fun r i => let c := r + 2 ^ (w - 1 - i); if c ^ k ≤ n then c else r) 0

/-- The 64 bits after the binary point of the `k`-th root of `p`. -/
def rootFraction (k p : Nat) : BitVec 64 := BitVec.ofNat 64 (rootBits k (p * 2 ^ (64 * k)) 72)

/-- The round constants. -/
def shaK : List (BitVec 64) := (primes 80).map (rootFraction 3)

/-- The initial value of SHA-384: the ninth to sixteenth primes. -/
def shaH : List (BitVec 64) := ((primes 16).drop 8).map (rootFraction 2)

/-- The message schedule, newest first. -/
def shaSchedule (b : List (BitVec 64)) : List (BitVec 64) :=
  ((List.range 64).foldl (fun (w : List (BitVec 64)) _ =>
    let a := w.getD 1 0
    let c := w.getD 14 0
    let s1 := a.rotateRight 19 ^^^ a.rotateRight 61 ^^^ (a >>> 6)
    let s0 := c.rotateRight 1 ^^^ c.rotateRight 8 ^^^ (c >>> 7)
    (s1 + w.getD 6 0 + s0 + w.getD 15 0) :: w) b.reverse).reverse

/-- One round on the eight working variables. -/
def shaRound (v : List (BitVec 64)) (kw : BitVec 64) : List (BitVec 64) :=
  let g := fun (i : Nat) => v.getD i 0
  let s1 := (g 4).rotateRight 14 ^^^ (g 4).rotateRight 18 ^^^ (g 4).rotateRight 41
  let t1 := g 7 + s1 + ((g 4 &&& g 5) ^^^ (~~~(g 4) &&& g 6)) + kw
  let s0 := (g 0).rotateRight 28 ^^^ (g 0).rotateRight 34 ^^^ (g 0).rotateRight 39
  let t2 := s0 + ((g 0 &&& g 1) ^^^ (g 0 &&& g 2) ^^^ (g 1 &&& g 2))
  [t1 + t2, g 0, g 1, g 2, g 3 + t1, g 4, g 5, g 6]

/-- One block of 128 octets. -/
def shaBlock (ks h : List (BitVec 64)) (b : List Octet) : List (BitVec 64) :=
  let w := shaSchedule ((chunks 8 16 b).map fun o => BitVec.ofNat 64 (beNat o))
  let v := (List.zipWith (· + ·) w ks).foldl shaRound h
  List.zipWith (· + ·) h v

/-- The SHA-384 digest, 48 octets. -/
def sha384 (msg : List Octet) : List Octet :=
  let pad := (239 - msg.length % 128) % 128
  let m := msg ++ 0x80 :: List.replicate pad 0 ++ beOctets 16 (8 * msg.length)
  let ks := shaK
  let h := (chunks 128 (m.length / 128 + 1) m).foldl (shaBlock ks) shaH
  (h.flatMap fun x => beOctets 8 x.toNat).take 48

/-! ## ECDSA on P-384 (FIPS 186) -/

/-- The field prime. -/
def p384 : Nat := 2 ^ 384 - 2 ^ 128 - 2 ^ 96 + 2 ^ 32 - 1
/-- The order of the base point. -/
def n384 : Nat := 0xffffffffffffffffffffffffffffffffffffffffffffffffc7634d81f4372ddf581a0db248b0a77aecec196accc52973
/-- The curve coefficient b; a is −3. -/
def b384 : Nat := 0xb3312fa7e23ee7e4988e056be3f82d19181d9c6efe8141120314088f5013875ac656398d8a2ed19d2a85c8edd3ec2aef
/-- The base point. -/
def g384 : Nat × Nat :=
  (0xaa87ca22be8b05378eb1c71ef320ad746e1d3b628ba79b9859f741e082542a385502f25dbf55296c3a545e3872760ab7,
   0x3617de4a96262c6f5d9e98bf9292dc29f8f41dbd289a147ce9da3113b5f0b8c00a60b1ce1d7e819d7a431d7c90ea0e5f)

/-- b^e modulo m, by the bits of e. -/
def powMod (b e m : Nat) : Nat :=
  (List.range 384).foldl (fun r i => let q := r * r % m; if e.testBit (383 - i) then q * b % m else q) 1

/-- The inverse modulo a prime. -/
def invMod (a m : Nat) : Nat := powMod (a % m) (m - 2) m

/-- a − b modulo m, for a and b below m. -/
def subMod (a b m : Nat) : Nat := (a + m - b) % m

/-- Point addition; `none` is the point at infinity. -/
def ecAdd (p q : Option (Nat × Nat)) : Option (Nat × Nat) :=
  match p, q with
  | none, _ => q
  | _, none => p
  | some (x1, y1), some (x2, y2) =>
    if x1 = x2 ∧ (y1 + y2) % p384 = 0 then none
    else
      let l := if x1 = x2 then (3 * x1 * x1 + p384 - 3) * invMod (2 * y1) p384 % p384
        else subMod y2 y1 p384 * invMod (subMod x2 x1 p384) p384 % p384
      let x3 := subMod (subMod (l * l % p384) x1 p384) x2 p384
      some (x3, subMod (l * subMod x1 x3 p384 % p384) y1 p384)

/-- k times a point. -/
def ecMul (k : Nat) (p : Option (Nat × Nat)) : Option (Nat × Nat) :=
  (List.range 384).foldl (fun r i => let q := ecAdd r r; if k.testBit (383 - i) then ecAdd q p else q) none

/-- A point of the curve. -/
def onCurve (x y : Nat) : Bool := x < p384 && y < p384 && y * y % p384 == (x * x * x + (p384 - 3) * x + b384) % p384

/-- Verification of (r, s) over a SHA-384 digest under public key (x, y). -/
def ecdsaVerify (x y : Nat) (digest : List Octet) (r s : Nat) : Bool :=
  if !(onCurve x y && 0 < r && r < n384 && 0 < s && s < n384) then false else
  let w := invMod s n384
  let e := beNat digest
  match ecAdd (ecMul (e * w % n384) (some g384)) (ecMul (r * w % n384) (some (x, y))) with
  | none => false
  | some (px, _) => px % n384 == r

end Sys2Proof.Machine
end

