-- ==== Sys2Proof/Machine/Keys.lean ====
section
/-!
DEFINITION. The DRBG (R351, R352), key slots (R340 to R344) and the packing of host octets into engine words (R70).
-/

namespace Sys2Proof.Machine

/-! ## Packing (R70) -/

/-- Engine words that `n` octets cover. -/
def wordsFor (packed : Bool) (n : Nat) : Nat := if packed then 2 * n / 9 else (n + 3) / 4

/-- Two words from nine octets, most significant bit first. -/
def packNine (o : List Octet) : List Word :=
  let v := beNat o
  [BitVec.ofNat 36 (v / 2 ^ 36), BitVec.ofNat 36 v]

/-- Octets as engine words; unused bytes of the last word are 0. -/
def packOctets (packed : Bool) (o : List Octet) : List Word :=
  if packed then (chunks 9 (o.length / 9 + 1) o).flatMap packNine
  else (chunks 4 (o.length / 4 + 1) o).map fun g => wordOfBytes (g.map fun x => x.setWidth 9)

/-- The bytes of words, byte 0 of each word first. -/
def bytesOf (ws : List Word) : List NineBit := ws.flatMap fun w => (List.range 4).map fun i => wordByte w i

/-- Pairs of words as nine octets each. -/
def unpackPairs : List Word → List Octet
  | a :: b :: t => beOctets 9 (a.toNat * 2 ^ 36 + b.toNat) ++ unpackPairs t
  | _ => []

/-- `n` octets from engine words; none when an OCTET byte has bit 8 set. -/
def unpackOctets (packed : Bool) (n : Nat) (ws : List Word) : Option (List Octet) :=
  if packed then some ((unpackPairs ws).take n)
  else
    let bs := (bytesOf ws).take n
    if bs.any fun b => b.msb then none else some (bs.map fun b => b.setWidth 8)

/-! ## The DRBG -/

/-- Generate calls after which a reseed is due, and after which the DRBG starves. -/
def reseedAt : Nat := 2 ^ 20 - 2 ^ 16

/-- The call limit. -/
def starveAt : Nat := 2 ^ 20

/-- One generate call: 64 octets, unless the DRBG is not instantiated or STARVED. -/
def State.drbg (s : State) : Option (List Octet × State) :=
  let u := s.units
  if u.drbgState = 0 ∨ u.drbgState = 3 then none else
  let q := drbgGen (beOctets 32 u.drbgKey.toNat) u.drbgV.toNat
  let n := u.calls + 1
  let st : BitVec 2 := if starveAt ≤ n then 3 else if reseedAt ≤ n then 2 else 1
  let s := { s with units := { u with
      drbgKey := BitVec.ofNat 256 (beNat q.2.1), drbgV := BitVec.ofNat 128 q.2.2, calls := n, drbgState := st } }
  some (q.1, if st = 3 then s.arrive 624 else s)

/-- The eight healthy words of an intake, as octets. -/
def entropyOctets (ws : List (BitVec 64)) : List Octet := ws.flatMap fun w => beOctets 8 w.toNat

/-- The shade generator of a cipher lane takes 256 DRBG bits, and the lane goes on (R350). -/
def State.rekeyLane (s : State) (lane : Nat) : State :=
  match s.drbg with
  | none => s
  | some (r, s) =>
    { s with units := { s.units with
      shades := Assoc.insert s.units.shades lane (BitVec.ofNat 256 (beNat (r.take 32)))
      stalled := s.units.stalled.filter (· != lane) } }

/-- The DRBG takes a new state, ready with no calls made. Leaving STARVED fires source 625, and the lanes that stopped at a
rekey point are rekeyed in the order in which they stopped (R352). -/
def State.drbgSet (s : State) (q : List Octet × Nat) : State :=
  let was := s.units.drbgState
  let s := { s with units := { s.units with
      drbgKey := BitVec.ofNat 256 (beNat q.1), drbgV := BitVec.ofNat 128 q.2, calls := 0, drbgState := 1, entropy := [] } }
  if was = 3 then s.units.stalled.foldl State.rekeyLane (s.arrive 625) else s

/-! ## Key slots -/

/-- Key length in octets of a kind (Table CIZ.2). -/
def keyOctets (kind : BitVec 3) : Nat :=
  match kind.toNat with
  | 1 => 16
  | 2 => 32
  | 3 => 32
  | 4 => 64
  | _ => 0

/-- The modes a kind may permit, bit m for mode m (Table CIZ.2). -/
def kindModes (kind : BitVec 3) : BitVec 8 :=
  match kind.toNat with
  | 1 => 0xF3
  | 2 => 0xF3
  | 3 => 0x0C
  | 4 => 0x0C
  | _ => 0

/-- The key of a copy as a number, first octet most significant. -/
def KeyCopy.key (k : KeyCopy) : BitVec 512 := k.share0 ^^^ k.share1

/-- A key number as octets. -/
def keyList (kind : BitVec 3) (k : BitVec 512) : List Octet := beOctets (keyOctets kind) k.toNat

/-- The usage limit in force: values above 2^32 act as 2^32. -/
def KeySlot.limitNow (k : KeySlot) : Nat := min (2 ^ 32) k.limit.cur

/-- Slots whose front or back owner is user `i` (Table PTN.2). An EMPTY copy has no owner. -/
def State.slotsOwned (s : State) (i : BitVec 8) : Nat :=
  (s.units.slots.filter fun k => (k.2.front.kind != 0 && k.2.front.owner == i) ||
    (match k.2.back with
      | some b => b.kind != 0 && b.owner == i
      | none => false)).length

/-- How an admission's key checks end (Table CIZ.4). -/
inductive KeyCheck where
  | refused (code : Nat)
  | spent
  /-- The DRBG is STARVED: the admission waits (R352). -/
  | starved
  /-- Slot, kind, its two shares after the refresh, the counter before the increase, and the state after the checks. -/
  | ok (slot : Nat) (kind : BitVec 3) (share0 share1 : BitVec 512) (counter : Nat) (s : State)

/-- The key checks of R344 for the cipher slot A (`false`) or B of a job, in mode `m`. -/
def State.keyCheck (s : State) (j : Job) (slotB : Bool) (m : Nat) : KeyCheck :=
  let sel := j.num (if slotB then 42 else 40) 2
  let n := sel % 1024
  let k := s.slot n
  let limit := if slotB then j.snap.keyB else j.snap.keyA
  if sel < 32768 ∨ k.front.kind = 0 then .refused 0x10
  else if k.front.owner ≠ j.inst then .refused 0x11
  else if !k.front.perm.getLsbD m then .refused 0x12
  else if limit ≤ k.counter then .spent
  else match s.drbg with
    | none => .starved
    | some (r, s) =>
      let mask := BitVec.ofNat 512 (beNat r)
      let front := { k.front with share0 := k.front.share0 ^^^ mask, share1 := k.front.share1 ^^^ mask }
      let s := s.putSlot n { k with front := front, counter := k.counter + 1 }
      let s := if k.counter + 1 = k.limitNow then (s.arrive 628).arrive j.inst.toNat else s
      .ok n front.kind front.share0 front.share1 k.counter s

end Sys2Proof.Machine
end

