-- ==== Sys2Proof/Machine/Dispatcher.lean ====
section
/-!
DEFINITION. The dispatcher (R98 to R101, R126, R130 to R134) and the loading of program images (R88 to R92).
-/

namespace Sys2Proof.Machine

/-! ## Use and shares -/

/-- Jobs of a user that hold a context (INST_USE0.CTX). -/
def State.contextsOf (s : State) (i : BitVec 8) : Nat := (s.jobs.filter fun x => x.2.inst == i && x.2.place.isSome).length

/-- INST_SHR_CTX.MAX in force. -/
def State.maxCtx (s : State) (i : BitVec 8) : Nat := min 1792 (((s.inst i.toNat).share 0).cur.extractLsb' 16 11).toNat

/-- INST_SHR_CTX.MIN in force: a minimum above the maximum acts as the maximum (R383). -/
def State.minCtx (s : State) (i : BitVec 8) : Nat :=
  min (s.maxCtx i) (((s.inst i.toNat).share 0).cur.extractLsb' 0 11).toNat

/-- INST_SHR_WGT.WEIGHT in force; 0 acts as 1. -/
def State.weight (s : State) (i : BitVec 8) : Nat := max 1 (((s.inst i.toNat).share 4).cur.extractLsb' 0 8).toNat

/-- INSTANCE granules applied to a user in this epoch (R101, R385, INST_USE0.GRAN), those still drained for it among them. -/
def State.gransApplied (s : State) (i : BitVec 8) : Nat := ((List.range 1024).filter fun g => (s.gran g).applied == .inst i).length

/-- Granules that the user can take for a staged set: a DRAINING one counts for no one (R139). -/
def State.gransOf (s : State) (i : BitVec 8) : Nat :=
  ((List.range 1024).filter fun g => (s.gran g).applied == .inst i && (s.gran g).draining.isNone).length

/-- Granules that the user's staged sets reserve (R101). -/
def State.reservedOf (s : State) (i : BitVec 8) : Nat :=
  (s.jobs.filter fun x => x.2.inst == i && (x.2.st == .running || x.2.st == .sealed || x.2.st == .released)).foldl
    (fun n x => n + x.2.snap.granules) 0

/-! ## Eligibility (R131) -/

/-- A position lies before the channel's head H: less than half the positions behind it, modulo 2^32 (log entry 98: DESIGN CHOICE). -/
def Chan.beforeHead (x : Chan) (p : BitVec 32) : Bool := 2 ^ 31 ≤ (p - x.head).toNat

/-- R98: the position before is not before H, and its completion is still due: it has a tracker entry, its commit record is held here, or
its descriptor is still to be fetched. -/
def State.heldByOrder (s : State) (j : Job) : Bool :=
  let p := j.pos - 1
  let x := s.chan j.chan.toNat
  j.ordered && !x.beforeHead p && ((s.jobs.any fun x => x.2.chan == j.chan && x.2.pos == p) || x.refetch.contains p ||
    s.mir.held.any fun r => r.2.inst == j.inst && r.2.chan == j.chan && r.2.pos == p)

/-- R99: an earlier-accepted job of the user with the same key is still here. -/
def State.heldByKey (s : State) (j : Job) : Bool :=
  j.serial != 0 && s.jobs.any fun x => x.2.inst == j.inst && x.2.serial == j.serial && x.2.order < j.order

/-- A job may be dispatched. One whose reservation can never be made is eligible too: the dispatcher ends it (R101). -/
def State.eligible (s : State) (j : Job) : Bool :=
  j.queued && j.st == .accepted && !s.heldByOrder j && !s.heldByKey j && s.contextsOf j.inst < s.maxCtx j.inst &&
    (j.reserve == 0 || s.gransApplied j.inst < j.reserve || s.reservedOf j.inst + j.reserve ≤ s.gransOf j.inst)

/-- Eligible jobs in the queue of a stand. -/
def State.eligibleAt (s : State) (d : Nat) : List (Nat × Job) := s.jobs.filter fun x => x.2.stand == d && s.eligible x.2

/-- The order of a queue: jobs returned under R134 first, in acceptance order among themselves (log entry 100), then acceptance order. -/
def Job.before (a b : Job) : Bool :=
  if a.returned = b.returned then a.order < b.order else a.returned

/-- The first job of a list in queue order. -/
def firstOf : List (Nat × Job) → Option (Nat × Job)
  | [] => none
  | x :: t => match firstOf t with
    | none => some x
    | some y => if y.2.before x.2 then some y else some x

/-- The earliest-accepted job of a list. -/
def earliest : List (Nat × Job) → Option (Nat × Job)
  | [] => none
  | x :: t => match earliest t with
    | none => some x
    | some y => if y.2.order < x.2.order then some y else some x

/-! ## The stand's choice (R131) -/

/-- The user that weighted round-robin serves next among those of a list: the one served last while its turn lasts, else
the next in number (R131, step 3; log entry 32). -/
def State.rrPick (s : State) (q : StandQ) (is : List Nat) : Option Nat :=
  if is.contains q.rrInst && q.rrUsed < s.weight (BitVec.ofNat 8 q.rrInst) then some q.rrInst
  else ((List.range 256).map fun k => (q.rrInst + 1 + k) % 256).find? fun i => is.contains i

/-- The stand's pick among its eligible jobs: jobs of users below their minimum, then the higher priority, then weighted
round-robin among users, then the queue order. -/
def State.pickJob (s : State) (d : Nat) : Option (Nat × Job) :=
  let js := s.eligibleAt d
  let low := js.filter fun x => s.contextsOf x.2.inst < s.minCtx x.2.inst
  let js := if low.isEmpty then js else low
  let top := js.foldl (fun m x => max m (s.inst x.2.inst.toNat).prio.cur.toNat) 0
  let js := js.filter fun x => (s.inst x.2.inst.toNat).prio.cur.toNat == top
  (s.rrPick (s.stand d) (js.map fun x => x.2.inst.toNat)).bind fun i => firstOf (js.filter fun x => x.2.inst.toNat == i)

/-- The turn of weighted round-robin after a dispatch for user `i`. -/
def StandQ.served (q : StandQ) (i : Nat) : StandQ :=
  if q.rrInst = i then { q with rrUsed := q.rrUsed + 1 } else { q with rrInst := i, rrUsed := 1 }

/-- The earliest-accepted eligible job of a HOT stand, HOT stands taken round-robin (R133). -/
def State.steal (s : State) (d : Nat) : Option (Nat × Nat × Job) :=
  let order := (List.range 16).map fun k => ((s.stand d).stealRr + 1 + k) % 16
  order.findSome? fun h =>
    if h = d ∨ !(s.stand h).hot then none else (earliest (s.eligibleAt h)).map fun x => (h, x)

/-! ## The engine's choice (R132) -/

/-- The key of a job's program image. -/
def Job.progKey (j : Job) : ProgKey := ⟨j.inst.toNat, j.entry.ptab.toNat, j.num 0 2⟩

/-- Free job contexts of a physical engine that runs. -/
def State.freeCtxs (s : State) (p : Nat) : List Nat :=
  if (s.eng p).running && !(s.eng p).halted then ((List.range 8).drop 1).filter fun c => (s.ctx p c).state == .free else []

/-- An engine's overlays hold the image of a job. -/
def Engine.holdsImage (e : Engine) (k : ProgKey) : Bool := e.overlays.any fun o => o.key == k && !o.stale

/-- Which of two engines R132 takes: the image first, then fewer busy contexts, then the lower number. -/
def State.betterEngine (s : State) (k : ProgKey) (a b : Nat) : Bool :=
  let h := fun l => bit (!(s.eng (s.physOf l)).holdsImage k)
  let f := fun l => 7 - (s.freeCtxs (s.physOf l)).length
  h a < h b || (h a == h b && (f a < f b || (f a == f b && a < b)))

/-- The engine of a stand for a job, and its lowest free job context (log entry 33). -/
def State.pickEngine (s : State) (d : Nat) (k : ProgKey) : Option (Nat × Nat) :=
  let ls := ((List.range 16).map fun n => 16 * d + n).filter fun l => s.inService l && !(s.freeCtxs (s.physOf l)).isEmpty
  match ls with
  | [] => none
  | l :: t =>
    let l := t.foldl (fun b x => if s.betterEngine k x b then x else b) l
    some (s.physOf l, (s.freeCtxs (s.physOf l)).headD 0)

/-! ## Program images (R88 to R92) -/

/-- A whole-line JOB read for the keeper of a job. -/
def State.readJob (s : State) (j : Job) (line : HAddr) (p : Purpose) : State := s.send (readReq line j.inst 0 p)

/-- Words of the program cache: the SYSTEM granules (R137). -/
def State.cacheRoom (s : State) : Nat :=
  4096 * ((List.range 1024).filter fun g => (s.gran g).applied == .system && (s.gran g).draining.isNone).length

/-- Words in use. -/
def cacheUsed (l : List CacheEntry) : Nat := l.foldl (fun n e => n + e.words.length) 0

/-- Least recently used images go until `room` words hold the rest (R91). -/
def evict (room : Nat) : (fuel : Nat) → List CacheEntry → List CacheEntry
  | 0, l => l
  | f + 1, l =>
    if cacheUsed l ≤ room then l else
    let old := l.foldl (fun m e => min m e.used) (l.headD { key := ⟨0, 0, 0⟩, gen := 0, addr := 0, words := [], used := 0 }).used
    evict room f (l.filter fun e => e.used != old)

/-- The cache after a boundary: the images that stand in a granule which drains from SYSTEM go (R91, R139), and the rest fits again. -/
def State.trimCache (s : State) : State :=
  let leaving := (List.range 1024).filter fun g => (s.gran g).draining == some .system
  let stay := s.dsp.cache.filter fun e => !leaving.any (Config.cachedIn e.stamp)
  { s with dsp := { s.dsp with cache := evict s.cacheRoom stay.length stay } }

/-- A verified image enters the cache, where it fits (R91). -/
def State.cacheImage (s : State) (e : CacheEntry) : State :=
  let d := s.dsp
  let others := d.cache.filter fun x => x.key != e.key
  if s.cacheRoom < e.words.length then { s with dsp := { d with cache := others } } else
  let kept := evict (s.cacheRoom - e.words.length) others.length others
  { s with dsp := { d with cache := kept ++ [{ e with used := d.cacheUse, stamp := d.cacheUse }], cacheUse := d.cacheUse + 1 } }

/-! ## Overlays (R92, R153; log entry 29) -/

/-- An overlay has no word in common with `n` words from `b`. -/
def Overlay.clear (o : Overlay) (b n : Nat) : Bool := o.base + o.words ≤ b || b + n ≤ o.base

/-- The first place in the overlay area for `n` words, beside the overlays of a list. -/
def Engine.overlayRoom (e : Engine) (n : Nat) (l : List Overlay) : Option Nat :=
  (e.lsKeepEnd.toNat :: l.map fun o => o.base + o.words).find? fun b =>
    e.lsKeepEnd.toNat ≤ b && b + n ≤ e.lsOvlEnd.toNat && l.all fun o => o.clear b n

/-- A job that has its image runs from this overlay. -/
def State.overlayUsed (s : State) (p : Nat) (o : Overlay) : Bool :=
  (List.range 8).any fun c => (s.jobAt p c).any (fun j => j.load == .present) && ((s.eng p).block c).ovlLo.toNat == o.base

/-- A place for `n` words, once the oldest overlays without a user have gone, one at a time. -/
def State.makeRoom (s : State) (p n : Nat) : (fuel : Nat) → List Overlay → Option (Nat × List Overlay)
  | 0, _ => none
  | f + 1, l =>
    match (s.eng p).overlayRoom n l with
    | some b => some (b, l)
    | none => match l.find? fun o => !s.overlayUsed p o with
      | none => none
      | some o => s.makeRoom p n f (l.filter (· != o))

/-- The job start block that the keeper writes for an image in an overlay (R89, R95, R153, R156): the header's ENTRY and MODE, the default
trap vector, the context's own area for spills, and the overlay's range. -/
def Engine.startBlock (e : Engine) (c : Nat) (o : Overlay) : StartBlock :=
  let h := e.word o.base
  let area := e.lsCtxBase.toNat + 512 * c
  { start := BitVec.ofNat 26 (4 * (o.base + h.toNat % 65536)), tvb := Config.defaultTvb, wsp := BitVec.ofNat 14 area
    wsl := BitVec.ofNat 14 (min 0x3FFF (area + 512)), mode := BitVec.ofNat 4 (bit (h.getLsbD 34)), cb := 0
    ovlLo := BitVec.ofNat 14 o.base, ovlHi := BitVec.ofNat 14 (min 0x3FFF (o.base + o.words)) }

/-- The image of the job on a context is present: its start block is written. -/
def State.imagePresent (s : State) (id : Nat) (o : Overlay) : State :=
  match (s.job id).bind (·.place) with
  | none => s
  | some (p, c) =>
    let s := s.modEng p fun e => { e with blocks := Tab.put e.blocks c (e.startBlock c o) }
    s.modJob id fun j => { j with load := .present, imageOctets := [], keyOctets := [] }

/-- A verified image is copied into the overlay area, word by word; without room the job waits for it. -/
def State.placeImage (s : State) (id : Nat) (ws : List Word) (o : Overlay) : State :=
  match (s.job id).bind (·.place) with
  | none => s
  | some (p, _) =>
    let old := (s.eng p).overlays.filter fun x => x.key != o.key || s.overlayUsed p x
    match s.makeRoom p ws.length (old.length + 1) old with
    | none => s.modJob id fun j => { j with load := .placing ws o, imageOctets := [], keyOctets := [] }
    | some (b, l) =>
      let o := { o with base := b, words := ws.length }
      let s := s.modEng p fun e => (ws.zipIdx).foldl (fun e q => e.putWord (b + q.2) q.1) { e with overlays := l ++ [o] }
      s.imagePresent id o

/-- Images that wait for room in an overlay area are tried again. -/
def State.placePump (s : State) : State :=
  s.jobs.foldl (fun t x => match x.2.load with
    | .placing ws o => t.placeImage x.1 ws o
    | _ => t) s

/-- The user accepts SIGNED images only, and this one is not (R90). -/
def State.unsigned (s : State) (j : Job) (signed : Bool) : Bool := (s.inst j.inst.toNat).sigReq && !signed

/-- An image of the cache is copied into local store. One that was flushed while its table entry was read stays stale (R91). -/
def State.fromCache (s : State) (id : Nat) (j : Job) (e : CacheEntry) : State :=
  let touch := fun (x : CacheEntry) => if x.key = e.key then { x with used := s.dsp.cacheUse, stale := j.flushed } else x
  if s.unsigned j e.signed then s.endJob id 2 0x81 else
  let s := { s with dsp := { s.dsp with cache := s.dsp.cache.map touch, cacheUse := s.dsp.cacheUse + 1 } }
  s.placeImage id e.words { key := e.key, gen := e.gen, addr := e.addr, words := e.words.length, stale := j.flushed, signed := e.signed }

/-- The keeper makes a job's image present: from local store, from the cache, or from the host, the table entry first
(R92, step 1). -/
def State.beginLoad (s : State) (id p : Nat) : State :=
  match s.job id with
  | none => s
  | some j =>
    let k := j.progKey
    let j := { j with flushed := false }
    match (s.eng p).overlays.find? fun o => o.key == k && !o.stale with
    | some o => if s.unsigned j o.signed then s.endJob id 2 0x81 else s.imagePresent id o
    | none => match s.dsp.cache.find? fun e => e.key == k && !e.stale with
      | some e => (s.putJob id j).fromCache id j e
      | none =>
        let a := BitVec.ofNat 64 (k.table + 32 * k.program)
        (s.putJob id { j with load := .table, imageOctets := [], keyOctets := [] }).readJob j a (.pgmTable id)

/-- The image address of a table entry (Table CHP.6). -/
def entryAddr (e : BitVec 256) : Nat := (e.extractLsb' 0 64).toNat

/-- The image length. -/
def entryLen (e : BitVec 256) : Nat := (e.extractLsb' 64 32).toNat

/-- The generation. -/
def entryGen (e : BitVec 256) : Nat := (e.extractLsb' 96 32).toNat

/-- The image is SIGNED. -/
def entrySigned (e : BitVec 256) : Bool := e.getLsbD 160

/-- Reserved fields, alignment and length of a table entry (R92, step 2). -/
def entryOk (e : BitVec 256) : Bool :=
  (e.extractLsb' 161 95) == 0 && entryAddr e % 64 == 0 && entryLen e % 9 == 0 && 18 ≤ entryLen e && entryLen e ≤ 36864

/-- Octets to read: the image, and its signature when SIGNED (R90). -/
def entryOctets (e : BitVec 256) : Nat := entryLen e + if entrySigned e then 96 else 0

/-- Reads of lines `k`, `k + 1`, … from a host address. -/
def State.readLines (s : State) (j : Job) (base : HAddr) (space : BitVec 2) (p : Nat → Purpose) : List Nat → State
  | [] => s
  | k :: t => (s.send (readReq (base + BitVec.ofNat 64 (64 * k)) j.inst space (p k))).readLines j base space p t

/-- The engine's local store holds the image of the table entry that was read: it is no longer stale, unless a flush came meanwhile
(R91). -/
def State.reuseOverlay (s : State) (id : Nat) (j : Job) (o : Overlay) : State :=
  if s.unsigned j o.signed then s.endJob id 2 0x81 else
  let u := { o with stale := j.flushed }
  let s := match j.place with
    | some (p, _) => s.modEng p fun e => { e with overlays := e.overlays.map fun x => if x = o then u else x }
    | none => s
  s.imagePresent id u

/-- The table entry has arrived: it is checked, and the image is read unless the engine's local store or the cache holds it under the
same generation and address (R91, R92). -/
def State.tableArrived (s : State) (id : Nat) (line : Line) : State :=
  match s.job id with
  | none => s
  | some j =>
    let off := (j.entry.ptab.toNat + 32 * j.num 0 2) % 64
    let e : BitVec 256 := line.extractLsb' (8 * off) 256
    if !entryOk e then s.endJob id 2 0x82 else
    let same := fun (k : ProgKey) (g a : Nat) => k == j.progKey && g == entryGen e && a == entryAddr e
    match j.place.bind fun q => (s.eng q.1).overlays.find? fun o => same o.key o.gen o.addr with
    | some o => s.reuseOverlay id j o
    | none =>
    match s.dsp.cache.find? fun x => same x.key x.gen x.addr with
    | some x => s.fromCache id j x
    | none =>
      let n := (entryOctets e + 63) / 64
      (s.putJob id { j with ptEntry := e, load := .image n }).readLines j (BitVec.ofNat 64 (entryAddr e)) 0 (Purpose.image id)
        (List.range n)

/-- The octets of an octet map from `lo` to `lo + n - 1`, in order. -/
def octetsFrom (m : List (Nat × Octet)) (lo n : Nat) : List Octet :=
  ((m.filter fun x => lo ≤ x.1 && x.1 < lo + n).map (·.2))

/-- The words of an image: nine octets are two words (R70). -/
def imageWords : List Octet → List Word
  | a :: b :: c :: d :: e :: f :: g :: h :: i :: t =>
    let v := beNat [a, b, c, d, e, f, g, h, i]
    BitVec.ofNat 36 (v / 2 ^ 36) :: BitVec.ofNat 36 v :: imageWords t
  | _ => []

/-- The header of an image (R89). -/
def headerValid (ws : List Word) : Bool :=
  let h := ws.headD 0
  let entry := h.toNat % 65536
  (h.extractLsb' 35 1) == 0 && (h.extractLsb' 16 18) == 0 && 2 ≤ entry && entry < ws.length

/-- The image is verified: it is cached and copied into local store. -/
def State.imageVerified (s : State) (id : Nat) : State :=
  match s.job id with
  | none => s
  | some j =>
    let ws := imageWords (octetsFrom j.imageOctets 0 (entryLen j.ptEntry))
    let e : CacheEntry :=
      { key := j.progKey, gen := entryGen j.ptEntry, addr := entryAddr j.ptEntry, words := ws, used := 0, stale := j.flushed
        signed := entrySigned j.ptEntry }
    (s.cacheImage e).placeImage id ws
      { key := e.key, gen := e.gen, addr := e.addr, words := ws.length, stale := j.flushed, signed := e.signed }

/-! ## Placing a job -/

/-- The settings snapshot of a job at its dispatch (R126, Table DSP.2). -/
def State.snapshotOf (s : State) (j : Job) : Snapshot :=
  let x := s.inst j.inst.toNat
  let limit := fun (o : Nat) => if j.num o 2 < 32768 then 0 else (s.slot (j.num o 2 % 1024)).limitNow
  { epoch := s.dsp.epoch, durable := x.durable.cur, limit := x.jobTmo, prio := x.prio.cur, keyA := limit 40, keyB := limit 42
    ptSel := x.period.front, granules := j.reserve }

/-- The entry of a job that a context has taken: a new snapshot at each placing, and the engine and context of its last run from here on
(log entries 99, 100). -/
def Job.placed (j : Job) (snap : Snapshot) (l p c : Nat) : Job :=
  { j with
    snap := snap, st := .running, queued := false, returned := false, place := some (p, c), dispatched := true
    lastEng := BitVec.ofNat 8 l, lastCtx := BitVec.ofNat 3 c }

/-- A job takes a free context of stand `d`: its entry runs, the context is ASSIGNED, the keeper is told, and its image is
made present (R126, R131, R132, R374). A reservation that can never be made ends it (R101). -/
def State.placeJob (s : State) (d id : Nat) (j : Job) : State :=
  match s.pickEngine d j.progKey with
  | none => s
  | some (p, c) =>
    if s.gransApplied j.inst < j.reserve then s.endJob id 4 9 else
    let s := s.putStand d ((s.stand d).served j.inst.toNat)
    let s := s.putJob id (j.placed (s.snapshotOf j) (s.logicalNum p) p c)
    let s := s.modCtx p c fun x => { x with state := .assigned, job := some id }
    (s.dispatchEvent p c).beginLoad id p

/-- A stand takes the job of a HOT stand: the OUT and IN counts follow (R133). -/
def State.stealJob (s : State) (d h id : Nat) (j : Job) : State :=
  let q := s.stand h
  let s := s.putStand h { q with outs := satInc q.outs }
  let r := s.stand d
  (s.putStand d { r with ins := satInc r.ins, stealRr := h }).placeJob d id j

/-- A stand has a free job context. -/
def State.hasRoom (s : State) (d : Nat) : Bool :=
  (List.range 16).any fun n => s.inService (16 * d + n) && !(s.freeCtxs (s.physOf (16 * d + n))).isEmpty

/-- DISPATCH: images that wait for overlay room are tried again, and a stand places one job: the pick of its own queue, or, without one, a job of a HOT stand (R131, R133). -/
def execDispatch (stand : Fin 16) (s : State) : Out :=
  let d := stand.val
  let s := { s with out := [] }
  let s := if s.works then s.placePump else s
  if !s.works || !s.hasRoom d then .next s else
  match s.pickJob d with
  | some (id, j) => .next (s.placeJob d id j).settle
  | none =>
    match s.steal d with
    | some (h, id, j) => .next (s.stealJob d h id j).settle
    | none => .next s

end Sys2Proof.Machine
end

