-- ==== Sys2Proof/Machine/Mem.lean ====
section
/-!
DEFINITION. Memory instructions (Table INS.3), split accesses (R183), locked sequences (R213 to R216), loads whose data
returns later (R304), and the store buffer's drain (R308).
-/

namespace Sys2Proof.Machine

/-! ## Loads -/

/-- What a load reads and leaves. -/
structure LoadForm where
  /-- D cells popped. -/
  pops : Nat := 0
  /-- Words read, with the bytes of each. -/
  parts : List (WAddr × List Bool)
  /-- The cells pushed, deepest first, from the words read. -/
  result : List Word → List Word
  /-- The address steps on by one word. -/
  bump : Bool := false
  /-- A split access: a fault of the second half sets SPLIT. -/
  split : Bool := false
  /-- The visible load delay of R171 applies. -/
  visible : Bool := true
  /-- It opens a locked sequence of this many instructions. -/
  lock : Option Nat := none

/-- The address reads or writes the log deck or the service ROM (R304). -/
def slow (a : WAddr) : Bool :=
  match placeOf a with
  | .deck _ => true
  | .rom _ => true
  | _ => false

/-- What stands for no line: local store has fewer (log entry 22). -/
def noLine : Bool × Nat := (false, 4096)

/-- The reserved line of an address (R213): in the log deck, or in local store. -/
def lockLine (a : WAddr) : Bool × Nat :=
  match placeOf a with
  | .deck w => (true, w / 8)
  | .store w => (false, w / 8)
  | _ => noLine

/-- A line reservation is taken: a slice keeps 16, and evicts its oldest (R141). -/
def State.reserve (s : State) (p c line : Nat) : State :=
  let l := s.ldk.resv.filter fun r => r != (line, p, c)
  let mine := fun (r : Nat × Nat × Nat) => s.sliceOf r.1 == s.sliceOf line
  let l := if (l.filter mine).length < 16 then l else
    match l.findIdx? mine with
    | some k => l.eraseIdx k
    | none => l
  { s with ldk := { s.ldk with resv := l ++ [(line, p, c)] } }

/-- The words of a load as it finds them at issue (R310). -/
def State.fetchParts (s : State) (p : Nat) : List (WAddr × List Bool) → Res (List (Word × Bool))
  | [] => .ok []
  | (a, b) :: t => (s.loadWord p a b).bind fun w => (s.fetchParts p t).bind fun r => .ok (w :: r)

/-- The first uncorrectable word that is not forwarded: its sub-code, and whether it is the second half. -/
def State.partBar (s : State) (p : Nat) : List ((WAddr × List Bool) × (Word × Bool)) → (second : Bool) → Option (Nat × Bool)
  | [], _ => none
  | ((a, _), (_, fwd)) :: t, k =>
    match if fwd then none else s.eccBar p a with
    | some sub => some (sub, k)
    | none => s.partBar p t true

/-- The result of a load reaches the stack: read-clear words that were read are cleared, and native mode hides the new content from the
next instruction (R171). -/
def LoadForm.complete (l : LoadForm) (s : State) (p c : Nat) (x : Ctx) (ws : List (Word × Bool)) : Done :=
  let s := (l.parts.zip ws).foldl (fun t q => match placeOf q.1.1 with
    | .io k => if q.2.2 then t else t.ioClear p k
    | _ => t) s
  let s := match l.lock, lockLine x.atop with
    | some _, (true, line) => s.reserve p c line
    | _, _ => s
  let vs := l.result (ws.map (·.1))
  let pos := x.depth - l.pops
  let old := (List.range vs.length).map fun k => (pos + k, x.win.cell (pos + k))
  let y := x.replace l.pops vs
  let y := if l.bump then { y with astack := WAddr.plus y.atop 1 :: y.astack.drop 1 } else y
  let y := match l.lock with
    | some n => { y with lock := some ⟨(lockLine x.atop).1, (lockLine x.atop).2, n, false⟩ }
    | none => y
  { s := s, x := y, shadow := if l.visible && !x.fr then old else [] }

/-- The words that came from the store buffer, by their place (R310). -/
def forwarded (ws : List (Word × Bool)) : List (Nat × Word) := (ws.zipIdx.filter (·.1.2)).map fun q => (q.2, q.1.1)

/-- What a load does with the words it finds: it completes, or the context waits for what the log deck or the service ROM holds
(R304). -/
def State.loadParts (s : State) (p c : Nat) (x : Ctx) (l : LoadForm) (ins : Instr) : Res Done :=
  (s.fetchParts p l.parts).bind fun ws =>
    match s.partBar p (l.parts.zip ws) false with
    | some (k, second) => .trap 14 k (l.split && second)
    | none =>
      if (l.parts.zip ws).any fun q => slow q.1.1 && !q.2.2 then
        .ok { s := s, x := { x with memWait := some ins, memAt := l.parts.map (·.1), memGot := forwarded ws }, flow := .stay }
      else .ok (l.complete s p c x ws)

/-- A load issues. Where both halves of a split access fault, the first half decides, with SPLIT 0 (log entry 131: DESIGN CHOICE). -/
def State.load (s : State) (p c : Nat) (x : Ctx) (l : LoadForm) (ins : Instr) : Res Done :=
  let addrs := l.parts.map (·.1)
  match s.accessBars p c false addrs with
  | some k => .trap 2 k (l.split && (s.accessBars p c false (addrs.take 1)).isNone && addrs.length == 2)
  | none =>
    match s.loadParts p c x l ins with
    | .ok d => .ok { d with s := addrs.foldl (fun t a => t.touch p c a) d.s }
    | r => r

/-- The last data of a load has arrived: the words by their place. No load delay is visible (R304). -/
def State.loadBack (s : State) (p c : Nat) (x : Ctx) (l : LoadForm) (got : List (Nat × Word)) : Done :=
  let ws := (List.range l.parts.length).map fun k => ((Assoc.lookup got k).getD 0, true)
  { l.complete s p c x ws with shadow := [] }

/-- The offset that byte and half instructions take from T (R211). -/
def Ctx.off18 (x : Ctx) : Nat := ((x.top 0).extractLsb' 0 18).toNat

/-- The bytes from `lo` to `hi - 1`. -/
def byteRange (lo hi : Nat) : List Bool := (List.range 4).map fun i => decide (lo ≤ i ∧ i < hi)

/-- LD. -/
def loadLd (x : Ctx) : LoadForm := { parts := [(x.atop, fullWord)], result := id }

/-- LDP. -/
def loadLdp (x : Ctx) : LoadForm := { loadLd x with bump := true }

/-- LDB (R211). -/
def loadLdb (x : Ctx) : LoadForm :=
  let b := x.off18 % 4
  { pops := 1, parts := [(WAddr.plus x.atop (x.off18 / 4), byteRange b (b + 1))]
    result := fun ws => [(wordByte (ws.headD 0) b).setWidth 36] }

/-- Half `k` of a word: half 0 is [35:18]. -/
def wordHalf (w : Word) (k : Nat) : BitVec 18 := w.extractLsb' (18 - 18 * k) 18

/-- LDH (R211). -/
def loadLdh (x : Ctx) : LoadForm :=
  let k := x.off18 % 2
  { pops := 1, parts := [(WAddr.plus x.atop (x.off18 / 2), byteRange (2 * k) (2 * k + 2))]
    result := fun ws => [(wordHalf (ws.headD 0) k).setWidth 36] }

/-- LDD: word a is the high cell. -/
def loadLdd (x : Ctx) : LoadForm :=
  { parts := [(x.atop, fullWord), (WAddr.plus x.atop 1, fullWord)], result := fun ws => [ws.getD 1 0, ws.getD 0 0] }

/-- The words of a byte-aligned word access at byte `b` (R183). -/
def unalignedParts (a : WAddr) (b : Nat) : List (WAddr × List Bool) :=
  if b = 0 then [(a, fullWord)] else [(a, byteRange b 4), (WAddr.plus a 1, byteRange 0 b)]

/-- Bytes b to 3 of the first word, then bytes 0 to b − 1 of the second (R211). -/
def joinUnaligned (b : Nat) (u v : Word) : Word :=
  wordOfBytes ((List.range 4).map fun i => if b + i < 4 then wordByte u (b + i) else wordByte v (b + i - 4))

/-- LDU (R211). -/
def loadLdu (x : Ctx) : LoadForm :=
  let b := (x.top 0).toNat % 4
  { pops := 1, parts := unalignedParts x.atop b, split := true
    result := fun ws => [joinUnaligned b (ws.getD 0 0) (ws.getD 1 0)] }

/-- LOCK n (R213). -/
def loadLock (n : BitVec 4) (x : Ctx) : LoadForm := { loadLd x with visible := false, lock := some n.toNat }

/-- The word that a read at the top of A begins with. -/
def atTop (x : Ctx) : Option WAddr := some x.atop

/-- LD ( -- x ). -/
def execLd (i : Issue) : State → Out :=
  issue i { dOut := 1, aIn := 1, aOut := 1, data := atTop } fun s p c x => s.load p c x (loadLd x) (.ld i)

/-- LDP ( -- x ) A: ( a -- a+1 ). -/
def execLdp (i : Issue) : State → Out :=
  issue i { dOut := 1, aIn := 1, aOut := 1, rep := true, row := 3, data := atTop } fun s p c x => s.load p c x (loadLdp x) (.ldp i)

/-- LDB ( o -- b ). -/
def execLdb (i : Issue) : State → Out :=
  issue i { dIn := 1, dOut := 1, aIn := 1, aOut := 1, row := 3, data := fun x => ((loadLdb x).parts.map (·.1)).head? }
    fun s p c x => s.load p c x (loadLdb x) (.ldb i)

/-- LDH ( o -- h ). -/
def execLdh (i : Issue) : State → Out :=
  issue i { dIn := 1, dOut := 1, aIn := 1, aOut := 1, row := 3, data := fun x => ((loadLdh x).parts.map (·.1)).head? }
    fun s p c x => s.load p c x (loadLdh x) (.ldh i)

/-- LDD ( -- lo hi ). -/
def execLdd (i : Issue) : State → Out :=
  issue i { dOut := 2, aIn := 1, aOut := 1, data := atTop } fun s p c x => s.load p c x (loadLdd x) (.ldd i)

/-- LDU ( b -- x ). -/
def execLdu (i : Issue) : State → Out :=
  issue i { dIn := 1, dOut := 1, aIn := 1, aOut := 1, row := 3, data := atTop } fun s p c x => s.load p c x (loadLdu x) (.ldu i)

/-- LOCK n ( -- x ): the load opens a locked sequence. -/
def execLock (i : Issue) (n : BitVec 4) : State → Out :=
  issue i { dOut := 1, aIn := 1, aOut := 1, endsLock := true, data := atTop } fun s p c x => s.load p c x (loadLock n x) (.lock i n)

/-! ## Stores -/

/-- What a store writes: D cells popped, words with their bytes, and whether the address steps on. -/
structure StoreForm where
  pops : Nat
  parts : List (WAddr × List Bool × Word)
  bump : Bool := false
  split : Bool := false

/-- A store retires into the store buffer (R212). -/
def State.store (s : State) (p c : Nat) (x : Ctx) (l : StoreForm) : Res Done :=
  let addrs := l.parts.map (·.1)
  match s.accessBars p c true addrs with
  | some k => .trap 2 k (l.split && (s.accessBars p c true (addrs.take 1)).isNone && addrs.length == 2)
  | none =>
    let two := l.parts.length == 2
    let es := l.parts.map fun q => StoreEntry.mk q.1 q.2.1 q.2.2 c (two && some q.1 == addrs.head?)
    (s.enqueue p es).bind fun s =>
      let s := addrs.foldl (fun t a => t.touch p c a) s
      let y := x.drop l.pops
      .ok { s := s, x := if l.bump then { y with astack := WAddr.plus y.atop 1 :: y.astack.drop 1 } else y }

/-- ST. -/
def storeSt (x : Ctx) : StoreForm := { pops := 1, parts := [(x.atop, fullWord, x.top 0)] }

/-- STB: x[8:0] into byte o[1:0]. -/
def storeStb (x : Ctx) : StoreForm :=
  let b := x.off18 % 4
  { pops := 2, parts := [(WAddr.plus x.atop (x.off18 / 4), byteRange b (b + 1), setWordByte 0 b ((x.top 1).setWidth 9))] }

/-- STH: x[17:0] into half o[0]. -/
def storeSth (x : Ctx) : StoreForm :=
  let k := x.off18 % 2
  { pops := 2
    parts := [(WAddr.plus x.atop (x.off18 / 2), byteRange (2 * k) (2 * k + 2),
      ((x.top 1).extractLsb' 0 18).setWidth 36 <<< (18 - 18 * k))] }

/-- STD: the high cell into word a. -/
def storeStd (x : Ctx) : StoreForm :=
  { pops := 2, parts := [(x.atop, fullWord, x.top 0), (WAddr.plus x.atop 1, fullWord, x.top 1)] }

/-- STU: the bytes of x in the order of LDU. -/
def storeStu (x : Ctx) : StoreForm :=
  let b := (x.top 0).toNat % 4
  let v := x.top 1
  let first := wordOfBytes ((List.range 4).map fun i => if b ≤ i then wordByte v (i - b) else 0)
  let second := wordOfBytes ((List.range 4).map fun i => if i < b then wordByte v (4 - b + i) else 0)
  { pops := 2, split := true
    parts := if b = 0 then [(x.atop, fullWord, v)]
      else [(x.atop, byteRange b 4, first), (WAddr.plus x.atop 1, byteRange 0 b, second)] }

/-- ST ( x -- ). -/
def execSt (i : Issue) : State → Out :=
  issue i { dIn := 1, aIn := 1, aOut := 1 } fun s p c x => s.store p c x (storeSt x)

/-- STP ( x -- ) A: ( a -- a+1 ). -/
def execStp (i : Issue) : State → Out :=
  issue i { dIn := 1, aIn := 1, aOut := 1, rep := true, row := 3 } fun s p c x =>
    s.store p c x { storeSt x with bump := true }

/-- STB ( b o -- ). -/
def execStb (i : Issue) : State → Out :=
  issue i { dIn := 2, aIn := 1, aOut := 1, row := 3 } fun s p c x => s.store p c x (storeStb x)

/-- STH ( h o -- ). -/
def execSth (i : Issue) : State → Out :=
  issue i { dIn := 2, aIn := 1, aOut := 1, row := 3 } fun s p c x => s.store p c x (storeSth x)

/-- STD ( lo hi -- ). -/
def execStd (i : Issue) : State → Out :=
  issue i { dIn := 2, aIn := 1, aOut := 1 } fun s p c x => s.store p c x (storeStd x)

/-- STU ( x b -- ). -/
def execStu (i : Issue) : State → Out :=
  issue i { dIn := 2, aIn := 1, aOut := 1, row := 3 } fun s p c x => s.store p c x (storeStu x)

/-! ## LOCKEND (R214) -/

/-- The open sequence still holds its reservation, and `a` lies in the reserved line. -/
def State.lockHolds (s : State) (p c : Nat) (x : Ctx) (a : WAddr) : Bool :=
  match x.lock with
  | none => false
  | some l => !l.broken && lockLine a == (l.inDeck, l.line) && lockLine a != noLine && (!l.inDeck || s.ldk.resv.contains (l.line, p, c))

/-- LOCKEND writes and pushes 1, or writes nothing and pushes 0; the sequence closes. -/
def State.lockClose (s : State) (p c : Nat) (x : Ctx) : Done :=
  let won := s.lockHolds p c x x.atop
  let s := if won then s.putWord p c x.atop (x.top 0) else s
  let s := { s with ldk := { s.ldk with resv := s.ldk.resv.filter fun r => r.2 != (p, c) } }
  { s := s, x := { x.replace 1 [BitVec.ofNat 36 (bit won)] with lock := none } }

/-- LOCKEND issues. An access to the log deck completes when the slice has served it. -/
def State.lockEnd (s : State) (p c : Nat) (x : Ctx) (ins : Instr) : Res Done :=
  match s.accessBar p c true x.atop with
  | some k => .trap 2 k
  | none =>
    if !s.lockHolds p c x x.atop then .ok (s.lockClose p c x)
    else if !(s.eng p).sbuf.isEmpty then .wait
    else match s.eccBar p x.atop with
      | some k => .trap 14 k
      | none =>
        let s := s.touch p c x.atop
        if slow x.atop then .ok { s := s, x := { x with memWait := some ins, memAt := [x.atop], memGot := [] }, flow := .stay }
        else .ok (s.lockClose p c x)

/-- LOCKEND ( x -- f ). -/
def execLockend (i : Issue) : State → Out :=
  issue i { dIn := 1, dOut := 1, aIn := 1, aOut := 1, data := atTop } fun s p c x => s.lockEnd p c x (.lockend i)

/-! ## The store buffer drains -/

/-- A store that does not write its whole word reads it first: a corrected word is counted, and one found uncorrectable is marked,
counted and recorded (R143, R212, R429). -/
def State.drainRead (s : State) (p : Nat) (e : StoreEntry) (ecc : Ecc) : State :=
  if e.bytes.all id then s else
  match ecc with
  | .uncorrectable => s.markBad p e.addr 1
  | .corrected => s.correctedAt e.addr
  | .clean => s

/-- The oldest entry drains, with what the ECC of its word showed. -/
def State.drainEcc (s : State) (p : Nat) (ecc : Ecc) : State :=
  match (s.eng p).sbuf with
  | [] => s
  | e :: _ => (s.drainRead p e ecc).drainOne p

/-- Two words lie in one line. -/
def sameLine (a b : WAddr) : Bool := !slow a || lockLine a == lockLine b

/-- STORE_BUFFER_DRAIN: the oldest entry is written (R308). Two entries that entered together drain together, unless they lie in
different log deck lines: others may then see one written and the other not (R183, R184, log entry 89). -/
def execStoreBufferDrain (drain : StoreDrain) (s : State) : Out :=
  let p := drain.isl.val
  let ecc := drain.ecc
  let s := { s with out := [] }
  match (s.eng p).sbuf with
  | [] => .next s
  | e :: _ => .next (if e.pair && sameLine e.addr (WAddr.plus e.addr 1) then (s.drainEcc p ecc).drainEcc p ecc else s.drainEcc p ecc)

end Sys2Proof.Machine
end

