-- ==== Sys2Proof/Machine/Unit.lean ====
section
/-!
DEFINITION. Job and unit instructions (Table INS.13): LDESC, XFER, CREQ, ZREQ, WAITU, COMMIT, ABORT, and the extension
instruction; the answers they wait for that end at the context.
-/

namespace Sys2Proof.Machine

/-! ## Job ends at a boundary (R234) -/

/-- A running job ends at its context's next boundary: at once, unless a branch awaits its slot, an access to the log deck is in
service, or a micro-routine runs (R304, R324). -/
def State.endSoon (s : State) (id status detail : Nat) : State :=
  match s.job id with
  | none => s
  | some j =>
    match j.place with
    | none => s.endJob id status detail
    | some (p, c) =>
      if s.atBoundary p c then s.endJob id status detail
      else s.modCtx p c fun x => { x with ending := some (BitVec.ofNat 8 status, BitVec.ofNat 8 detail) }

/-! ## LDESC (R225, Table INS.10) -/

/-- Snapshot word `i` of a job. -/
def Job.snapWord (j : Job) (i : Nat) : Word :=
  let valid := fun (o : Nat) => decide (32768 ≤ j.num o 2)
  match i with
  | 0 => j.snap.epoch.setWidth 36
  | 1 => BitVec.ofNat 36 (j.snap.durable.toNat + 4 * j.snap.prio.toNat + 16 * bit j.snap.ptSel)
  | 2 => j.snap.limit.setWidth 36
  | 3 => BitVec.ofNat 36 j.snap.granules
  | 4 => BitVec.ofNat 36 (if valid 40 then j.snap.keyA else 0)
  | 5 => BitVec.ofNat 36 (if valid 42 then j.snap.keyB else 0)
  | 6 => BitVec.ofNat 36 (j.inst.toNat + 256 * j.chan.toNat)
  | 7 => j.pos.setWidth 36
  | 8 => BitVec.ofNat 36 (j.restarts % 4)
  | _ => 0

/-- The log deck offset of entry `e` of a user's period table copy (R137). -/
def periodWord (i : Nat) (copy : Bool) (e : Nat) : Nat := i / 8 * 4096 + i % 8 * 512 + 256 * bit copy + e

/-- The engine address of a log deck offset. -/
def deckAddr (w : Nat) : WAddr := BitVec.ofNat 24 (0x400000 + w)

/-- The job that LDESC reads: the context's own, or the one held by the context in T. -/
def State.ldescJob (s : State) (p c : Nat) (x : Ctx) (keeper : Bool) : Option Job :=
  if keeper then
    let k := (x.top 0).toNat % 8
    if k = 0 then none else s.jobAt p k
  else s.jobAt p c

/-- The period table access of LDESC space 2. -/
def ldescLoad (j : Job) (x : Ctx) (keeper : Bool) : LoadForm :=
  let e := (x.top (bit keeper)).toNat % 256
  { pops := 1 + bit keeper, parts := [(deckAddr (periodWord j.inst.toNat j.snap.ptSel e), fullWord)], result := id, visible := false }

/-- LDESC. -/
def execLdesc (i : Issue) (idx : BitVec 4) (space : BitVec 2) (keeper : Bool) (s : State) : Out :=
  let pops := bit keeper + bit (space == 2)
  let read := fun (x : Ctx) => if space = 2 then
      (s.ldescJob i.isl.val i.ctx.val x keeper).bind fun j => ((ldescLoad j x keeper).parts.map (·.1)).head? else none
  issue i { len := 2, dIn := pops, dOut := 1, who := if keeper then .keeper else .job, reserved := space == 3, data := read }
    (fun s p c x =>
      match s.ldescJob p c x keeper with
      | none => .ok { s := s, x := x.replace pops [0] }
      | some j =>
        if space = 0 then .ok { s := s, x := x.replace pops [BitVec.ofNat 36 (j.num (4 * idx.toNat) 4)] }
        else if space = 1 then .ok { s := s, x := x.replace pops [j.snapWord idx.toNat] }
        else s.loadParts p c x (ldescLoad j x keeper) (.ldesc i idx space keeper)) s

/-! ## Unit tags (R226 to R228) -/

/-- A unit status word (Table INS.11). -/
def statusWord (kind : BitVec 4) (code detail : Nat) : Word := BitVec.ofNat 36 (code % 256 + 256 * kind.toNat + 4096 * detail)

/-- The lowest free unit tag. -/
def Ctx.freeUnitTag (x : Ctx) : Option Nat := Assoc.freeKey (x.unitTags.filter fun t => t.1 < 16) 16 0 |>.filter (· < 16)

/-- A context leaves BLOCKED: READY, or once it is resumed when it is HALTED (R453). -/
def Ctx.unblock (x : Ctx) : Ctx :=
  if x.state = .halted then { x with wait := .nothing, waitDone := true } else { x with wait := .nothing, state := .ready }

/-- WAITU gives the status of a completed tag, or its unit error (R228). The tag is freed. -/
def State.deliverTag (s : State) (p c t : Nat) : State :=
  let x := s.ctx p c
  match Assoc.lookup x.unitTags t with
  | none => s
  | some u =>
    match u.done with
    | none => s
    | some (code, detail) =>
      let x := { x.unblock with unitTags := Assoc.erase x.unitTags t }
      if u.unitError then (s.putCtx p c x).takeTrap p c 15 0 false x.waitPc x.pc
      else s.putCtx p c (x.push (statusWord u.kind code.toNat detail.toNat))

/-- A tag completes: a context that blocks on it goes on, and one that commits frees it (R235). -/
def State.completeTag (s : State) (p c t : Nat) (code detail : Nat) (ue : Bool) : State :=
  let x := s.ctx p c
  match x.wait with
  | .seal => (s.putCtx p c { x with unitTags := Assoc.erase x.unitTags t }).trySeal p c
  | w =>
    let tags := x.unitTags.map fun q =>
      if q.1 = t then (t, { q.2 with done := some (BitVec.ofNat 8 code, BitVec.ofNat 24 detail), unitError := ue }) else q
    let s := s.putCtx p c { x with unitTags := tags }
    if w = .waitu t then s.deliverTag p c t else s

/-- WAITU ( u -- s ). -/
def execWaitu (i : Issue) (test : Bool) : State → Out :=
  issue i { len := 2, dIn := 1, dOut := 1, who := .job, endsLock := true } fun s _ _ x =>
    let t := (x.top 0).toNat % 16
    match Assoc.lookup x.unitTags t with
    | none => .ok { s := s, x := x.drop 1, late := some (15, 0) }
    | some u =>
      match u.done with
      | some (code, detail) =>
        let y := { x.drop 1 with unitTags := Assoc.erase x.unitTags t }
        if u.unitError then .ok { s := s, x := y, late := some (15, 0) }
        else .ok { s := s, x := y.push (statusWord u.kind code.toNat detail.toNat) }
      | none =>
        if test then .ok { s := s, x := x.replace 1 [BitVec.allOnes 36] }
        else .ok { s := s, x := { x.drop 1 with state := .blocked, wait := .waitu t, waitPc := x.pc } }

/-! ## XFER (R230 to R234, Table INS.12) -/

/-- The word addresses of a transfer. -/
def xferWords (a : WAddr) (packed : Bool) (n : Nat) : List WAddr := (List.range (wordsFor packed n)).map fun k => WAddr.plus a k

/-- The region that handle `h` names (R85). -/
def Job.region (j : Job) (h : Nat) : Option (HAddr × Nat) := if h < 16 then j.inputs[h]? else j.outputs[h - 16]?

/-- The whole-line READs of a host-to-engine XFER (R232). -/
def xferReads (inst : BitVec 8) (id slot : Nat) (host : HAddr) (n : Nat) : List HostReq :=
  let first := host.toNat / 64
  let last := (host.toNat + n - 1) / 64
  (List.range (last + 1 - first)).map fun k =>
    readReq (BitVec.ofNat 64 (64 * (first + k))) inst 0 (.xfer id slot (first + k))

/-- Job `id` holds the granules of words (R139, R232). -/
def State.holdWords (s : State) (id : Nat) (l : List WAddr) : State :=
  s.modJob id fun j => l.foldl (fun j a => match placeOf a with
    | .deck w => if j.holds.contains (granuleOf w) then j else { j with holds := j.holds ++ [granuleOf w] }
    | _ => j) j

/-- An XFER that passed its checks starts in slot 0 to 15 (a unit tag) or 16 (blocking). -/
def State.startXfer (s : State) (x : Ctx) (id slot : Nat) (j : Job) (dir packed : Bool) (host : HAddr) (n : Nat) :
    State × Ctx :=
  let reqs := if dir then [] else xferReads j.inst id slot host n
  let f : Xfer := { toHost := dir, packed := packed, host := host, len := n, word := x.atop, linesDue := reqs.length, order := x.xferCount }
  let s := s.holdWords id (xferWords x.atop packed n)
  (reqs.foldl State.send s, { x with xfers := Assoc.insert x.xfers slot f, xferCount := x.xferCount + 1 })

/-- The outcome of the checks of Table INS.12. -/
inductive XferCheck where
  | status (code detail : Nat)
  | access (sub : Nat)
  | outside
  | go (host : HAddr)

/-- The checks in their order. -/
def State.xferCheck (s : State) (p c : Nat) (x : Ctx) (j : Job) (dir packed : Bool) (h o n : Nat) : XferCheck :=
  if n = 0 then .status 0 0
  else if 1048576 < n ∨ (packed ∧ n % 9 ≠ 0) ∨ 65536 < (x.atop.toNat % 65536) + wordsFor packed n then .status 1 0
  else match s.accessBars p c (!dir) (xferWords x.atop packed n) with
    | some k => .access k
    | none =>
      match j.region h with
      | none => .outside
      | some (base, len) => if (dir ∧ h < 16) ∨ len < o + n then .outside else .go (base + BitVec.ofNat 64 o)

/-- XFER ( h o n -- s ), or ( h o n -- u ) when ASYNC. -/
def execXfer (i : Issue) (dir pack async : Bool) : State → Out :=
  issue i { len := 2, dIn := 3, dOut := 1, aIn := 1, aOut := 1, who := .job, endsLock := true, micro := some .xfer } fun s p c x =>
    match x.job, s.jobAt p c with
    | some id, some j =>
      let y := x.drop 3
      let tag := y.freeUnitTag
      match s.xferCheck p c x j dir pack (x.top 2).toNat (x.top 1).toNat (x.top 0).toNat with
      | .access k => .trap 2 k
      | .outside => .ok { s := s.endJob id 3 3, x := y, flow := .gone }
      | .status code detail =>
        if !async then .ok { s := s, x := y.push (statusWord 0 code detail) }
        else match tag with
          | none => .ok { s := s, x := y, late := some (15, 0) }
          | some t =>
            let u : UnitTag := { kind := 0, done := some (BitVec.ofNat 8 code, BitVec.ofNat 24 detail) }
            .ok { s := s, x := { y with unitTags := Assoc.insert y.unitTags t u }.push (BitVec.ofNat 36 t) }
      | .go host =>
        if async then
          match tag with
          | none => .ok { s := s, x := y, late := some (15, 0) }
          | some t =>
            let q := s.startXfer { y with unitTags := Assoc.insert y.unitTags t { kind := 0, done := none } } id t j dir pack host
              (x.top 0).toNat
            .ok { s := q.1, x := q.2.push (BitVec.ofNat 36 t) }
        else
          let q := s.startXfer y id 16 j dir pack host (x.top 0).toNat
          .ok { s := q.1, x := { q.2 with state := .blocked, wait := .xfer, waitPc := x.pc } }
    | _, _ => .ok { s := s, x := x }

/-- A transfer ends at its context: the blocking one pushes its status or raises UNIT_ERROR, an asynchronous one completes
its tag (R227, R228). -/
def State.xferDone (s : State) (p c slot code detail : Nat) (ue : Bool) : State :=
  let x := s.ctx p c
  let s := s.putCtx p c { x with xfers := Assoc.erase x.xfers slot }
  if slot < 16 then s.completeTag p c slot code detail ue
  else
    let y := { x.unblock with xfers := Assoc.erase x.xfers slot }
    if ue then (s.putCtx p c y).takeTrap p c 15 0 false y.waitPc y.pc
    else s.putCtx p c (y.push (statusWord 0 code detail))

/-- Transfers whose words or octets this one must follow (R234): staged octets enter in issue order, and of two
host-to-engine transfers that share words the later issued one is written last. -/
def Ctx.xferHeld (x : Ctx) (f : Xfer) : Bool :=
  x.xfers.any fun q => q.2.order < f.order && q.2.toHost == f.toHost &&
    (f.toHost || ((q.2.word.toNat < f.word.toNat + wordsFor f.packed f.len) &&
      (f.word.toNat < q.2.word.toNat + wordsFor q.2.packed q.2.len)))

/-- The first and the last octet of a transfer that word `k` holds (R70). -/
def Xfer.wordOctets (f : Xfer) (k : Nat) : Nat × Nat :=
  if f.packed then (9 * k / 2, (9 * k + 8) / 2) else (4 * k, min (4 * k + 3) (f.len - 1))

/-- All octets of word `k` have arrived. -/
def Xfer.whole (f : Xfer) (k : Nat) : Bool :=
  (List.range ((f.wordOctets k).2 + 1 - (f.wordOctets k).1)).all fun d => (Assoc.lookup f.got ((f.wordOctets k).1 + d)).isSome

/-- A later issued host-to-engine transfer of the context has written word `a` already, and keeps it (R234). -/
def Ctx.xferLater (x : Ctx) (f : Xfer) (a : WAddr) : Bool :=
  x.xfers.any fun q => f.order < q.2.order && !q.2.toHost && decide ((a - q.2.word).toNat < wordsFor q.2.packed q.2.len) &&
    q.2.whole (a - q.2.word).toNat

/-- The engine words of a transfer that have become whole are written (R232). -/
def State.writeArrived (s : State) (p c : Nat) (old new : Xfer) : State :=
  let x := s.ctx p c
  let ws := packOctets new.packed ((List.range new.len).map fun k => (Assoc.lookup new.got k).getD 0)
  (ws.zipIdx).foldl (fun t q =>
    let a := WAddr.plus new.word q.2
    if new.whole q.2 && !old.whole q.2 && !x.xferLater new a then t.putWord p c a q.1 else t) s

/-- XFER_COMPLETE: the transfer of a slot has written its last engine word, or stages its octets (R232, R233). -/
def execXferComplete (a : At) (slot : Fin 17) (ecc : Ecc) (s : State) : Out :=
  let p := a.isl.val
  let c := a.ctx.val
  let s := { s with out := [] }
  let x := s.ctx p c
  match Assoc.lookup x.xfers slot.val, x.job, s.jobAt p c with
  | some f, some id, some j =>
    if 0 < f.linesDue ∨ x.xferHeld f then .next s else
    let addrs := xferWords f.word f.packed f.len
    if !f.toHost then
      .next (s.xferDone p c slot.val 0 f.len false).settle
    else
      let bad := s.eccBars p addrs
      if ecc = .uncorrectable ∨ bad.isSome then
        let s := if ecc = .uncorrectable then s.markBad p f.word 1 else s
        .next (s.xferDone p c slot.val 0 0 true).settle
      else
        let s := if ecc = .corrected then s.correctedAt f.word else s
        match unpackOctets f.packed f.len (addrs.map fun w => s.wordAt p w) with
        | none => .next (s.xferDone p c slot.val 2 0 false).settle
        | some o =>
          let set := (o.zipIdx).foldl (fun m q => Assoc.insert m (f.host + BitVec.ofNat 64 q.2).toNat q.1) j.staged
          if j.capacity < set.length then .next (s.xferDone p c slot.val 3 0 false).settle
          else .next ((s.modJob id fun j => { j with staged := set }).xferDone p c slot.val 0 f.len false).settle
  | _, _, _ => .next s

/-! ## Request blocks -/

/-- `n` words of the log deck from an address, within its bank. -/
def State.deckWords (s : State) (a : WAddr) (n : Nat) : List Word := (List.range n).map fun k => s.wordAt 0 (WAddr.plus a k)

/-- A run of words that a request names. -/
structure Span where
  addr : WAddr
  words : Nat
  deriving DecidableEq, Repr

/-- The addresses of a span. -/
def Span.list (x : Span) : List WAddr := (List.range x.words).map fun k => WAddr.plus x.addr k

/-- Granule of a log deck address, as a list. -/
def granOfAddr (a : WAddr) : List Nat :=
  match placeOf a with
  | .deck w => [granuleOf w]
  | _ => []

/-- The granules of a span: those of its words 4,096 apart and of its last word. -/
def Span.granules (x : Span) : List Nat :=
  if x.words = 0 then [] else
  (((List.range 257).filter fun q => q * 4096 < x.words + 4096).flatMap fun q =>
    granOfAddr (WAddr.plus x.addr (min (q * 4096) (x.words - 1)))).eraseDups

/-- Word `i` of the block that a request was read with. -/
def UnitReq.word (r : UnitReq) (i : Nat) : Word := r.blk.getD i 0

/-- The span of an address and a length in words `i` and `i + 1` of a block. -/
def UnitReq.span (r : UnitReq) (i : Nat) (packed : Bool) : Span := ⟨(r.word i).setWidth 24, wordsFor packed (r.word (i + 1)).toNat⟩

/-- The words of a block. -/
def UnitReq.blkLen (r : UnitReq) : Nat :=
  match r.unit with
  | .cipher => 18
  | .compression => 21

/-- The block of a request. -/
def UnitReq.blkSpan (r : UnitReq) : Span := ⟨r.block, r.blkLen⟩

/-- The spans that a block names: source, destination, AAD, and the history record where there is one. -/
def UnitReq.spans (r : UnitReq) : List Span :=
  let io := [r.span 1 ((r.word 0).getLsbD 0), r.span 3 ((r.word 0).getLsbD 1)]
  match r.unit with
  | .cipher => io ++ [r.span 5 false]
  | .compression => io ++ [⟨(r.word 5).setWidth 24, if (r.word 0).getLsbD 4 then 8448 else 0⟩, r.span 9 false]

/-- The block of a request: as it was read once the request has started, else as it stands. -/
def State.blockOf (s : State) (r : UnitReq) : UnitReq := if r.lane.isSome then r else { r with blk := s.deckWords r.block r.blkLen }

/-- The granules that a request names and that its job may access: it holds them from its issue on (R139, R140). -/
def State.grantsOf (s : State) (r : UnitReq) : List Nat :=
  let r := s.blockOf r
  ((r.blkSpan :: r.spans).flatMap Span.granules).eraseDups.filter (s.jobMayGran r.job r.inst)

/-! ## CREQ and ZREQ (R229, R336) -/

/-- A unit request goes to admission; the context is BLOCKED until the unit answers, and its job holds the granules that the block
at the address in cell `k` names. -/
def askUnit (i : Instr) (unit : UnitKind) (k : Nat) : Work := fun s p c x =>
  let s := match x.job, s.jobAt p c with
    | some id, some j => s.putJob id { j with
        asked := s.grantsOf { unit := unit, inst := j.inst, job := id, tag := 0, block := (x.top k).extractLsb' 0 24 } }
    | _, _ => s
  .ok { s := s, x := { x with state := .blocked, wait := .admission i, waitPc := x.pc }, flow := .stay }

/-- The shape of CREQ. -/
def creqShape (mode : BitVec 4) : Shape := { len := 2, dIn := 1, dOut := 1, who := .job, endsLock := true, reserved := 7 < mode.toNat, micro := some .creq }

/-- The shape of ZREQ. -/
def zreqShape (opts : Bool) : Shape := { len := 2, dIn := 1 + bit opts, dOut := 1, who := .job, endsLock := true, micro := some .zreq }

/-- CREQ ( d -- u ). -/
def execCreq (i : Issue) (mode : BitVec 4) (slot : Bool) : State → Out :=
  issue i (creqShape mode) (askUnit (.creq i mode slot) .cipher 0)

/-- ZREQ ( d -- u ), or ( d o -- u ) with OPTS. -/
def execZreq (i : Issue) (dir opts : Bool) : State → Out :=
  issue i (zreqShape opts) (askUnit (.zreq i dir opts) .compression (bit opts))

/-- Unit requests of user `i` (Table PTN.2), with the admissions that hold a tracker entry while they wait (R336, R352). -/
def State.unitUse (s : State) (i : BitVec 8) : Nat :=
  (s.units.reqs.filter fun r => r.2.inst == i).length +
    (s.units.waiting.filter fun q => (s.jobAt q.1 q.2).any fun j => j.inst == i).length

/-- The unit-request share of user `i`. -/
def State.unitShare (s : State) (i : BitVec 8) : Nat := min 24576 (((s.inst i.toNat).share 3).cur.extractLsb' 16 15).toNat

/-- A request enters its unit's queue under its tag. -/
def State.queueUnit (s : State) (r : UnitReq) : State :=
  let u := s.units
  { s with units := { u with reqs := u.reqs ++ [(u.nextOrder, { r with order := u.nextOrder })], nextOrder := u.nextOrder + 1 } }

/-- The answer to an admission: the tag with its status at once, or the queued request (R344). -/
def State.takeIn (s : State) (j : Job) (id t : Nat) (r : UnitReq) (key : Option (Bool × Nat)) (spentEnds : Bool) (kind : BitVec 4) :
    Option (Option (State × UnitTag)) :=
  match key with
  | none => some (some (s.queueUnit r, { kind := kind, done := none }))
  | some (slotB, m) =>
    match s.keyCheck j slotB m with
    | .refused code => some (some (s, { kind := kind, done := some (BitVec.ofNat 8 code, 0) }))
    | .spent =>
      if spentEnds then some none else some (some (s, { kind := kind, done := some (0x18, 0) }))
    | .starved => none
    | .ok n k a b counter s =>
      some (some (s.queueUnit { r with
          job := id, tag := t, slot := BitVec.ofNat 10 n, kind := k, share0 := a, share1 := b, counter := counter },
        { kind := kind, done := none }))

/-- ADMISSION_ANSWER: tracker entry, then unit tag, then the key checks (R336). An admission that needs a share refresh waits while the
DRBG is STARVED; those that waited go on in order (R352). -/
def execAdmissionAnswer (a : At) (s : State) : Out :=
  let p := a.isl.val
  let c := a.ctx.val
  let s := { s with out := [] }
  let x := s.ctx p c
  match x.wait, x.job, s.jobAt p c with
  | .admission ins, some id, some j =>
    let late := s.units.waiting.contains (p, c)
    if !late && (s.unitShare j.inst ≤ s.unitUse j.inst || 24576 ≤ s.units.reqs.length + s.units.waiting.length) then .next s else
    if late && s.units.waiting.head? != some (p, c) then .next s else
    let s0 := s
    let s := ({ s with units := { s.units with waiting := s.units.waiting.filter (· != (p, c)) } }).putJob id { j with asked := [] }
    let go := fun (h : Shape) (pops : Nat) (kind : BitVec 4) (r : UnitReq) (key : Option (Bool × Nat)) (ends : Bool) =>
      let x0 := { x with wait := .nothing, state := if x.state = CtxState.halted then x.state else .ready
                         waitDone := x.waitDone || decide (x.state = CtxState.halted) }
      match x0.freeUnitTag with
      | none => s.conclude p c h x0 (.ok { s := s, x := x0.drop pops, late := some (15, 0) })
      | some t =>
        match s.takeIn j id t { r with job := id, tag := t } key ends kind with
        | none => if late then s0 else { s0 with units := { s0.units with waiting := s0.units.waiting ++ [(p, c)] } }
        | some none => (s.endJob id 6 0).settle
        | some (some (s', u)) =>
          s'.conclude p c h x0
            (.ok { s := s', x := { x0.drop pops with unitTags := Assoc.insert x0.unitTags t u }.push (BitVec.ofNat 36 t) })
    match ins with
    | .creq _ mode slot =>
      let d := (x.top 0).extractLsb' 0 24
      .next (go (creqShape mode) 1 1
        { unit := .cipher, inst := j.inst, job := id, tag := 0, block := d, mode := mode, grans := j.asked }
        (some (slot, mode.toNat)) true)
    | .zreq _ dir opts =>
      let o := if opts then (x.top 0).extractLsb' 0 16 else BitVec.ofNat 16 (j.num 48 2)
      let d := (x.top (bit opts)).extractLsb' 0 24
      let w0 := s.wordAt p d
      let key := if o.getLsbD 4 then some (w0.getLsbD 8, (w0.extractLsb' 5 3).toNat) else none
      .next (go (zreqShape opts) (1 + bit opts) 2
        { unit := .compression, inst := j.inst, job := id, tag := 0, block := d, decompress := dir, opts := o, grans := j.asked } key
        false)
    | _ => .next s
  | _, _, _ => .next s

/-! ## COMMIT and ABORT (R235, R236) -/

/-- COMMIT ( -- ): the job timer stops, and the context is BLOCKED until its requests have ended; then step 1 and the seal. -/
def execCommit (i : Issue) (s : State) : Out :=
  let t := s.issue i { len := 2, who := .job, endsLock := true, fpWait := true, micro := some .commit } fun s _ _ x =>
    .ok { s := s
          x := { x with state := .blocked, wait := .seal, waitPc := x.pc, jobTimer := .off
                        unitTags := x.unitTags.filter fun q => q.2.done.isNone } }
  .next ((t.trySeal i.isl.val i.ctx.val).settle)

/-- ABORT d ( -- ), or its trap form ( t -- ). -/
def execAbort (i : Issue) (detail : BitVec 7) (trapf : Bool) (s : State) : Out :=
  let h : Shape :=
    { len := 2, dIn := bit trapf, who := .job, endsLock := true, reserved := trapf && detail != 0
      misuse := fun x => if trapf && !x.tw then some 0x0C else none }
  .next ((s.issue i h fun s _ _ x =>
    let d := if trapf then 0xC0 + (x.top 0).toNat % 32 else detail.toNat
    match x.job with
    | none => .ok { s := s, x := x }
    | some id => .ok { s := s.endJob id 2 d, x := x, flow := .gone }).settle)

/-! ## Extension instructions (R33 to R37, R198) -/

/-- The next generation of a context that is not still unanswered. -/
def State.nextGen (s : State) (p c : Nat) (g : BitVec 4) : Option (BitVec 4) :=
  let used := ((s.ext (standOf p)).unanswered.filter fun u => u.1 == extCtx p c).map (·.2)
  ((List.range 16).map fun k => g + 1 + BitVec.ofNat 4 k).find? fun n => !used.contains n

/-- The request of an extension instruction is formed; with 16 generations unanswered the context blocks first (R37). -/
def extWork (ins : Instr) (leader : BitVec 4) (op : BitVec 9) : Work := fun s p c x =>
  match s.nextGen p c x.extGen with
  | none => .ok { s := s, x := { x with state := .blocked, wait := .admission ins, waitPc := x.pc }, flow := .stay }
  | some g =>
    let d := standOf p
    let e := s.ext d
    let r : ExtReq := { gen := g, op := leader ++ op, a := x.top 1, b := x.top 0 }
    .ok { s := s.putExt d { e with live := Assoc.insert e.live (extCtx p c) r }
          x := { x with state := .blocked, wait := .extension, waitPc := x.pc, extGen := g }, flow := .stay }

/-- Extension instruction ( a b -- r ) or ( a b -- lo hi ). -/
def execExtensionInstruction (i : Issue) (leader : BitVec 4) (op : BitVec 9) (s : State) : Out :=
  let present := (s.glb.present.getD (standOf i.isl.val) 0).getLsbD leader.toNat
  issue i { len := 2, dIn := 2, dOut := 2, endsLock := true, absent := if present then none else some leader.toNat }
    (extWork (.extensionInstruction i leader op) leader op) s

/-- EXTENSION_REQUEST: customer logic takes the request of a context (R34). -/
def execExtensionRequest (stand : Fin 16) (ctx : BitVec 8) (s : State) : Out :=
  let s := { s with out := [] }
  let e := s.ext stand.val
  match Assoc.lookup e.live ctx.toNat with
  | some r =>
    if r.sent ∨ s.portStill 0 then .next s
    else .next ((s.putExt stand.val { e with live := Assoc.insert e.live ctx.toNat { r with sent := true } }).emit
      (.ext stand.val ctx r.gen r.op r.a r.b false))
  | none => .next s

/-- An answered or refused extension instruction leaves its context (Table PRT.6). -/
def State.extDone (s : State) (p c : Nat) (stat : BitVec 2) (vs : List Word) : State :=
  let x := s.ctx p c
  let x0 := { x with wait := .nothing, state := if x.state = .halted then x.state else .ready
                     waitDone := x.waitDone || decide (x.state = .halted) }
  let h : Shape := { len := 2 }
  let s := s.putCtx p c x0
  if stat = 0 then s.conclude p c h x0 (.ok { s := s, x := x0.replace 2 vs })
  else if stat = 2 then s.conclude p c h x0 (.trap 0 0x0B)
  else s.conclude p c h x0 (.ok { s := s, x := x0.drop 2, late := some (15, 1) })

/-- A UNIT record of the extension port (Table CHK.11). A stand has 136 contexts: a higher number names none. -/
def State.recordExt (s : State) (d k : Nat) (g : BitVec 4) (code : Nat) : State :=
  let p := 17 * d + k / 8
  let who := if k < 136 then ((s.jobAt p (k % 8)).map (·.inst), s.place p (k % 8)) else (none, (d, 0xFF, 0xFF))
  s.recordGlobal 0x0C 1 who.1 who.2 code (k + 256 * g.toNat + 4096 * d)

/-- A context that waits for a free generation issues its request (R37). -/
def State.extResume (s : State) (p c : Nat) : State :=
  let x := s.ctx p c
  match x.wait with
  | .admission (.extensionInstruction i leader op) =>
    match extWork (.extensionInstruction i leader op) leader op s p c x with
    | .ok d => d.s.putCtx p c { d.x with state := x.state }
    | _ => s
  | _ => s

/-- EXTENSION_RESPONSE_BEAT: a response beat is checked against its live request (R35 to R37). A request counts as live from the moment it is
formed, and a second beat with Xs_S_LAST 0 ends its response (log entry 97). An answer to an abandoned request is dropped beat by beat,
and its generation is answered with the last one. -/
def execExtensionResponseBeat (stand : Fin 16) (ctx : BitVec 8) (gen : BitVec 4) (data : Word) (dbl last : Bool)
    (stat : BitVec 2) (s : State) : Out :=
  let s := { s with out := [] }.portBack 0
  let d := stand.val
  let k := ctx.toNat
  let p := 17 * d + k / 8
  let c := k % 8
  let e := s.ext d
  let live := (Assoc.lookup e.live k).filter fun r => r.gen == gen
  let gone := s.putExt d { e with live := Assoc.erase e.live k }
  let finish := fun (st : BitVec 2) (vs : List Word) =>
    let t := if st = 3 then gone.recordExt d k gen 3 else gone
    Host.Outcome.next (t.extDone p c st vs).settle
  let malformed := Host.Outcome.next ((gone.recordExt d k gen 1).extDone p c 1 []).settle
  match live with
  | none =>
    let ends := last || !dbl
    let t := s.putExt d { e with
      dropped := e.dropped + 1, unanswered := if ends then e.unanswered.filter fun u => u != (k, gen) else e.unanswered }
    let t := t.recordExt d k gen 2
    .next (if ends && k < 136 then t.extResume p c else t)
  | some r =>
    match r.first with
    | none =>
      if dbl then
        if last then malformed
        else .next (s.putExt d { e with live := Assoc.insert e.live k { r with first := some (data, stat) } })
      else if last then finish stat [data] else malformed
    | some (hi, st) => if !dbl || stat != st then malformed else finish st [data, hi]

end Sys2Proof.Machine
end

