-- ==== Sys2Proof/Machine/EngineEvents.lean ====
section
/-!
DEFINITION. Engine events: data that returns to a context (R304), entries of the keeper (R181, R371), timers (R180, R186,
R187), the keeper's writes of GO and WDT_KICK (R153, R186), and coppice substitution (R430 to R433).
-/

namespace Sys2Proof.Machine

/-! ## Data returns -/

/-- A load that waits for data, as its instruction completes it, with the length of the instruction. What it reads stands in
`Ctx.memAt`. -/
def loadForm (x : Ctx) (i : Instr) : LoadForm × Nat :=
  match i with
  | .ldp _ => (loadLdp x, 1)
  | .ldb _ => (loadLdb x, 1)
  | .ldh _ => (loadLdh x, 1)
  | .ldd _ => (loadLdd x, 1)
  | .ldu _ => (loadLdu x, 1)
  | .lock _ n => (loadLock n x, 1)
  | .ldesc _ _ _ keeper => ({ pops := 1 + bit keeper, parts := x.memAt.map fun a => (a, fullWord), result := id, visible := false }, 2)
  | _ => (loadLd x, 1)

/-- The words that the data now arriving brings: the first that is still missing, and those that follow it in its line (R184). -/
def Ctx.arriving (x : Ctx) : List (Nat × WAddr) :=
  let due := (x.memAt.zipIdx.filter fun q => (Assoc.lookup x.memGot q.2).isNone).map fun q => (q.2, q.1)
  match due with
  | [] => []
  | q :: t => q :: t.filter fun r => sameLine q.2 r.2

/-- What the ECC of an arriving word showed (R143): a corrected log deck word is counted, an uncorrectable one is marked. -/
def State.arriveEcc (s : State) (p : Nat) (a : WAddr) (ecc : Ecc) : State :=
  match ecc with
  | .uncorrectable => s.markBad p a 1
  | .corrected => s.correctedAt a
  | .clean => s

/-- The ECC_UNCORR sub-code of arriving words, and whether it is the second half of a split access. -/
def State.arriveBar (s : State) (p : Nat) : List (Nat × WAddr) → Option (Nat × Bool)
  | [] => none
  | (k, a) :: t =>
    match s.eccBar p a with
    | some sub => some (sub, k != 0)
    | none => s.arriveBar p t

/-- LOAD_DATA_RETURN: data of a log deck or service ROM access arrives. It completes the instruction, unless words of another line
are still to come (R143, R184, R214, R304); in a context that has been halted meanwhile it does so too, and the context stays HALTED
(R453). -/
def execLoadDataReturn (a : At) (ecc : Ecc) (s : State) : Out :=
  let p := a.isl.val
  let c := a.ctx.val
  let s := { s with out := [] }
  let x := s.ctx p c
  match x.memWait with
  | none => .next s
  | some i =>
    if !(s.eng p).running then .next s else
    let due := x.arriving
    let s := match due with
      | q :: _ => s.arriveEcc p q.2 ecc
      | [] => s
    let got := due.foldl (fun m q => Assoc.insert m q.1 (s.wordAt p q.2)) x.memGot
    let done := { x with memWait := none, memAt := [], memGot := [] }
    let f := loadForm x i
    let h : Shape := { len := f.2 }
    match s.arriveBar p due with
    | some (k, second) => .next ((s.putCtx p c done).conclude p c h done (.trap 14 k (f.1.split && second)))
    | none =>
      if (x.memAt.zipIdx.any fun q => (Assoc.lookup got q.2).isNone) then .next (s.putCtx p c { x with memGot := got }) else
      let s := s.putCtx p c done
      let d := match i with
        | .lockend _ => s.lockClose p c done
        | _ => s.loadBack p c done f.1 got
      .next (s.conclude p c h done (.ok d))

/-! ## Entries of the keeper -/

/-- The interrupt entry itself at priority `l` (R371). -/
def State.enterIrq (s : State) (p l : Nat) : State :=
  let x := s.ctx p 0
  s.routine p 0 .interruptEntry (fun _ code t => t.takeTrap p 0 code (t.eng p).subCode false x.pc x.pc) fun patched s =>
    let y := { x.enter x.pc with pc := syl0 (WAddr.plus (s.eng p).ivec (4 * l)) }
    let s := ((s.putCtx p 0 y).modEng p fun e => { e with pstack := l :: e.pstack, lastIssued := 0 }).blaze p 0 3 x.pc l
    if patched then s.freed p 0 else s

/-- INTERRUPT_ENTRY: the keeper takes an entry at the highest signalled priority (R371), or, without return-stack room,
a machine check follows (R182). The entry is micro-coded, checked and retried (R326). -/
def execInterruptEntry (entry : KeeperEntry) (s : State) : Out :=
  let p := entry.isl.val
  let s := { s with out := [] }
  let e := s.eng p
  let k := e.ctx 0
  if !(s.entryDue p && s.irqDue p) || (!e.delivered.isEmpty && !k.tw) then .next s else
  let l := s.irqLevel p
  .next (s.checked p 0 (entryShape .interruptEntry) entry.check fun s =>
    let s := s.endLocks p
    if !(s.ctx p 0).applyModes.entryRoom then (s.machineCheck p 3).settle else s.enterIrq p l)

/-- DELIVERED_TRAP_ENTRY: the keeper takes the delivered trap of the lowest context (R181). -/
def execDeliveredTrapEntry (entry : KeeperEntry) (s : State) : Out :=
  let p := entry.isl.val
  let s := { s with out := [] }
  let e := s.eng p
  if e.delivered.isEmpty || !s.entryDue p || (e.ctx 0).tw then .next s
  else .next ((s.checked p 0 (entryShape .deliveredEntry) entry.check fun s => (s.enterDelivered p).closeStep p 0).settle)

/-! ## Timers -/

/-- JOB_TIMER: a job timer has reached 0, and the context freezes at a boundary, BLOCKED or not (R180). While a step is under way the
timers of the contexts that stay HALTED act too (R458). -/
def execJobTimer (a : At) (s : State) : Out :=
  let p := a.isl.val
  let c := a.ctx.val
  let s := { s with out := [] }
  let x := s.ctx p c
  if !s.timed p c ∨ !x.jobTimer.due s.now ∨ x.memWait.isSome ∨ (s.eng p).slot.any (·.ctx == c) ∨ (s.eng p).micro.busy.isSome then .next s
  else .next (((s.jobTimeout p c).closeStep p c).settleHalt p)

/-- KEEPER_WATCHDOG: WDT_LEFT has reached 0 while WDT_LOAD is not 0 (R186). A halted engine acts on it after the next RESUME
or STEP (R458). It also ends a micro-routine that never ends: its machine check starts the keeper again (R182). -/
def execKeeperWatchdog (isl : Fin 272) (s : State) : Out :=
  let p := isl.val
  let s := { s with out := [] }
  let e := s.eng p
  let stays := (e.halted && e.stepping.isNone) || e.slot.isSome
  if e.running && !stays && e.wdt.due s.now && e.wdtLoad != 0 then .next (s.machineCheck p 2).settle else .next s

/-- SLEEP_EXPIRY: a sleep time has run out (R187). A keeper that wakes is awake for the sources that waited (R367). -/
def execSleepExpiry (a : At) (s : State) : Out :=
  let p := a.isl.val
  let c := a.ctx.val
  let s := { s with out := [] }
  let x := s.ctx p c
  match x.wake with
  | some t =>
    if s.now < t then .next s
    else if c = 0 ∧ x.state = .sleeping then .next (s.putCtx p c x.awaken).redeliver
    else .next (s.putCtx p c x.awaken)
  | none => .next s

/-! ## The keeper's writes -/

/-- GO: the keeper writes 1 to the GO word of a job context (R153). -/
def execGo (a : At) (s : State) : Out :=
  let s := { s with out := [] }
  if a.ctx.val = 0 ∨ !(s.eng a.isl.val).running then .next s else .next (s.go a.isl.val a.ctx.val)

/-- WDT_KICK: the keeper reloads its watchdog (R186). -/
def execWdtKick (isl : Fin 272) (s : State) : Out :=
  let s := { s with out := [] }
  if !(s.eng isl.val).running then .next s else .next (s.modEng isl.val fun e => e.kick s.now s.dbg.wdtRun)

/-! ## Coppice substitution -/

/-- COPPICE_SUBSTITUTION: a substitution that a trigger asked for begins at the engine's boundary (R430, R431). -/
def execCoppiceSubstitution (isl : Fin 272) (s : State) : Out :=
  let p := isl.val
  let s := { s with out := [] }
  let e := s.eng p
  match e.substPend with
  | none => .next s
  | some t =>
    if e.held then .next s
    else if s.spareReady (standOf p) then .next (s.beginSubst p t)
    else .next (s.withoutSpare p t).settle

/-- A context that waited at an extension instruction, for its response or for a free generation, issues it again (R37, R432). -/
def Ctx.reissue (x : Ctx) : Ctx :=
  let again := if x.state = .halted then { x with wait := .nothing, haltedFrom := .ready }
    else { x with state := .ready, wait := .nothing }
  match x.wait with
  | .extension => again
  | .admission (.extensionInstruction ..) => again
  | _ => x

/-- Steps 2 to 5 of Table CHK.3: the coppice engine holds what the old one held, and the tracker entries follow. The clock
plan is the coppice island's own. -/
def State.handOver (s : State) (d l p trigger : Nat) : State :=
  let q := coppiceOf d
  let ns := s.signalled p
  let s := (List.range 8).foldl (fun t c => t.killExt p c) s
  let old := s.eng p
  let new := s.eng q
  let moved := (List.range 8).foldl (fun e c => e.putCtx c { (e.ctx c).reissue with shadow := [] })
    { old with step := new.step, margin := new.margin, isState := 0, firstDelay := new.firstDelay, drift := new.drift
               goodSamples := new.goodSamples, running := true, substPend := none, checking := false }
  let s := (s.putEng q moved).putEng p { engineDflt p with
    step := old.step, margin := old.margin, firstDelay := old.firstDelay, drift := old.drift, isState := if trigger = 4 then 2 else 1 }
  let s := s.putLog l { s.log l with phys := 16, state := 1 }
  let s := s.putSpare d { s.spare d with st := 1, engaged := BitVec.ofNat 8 l, copying := none }
  let at' := fun (r : Nat × Nat) => if r.1 = p then (q, r.2) else r
  let follow := fun (x : Nat × Job) => (x.1, { x.2 with place := x.2.place.map at' })
  let moved := fun (r : Nat × Nat × Nat) => if r.2.1 = p then (r.1, q, r.2.2) else r
  let s := { s with
    jobs := s.jobs.map follow
    ldk := { s.ldk with resv := s.ldk.resv.map moved }
    units := { s.units with waiting := s.units.waiting.map at' } }
  s.reroute ns

/-- COPPICE_HANDOVER: the copy is complete and the coppice engine issues (R431, R432). An item of a job context that failed its check is
a register error of that context, cause 1 for a cell or a context register and 2 for a ledger value (R275); a keeper item or a local
store word makes the keeper start again (R433). -/
def execCoppiceHandover (stand : Fin 16) (badCtx : CopyFaults) (badStore : Bool) (s : State) : Out :=
  let d := stand.val
  let s := { s with out := [] }
  match (s.spare d).copying with
  | none => .next s
  | some (l, trigger) =>
    let p := s.physOf l
    let q := coppiceOf d
    let keeper := badStore || (badCtx.cells ++ badCtx.ledger).any (·.val == 0) || !(s.eng p).bad.isEmpty
    let s := s.handOver d l p trigger
    let s := (badCtx.cells.filter (·.val != 0)).foldl (fun t c => t.registerError q c.val 1) s
    let s := (badCtx.ledger.filter fun c => c.val != 0 && !badCtx.cells.contains c).foldl (fun t c => t.registerError q c.val 2) s
    let s := if keeper then (s.returnJobs q).restartKeeper q else s
    .next (s.settleHalt q).settle

end Sys2Proof.Machine
end

