-- ==== Sys2Proof/Machine/Inflate.lean ====
section
/-!
DEFINITION. DEFLATE as the manual names it (RFC 1951): a decoder that can stop between requests, and stored blocks. Log
entry 8 names the standards.
-/

namespace Sys2Proof.Machine

/-- Where a decoder stands. -/
inductive FPhase where
  | header
  | stored (remain : Nat)
  | codes
  | done
  deriving DecidableEq, Repr

/-- A decoder between two elements of the stream: bits not yet used, the open block, and what was produced, newest first. -/
structure Flate where
  phase : FPhase := .header
  final : Bool := false
  lit : List Nat := []
  dist : List Nat := []
  bits : List Bool := []
  /-- Octets of this request, newest first. -/
  out : List Octet := []
  /-- Octets of earlier requests, newest first. -/
  hist : List Octet := []
  deriving DecidableEq, Repr

/-- What reading one element gives. -/
inductive Got (α : Type) where
  | ok (a : α) (rest : List Bool)
  | more
  | bad

/-- Sequencing of elements. -/
def Got.bind {α β : Type} (g : Got α) (f : α → List Bool → Got β) : Got β :=
  match g with
  | .ok a r => f a r
  | .more => .more
  | .bad => .bad

/-- Octets as bits, least significant first (RFC 1951). -/
def bitsOf (l : List Octet) : List Bool := l.flatMap fun o => (List.range 8).map fun k => o.getLsbD k

/-- `n` bits as a number, least significant first. -/
def takeBits (n : Nat) (b : List Bool) : Got Nat :=
  if b.length < n then .more
  else .ok ((b.take n).reverse.foldl (fun v x => 2 * v + bit x) 0) (b.drop n)

/-- The symbols of a code in the order of their lengths. -/
def symbolsOf (lens : List Nat) : List Nat :=
  ((List.range 15).flatMap fun k => (lens.zipIdx.filter fun q => q.1 == k + 1).map (·.2))

/-- One symbol of a code, bit by bit: `len` bits read so far, the code read, the first code of this length, and the
symbols of shorter codes. -/
def symbolFrom (lens syms : List Nat) : (fuel len code first index : Nat) → List Bool → Got Nat
  | 0, _, _, _, _, _ => .bad
  | _, _, _, _, _, [] => .more
  | f + 1, len, code, first, index, b :: t =>
    let code := code + bit b
    let n := lens.count (len + 1)
    if code < first + n then .ok (syms.getD (index + (code - first)) 0) t
    else symbolFrom lens syms f (len + 1) (2 * code) (2 * (first + n)) (index + n) t

/-- One symbol of a code. -/
def symbol (lens : List Nat) (b : List Bool) : Got Nat := symbolFrom lens (symbolsOf lens) 15 0 0 0 0 b

/-- Codes left over after a set of lengths: negative when too many, 0 when complete. -/
def leftOver (lens : List Nat) : Int :=
  (List.range 15).foldl (fun (v : Int) k => if v < 0 then v else 2 * v - lens.count (k + 1)) 1

/-- A set of lengths is usable: complete, or one code of one bit. -/
def usable (lens : List Nat) : Bool :=
  leftOver lens == 0 || (decide (0 ≤ leftOver lens) && (lens.filter (· != 0)).length == 1 && lens.count 1 == 1) ||
    lens.all (· == 0)

/-- The lengths of the fixed codes. -/
def fixedLit : List Nat :=
  List.replicate 144 8 ++ List.replicate 112 9 ++ List.replicate 24 7 ++ List.replicate 8 8

/-- Base and extra bits of length symbol 257 + k. -/
def lengthBase (k : Nat) : Nat × Nat :=
  if k < 8 then (3 + k, 0) else if k = 28 then (258, 0)
  else let e := k / 4 - 1; (3 + (4 + k % 4) * 2 ^ e, e)

/-- Base and extra bits of distance symbol k. -/
def distBase (k : Nat) : Nat × Nat :=
  if k < 4 then (1 + k, 0) else let e := k / 2 - 1; (1 + (2 + k % 2) * 2 ^ e, e)

/-- The order of code length code lengths. -/
def clOrder : List Nat := [16, 17, 18, 0, 8, 7, 9, 6, 10, 5, 11, 4, 12, 3, 13, 2, 14, 1, 15]

/-- `n` fields of 3 bits. -/
def take3s : Nat → List Bool → Got (List Nat)
  | 0, b => .ok [] b
  | n + 1, b => (takeBits 3 b).bind fun v r => (take3s n r).bind fun t r => .ok (v :: t) r

/-- The literal and distance lengths of a dynamic block, newest first. -/
def codeLengths (cl : List Nat) : (fuel need : Nat) → List Nat → List Bool → Got (List Nat)
  | 0, _, _, _ => .bad
  | f + 1, need, acc, b =>
    if need ≤ acc.length then (if acc.length = need then .ok acc b else .bad) else
    (symbol cl b).bind fun v r =>
      if v < 16 then codeLengths cl f need (v :: acc) r
      else if v = 16 then
        match acc with
        | [] => .bad
        | p :: _ => (takeBits 2 r).bind fun n r => codeLengths cl f need (List.replicate (3 + n) p ++ acc) r
      else if v = 17 then (takeBits 3 r).bind fun n r => codeLengths cl f need (List.replicate (3 + n) 0 ++ acc) r
      else (takeBits 7 r).bind fun n r => codeLengths cl f need (List.replicate (11 + n) 0 ++ acc) r

/-- The two codes of a dynamic block. -/
def dynamicCodes (b : List Bool) : Got (List Nat × List Nat) :=
  (takeBits 5 b).bind fun hl b => (takeBits 5 b).bind fun hd b => (takeBits 4 b).bind fun hc b =>
    (take3s (4 + hc) b).bind fun cs b =>
      let cl := (List.range 19).map fun k => match (clOrder.zip cs).find? (·.1 == k) with
        | some q => q.2
        | none => 0
      if leftOver cl ≠ 0 then .bad else
      (codeLengths cl 400 (257 + hl + 1 + hd) [] b).bind fun ls b =>
        let l := ls.reverse
        let lit := l.take (257 + hl)
        let dist := l.drop (257 + hl)
        if 29 < hl ∨ 29 < hd ∨ lit.getD 256 0 = 0 ∨ leftOver lit < 0 ∨ !usable lit ∨ !usable dist then .bad
        else .ok (lit, dist) b

/-- The octet `d` back from the newest, if the window has it. -/
def Flate.back (f : Flate) (d : Nat) : Option Octet :=
  if 32768 < d ∨ d = 0 then none else if d ≤ f.out.length then f.out[d - 1]? else f.hist[d - 1 - f.out.length]?

/-- A copy of `n` octets from distance `d`. -/
def Flate.copy (f : Flate) (d : Nat) : Nat → Option Flate
  | 0 => some f
  | n + 1 => match f.back d with
    | none => none
    | some o => Flate.copy { f with out := o :: f.out } d n

/-- One element of the stream: a block header, an octet of a stored block, or a symbol with what follows it. -/
def Flate.element (f : Flate) : Got Flate :=
  match f.phase with
  | .done => .bad
  | .stored 0 => .ok { f with phase := if f.final then .done else .header } f.bits
  | .stored (n + 1) => (takeBits 8 f.bits).bind fun v r => .ok { f with phase := .stored n, out := BitVec.ofNat 8 v :: f.out } r
  | .header =>
    (takeBits 1 f.bits).bind fun fin b => (takeBits 2 b).bind fun typ b =>
      let f := { f with final := fin == 1 }
      if typ = 0 then
        let b := b.drop (b.length % 8)
        (takeBits 16 b).bind fun n b => (takeBits 16 b).bind fun m b =>
          if n + m = 65535 then .ok { f with phase := .stored n } b else .bad
      else if typ = 1 then .ok { f with phase := .codes, lit := fixedLit, dist := List.replicate 30 5 } b
      else if typ = 2 then (dynamicCodes b).bind fun c b => .ok { f with phase := .codes, lit := c.1, dist := c.2 } b
      else .bad
  | .codes =>
    (symbol f.lit f.bits).bind fun v b =>
      if v < 256 then .ok { f with out := BitVec.ofNat 8 v :: f.out } b
      else if v = 256 then .ok { f with phase := if f.final then .done else .header } b
      else if 285 < v then .bad
      else
        let q := lengthBase (v - 257)
        (takeBits q.2 b).bind fun e b => (symbol f.dist b).bind fun k b =>
          if 29 < k then .bad else
          let d := distBase k
          (takeBits d.2 b).bind fun g b => match f.copy (d.1 + g) (q.1 + e) with
            | none => .bad
            | some f => .ok f b

/-- How a run of the decoder ends. -/
inductive Ran where
  /-- The final block has ended; the bits after it are left. -/
  | ended
  /-- The bits ran out between elements. -/
  | short
  /-- Decoding failed. -/
  | failed
  deriving DecidableEq, Repr

/-- Elements one after another. -/
def Flate.run : (fuel : Nat) → Flate → Ran × Flate
  | 0, f => (.short, f)
  | k + 1, f =>
    if f.phase = .done then (.ended, f) else
    match f.element with
    | .ok g r => Flate.run k { g with bits := r }
    | .more => (.short, f)
    | .bad => (.failed, f)

/-- The decoder given more octets. The bits already held end on an octet boundary of the source. -/
def Flate.feed (f : Flate) (src : List Octet) : Ran × Flate :=
  let g := { f with bits := f.bits ++ bitsOf src }
  g.run (2 * g.bits.length + 8)

/-- Source octets in stored blocks of at most 65,535 octets (BTYPE 00). -/
def storedBlocks (last : Bool) : (fuel : Nat) → List Octet → List Octet
  | 0, _ => []
  | k + 1, l =>
    let n := min 65535 l.length
    let here := l.take n
    let more := l.drop n
    BitVec.ofNat 8 (bit (last && more.isEmpty)) :: (leOctets 2 n ++ leOctets 2 (65535 - n)) ++ here ++
      (if more.isEmpty then [] else storedBlocks last k more)

/-- The empty stored block that ends a request with LAST clear (R355). -/
def emptyStored : List Octet := [0, 0, 0, 0xFF, 0xFF]

/-- The stored form of a request's source. -/
def storedForm (last : Bool) (src : List Octet) : List Octet :=
  storedBlocks last (src.length / 65535 + 1) src ++ (if last then [] else emptyStored)

/-- Octets that stored blocks of `n` octets take. -/
def storedSize (n : Nat) : Nat := n + 5 * ((max n 1 + 65534) / 65535)

/-- No block of codes takes more than its stored form would (R357). `atBits` and `atOut` are the bits left and the octets produced
where the open block began. -/
def Flate.blocksFit : (fuel atBits atOut : Nat) → Flate → Bool
  | 0, _, _, _ => true
  | k + 1, atBits, atOut, f =>
    if f.phase = .done then true else
    match f.element with
    | .ok g r =>
      let b := if f.phase = .header then (f.bits.length, f.out.length) else (atBits, atOut)
      let ends := f.phase == .codes && g.phase != .codes
      !(ends && 8 * storedSize (g.out.length - b.2) < b.1 - r.length) && Flate.blocksFit k b.1 b.2 { g with bits := r }
    | _ => true

/-- The octets end in an empty stored block that is not final (R355): without LEN and NLEN the decoder stops at a block header,
whose three bits are 0 and whose other bits only fill the octet. -/
def endsStored (start : Flate) (c : List Octet) : Bool :=
  let q := start.feed (c.take (c.length - 4))
  c.drop (c.length - 4) == [0, 0, 0xFF, 0xFF] && q.1 == .short && q.2.phase == .header && 3 ≤ q.2.bits.length &&
    q.2.bits.length ≤ 10 && (q.2.bits.take 3).all (· == false)

/-- A chosen stream is one the manual allows: it decodes to the source, ends as LAST demands, and keeps the bounds of R357. -/
def allowedStream (last : Bool) (hist src c : List Octet) : Bool :=
  let start : Flate := { hist := hist.reverse }
  let q := start.feed c
  q.2.out.reverse == src && c.length ≤ (storedForm last src).length &&
    Flate.blocksFit (16 * c.length + 8) 0 0 { start with bits := bitsOf c } &&
    (if last then q.1 == .ended && q.2.bits.length < 8
     else q.1 == .short && q.2.phase == .header && q.2.bits.isEmpty && endsStored start c)

/-- The DEFLATE blocks of a request (R354, R357): stored blocks at LEVEL 0, the compressor's choice otherwise. -/
def deflateOf (level : Nat) (last : Bool) (hist src : List Octet) : List Octet :=
  let c := Config.deflate level last hist src
  if level ≠ 0 ∧ allowedStream last hist src c then c else storedForm last src

end Sys2Proof.Machine
end

