-- ==== Sys2Proof/Machine/Lanes.lean ====
section
/-!
DEFINITION. The cipher and compression lanes (R336 to R339, R345 to R358): grants, the requests they run, and how each
ends; key derivation (R341) and shade rekeys (R350). Where the manual ranks no two failures of one request, the order of
checks is that of log entry 25.
-/

namespace Sys2Proof.Machine

/-! ## Request blocks -/

/-- The span stays within its bank. -/
def Span.fits (x : Span) : Bool := x.addr.toNat % 65536 + x.words ≤ 65536

/-- The part of a span before the end of its bank. -/
def Span.clip (x : Span) : Span := { x with words := min x.words (65536 - x.addr.toNat % 65536) }

/-- A request may access granule `g` on behalf of its job, whether or not that still runs (R140, R338). -/
def State.reqMayGran (s : State) (r : UnitReq) (g : Nat) : Bool :=
  match (s.gran g).draining with
  | some k => k == .inst r.inst && r.grans.contains g
  | none => (s.gran g).applied == .inst r.inst

/-- The request may access a word. -/
def State.reqMay (s : State) (r : UnitReq) (a : WAddr) : Bool :=
  match placeOf a with
  | .deck w => s.reqMayGran r (granuleOf w)
  | _ => false

/-- The request may access every word of a span (R140). -/
def State.spanMay (s : State) (r : UnitReq) (x : Span) : Bool := x.list.all (s.reqMay r)

/-- A span holds an uncorrectable word. -/
def State.spanBad (s : State) (x : Span) : Bool := (s.eccBars 0 x.list).isSome

/-- The block lies in one granule. -/
def oneGranule (x : Span) : Bool :=
  x.fits && match x.list.map granOfAddr with
    | [] => true
    | g :: t => t.all (· == g)

/-- Every word stays below its number of bits. -/
def widthsOk (ws : List Word) (bits : List Nat) : Bool := (ws.zip bits).all fun q => q.1.toNat < 2 ^ q.2

/-- Four octets of a word, the first in [31:24]. -/
def wordOctets (w : Word) : List Octet := beOctets 4 w.toNat

/-- Octets as words of four, the first in [31:24]. -/
def octetWords (o : List Octet) : List Word := (chunks 4 (o.length / 4 + 1) o).map fun g => BitVec.ofNat 36 (beNat g)

/-- The cipher part of a request block: Table CIZ.5, or words 9 to 20 of Table CIZ.8. -/
structure CipherPart where
  aad : WAddr
  aadLen : Nat
  params : List Octet
  unit : Nat
  tlen : Nat
  tag : List Octet
  deriving DecidableEq, Repr

/-- Words 5 to 16 of Table CIZ.5, from their place in a block. -/
def cipherPart (w : List Word) : CipherPart :=
  let g := fun (i : Nat) => w.getD i 0
  { aad := (g 0).setWidth 24, aadLen := (g 1).toNat, params := (List.range 4).flatMap fun k => wordOctets (g (2 + k))
    unit := (g 6).toNat, tlen := (g 7).toNat, tag := (List.range 4).flatMap fun k => wordOctets (g (8 + k)) }

/-- The widths of words 5 to 16 of Table CIZ.5. -/
def partWidths : List Nat := [24, 17, 32, 32, 32, 32, 21, 5, 32, 32, 32, 32]

/-- How a request ends: its code and DETAIL, the words it writes, and a destination it leaves undefined (R339). -/
structure LaneEnd where
  code : Nat
  detail : Nat := 0
  writes : List (WAddr × List Word) := []
  undef : Option Span := none
  unitError : Bool := false
  historyBad : Bool := false

/-- Words of the destination that a request could have written: what R339 leaves undefined when it fails. -/
def UnitReq.dest (r : UnitReq) : Span :=
  let cap := (r.word 4).toNat
  let most := match r.unit, r.mode.toNat with
    | .compression, _ => cap
    | .cipher, 7 => 72
    | .cipher, m => if m ≤ 4 then (r.word 2).toNat else 0
  ⟨(r.word 3).setWidth 24, wordsFor ((r.word 0).getLsbD 1) (min 1048576 (min cap most))⟩

/-- A request that ends with a code and leaves its destination as it was. -/
def LaneEnd.fail (code : Nat) : LaneEnd := { code := code }

/-- A request that fails with its destination undefined (R339). -/
def LaneEnd.lost (r : UnitReq) (code : Nat) (detail : Nat := 0) : LaneEnd := { code := code, detail := detail, undef := some r.dest }

/-- A request that meets an uncorrectable word. -/
def LaneEnd.ecc (undef : Option Span) : LaneEnd := { code := 0, unitError := true, undef := undef }

/-- The key of a request, from the shares copied at admission. -/
def UnitReq.key (r : UnitReq) : List Octet := keyList r.kind (r.share0 ^^^ r.share1)

/-! ## Cipher modes (Table CIZ.6) -/

/-- The IV of a GCM request; IVCTR puts the counter into octets 4 to 11 (R347). -/
def CipherPart.iv (x : CipherPart) (ivctr : Bool) (counter : Nat) : List Octet :=
  if ivctr then x.params.take 4 ++ beOctets 8 counter else x.params.take 12

/-- The tag words: the leftmost TLEN octets, the others 0. -/
def tagWords (tlen : Nat) (t : List Octet) : List Word := octetWords (t.take tlen ++ List.replicate (16 - tlen) 0)

/-- Fields that a mode does not use are 0, and those it uses are in range (Table CIZ.6). -/
def CipherPart.modeOk (x : CipherPart) (mode n dst cap src exp : Nat) (spk dpk ivctr : Bool) : Bool :=
  let noAad := x.aad == 0 && x.aadLen == 0
  let noTag := x.tag.all (· == 0)
  let noParams := x.params.all (· == 0)
  match mode with
  | 0 => exp == 0 && x.unit == 0 && (x.params.drop 12).all (· == 0) && 12 ≤ x.tlen && x.tlen ≤ 16 && x.aadLen ≤ 65536
  | 1 => exp == 0 && x.unit == 0 && (x.params.drop 12).all (· == 0) && 12 ≤ x.tlen && x.tlen ≤ 16 && x.aadLen ≤ 65536 && !ivctr
  | 2 => exp == 0 && noAad && noTag && x.tlen == 0 && !ivctr && 16 ≤ x.unit && x.unit ≤ 1048576 && n % x.unit == 0
  | 3 => exp == 0 && noAad && noTag && x.tlen == 0 && !ivctr && 16 ≤ x.unit && x.unit ≤ 1048576 && n % x.unit == 0
  | 4 => exp == 0 && noAad && noTag && x.tlen == 0 && !ivctr && x.unit == 0
  | 5 => exp == 0 && noAad && noParams && !ivctr && x.unit == 0 && 8 ≤ x.tlen && x.tlen ≤ 16 && dst == 0 && cap == 0 && !dpk
  | 6 => exp == 0 && noAad && noParams && !ivctr && x.unit == 0 && 8 ≤ x.tlen && x.tlen ≤ 16 && dst == 0 && cap == 0 && !dpk
  | _ => noAad && noTag && noParams && !ivctr && x.unit == 0 && x.tlen == 0 && n == 0 && src == 0 && !spk

/-- The key wrapped by mode 7: the front key of slot EXPORT. -/
def State.exportKey (s : State) (inst : BitVec 8) (slot : Nat) : Option (List Octet) :=
  let k := (s.slot slot).front
  if k.kind = 0 ∨ k.owner ≠ inst ∨ !k.exportable then none else some (keyList k.kind k.key)

/-- The cipher request of a block. -/
def State.cipherEnd (s : State) (r : UnitReq) : LaneEnd :=
  if !oneGranule r.blkSpan then .fail 0x13
  else if !s.spanMay r r.blkSpan then .fail 0x14
  else if r.blkBad then .ecc none
  else
    let w := r.blk
    let g := fun (i : Nat) => w.getD i 0
    let spk := (g 0).getLsbD 0
    let dpk := (g 0).getLsbD 1
    let exp := ((g 0).extractLsb' 2 10).toNat
    let ivctr := (g 0).getLsbD 12
    let n := (g 2).toNat
    let cap := (g 4).toNat
    let x := cipherPart (w.drop 5)
    let m := r.mode.toNat
    let key := r.key
    let half := key.length / 2
    let wrapped := if m = 7 then s.exportKey r.inst exp else some []
    let outLen := if m ≤ 4 then n else if m = 7 then (wrapped.getD []).length + 8 else 0
    let src : Span := ⟨(g 1).setWidth 24, wordsFor spk n⟩
    let dst : Span := ⟨(g 3).setWidth 24, wordsFor dpk outLen⟩
    let aad : Span := ⟨x.aad, wordsFor false x.aadLen⟩
    if !widthsOk w ([13, 24, 21, 24, 21] ++ partWidths ++ [0]) || 1048576 < n || (spk && n % 9 != 0) || (dpk && outLen % 9 != 0) ||
        !x.modeOk m n (g 3).toNat cap (g 1).toNat exp spk dpk ivctr || !(src.fits && dst.fits && aad.fits) then .lost r 0x13
    else if wrapped.isNone then .lost r 0x11
    else if !(s.spanMay r src && s.spanMay r dst && s.spanMay r aad) then .lost r 0x14
    else if m ≠ 5 ∧ m ≠ 6 ∧ cap < outLen then .fail 0x16
    else if s.spanBad src || s.spanBad aad then .ecc (some dst)
    else match unpackOctets spk n (src.list.map fun a => s.wordAt 0 a), unpackOctets false x.aadLen (aad.list.map fun a => s.wordAt 0 a) with
      | some t, some ad =>
        let put := fun (o : List Octet) => (dst.addr, packOctets dpk o)
        let at13 := WAddr.plus r.block 13
        if m = 0 then
          let iv := x.iv ivctr r.counter
          let ct := gcmText key iv t
          let back := if ivctr then [(WAddr.plus r.block 8, octetWords (iv.drop 4))] else []
          { code := 0, detail := n, writes := [put ct, (at13, tagWords x.tlen (gcmTag key iv ad ct))] ++ back }
        else if m = 1 then
          let iv := x.iv false 0
          if (gcmTag key iv ad t).take x.tlen = x.tag.take x.tlen then { code := 0, detail := n, writes := [put (gcmText key iv t)] }
          else { code := 0x17, writes := [put (List.replicate n 0)] }
        else if m ≤ 3 then
          { code := 0, detail := n
            writes := [put (xtsCrypt (m == 3) (key.take half) (key.drop half) (leNat x.params) x.unit t)] }
        else if m = 4 then { code := 0, detail := n, writes := [put (ctrCrypt key (beNat x.params) t)] }
        else if m = 5 then { code := 0, writes := [(at13, tagWords x.tlen (cmac key t))] }
        else if m = 6 then (if (cmac key t).take x.tlen = x.tag.take x.tlen then { code := 0 } else .fail 0x17)
        else { code := 0, detail := outLen, writes := [put (keyWrap key (wrapped.getD []))] }
      | _, _ => .lost r 0x15

/-! ## Compression streams (R353 to R357) -/

/-- The part of a history record that words 0 to 254 hold, as the model lays it out (log entry 26). -/
structure Hist where
  isOpen : Bool := false
  decompress : Bool := false
  level : Nat := 0
  wrap : Nat := 0
  crc : BitVec 32 := 0
  adler : BitVec 32 := 1
  total : Nat := 0
  /-- Header read, and decoder phase. -/
  flate : Flate := {}
  /-- The last uncompressed octets, newest first. -/
  window : List Octet := []
  deriving DecidableEq, Repr

/-- The words of a history record as five octets each: what its CRC-32C covers. -/
def histOctets (ws : List Word) : List Octet := ws.flatMap fun w => beOctets 5 w.toNat

/-- The word that a phase is kept in. -/
def FPhase.word : FPhase → Nat
  | .header => 0
  | .codes => 1
  | .done => 2
  | .stored n => 3 + n

/-- The phase of a word. -/
def FPhase.ofWord (n : Nat) : FPhase :=
  match n with
  | 0 => .header
  | 1 => .codes
  | 2 => .done
  | k + 3 => .stored k

/-- A number in base `b` from digits, first digit lowest. -/
def ofDigits (b : Nat) : List Nat → Nat
  | [] => 0
  | d :: t => d + b * ofDigits b t

/-- `n` digits in base `b`, lowest first. -/
def toDigits (b : Nat) : Nat → Nat → List Nat
  | 0, _ => []
  | n + 1, v => v % b :: toDigits b n (v / b)

/-- Words 0 to 255 of a record. -/
def Hist.words (h : Hist) : List Word :=
  let f := h.flate
  let small := [bit h.isOpen + 2 * bit h.decompress + 4 * h.level + 16 * h.wrap + 64 * bit f.final, h.crc.toNat, h.adler.toNat,
    h.total % 2 ^ 32, h.window.length, f.phase.word, f.bits.length, f.lit.length, f.dist.length]
  let lens := toDigits (2 ^ 36) 36 (ofDigits 16 (f.lit ++ f.dist))
  let bits := toDigits (2 ^ 36) 140 (ofDigits 2 (f.bits.map bit))
  let ws := (small ++ lens ++ bits).map fun v => BitVec.ofNat 36 v
  let ws := ws ++ List.replicate (255 - ws.length) 0
  ws ++ [(crc32c (histOctets ws)).setWidth 36]

/-- Words 256 to 8,447: the window, oldest octet first. -/
def Hist.windowWords (h : Hist) : List Word :=
  let o := h.window.reverse
  packOctets false (o ++ List.replicate (32768 - o.length) 0)

/-- A record read back; none when its CRC-32C fails. -/
def readHist (ws : List Word) : Option Hist :=
  let g := fun (i : Nat) => (ws.getD i 0).toNat
  if g 255 ≠ (crc32c (histOctets (ws.take 255))).toNat then none else
  let lens := toDigits 16 (g 7 + g 8) (ofDigits (2 ^ 36) ((List.range 36).map fun k => g (9 + k)))
  let bits := (toDigits 2 (g 6) (ofDigits (2 ^ 36) ((List.range 140).map fun k => g (45 + k)))).map (· == 1)
  let window := (((bytesOf (ws.drop 256)).map fun b => b.setWidth 8).take (g 4)).reverse
  some { isOpen := g 0 % 2 == 1, decompress := g 0 / 2 % 2 == 1, level := g 0 / 4 % 4, wrap := g 0 / 16 % 4
         crc := BitVec.ofNat 32 (g 1), adler := BitVec.ofNat 32 (g 2), total := g 3, window := window
         flate := { phase := FPhase.ofWord (g 5), final := g 0 / 64 % 2 == 1, lit := lens.take (g 7), dist := lens.drop (g 7)
                    bits := bits, hist := window } }

/-- What a stream gives: its output, the source octets consumed, and the record after it. -/
inductive Stream where
  | ok (out : List Octet) (consumed : Nat) (h : Hist)
  | fail (code detail : Nat)
  /-- The source ran out: what a request that may stop there gives; none where the header itself is cut. -/
  | short (part : Option (List Octet × Hist))

/-- The wrapper header of a compression (R356). -/
def wrapHeader (wrap level : Nat) : List Octet :=
  if wrap = 1 then [0x78, if level = 1 then 0x5E else 0xDA]
  else if wrap = 2 then [0x1F, 0x8B, 8, 0, 0, 0, 0, 0, if level = 1 then 4 else if level = 2 then 2 else 0, 0xFF]
  else []

/-- The wrapper trailer. -/
def wrapTrailer (wrap : Nat) (crc adler : BitVec 32) (total : Nat) : List Octet :=
  if wrap = 1 then beOctets 4 adler.toNat
  else if wrap = 2 then leOctets 4 crc.toNat ++ leOctets 4 total
  else []

/-- Compression of a request (R355 to R357). -/
def compressStream (h : Hist) (first last : Bool) (src : List Octet) : Stream :=
  let body := deflateOf h.level last h.window.reverse src
  let crc := crc32From h.crc src
  let adler := adlerFrom h.adler src
  let total := h.total + src.length
  let out := (if first then wrapHeader h.wrap h.level else []) ++ body ++ (if last then wrapTrailer h.wrap crc adler total else [])
  .ok out src.length { h with isOpen := !last, crc := crc, adler := adler, total := total, window := (src.reverse ++ h.window).take 32768 }

/-- The octets after a zero-terminated field. -/
def afterZero : List Octet → Option (List Octet)
  | [] => none
  | o :: t => if o = 0 then some t else afterZero t

/-- Octets skipped, where they are there. -/
def skip (n : Nat) (l : List Octet) : Option (List Octet) := if l.length < n then none else some (l.drop n)

/-- The octets that are there begin as `want` says, as far as they go. -/
def startsAs (want : List (Nat → Bool)) (src : List Octet) : Bool := (want.zip src).all fun q => q.1 q.2.toNat

/-- A gzip header (R356): the rest of the source, the failing code, or 0 where the source ends inside it. -/
def gzipHeader (src : List Octet) : Except Nat (List Octet) :=
  let flg := (src.getD 3 0).toNat
  if !startsAs [(· == 0x1F), (· == 0x8B), (· == 8), (· < 32)] src then .error 0x21
  else if src.length < 10 then .error 0
  else
  let r := some (src.drop 10)
  let r := if flg / 4 % 2 = 1 then r.bind fun l => if l.length < 2 then none else skip (2 + leNat (l.take 2)) l else r
  let r := if flg / 8 % 2 = 1 then r.bind afterZero else r
  let r := if flg / 16 % 2 = 1 then r.bind afterZero else r
  match r with
  | none => .error 0
  | some l =>
    if flg / 2 % 2 = 1 then
      if l.length < 2 then .error 0
      else if leNat (l.take 2) ≠ (crc32 (src.take (src.length - l.length))).toNat % 65536 then .error 0x22
      else .ok (l.drop 2)
    else .ok l

/-- A zlib header (R356), as `gzipHeader` answers. -/
def zlibHeader (src : List Octet) : Except Nat (List Octet) :=
  let a := (src.getD 0 0).toNat
  let b := (src.getD 1 0).toNat
  if !startsAs [fun v => v % 16 == 8 && v / 16 ≤ 7] src then .error 0x21
  else if src.length < 2 then .error 0
  else if (256 * a + b) % 31 ≠ 0 ∨ b / 32 % 2 = 1 then .error 0x21 else .ok (src.drop 2)

/-- Whole octets from bits. -/
def octetsOfBits : (fuel : Nat) → List Bool → List Octet
  | 0, _ => []
  | k + 1, b =>
    if b.length < 8 then []
    else BitVec.ofNat 8 ((b.take 8).reverse.foldl (fun v x => 2 * v + bit x) 0) :: octetsOfBits k (b.drop 8)

/-- Decompression of a request (R355, R356): octets after the trailer are not read. -/
def expandStream (h : Hist) (first : Bool) (src : List Octet) : Stream :=
  let head := if !first ∨ h.wrap = 0 then Except.ok src else if h.wrap = 1 then zlibHeader src else gzipHeader src
  match head with
  | .error 0 => .short none
  | .error code => .fail code 0
  | .ok body =>
    let q := h.flate.feed body
    let at_ := src.length - (q.2.bits.length + 7) / 8
    if q.1 = .failed then .fail 0x21 at_ else
    let new := q.2.out.reverse
    let crc := crc32From h.crc new
    let adler := adlerFrom h.adler new
    let total := h.total + new.length
    let h' := { h with crc := crc, adler := adler, total := total, window := (q.2.out ++ h.window).take 32768
                       flate := { q.2 with out := [], hist := [] } }
    let more := Stream.short (some (new, { h' with isOpen := true }))
    if q.1 = .short then more else
    let rest := octetsOfBits (q.2.bits.length / 8 + 1) (q.2.bits.drop (q.2.bits.length % 8))
    let t := wrapTrailer h.wrap crc adler total
    if rest.length < t.length then more
    else if rest.take t.length ≠ t then .fail 0x22 0
    else .ok new (src.length - (rest.length - t.length)) { h' with isOpen := false }

/-! ## Compression requests -/

/-- Options that descriptor check 0x07 accepts (R354). -/
def optionsOk (o : BitVec 16) : Bool :=
  o.toNat % 4 != 3 && o.toNat / 4 % 4 != 3 && o.toNat < 32 && !(o.getLsbD 4 && o.toNat % 4 == 0)

/-- The history record of a request that names one. -/
def State.histOf (s : State) (r : UnitReq) : Option WAddr :=
  let r := s.blockOf r
  if (r.word 0).getLsbD 4 then some ((r.word 5).setWidth 24) else none

/-- The first octet of word `k` of a source (R70). -/
def octetAt (packed : Bool) (k : Nat) : Nat := if packed then 9 * k / 2 else 4 * k

/-- The octets of a source before the first one that cannot be taken, and why it cannot (R356): its word is uncorrectable
(`true`), or its byte has bit 8 set. -/
def State.sourceOf (s : State) (src : Span) (packed : Bool) (n : Nat) : List Octet × Option Bool :=
  let ws := src.list.map fun a => s.wordAt 0 a
  let bad := ((src.list.zipIdx).find? fun q => (s.eccBars 0 [q.1]).isSome).map fun q => octetAt packed q.2
  let nine := if packed then none else (((bytesOf ws).take n).zipIdx.find? fun q => q.1.msb).map (·.2)
  let keep := fun (k : Nat) => if packed then (unpackPairs ws).take k else ((bytesOf ws).take k).map fun b => b.setWidth 8
  match bad, nine with
  | some a, some b => if a ≤ b then (keep a, some true) else (keep b, some false)
  | some a, none => (keep a, some true)
  | none, some b => (keep b, some false)
  | none, none => (keep n, none)

/-- How a request ends at a source octet that cannot be taken. -/
def LaneEnd.unread (r : UnitReq) (ecc : Bool) : LaneEnd := if ecc then .ecc (some r.dest) else .lost r 0x15

/-- The end of a decompression whose source ran out (R355): with LAST set the stream has not ended. -/
def Stream.atEnd (x : Stream) (last : Bool) (n : Nat) : Stream :=
  match x with
  | .short (some q) => if last then .fail 0x21 n else .ok q.1 n q.2
  | .short none => .fail 0x21 n
  | y => y

/-- The compression or decompression request of a block. -/
def State.compressEnd (s : State) (r : UnitReq) : LaneEnd :=
  if !oneGranule r.blkSpan then .fail 0x13
  else if !s.spanMay r r.blkSpan then .fail 0x14
  else if r.blkBad then .ecc none
  else
    let w := r.blk
    let g := fun (i : Nat) => w.getD i 0
    let spk := (g 0).getLsbD 0
    let dpk := (g 0).getLsbD 1
    let first := (g 0).getLsbD 2
    let last := (g 0).getLsbD 3
    let hist := (g 0).getLsbD 4
    let cmode := ((g 0).extractLsb' 5 3).toNat
    let chain := r.opts.getLsbD 4
    let level := r.opts.toNat % 4
    let wrap := r.opts.toNat / 4 % 4
    let n := (g 2).toNat
    let cap := (g 4).toNat
    let x := cipherPart (w.drop 9)
    let src : Span := ⟨(g 1).setWidth 24, wordsFor spk n⟩
    let dst : Span := ⟨(g 3).setWidth 24, if dpk then 2 * (cap / 9) else wordsFor false cap⟩
    let rec_ : Span := ⟨(g 5).setWidth 24, if hist then 8448 else 0⟩
    let aad : Span := ⟨x.aad, if chain then wordsFor false x.aadLen else 0⟩
    let key := r.key
    let whole := !r.decompress || (chain && cmode == 1)
    if !widthsOk w ([9, 24, 21, 24, 21, 24, 36, 36, 36] ++ partWidths) || 1048576 < n || (spk && n % 9 != 0) ||
        (dpk && cap % 9 != 0) || !(src.fits && dst.fits && rec_.fits && aad.fits) then .lost r 0x13
    else if !optionsOk r.opts || (chain && !(first && last)) ||
        (chain && !(if r.decompress then cmode == 1 || cmode == 4 else cmode == 0 || cmode == 4)) then .lost r 0x20
    else if chain && !x.modeOk cmode n (g 3).toNat cap (g 1).toNat 0 spk dpk false then .lost r 0x13
    else if !(s.spanMay r src && s.spanMay r dst && s.spanMay r rec_ && s.spanMay r aad) then .lost r 0x14
    else if s.spanBad aad || (!first && s.spanBad rec_) then .ecc (some r.dest)
    else
      let old := if first then none else readHist (s.deckWords rec_.addr rec_.words)
      if !first && hist && old.isNone then { LaneEnd.lost r 0x23 with historyBad := true }
      else
      let fresh : Hist := { decompress := r.decompress, level := level, wrap := wrap }
      let h := old.getD fresh
      let t := s.sourceOf src spk n
      if (!first && !hist) || (first && !last && !hist) ||
          (!first && !(h.isOpen && h.decompress == r.decompress && h.wrap == wrap && h.level == level)) then .lost r 0x23
      else match unpackOctets false (if chain then x.aadLen else 0) (aad.list.map fun a => s.wordAt 0 a),
          if whole then t.2 else none with
      | none, _ => .lost r 0x15
      | _, some ecc => .unread r ecc
      | some ad, none =>
        let iv := x.iv false 0
        let plain := if chain && r.decompress then (if cmode = 1 then gcmText key iv t.1 else ctrCrypt key (beNat x.params) t.1) else t.1
        if chain && r.decompress && cmode == 1 && (gcmTag key iv ad t.1).take x.tlen != x.tag.take x.tlen then .fail 0x17
        else
          let q := if r.decompress then expandStream h first plain else compressStream h first last plain
          match q, t.2 with
          | .short _, some ecc => .unread r ecc
          | _, _ => match q.atEnd last n with
            | .fail code detail => .lost r code (if code = 0x21 then detail else 0)
            | .short _ => .lost r 0x21
            | .ok out consumed h' =>
              let sealed_ := if chain && !r.decompress then
                  (if cmode = 0 then gcmText key iv out else ctrCrypt key (beNat x.params) out) else out
              if cap < sealed_.length then .lost r 0x16
              else if dpk && sealed_.length % 9 != 0 then .lost r 0x13
              else
                let tag := if chain && !r.decompress && cmode == 0 then
                    [(WAddr.plus r.block 17, tagWords x.tlen (gcmTag key iv ad sealed_))] else []
                let back := if hist then [(rec_.addr, h'.words), (WAddr.plus rec_.addr 256, h'.windowWords)] else []
                { code := 0, detail := sealed_.length
                  writes := [(dst.addr, packOctets dpk sealed_),
                    (WAddr.plus r.block 6, [BitVec.ofNat 36 consumed, h'.crc.setWidth 36, h'.adler.setWidth 36])] ++ tag ++ back }

/-! ## Lanes -/

/-- A request runs on compression lane `n`, or holds cipher lane `n` for a cipher request or a chain. -/
def UnitReq.runsOn (r : UnitReq) (u : UnitKind) (n : Nat) : Bool :=
  (r.unit == u && r.lane == some n) || (u == .cipher && r.lane2 == some n)

/-- The request that runs on a lane, with its key in the queue. -/
def State.onLane (s : State) (u : UnitKind) (lane : Nat) : Option (Nat × UnitReq) := s.units.reqs.find? fun r => r.2.runsOn u lane

/-- Words that a unit writes to the log deck. -/
def State.unitWrite (s : State) (ws : List (WAddr × List Word)) : State :=
  ws.foldl (fun t q => (q.2.zipIdx).foldl (fun t x => match placeOf (WAddr.plus q.1 x.2) with
    | .deck w => t.putDeck none w x.1
    | _ => t) t) s

/-- A destination left undefined takes free words where the request may write (R140, R339). -/
def State.unitUndef (s : State) (r : UnitReq) (x : Span) : State :=
  (x.clip.list.filter (s.reqMay r)).foldl (fun t a => match placeOf a with
    | .deck w => let q := t.drawWord; q.2.putDeck none w q.1
    | _ => t) s

/-- A request leaves its lane. Where its job has ended it writes nothing (R338, R339). -/
def State.endLane (s : State) (k : Nat) (r : UnitReq) (e : LaneEnd) : State :=
  let drop := fun (t : State) => { t with units := { t.units with reqs := t.units.reqs.filter fun q => q.1 != k } }
  if r.dead then (drop s).settle else
  let t := s.unitWrite e.writes
  let t := drop (match e.undef with
    | some x => t.unitUndef r x
    | none => t)
  match (t.job r.job).bind (·.place) with
  | some (p, c) => (t.completeTag p c r.tag e.code e.detail e.unitError).settle
  | none => t.settle

/-- The word in which a lane met an ECC error: of its source, else of its AAD, else of its block; of its block where it ended before
it read them. -/
def UnitReq.eccWord (r : UnitReq) (e : LaneEnd) : WAddr :=
  let aad := match r.unit with
    | .cipher => 5
    | .compression => 9
  if e.code ∈ [0x11, 0x13, 0x14, 0x20, 0x23] then r.block
  else if r.word 2 ≠ 0 then (r.word 1).setWidth 24
  else if r.word (aad + 1) ≠ 0 then (r.word aad).setWidth 24
  else r.block

/-- An ECC outcome that a lane met (R143). -/
def State.laneEcc (s : State) (a : WAddr) (ecc : Ecc) : State :=
  match ecc with
  | .clean => s
  | .corrected => { s with ldk := { s.ldk with ce := satInc s.ldk.ce } }
  | .uncorrectable => s.markBad 0 a 1

/-- The request of a key in the queue is replaced. -/
def State.putReq (s : State) (k : Nat) (r : UnitReq) : State :=
  { s with units := { s.units with reqs := s.units.reqs.map fun q => if q.1 = k then (k, r) else q } }

/-- A request starts: its block is read, its round-robin moves on, and it holds the granules that the block names (R139, R336, R337). -/
def State.startUnit (s : State) (k lane : Nat) (r : UnitReq) : State :=
  let r := { s.blockOf r with lane := some lane, blkBad := s.spanBad r.blkSpan }
  let may := fun (g : Nat) => s.reqMayGran r g || s.jobMayGran r.job r.inst g
  let r := { r with grans := (r.grans ++ (r.spans.flatMap Span.granules).filter may).eraseDups }
  let us := (s.putReq k r).units
  { s with units := match r.unit with
    | .cipher => { us with rrCipher := r.inst.toNat }
    | .compression => { us with rrCompress := r.inst.toNat } }

/-- A request holds a compression lane and waits for the cipher lane of its chain (R358). -/
def UnitReq.wantsLane (r : UnitReq) : Bool := r.unit == .compression && r.opts.getLsbD 4 && r.lane.isSome && r.lane2.isNone

/-- The earlier request with a history record in common, which a request waits for (R337). -/
def State.histHeld (s : State) (r : UnitReq) : Bool :=
  match r.unit, s.histOf r with
  | .compression, some h => s.units.reqs.any fun q => q.2.unit == .compression && q.2.order < r.order &&
      (match s.histOf q.2 with
        | some g => g.toNat < h.toNat + 8448 && h.toNat < g.toNat + 8448
        | none => false)
  | _, _ => false

/-- The queued request that a lane of a unit serves next: round-robin among users, in admission order within one (R337). A chained
request waits while the DRBG is STARVED (R352). -/
def State.laneTurn (s : State) (u : UnitKind) : Option (Nat × UnitReq) :=
  let starved := fun (r : UnitReq) => r.opts.getLsbD 4 && s.units.drbgState == 3
  let ready := s.units.reqs.filter fun r => r.2.unit == u && r.2.lane.isNone && !s.histHeld r.2 && !starved r.2
  let last := match u with
    | .cipher => s.units.rrCipher
    | .compression => s.units.rrCompress
  let order := (List.range 256).map fun k => (last + 1 + k) % 256
  order.findSome? fun i => ready.find? fun r => r.2.inst.toNat == i

/-- A lane can take no request: it runs one, it does not exist, or attestation holds cipher lane 0 (Table CHK.7). -/
def State.laneBarred (s : State) (u : UnitKind) (lane : Nat) : Bool :=
  (s.onLane u lane).isSome || (u == .cipher && (7 < lane || (lane == 0 && s.units.attest)))

/-- LANE_GRANT: a free lane goes to the next queued request. A free cipher lane first serves a chain that waits for one (R337, R358). -/
def execLaneGrant (u : UnitKind) (lane : Fin 16) (s : State) : Out :=
  let s := { s with out := [] }
  if s.laneBarred u lane.val then .next s else
  match if u = .cipher then s.units.reqs.find? fun r => r.2.wantsLane else none with
  | some (k, r) => .next (s.putReq k { r with lane2 := some lane.val })
  | none =>
    match s.laneTurn u with
    | none => .next s
    | some (k, r) => .next (s.startUnit k lane.val r)

/-- Counts of a lane (Table CIZ.11): requests completed, and the failures it counts. -/
def laneCount (l : List (Nat × (BitVec 16 × BitVec 16))) (lane : Nat) (bad : Bool) : List (Nat × (BitVec 16 × BitVec 16)) :=
  let v := Tab.get (fun _ => (0, 0)) l lane
  Tab.put l lane (satInc v.1, if bad then satInc v.2 else v.2)

/-- How a request ends with what the lane met on the way: a lost key or an uncorrectable word gives a unit error, with its
destination undefined (R339, Table CHK.2). -/
def LaneEnd.met (e : LaneEnd) (r : UnitReq) (ecc : Ecc) : LaneEnd :=
  if r.keyLost ∨ ecc = .uncorrectable then .ecc (some r.dest) else e

/-- CIPHER_REQUEST_DONE: the request on a lane ends with its status. A lane stopped at a rekey point holds it (R352). -/
def execCipherRequestDone (lane : Fin 8) (ecc : Ecc) (s : State) : Out :=
  let s := { s with out := [] }
  match s.onLane .cipher lane.val with
  | none => .next s
  | some (k, r) =>
    if r.unit ≠ .cipher ∨ s.units.stalled.contains lane.val then .next s else
    let e := s.cipherEnd r
    let s := s.laneEcc (r.eccWord e) ecc
    let e := e.met r ecc
    let s := { s with units := { s.units with cipherStat := laneCount s.units.cipherStat lane.val (e.code == 0x17) } }
    let s := if e.unitError then s.arrive 629 else s
    .next (s.endLane k r e)

/-- A request of the compression unit has all it needs to end: a chain holds a cipher lane that has not stopped (R352, R358). -/
def State.chainRuns (s : State) (r : UnitReq) : Bool :=
  !r.opts.getLsbD 4 || match r.lane2 with
    | some n => s.units.drbgState != 3 && !s.units.stalled.contains n
    | none => false

/-- The counts of the cipher lane of a chain (log entry 91). -/
def State.countChain (s : State) (r : UnitReq) (e : LaneEnd) : State :=
  match r.lane2 with
  | some n => { s with units := { s.units with cipherStat := laneCount s.units.cipherStat n (e.code == 0x17) } }
  | none => s

/-- COMPRESSION_REQUEST_DONE: the request on a lane ends with its status. -/
def execCompressionRequestDone (lane : Fin 16) (ecc : Ecc) (s : State) : Out :=
  let s := { s with out := [] }
  match s.onLane .compression lane.val with
  | none => .next s
  | some (k, r) =>
    if !s.chainRuns r then .next s else
    let e := s.compressEnd r
    let s := s.laneEcc (r.eccWord e) ecc
    let e := e.met r ecc
    let s := { s with units := { s.units with compStat := laneCount s.units.compStat lane.val (e.code == 0x21 || e.code == 0x22) } }
    let s := s.countChain r e
    let s := if e.unitError then s.arrive 656 else s
    let s := if e.historyBad then s.arrive 657 else s
    .next (s.endLane k r e)

/-- SHADE_REKEY: a lane's shade generator takes 256 DRBG bits; while the DRBG is STARVED the lane stops (R350, R352). -/
def execShadeRekey (lane : Fin 8) (s : State) : Out :=
  let s := { s with out := [] }
  if s.units.drbgState = 3 then
    .next (if s.units.stalled.contains lane.val then s
      else { s with units := { s.units with stalled := s.units.stalled ++ [lane.val] } })
  else .next (s.rekeyLane lane.val)

/-! ## Key derivation -/

/-- The label of a slot's staged registers. -/
def KeySlot.label (k : KeySlot) : List Octet :=
  ((List.range 8).flatMap fun n => leOctets 4 (Tab.get countDflt k.labels n).toNat).take k.llen.toNat

/-- Labels kept for the complex's own derivations (Table CIZ.3): mcpatch, identity and debug. -/
def reservedLabels : List (List Octet) :=
  [[0x6D, 0x63, 0x70, 0x61, 0x74, 0x63, 0x68], [0x69, 0x64, 0x65, 0x6E, 0x74, 0x69, 0x74, 0x79], [0x64, 0x65, 0x62, 0x75, 0x67]]

/-- The root key in use. -/
def State.rootKey (s : State) : List Octet := beOctets 32 (s.units.rootKey0 ^^^ s.units.rootKey1).toNat

/-- Why a DERIVE is refused when it is written (Table CIZ.3, reasons 1 to 3). -/
def KeySlot.refusal (k : KeySlot) : Option Nat :=
  let kind : BitVec 3 := k.ctl.extractLsb' 8 3
  let perm : BitVec 8 := k.ctl.extractLsb' 11 8
  if 0 < k.llen.toNat ∧ (k.label ∈ reservedLabels ∨ k.label.headD 1 = 0) then some 1
  else if k.llen = 0 ∨ 32 < k.llen.toNat then some 2
  else if 4 < kind.toNat ∨ perm &&& ~~~(kindModes kind) ≠ 0 then some 3
  else none

/-- A DERIVE is refused: the reason is kept, source 626 fires, and the back copy stays as it was (R342). -/
def State.refuseDerive (s : State) (n reason : Nat) : State :=
  (s.putSlot n { s.slot n with reason := BitVec.ofNat 3 reason }).arrive 626

/-- A DERIVE command takes the staged registers of the selected slot, or is refused (R341, R342). -/
def State.startDerive (s : State) (n : Nat) : State :=
  let k := s.slot n
  match k.refusal with
  | some r => s.refuseDerive n r
  | none => s.putSlot n { k with work := some (k.ctl, k.gen, k.label), reason := 0 }

/-- A CLEAR command prepares a back copy of KIND EMPTY, complete at once (R343). -/
def State.clearSlot (s : State) (n : Nat) : State :=
  s.putSlot n { s.slot n with back := some {}, backAt := s.now, work := none }

/-- DERIVE_COMPLETE: the derivation engine finishes the back copy of a slot, as shares under a free mask (R341, log entry 90). An XTS key with equal halves is refused. -/
def execDeriveComplete (slot : BitVec 10) (s : State) : Out :=
  let s := { s with out := [] }
  let n := slot.toNat
  let k := s.slot n
  match k.work with
  | none => .next s
  | some (ctl, gen, label) =>
    let kind : BitVec 3 := ctl.extractLsb' 8 3
    let owner : BitVec 8 := ctl.extractLsb' 0 8
    let key := kdf s.rootKey label owner.toNat gen.toNat (8 * keyOctets kind)
    let half := key.length / 2
    if 3 ≤ kind.toNat ∧ key.take half = key.drop half then
      .next ((s.putSlot n { k with work := none }).refuseDerive n 5) else
    let q := s.drawMask
    let mask : BitVec 512 := q.1.setWidth 512
    let c : KeyCopy :=
      { kind := kind, perm := ctl.extractLsb' 11 8, exportable := ctl.getLsbD 19, owner := owner
        digest := BitVec.ofNat 64 (leNat ((sha384 label).take 8)), gen := gen
        share0 := BitVec.ofNat 512 (beNat key) ^^^ mask, share1 := mask }
    .next (q.2.putSlot n { k with back := some c, backAt := s.now, work := none, reason := 0 })

end Sys2Proof.Machine
end

