-- ==== Sys2Proof/Machine/Life.lean ====
section
/-!
DEFINITION. Resets (R41 to R43), life cycle (R31, R32, R464 to R469), self-test and the signature store (R470 to R474), the
start-up phases (R478 to R480), power states (R44 to R46) and the shutdown sequence (R475 to R477).
-/

namespace Sys2Proof.Machine

/-! ## Life-cycle states -/

/-- LC_STATE decoded (Table PRT.5): every other value is SCRAPPED. -/
def decodeLc (code : BitVec 6) : Lc :=
  if code = 0x26 then .blank else if code = 0x15 then .test else if code = 0x0B then .manufacture
  else if code = 0x33 then .field else if code = 0x2D then .recovery else .scrapped

/-- LCB_STAT.LC (Table LCB.7). -/
def Lc.code : Lc → Nat
  | .blank => 0
  | .test => 1
  | .manufacture => 2
  | .field => 3
  | .recovery => 4
  | .scrapped => 5

/-- The root key comes from the key port (Table LCB.1). -/
def Lc.portKey : Lc → Bool
  | .manufacture => true
  | .field => true
  | .recovery => true
  | _ => false

/-- The root key is ephemeral (R466). -/
def Lc.ephemeral : Lc → Bool
  | .blank => true
  | .test => true
  | _ => false

/-- A direct BIST is permitted (Table LCB.1). -/
def Lc.directBist : Lc → Bool
  | .test => true
  | .manufacture => true
  | .recovery => true
  | _ => false

/-- The complex behaves as SCRAPPED (R32, R465). -/
def State.scrapped (s : State) : Bool := s.life.changed || s.life.lc == .scrapped

/-! ## The signature store (R472, R473) -/

/-- The class of the store (Table LCB.2). -/
def Aon.sigClass (a : Aon) : BitVec 3 :=
  if a.lost then 0
  else if !a.complete then 1
  else if a.count.toNat ≠ 2 ^ a.slog2.toNat ∨ a.slog2 ≠ a.log2 then 2
  else if a.result ≠ 1 ∨ a.sig ≠ Config.expectedSignature a.slog2.toNat then 3
  else 4

/-- The self-test begins: write 1 of R472. -/
def Aon.beginTest (a : Aon) : Aon := { a with complete := false, sig := 0, count := 0, slog2 := a.log2, lost := false }

/-- The MISR of a self-test (R471): `scan` is what the scan responses left, and the memory outcome, the pattern count and the end
token follow in this order. -/
def misrOf (scan : BitVec 64) (patterns : BitVec 25) (failing : BitVec 10) : BitVec 64 :=
  let m := Config.misr (Config.misr scan 1 (bit (failing = 0))) 10 failing.toNat
  Config.misr (Config.misr m 25 patterns.toNat) 64 Config.endToken.toNat

/-- Write 2 of R472. -/
def Aon.writeSig (a : Aon) (sig : BitVec 64) (patterns : BitVec 25) : Aon := { a with sig := sig, count := patterns }

/-- Write 3 of R472. -/
def Aon.writeResult (a : Aon) : Aon := { a with result := if a.sig = Config.expectedSignature a.slog2.toNat then 1 else 2 }

/-- The self-test ends: writes 2 to 4 of R472. -/
def Aon.endTest (a : Aon) (sig : BitVec 64) (patterns : BitVec 25) : Aon :=
  { (a.writeSig sig patterns).writeResult with complete := true }

/-- A self-test is under way. -/
def State.selfTesting (s : State) : Bool :=
  s.life.shut == .selfTest || (s.life.phase == 1 && s.life.cleared && !s.life.stopped)

/-- A reset cuts a self-test short: how many of the writes 1 to 3 of R472 have been made, and what they wrote, is open (R476, log entry
113). COMPLETE is 0. -/
def State.cutTest (s : State) : State :=
  if !s.selfTesting then s else
  let d := s.draws
  let a := { s.aon with complete := false }
  let b := a.writeSig ((Config.freeWord d).setWidth 64 ||| ((Config.freeWord (d + 1)).setWidth 64 <<< 36))
    ((Config.freeWord (d + 2)).setWidth 25)
  { s with
    draws := d + 3
    aon := if Config.freeChoice d then a else if Config.freeChoice (d + 1) then b else b.writeResult }

/-- A self-test begins: write 1 of R472, and the content of every SRAM is lost (R470). What an SRAM then holds reads as after a
reset (log entry 120). -/
def State.beginTest (s : State) : State :=
  { s with
    aon := s.aon.beginTest
    engines := s.engines.map fun x => (x.1, { x.2 with lstore := [], bad := [], overlays := [], sbuf := [] })
    ldk := { s.ldk with mem := [], bad := [], resv := [] }
    dsp := { s.dsp with cache := [] }
    mcs := { s.mcs with stage := [], staged := 0, ram := [], remap := [], bad := [] }
    mir := { s.mir with lanes := s.mir.lanes.map fun x => (x.1, { x.2 with replay := [] }) }
    units := { s.units with slots := [] }
    dbg := { s.dbg with trace := [] } }

/-- The store of a shutdown whose compare failed twice (R469). -/
def Aon.clearFail (a : Aon) : Aon := { a.beginTest with result := 3 }

/-! ## Start-up (Table LCB.4) -/

/-- Start-up enters phase `k`. -/
def State.enterPhase (s : State) (k : Nat) : State := { s with life := { s.life with phase := k, phaseAt := s.now } }

/-- Start-up stops, with the fatal cause where there is one (R480). -/
def State.stopStart (s : State) (cause : Option Nat) : State :=
  let s := { s with life := { s.life with stopped := true } }
  match cause with
  | some k => s.setFatal k
  | none => s

/-- The shutdown sequence begins (R475): from RUN and the ready phase. Its limit counts from the request, which a direct BIST makes
now. -/
def State.beginShut (s : State) (direct : Bool) : State :=
  let t := s.life.shutTmo.toNat
  let asked := if direct then s.now else s.life.requestAt
  { s with life := { s.life with
      shut := .drain, direct := direct, shutDue := if t = 0 then none else some (asked + t) } }.settle

/-- A stored request for OFF is acted on in the ready phase (R46). A stored request for RETAIN is acted on by
RETAIN_ENTRY_DONE. -/
def State.actOnRequest (s : State) : State :=
  if s.ready && s.life.power == .run && s.life.shut == .none && s.life.request == .off then s.beginShut false else s

/-- CHM_EPOCH_PERIOD as it acts (R120). -/
def Dsp.periodNow (d : Dsp) : Nat := min 100000 (max 1000 d.period.cur.toNat)

/-- Phase 8: ready; source 720 fires and epoch 0 begins (R119). -/
def State.reachReady (s : State) : State :=
  let s := s.enterPhase 8
  let s := { s with dsp := { s.dsp with epoch := 0, due := some (s.now + s.dsp.periodNow) } }
  (s.arrive 720).settle.actOnRequest

/-- A session nonce is drawn (Table MIR.4): the first 6 octets of a generate call (log entry 35). A STARVED DRBG leaves the
old one. -/
def State.drawNonce (s : State) : State :=
  match s.drbg with
  | none => s
  | some (r, s) => { s with mir := { s.mir with nonce := BitVec.ofNat 48 (beNat (r.take 6)) } }

/-- Phase 7: mirror link-up (R479). -/
def State.beginPhase7 (s : State) : State :=
  let s := if s.mir.link = .bringup then s.drawNonce else s
  if s.life.lc = .blank ∨ !s.mir.en ∨ s.mir.link = .paired then s.reachReady else s.enterPhase 7

/-- Phase 6 ends: every port that is enabled and still DOWN raises its attention cause (R55). -/
def State.endPhase6 (s : State) : State :=
  let down := fun (n : Nat) => (s.port n).en && !(s.port n).up
  let s := if down 0 || down 1 then s.attn 0 else s
  s.beginPhase7

/-- Phase 6: host port bring-up. -/
def State.beginPhase6 (s : State) : State :=
  let s := s.enterPhase 6
  if !(s.port 0).en && !(s.port 1).en then s.endPhase6 else s

/-- Every engine in service starts with its keeper at the restart entry of the service ROM, and its watchdog is loaded (log entry 130:
DESIGN CHOICE). -/
def State.startKeeper (s : State) (p : Nat) : State :=
  (s.modEng p fun e =>
    let e := { e with running := true }
    (e.putCtx 0 { state := .ready, pc := Config.keeperEntry }).kick s.now s.dbg.wdtRun).settleHalt p

/-- Phase 5: every keeper boots. -/
def State.beginPhase5 (s : State) : State :=
  let s := s.enterPhase 5
  ((List.range 256).filter s.inService).foldl (fun t l => t.startKeeper (t.physOf l)) s

/-- Phase 4 ends: the patch key register is cleared (R330). -/
def State.endPhase4 (s : State) : State := { s with units := { s.units with patchKey := 0 } }.beginPhase5

/-- Patch load without a patch: STATE reads NONE. -/
def State.noPatch (s : State) : State := { s with mcs := { s.mcs with state := 4, reason := 0 } }.endPhase4

/-- A patch is refused (R333). -/
def State.refusePatch (s : State) (reason : Nat) : State :=
  ({ s with mcs := { s.mcs with state := 3, reason := BitVec.ofNat 4 reason } }.arrive 723).endPhase4

/-- Phase 4 waits for SUPPLY, which may be there already (R331). -/
def State.takeSupply (s : State) : State :=
  if s.mcs.supply = 1 then { s with mcs := { s.mcs with state := 1 } }
  else if s.mcs.supply = 2 then s.noPatch
  else s

/-- Phase 4: microcode patch; skipped in BLANK and TEST (Table LCB.1). -/
def State.beginPhase4 (s : State) : State :=
  let s := s.enterPhase 4
  if s.life.lc.ephemeral then s.noPatch else s.takeSupply

/-- The start-time draws of phase 3, one generate call each: start token, slice-hash key, affinity key (R130, R136, log
entry 35). -/
def State.startDraws (s : State) : State :=
  match s.drbg with
  | none => s
  | some (a, s) =>
    match s.drbg with
    | none => s
    | some (b, s) =>
      match s.drbg with
      | none => s
      | some (c, s) =>
        { s with
          mir := { s.mir with start := BitVec.ofNat 32 (beNat (a.take 4)) }
          ldk := { s.ldk with hashKey := BitVec.ofNat 512 (beNat b) }
          dsp := { s.dsp with affKey := BitVec.ofNat 512 (beNat c) } }

/-- The label of the identity digest. -/
def identityLabel : List Octet := [0x69, 0x64, 0x65, 0x6E, 0x74, 0x69, 0x74, 0x79]

/-- The identity digest (R409): bits [127:64] of the CMAC. -/
def State.identity (s : State) : BitVec 64 := BitVec.ofNat 64 (beNat ((cmac s.rootKey identityLabel).take 8))

/-- Phase 3: the identity digest is computed; the DRBG waits for its words (R351). -/
def State.beginPhase3 (s : State) : State :=
  let s := s.enterPhase 3
  { s with mir := { s.mir with selfId := s.identity }, units := { s.units with entropy := [] } }

/-- The root key is held, as two shares under a free mask (R341): phase 2 ends (R467). -/
def State.holdKey (s : State) (key : BitVec 256) (ephemeral : Bool) : State :=
  let q := s.drawMask
  let mask : BitVec 256 := q.1.setWidth 256
  let s := q.2
  { s with
    life := { s.life with keyHeld := true, ephemeral := ephemeral, key := 0 }
    units := { s.units with rootKey0 := key ^^^ mask, rootKey1 := mask } }.beginPhase3

/-- Phase 2: root key. -/
def State.beginPhase2 (s : State) : State := { s.enterPhase 2 with units := { s.units with entropy := [] } }

/-! ## Resets (Table PRT.7) -/

/-- What PORST_N leaves: the always-on domain, the levels of PWR_REQ and PAIR_ARB (R39, R46), and the model's own fields. -/
def State.powerOn (s : State) : State :=
  let s := s.cutTest
  { State.reset with
    pending := s.pending, draws := s.draws, aon := { s.aon with fenced := true }
    mir := { State.reset.mir with arb := s.mir.arb }
    life := { State.reset.life with request := s.life.request } }

/-- PORST_N_ASSERT. -/
def execPorstAssert (s : State) : Out := .next s.powerOn

/-- PORST_N_RELEASE: the time base starts (R185). -/
def execPorstRelease (s : State) : Out :=
  let s := { s with out := [] }
  if s.life.porst then .next { s with now := 0, life := { s.life with porst := false } } else .next s

/-- An engine after SYSRST_N: its clock plan and ageing record are kept. -/
def Engine.afterSysrst (e : Engine) : Engine :=
  { ({} : Engine) with step := e.step, margin := e.margin, isState := e.isState, firstDelay := e.firstDelay, drift := e.drift }

/-- The debugger stays attached outside FIELD: Table PRT.7 names TEST, MANUFACTURE and RECOVERY, and FIELD, where it is detached. In
BLANK and SCRAPPED, which it does not name, the model keeps it too (log entry 121: DESIGN CHOICE). -/
def Dbg.afterSysrst (d : Dbg) (lc : Lc) : Dbg :=
  if d.attached ∧ lc ≠ .field then { ({} : Dbg) with attached := true, path := d.path, scope := d.scope, inst := d.inst, fails := d.fails }
  else { ({} : Dbg) with fails := d.fails }

/-- What SYSRST_N leaves while PORST_N is released. The levels of PWR_REQ and PAIR_ARB stand (R39, R46), and the affinity table leaves out
the stands without an engine (R130). -/
def State.systemReset (s : State) : State :=
  let s := s.cutTest
  let r := State.reset
  { r with
    now := s.now, pending := s.pending, draws := s.draws
    aon := { s.aon with fenced := true }
    engines := s.engines.map fun (x : Nat × Engine) => (x.1, x.2.afterSysrst)
    logs := s.logs.map fun (x : Nat × LogEngine) => (x.1, { (logDflt x.1) with phys := x.2.phys, state := x.2.state })
    spares := s.spares.map fun (x : Nat × Spare) => (x.1, { x.2 with copying := none })
    dbg := s.dbg.afterSysrst s.life.lc
    mir := { r.mir with arb := s.mir.arb }
    dsp := { r.dsp with affFront := s.standMask }
    life := { r.life with
      porst := false, lc := s.life.lc, latched := s.life.latched, changed := s.life.changed, request := s.life.request
      requestAt := s.life.requestAt } }

/-- SYSRST_N_ASSERT. OFF stays, for only PORST_N leaves it (Table PRT.9); the outputs hold their reset values meanwhile (R23). -/
def execSysrstAssert (s : State) : Out :=
  let s := { s with out := [] }
  if s.life.porst then .next s
  else if s.life.power = .off then .next { s with life := { s.life with sysrst := true } }
  else .next s.systemReset

/-- SYSRST_N_RELEASE: the life-cycle state is latched, Xs_PRESENT is sampled, and phase 1 classifies the signature store
(R32, R33, R473, R474). -/
def execSysrstRelease (lc : BitVec 6) (present : List (BitVec 16)) (s : State) : Out :=
  let s := { s with out := [] }
  if s.life.porst ∨ !s.life.sysrst then .next s else
  if s.life.power = .off then .next { s with life := { s.life with sysrst := false } } else
  let st := if s.life.changed then Lc.scrapped else decodeLc lc
  let cls := s.aon.sigClass
  let s := { s with
    glb := { s.glb with present := (List.range 16).map fun d => present.getD d 0 }
    life := { s.life with
      sysrst := false, lc := st, latched := true, phase := 1, phaseAt := s.now, sigClass := cls, sigSeen := s.aon.complete
      quick := decide (cls = 4) && st == .field && !s.aon.lost }
    aon := { s.aon with complete := false } }
  .next (if cls = 1 ∨ cls = 2 ∨ cls = 3 then s.arrive 721 else s)

/-- LC_STATE_CHANGE: a value that differs from the latched one. Stable for 4 cycles it scraps the complex (R32); else it is
recorded as a life-cycle event. -/
def execLcStateChange (lc : BitVec 6) (stable : Bool) (s : State) : Out :=
  let s := { s with out := [] }
  if s.life.porst ∨ !s.life.latched ∨ decodeLc lc = s.life.lc ∨ s.life.changed ∨ s.life.power = .off then .next s
  else if stable then
    .next ({ s with life := { s.life with changed := true, lc := .scrapped } }.clearSecrets.setFatal 0)
  else .next { s with life := { s.life with glitches := s.life.glitches + 1 } }

/-- VAON_POWER_ON: the always-on domain's own detector clears it (R42). -/
def execVaonPowerOn (s : State) : Out := .next ({ s with out := [], aon := {} }).settleFence

/-! ## Phase 1 and steps 3 and 4 of the shutdown -/

/-- The compare of a start has passed: SCRAPPED stays in phase 1 (R465), a quick start goes on, and a cold start begins its
self-test (R474). -/
def State.comparePassed (s : State) : State :=
  let s := { s.clearSecrets with life := { s.clearSecrets.life with cleared := true } }
  if s.life.lc = .scrapped then s.stopStart none
  else if s.life.quick then s.beginPhase2
  else s.beginTest

/-- Step 4 or a failed compare ends the sequence: a shutdown reports OFF, and a direct BIST fires source 722 (R469, R475,
R477). -/
def State.endShut (s : State) : State :=
  let s := { s with life := { s.life with shut := .done } }
  if s.life.direct then { s with life := { s.life with directDone := true } }.arrive 722
  else { s with life := { s.life with power := .off, ack := .off } }

/-- A compare finds a nonzero bit: once more, then CLEARFAIL (R469). -/
def State.compareFailed (s : State) : State :=
  let n := s.life.compareFails + 1
  let s := { s with life := { s.life with compareFails := n } }
  if n < 2 then s.clearSecrets
  else if s.life.shut = .clear then ({ s with aon := s.aon.clearFail }.setFatal 2).endShut
  else s.stopStart (some 2)

/-- CLEARING_COMPARE_DONE: the clearing of phase 1 or of step 3 has been compared (R468, R469), also once R32 has acted (R465, log entry
122). -/
def execClearingCompareDone (pass : Bool) (s : State) : Out :=
  let s := { s with out := [] }
  if !s.alive then .next s
  else if s.life.phase = 1 ∧ !s.life.cleared ∧ !s.life.stopped then .next (if pass then s.comparePassed else s.compareFailed)
  else if s.life.shut = .clear then
    .next (if pass then { s.beginTest with life := { s.life with shut := .selfTest } } else s.compareFailed)
  else .next s

/-- The results of a self-test (Table LCB.7). -/
def Life.tested (l : Life) (correct : Bool) (failing : BitVec 10) : Life :=
  { l with lpass := correct, mpass := decide (failing = 0), mfail := failing }

/-- SELF_TEST_DONE: the self-test of a cold start or of step 4 ends (R470 to R474). The command carries what the scan responses left in
the MISR (log entry 123). A start that R32 has scrapped ends in phase 1 (R465). -/
def execSelfTestDone (sig : BitVec 64) (patterns : BitVec 25) (failing : BitVec 10) (s : State) : Out :=
  let s := { s with out := [] }
  let starting := s.life.shut == .none
  if !s.alive || !s.selfTesting then .next s else
  let a := s.aon.endTest (misrOf sig patterns failing) patterns
  let correct := decide (a.result = 1)
  let s := { s with aon := a, life := s.life.tested correct failing }
  if starting then
    let s := { s with aon := { s.aon with complete := false } }
    .next (if s.life.changed then s.stopStart none else if correct then s.beginPhase2 else s.stopStart (some 3))
  else .next s.endShut

/-! ## Phases 2 and 3 -/

/-- KEY_BEAT: one root key beat is taken (R28). -/
def execKeyBeat (data : BitVec 32) (s : State) : Out :=
  let s := { s with out := [] }
  let l := s.life
  if !s.up || l.phase != 2 || !l.lc.portKey || 8 ≤ l.keyBeats.toNat then .next s else
  let key : BitVec 256 := (l.key <<< 32) ||| data.setWidth 256
  let s := { s with life := { l with key := key, keyBeats := l.keyBeats + 1 } }.emit .keyAck
  .next (if l.keyBeats = 7 then s.holdKey key false else s)

/-- KEY_VALID_IGNORED: KEY_VALID while the complex takes no further key, also once start-up has stopped (R28, R466). -/
def execKeyValidIgnored (s : State) : Out :=
  let s := { s with out := [] }
  if s.alive && (s.life.keyBeats == 8 || s.life.lc.ephemeral) then
    .next ({ s with life := { s.life with keyLate := satInc s.life.keyLate } }.arrive 724)
  else .next s

/-- The 1 ms limit of phases 2, 3 and 6, in ticks. -/
def millisecond : Nat := 100000

/-- KEY_TIMEOUT: no root key within 1 ms of the start of phase 2 (R29, R467). -/
def execKeyTimeout (s : State) : Out :=
  let s := { s with out := [] }
  if s.up && s.life.phase == 2 && s.life.phaseAt + millisecond ≤ s.now then
    .next ({ s with life := { s.life with keyTimeout := true } }.stopStart (some 1))
  else .next s

/-- The complex takes an entropy word (R30): the words of R466 in phase 2, those of the instantiation in phase 3, and those of
a reseed that is due (R351, R352). -/
def State.wantsEntropy (s : State) : Bool :=
  s.up && ((s.life.phase == 2 && s.life.lc.ephemeral) || s.life.phase == 3 || s.units.drbgState == 2 || s.units.drbgState == 3)

/-- Eight healthy words instantiate the DRBG in phase 3, with the identity digest as personalization, or reseed it (R351). -/
def State.wordsArrived (s : State) (ws : List (BitVec 64)) : State :=
  if s.life.phase = 3 then
    ((s.drbgSet (drbgInit (entropyOctets ws) (beOctets 8 s.mir.selfId.toNat))).startDraws).beginPhase4
  else
    s.drbgSet (drbgReseed (beOctets 32 s.units.drbgKey.toNat) s.units.drbgV.toNat (entropyOctets ws))

/-- ENTROPY_WORD: a word transfers; without health it is discarded and counted (R30, R467). -/
def execEntropyWord (data : BitVec 64) (health : Bool) (s : State) : Out :=
  let s := { s with out := [] }
  if !s.wantsEntropy then .next s else
  let s := s.emit .entAck
  if !health then .next { s with units := { s.units with entDrop := satInc s.units.entDrop } } else
  let ws := s.units.entropy ++ [data]
  let s := { s with units := { s.units with entropy := ws } }
  if s.life.phase = 2 then
    .next (if ws.length = 4 then s.holdKey (BitVec.ofNat 256 (beNat (entropyOctets ws))) true else s)
  else .next (if ws.length = 8 then s.wordsArrived ws else s)

/-- ENTROPY_TIMEOUT: phase 3 has not received 8 healthy words within 1 ms (R352). -/
def execEntropyTimeout (s : State) : Out :=
  let s := { s with out := [] }
  if s.up && s.life.phase == 3 && s.life.phaseAt + millisecond ≤ s.now then .next (s.stopStart (some 6)) else .next s

/-! ## Phases 4 to 7 -/

/-- PATCH_WAIT_TIMEOUT: MCS_PWAIT ticks of phase 4 without SUPPLY (R331). -/
def execPatchWaitTimeout (s : State) : Out :=
  let s := { s with out := [] }
  if s.up && s.life.phase == 4 && s.mcs.state == 0 && s.life.phaseAt + s.mcs.wait.toNat ≤ s.now then
    .next (s.refusePatch 1)
  else .next s

/-- KEEPER_BOOT_DONE: phase 5 ends; an engine whose keeper failed is removed (Table LCB.4). -/
def execKeeperBootDone (failing : List (Fin 272)) (s : State) : Out :=
  let s := { s with out := [] }
  if !(s.up && s.life.phase == 5) then .next s
  else .next (failing.foldl (fun t p => t.removeEngine p.val 0) s).beginPhase6

/-- HOST_BRINGUP_TIMEOUT: phase 6 ends after 1 ms (R55). -/
def execHostBringupTimeout (s : State) : Out :=
  let s := { s with out := [] }
  if s.up && s.life.phase == 6 && s.life.phaseAt + millisecond ≤ s.now then .next s.endPhase6 else .next s

/-- MIRROR_LINKUP_TIMEOUT: phase 7 ends after 0.15 ms (R479). -/
def execMirrorLinkupTimeout (s : State) : Out :=
  let s := { s with out := [] }
  if s.up && s.life.phase == 7 && s.life.phaseAt + 15000 ≤ s.now then .next s.reachReady else .next s

/-- STAGING_BUFFER_TEST_DONE: MCS_PCTL.OPEN becomes 1 (R331). -/
def execStagingBufferTestDone (s : State) : Out :=
  let s := { s with out := [] }
  if s.up then .next { s with mcs := { s.mcs with isOpen := true } } else .next s

/-! ## Power states (Table PRT.9) -/

/-- The level of PWR_REQ, which stands through resets and in OFF (R46). -/
def State.putRequest (s : State) (r : Power) : State := { s with life := { s.life with request := r } }

/-- No transition can begin: a reset is asserted, or the complex is in OFF (R46, Table PRT.9). -/
def State.noPower (s : State) : Bool := !s.alive

/-- PWR_REQ_RETAIN: the request is kept; fetching stops while it stands, and a shutdown goes on. -/
def execPwrReqRetain (s : State) : Out := .next ({ s with out := [] }.putRequest .retain)

/-- A RETAIN entry may run: the ready phase, RUN, no shutdown, and the request stands. -/
def State.retaining (s : State) : Bool :=
  s.ready && s.life.power == .run && s.life.shut == .none && s.life.request == .retain

/-- RETAIN_ENTRY_DONE: the tracker is empty; the complex fences itself, tells the partner, stops its island clocks and reports
RETAIN. A debugger with full scope holds it before the clocks stop (R452). -/
def execRetainEntryDone (s : State) : Out :=
  let s := { s with out := [] }
  if !s.retaining || !s.trackerIdle then .next s else
  let s := if s.life.entryFenced then s
    else ({ s with life := { s.life with entryFenced := true } }.settleFence).informPartner
  if s.dbg.attached && s.dbg.scope == 1 then .next s else
  let stop := fun (x : Nat × Engine) => (x.1, { x.2 with wdt := x.2.wdt.pause s.now })
  .next { s with
    engines := s.engines.map stop
    life := { s.life with power := .retain, ack := .retain, entryFenced := false } }

/-- A host port after a RETAIN exit: credits at their initial values, and DOWN until it comes up (R54). -/
def Port.afterRetain (p : Port) : Port := { p with credits := 0, rsCredits := 64, ntCredits := 32, up := false }

/-- A host port comes up anew; one that was UP is DOWN first (Table EVC.2). -/
def State.restartPort (s : State) (n : Nat) : State :=
  let t := s.putPort n (s.port n).afterRetain
  if (s.port n).up then t.arrive (561 + 16 * n) else t

/-- A link reset: bring-up starts again with a new nonce, and lanes and sequences start over (R408). Own records that are
not acknowledged stay, and their frames are sent again after pairing (R418). -/
def State.restartLink (s : State) : State :=
  let s := s.dropLanes
  let s := { s with
    mir := { s.mir with
      link := .bringup, sentDone := false, gotDone := false, gotSync := false, waitSync := none, lostAt := s.now, stallAt := s.now }
    units := { s.units with attest := false } }
  if 7 ≤ s.life.phase then s.drawNonce else s

/-- A RETAIN exit begins: host ports and link come up anew, before RUN is reported (Table PRT.9). -/
def State.beginLeave (s : State) : State :=
  if s.life.power != .retain || s.life.leaving then s else
  let s := (s.restartPort 0).restartPort 1
  let on := s.mir.link != .disabled
  let s := if on then s.restartLink else s
  { s with life := { s.life with leaving := true, waitLink := on } }

/-- An entry that has not reported is abandoned: RUN stands on PWR_ACK, and a fence that it set, or that still waits for the link, stays
until the link is PAIRED (R46, R476). -/
def Life.abandon (l : Life) (link : Link) : Life :=
  { l with
    shut := .none, shutDue := none, ack := .run, entryFenced := false
    waitLink := (l.waitLink || l.entryFenced) && link != .disabled && link != .paired }

/-- PWR_REQ_RUN: an entry that has not reported is abandoned, and a RETAIN exit begins (R46, R476). -/
def execPwrReqRun (s : State) : Out :=
  let s := { s with out := [] }.putRequest .run
  if s.noPower then .next s else
  let s := if s.life.shut = .squash ∧ !s.life.direct then s.runTimers else s
  let shut := (s.life.shut == .drain || s.life.shut == .squash) && !s.life.direct
  let entering := s.life.shut == .none && s.life.entryFenced
  .next ({ s with life := if shut || entering then s.life.abandon s.mir.link else s.life }.beginLeave).settleFence

/-- PWR_REQ_OFF: the shutdown sequence, from RETAIN after leaving it (R475, Table PRT.9). -/
def execPwrReqOff (s : State) : Out :=
  let s := { s with out := [], life := { s.life with requestAt := if s.life.request = Power.off then s.life.requestAt else s.now } }.putRequest .off
  if s.noPower then .next s
  else .next ({ s with life := { s.life with entryFenced := s.life.entryFenced && s.life.shut != Shut.none } }.beginLeave).actOnRequest

/-- PWR_REQ_INVALID: 0b11 changes nothing and is recorded as a life-cycle event (R44), also once start-up has stopped and after R32. -/
def execPwrReqInvalid (s : State) : Out :=
  let s := { s with out := [] }
  if s.noPower then .next s else .next (s.arrive 725)

/-- RETAIN_EXIT_DONE: the island clocks run again, and RUN is reported, or the shutdown follows for a request of OFF (Table PRT.9).
PAIR_FENCED stays until the link is up. -/
def execRetainExitDone (s : State) : Out :=
  let s := { s with out := [] }
  if s.life.power != .retain || !s.life.leaving then .next s else
  let off := s.life.request == .off
  let go := fun (x : Nat × Engine) =>
    if x.2.running && (!x.2.halted || s.dbg.wdtRun) then (x.1, { x.2 with wdt := x.2.wdt.resume s.now }) else x
  let s := { s with
    engines := s.engines.map go
    life := { s.life with power := .run, leaving := false, ack := (if off then Power.retain else Power.run) } }
  .next (s.settle).actOnRequest

/-- SHUTDOWN_TIMEOUT: LCB_SHUT_TMO ticks since the request; every user not in RESET is squashed, the debugger is detached, and
the event timers stop (Table LCB.3, step 2). -/
def execShutdownTimeout (s : State) : Out :=
  let s := { s with out := [] }
  match s.life.shut, s.life.shutDue with
  | .drain, some t =>
    if !s.ready || s.now < t then .next s else
    let s := { s with life := { s.life with shut := .squash, shutDue := none } }
    let ids := (List.range 256).filter fun i => (s.inst i).rstate != .reset
    let s := ids.foldl State.squashInst s
    .next ((if s.dbg.attached then s.detach else s).stopTimers).settle
  | _, _ => .next s

end Sys2Proof.Machine
end

