-- ==== Sys2Proof/Machine/Channels.lean ====
section
/-!
DEFINITION. The ring manager (R72 to R86, R384, R399): channel table entries, doorbell lines, the recovery scan, fetching,
descriptor checks, and the completion of held records (R116, R416, R419).
-/

namespace Sys2Proof.Machine

/-! ## Who may fetch -/

/-- The complex fetches descriptors: not while it is fenced, has a fatal cause, or leaves RUN (R32, R38, R415, R436, Table
PRT.9). -/
def State.fetchOk (s : State) : Bool :=
  s.works && s.life.request == .run && s.life.shut == .none && !s.mir.selfFenced && s.chk.fatal == 0

/-- The user is served here (R399). -/
def State.servedHere (s : State) (i : Nat) : Bool := (s.inst i).home == 0 || (s.inst i).home == 2

/-- The user's reset state lets its channels fetch (Table PTN.4). -/
def State.instRuns (s : State) (i : Nat) : Bool := (s.inst i).rstate == .run && s.servedHere i

/-- A record of a channel (Table CHK.11), with the user's event. -/
def State.recordChan (s : State) (i c code : Nat) (detail : Line := 0) : State :=
  (s.arrive i).recordBoth 3 1 (some (BitVec.ofNat 8 i)) noPlace code c detail

/-! ## Channel table entries (R72 to R75) -/

/-- The fields of Table CHP.1. -/
def parseEntry (d : Line) : ChanEntry :=
  { inst := lineOctet d 17, sub := BitVec.ofNat 64 (lineNum d 0 8), cpl := BitVec.ofNat 64 (lineNum d 8 8), l := lineNum d 16 1
    ordered := d.getLsbD 145, durable := d.getLsbD 146, vector := d.extractLsb' 160 3, useMsg := d.getLsbD 167
    pcount := lineNum d 22 2, ptab := BitVec.ofNat 64 (lineNum d 24 8), dbell := BitVec.ofNat 64 (lineNum d 32 8) }

/-- ENABLE of Table CHP.1. -/
def entryEnables (d : Line) : Bool := d.getLsbD 144

/-- The first failing check among 1 to 5 of Table CHP.2; 0 for none. -/
def entryReason (d : Line) (owner : Nat) : Nat :=
  let e := parseEntry d
  if e.inst.toNat ≠ owner then 1
  else if lineNum d 18 1 / 8 ≠ 0 ∨ lineNum d 19 1 ≠ 0 ∨ lineNum d 20 1 / 8 % 16 ≠ 0 ∨ lineNum d 21 1 ≠ 0 ∨ lineNum d 40 24 ≠ 0 then 2
  else if e.l < 6 ∨ 16 < e.l then 3
  else if e.sub.toNat % (64 * 2 ^ e.l) ≠ 0 ∨ e.cpl.toNat % (32 * 2 ^ e.l) ≠ 0 ∨ e.ptab.toNat % 32 ≠ 0 ∨ e.dbell.toNat % 64 ≠ 0 then 4
  else if e.pcount = 0 then 5
  else 0

/-- A refresh of channel `c` is asked for: the entry is read for the user that owns the channel; without one, check 6 fails
(R72, R73). A later request replaces an earlier one. -/
def State.askRefresh (s : State) (c : Nat) (takeover : Bool) : State :=
  let s := s.dropReads (fun p => p == .chanTable c) false
  match s.ownerOf c with
  | none => s.modChan c fun x => { x with refresh := .failed s.now none 6 }
  | some i =>
    let x := s.inst i
    (s.modChan c fun y => { y with refresh := .reading s.now takeover }).send
      (readReq (x.ctBase + BitVec.ofNat 64 (64 * (c - x.first))) (BitVec.ofNat 8 i) 2 (.chanTable c))

/-- The channel is disabled. -/
def State.disableChan (s : State) (c : Nat) : State :=
  let s := s.dropReads (fun p => match p with
      | .descriptor k _ => k == c
      | .scanSlot k _ => k == c
      | _ => false) false
  s.modChan c fun x =>
    { x with enabled := false, entry := none, fetching := false, fresh := false, scan := none, scanEntry := none, scanTake := false, refetch := [] }

/-- Enabled channels whose doorbell line is `line`, in number order. -/
def State.bellChans (s : State) (line : BitVec 58) : List (Nat × Chan) :=
  s.chans.filter fun x => x.2.enabled && (match x.2.entry with
    | some e => e.dbell.extractLsb' 6 58 == line
    | none => false)

/-- The user of a channel, 0 for none. -/
def Chan.instNum (x : Chan) : Nat := match x.entry with
  | some e => e.inst.toNat
  | none => 0

/-- Enabled channels of user `i` on a doorbell line. -/
def State.bellsOf (s : State) (i : BitVec 8) (line : BitVec 58) : List (Nat × Chan) :=
  (s.bellChans line).filter fun x => x.2.instNum == i.toNat

/-- The users with an enabled channel on a doorbell line, in number order. -/
def State.bellUsers (s : State) (line : BitVec 58) : List (BitVec 8) :=
  ((List.range 256).filter fun i => (s.bellChans line).any fun x => x.2.instNum == i).map (BitVec.ofNat 8)

/-- A read of a user's doorbell line waits to be issued. -/
def State.bellWaits (s : State) (i : BitVec 8) (line : BitVec 58) : Bool := s.hostWait.any fun r => r.purpose == .doorbell i line

/-- A read of a user's doorbell line is out. -/
def State.bellOut (s : State) (i : BitVec 8) (line : BitVec 58) : Bool :=
  [0, 1].any fun n => (s.port n).tags.any fun u => u.2.held && u.2.req.purpose == .doorbell i line

/-- A doorbell line is to be read for user `i`: `true` where an earlier wish already covers it (R65), or where the user's fetching has
stopped (R388). One read serves every channel of the line and the user; each user has a read of its own, for a request is
translated by its user (R53). -/
def State.ringBell (s : State) (i : BitVec 8) (line : BitVec 58) : Bool × State :=
  if !s.instRuns i.toNat || s.bellWaits i line then (true, s)
  else if s.bellOut i line then
    if s.dsp.bellAgain.contains (i, line) then (true, s)
    else (false, { s with dsp := { s.dsp with bellAgain := s.dsp.bellAgain ++ [(i, line)] } })
  else (false, s.send (readReq (line ++ (0 : BitVec 6)) i 1 (.doorbell i line)))

/-- A doorbell line is to be read for every user on it: `true` where that leads to no further read (log entry 34). -/
def State.ringLine (s : State) (line : BitVec 58) : Bool × State :=
  (s.bellUsers line).foldl (fun q i =>
    let r := q.2.ringBell i line
    (q.1 && r.1, r.2)) (true, s)

/-- The doorbell line of an enabled channel is to be read, also while its own fetching has stopped (R82, R83). -/
def State.ringChan (s : State) (c : Nat) : State :=
  let x := s.chan c
  match x.entry with
  | some e =>
    if x.enabled && s.fetchOk then (s.ringBell e.inst (e.dbell.extractLsb' 6 58)).2 else s
  | none => s

/-- A newly enabled channel reads its doorbell line and then runs the recovery scan (R83, R393). -/
def State.startChan (s : State) (c : Nat) : State :=
  (s.modChan c fun x => { x with fresh := true, scan := none, scanEntry := none, refetch := [], fetching := false, stopped := false }).ringChan c

/-- A check failed: the channel is disabled, REASON is kept, and the user's event and a record follow (R75). -/
def State.failRefresh (s : State) (c : Nat) (inst : Option (BitVec 8)) (reason : Nat) : State :=
  let s := (s.disableChan c).modChan c fun x => { x with refresh := .idle, reason := BitVec.ofNat 3 reason }
  match inst with
  | some i => s.recordChan i.toNat c reason
  | none => s.recordGlobal 3 1 none noPlace reason c

/-- A refresh takes effect (R73, R75, R399, Table LCB.1). One that passes every check clears REASON (log entry 126: DESIGN CHOICE). -/
def State.applyRefresh (s : State) (c : Nat) : State :=
  match (s.chan c).refresh with
  | .got _ take enable e =>
    if !s.servedHere e.inst.toNat then (s.disableChan c).modChan c fun x => { x with refresh := .idle }
    else if !s.ownsChan e.inst.toNat c then s.failRefresh c (some e.inst) 6
    else if !enable ∨ s.life.lc = .blank then (s.disableChan c).modChan c fun x => { x with refresh := .idle, reason := 0 }
    else
      let was := (s.chan c).enabled
      let s := s.modChan c fun x =>
        { x with refresh := .idle, reason := 0, enabled := true, entry := some e, scanTake := take && !was }
      if was then s else s.startChan c
  | .failed _ inst reason =>
    (match inst with
      | some i =>
        if s.servedHere i.toNat then s.failRefresh c inst reason
        else (s.disableChan c).modChan c fun x => { x with refresh := .idle }
      | none => s.failRefresh c inst reason)
  | _ => s

/-! ## Held records (R83, R116, R416) -/

/-- The held record of a channel position. -/
def State.heldAt (s : State) (i c : Nat) (p : BitVec 32) : Option (Nat × Record) :=
  s.mir.held.find? fun r => r.2.inst.toNat == i && r.2.chan.toNat == c && r.2.pos == p

/-- A held record is given up; its units are free again. -/
def State.dropHeld (s : State) (rid : Nat) (r : Record) : State :=
  { s with mir := { s.mir with held := Assoc.erase s.mir.held rid, heldUnits := s.mir.heldUnits - r.units } }

/-- A held record is discarded and counted in STALE. -/
def State.staleHeld (s : State) (rid : Nat) (r : Record) : State := (s.dropHeld rid r).mirCount 7

/-- The accepted-job entry that completes a record, under `entry` of its channel. The descriptor's NO_MSG is not carried by a
record: the message is sent (log entry 37). -/
def Record.replay (r : Record) (entry : ChanEntry) (order : Nat) : Job :=
  { inst := r.inst, chan := r.chan, pos := r.pos, entry := entry, desc := putNum 4 4 r.tag.toNat, st := .sealed, order := order
    dispatched := true, lastEng := r.engine, lastCtx := r.ctx, csn := r.csn, status := 9, detail := if r.pay then 0 else 2
    octets := r.octets, ledger := r.ledger.setWidth 8, staged := r.data, toRelease := linesOf r.data }

/-- The accepted-job entries: numbers below 16,384. Numbers from there on are held by records taken for completion, which stay mirror
records of the tracker (R16, log entry 57). -/
def State.acceptedJobs (s : State) : List (Nat × Job) := s.jobs.filter fun x => x.1 < 16384

/-- A record is taken for completion: it goes on as a sealed set. -/
def State.takeHeld (s : State) (rid : Nat) (r : Record) (entry : ChanEntry) : State :=
  match Assoc.freeKey s.jobs 8192 16384 with
  | none => s
  | some id =>
    let o := s.dsp.nextOrder
    ({ s.dropHeld rid r with dsp := { s.dsp with nextOrder := o + 1 } }).putJob id (r.replay entry o)

/-- A replayed set that has not begun. -/
def Job.waitsReplay (j : Job) : Bool := j.status == 9 && j.st == .sealed && !j.releasing && j.mirroring == .none

/-- A replay begins when no earlier commit of its user waits or is still undecided (R107, R116, R416). -/
def State.beginReplay (s : State) (id : Nat) : State :=
  match s.job id with
  | none => s
  | some j =>
    let before := fun (i : BitVec 8) (n : BitVec 48) => i == j.inst && csnBefore n j.csn
    if !j.waitsReplay || s.mir.held.any (fun r => before r.2.inst r.2.csn) || s.jobs.any (fun x => x.2.waitsReplay && before x.2.inst x.2.csn)
    then s
    else if j.detail = 2 then s.post id else s.beginRelease id

/-- Replays begin in commit order: each pass serves the earliest of every user. -/
def State.replayPump (s : State) : State :=
  let pass := fun (t : State) => (t.jobs.map (·.1)).foldl State.beginReplay t
  (s.jobs.filter fun x => x.2.waitsReplay).foldl (fun t _ => pass t) s

/-- A takeover ends when its channel reads and scans have ended: records that no scan used are discarded (R416). A channel that a failed
doorbell or slot read has stopped keeps no takeover open (log entry 125: DESIGN CHOICE). -/
def State.endTakeover (s : State) : State :=
  let open' := fun (x : Nat × Chan) => (match x.2.refresh with
      | .reading _ t => t
      | .got _ t _ _ => t
      | _ => false) || (x.2.scanTake && x.2.enabled && !x.2.stopped && (x.2.fresh || x.2.scan.isSome))
  if !s.mir.takeover || s.mir.takeRead || s.chans.any open' then s
  else
    let s := s.mir.held.foldl (fun t r => t.staleHeld r.1 r.2) s
    (({ s with mir := { s.mir with takeover := false } }).arrive 598).replayPump

/-! ## The recovery scan (R83) -/

/-- The completion slot of position `p` under an entry. -/
def ChanEntry.slot (e : ChanEntry) (p : BitVec 32) : HAddr := e.cpl + BitVec.ofNat 64 (32 * (p.toNat % 2 ^ e.l))

/-- A slot line holds the entry of position `p`: its phase and its position. -/
def ChanEntry.complete (e : ChanEntry) (p : BitVec 32) (d : Line) : Bool :=
  let o := (e.slot p).toNat % 64
  (lineNum d (o + 6) 1) % 2 == phase p e.l && lineNum d (o + 20) 4 == p.toNat

/-- The scan reads the slot of its next position, or ends. -/
def State.scanNext (s : State) (c : Nat) : State :=
  let x := s.chan c
  match x.scan, x.scanEntry with
  | some (p, stop), some e =>
    if p = stop then (s.modChan c fun y => { y with scan := none, scanEntry := none, scanTake := false }).endTakeover.replayPump
    else s.send (readReq (e.slot p) e.inst 1 (.scanSlot c p))
  | _, _ => s

/-- Position `p` of channel `c` holds a live tracker entry. -/
def State.live (s : State) (c : Nat) (p : BitVec 32) : Bool := s.jobs.any fun x => x.2.chan.toNat == c && x.2.pos == p

/-- What a slot line shows of position `p`: complete, live, held here, or to be fetched again. Whether the position is live is asked
when its slot line has come (log entry 127: DESIGN CHOICE). -/
def State.examine (s : State) (c : Nat) (e : ChanEntry) (p : BitVec 32) (d : Line) : State :=
  let held := s.heldAt e.inst.toNat c p
  if e.complete p d then
    match held with
    | some (rid, r) => s.dropHeld rid r
    | none => s
  else if s.live c p then s
  else match held with
    | some (rid, r) => s.takeHeld rid r e
    | none => s.modChan c fun y => { y with refetch := y.refetch ++ [p] }

/-- A slot read has ended. A failed one stops fetching, and the scan starts again when it resumes (log entry 36). -/
def State.scanBack (s : State) (c : Nat) (p : BitVec 32) (d : Option Line) : State :=
  let x := s.chan c
  match x.scan, x.scanEntry, d with
  | some (q, stop), some e, some d =>
    if q ≠ p then s else
    ((s.examine c e p d).modChan c fun y => { y with scan := some (p + 1, stop) }).scanNext c
  | some (q, _), some e, none =>
    if q ≠ p then s else
    ((s.modChan c fun y => { y with scan := none, scanEntry := none, fresh := true, refetch := [], stopped := true }).arrive e.inst.toNat).endTakeover
  | _, _, _ => s

/-! ## Doorbell values (R80, R81) -/

/-- A doorbell value that breaks R81: counted, recorded, and the event raised. -/
def State.bellFault (s : State) (c : Nat) (head : Bool) (tail' head' : BitVec 32) : State :=
  let x := s.chan c
  let s := s.putChan c (if head then { x with dbHead := satInc x.dbHead } else { x with dbOvr := satInc x.dbOvr })
  s.recordChan x.instNum c (if head then 0x11 else 0x10)
    (putNum 32 4 tail'.toNat ||| putNum 36 4 head'.toNat ||| putNum 40 4 x.fetch.toNat)

/-- The values of a doorbell line reach a channel. The first ones after it is enabled start the scan. A tail less than 2^31 ahead of F is an
overrun, any other one lies behind F (log entry 98). -/
def State.bellValue (s : State) (c : Nat) (t h : BitVec 32) : State :=
  let x := s.chan c
  match x.entry with
  | none => s
  | some e =>
    let size := 2 ^ e.l
    if x.fresh then
      let beyond := size < (t - h).toNat
      let n := min (t - h).toNat size
      let stop := h + BitVec.ofNat 32 n
      let s := s.putChan c { x with
        fresh := false, fetch := stop, head := h, tail := stop, scan := some (h, stop), scanEntry := some e, refetch := [] }
      let s := if beyond then s.bellFault c false t h else s
      s.scanNext c
    else
      let bad := size < (x.fetch - h).toNat
      let s := if bad then s.bellFault c true t h else s
      let h' := if bad then x.head else h
      let beyond := size < (t - h').toNat
      let s := if beyond then s.bellFault c false t h' else s
      let ahead := (t - x.fetch).toNat < 2 ^ 31
      s.modChan c fun y => { y with head := h', tail := if beyond && ahead then h' + BitVec.ofNat 32 size else t }

/-- A user's doorbell read has ended: every channel of the line is examined (R65), or its fetching stops, whatever the user's reset
state (Table HST.5). -/
def State.bellBack (s : State) (i : BitVec 8) (line : BitVec 58) (d : Option Line) : State :=
  let cs := s.bellsOf i line
  let again := s.dsp.bellAgain.contains (i, line)
  let s := { s with dsp := { s.dsp with bellAgain := s.dsp.bellAgain.filter (· != (i, line)) } }
  let s := match d with
    | some l =>
      if s.instRuns i.toNat then
        cs.foldl (fun t x => t.bellValue x.1 (BitVec.ofNat 32 (lineNum l 0 4)) (BitVec.ofNat 32 (lineNum l 4 4))) s
      else s
    | none =>
      if cs.isEmpty then s else
      ((cs.foldl (fun t x => t.modChan x.1 fun y => { y with stopped := true }) s).arrive i.toNat).endTakeover
  if again && s.fetchOk && !(s.bellsOf i line).isEmpty then (s.ringBell i line).2 else s

/-! ## Fetching (R80, R384) -/

/-- The next position a channel may fetch: one to fetch again, or F while both conditions of R80 hold and the slot's earlier
position has left the tracker. -/
def State.nextPos (s : State) (c : Nat) : Option (BitVec 32) :=
  let x := s.chan c
  match x.entry with
  | none => none
  | some e =>
    if !x.enabled || x.stopped || x.broken || x.fetching || x.fresh || x.scan.isSome then none else
    let size := 2 ^ e.l
    match x.refetch with
    | p :: _ => some p
    | [] =>
      let inRange := fun (d : BitVec 32) => 1 ≤ d.toNat && d.toNat ≤ size
      if inRange (x.tail - x.fetch) && inRange (x.head + BitVec.ofNat 32 size - x.fetch) && !s.live c (x.fetch - BitVec.ofNat 32 size)
      then some x.fetch else none

/-- The channel has a descriptor read out for user `i`. -/
def Chan.fetchesFor (x : Chan) (i : Nat) : Bool := x.fetching && x.fetchEntry.any fun e => e.inst.toNat == i

/-- Accepted-job entries that a user holds. -/
def State.acceptHeld (s : State) (i : Nat) : Nat := (s.acceptedJobs.filter fun x => x.2.inst.toNat == i).length

/-- Accepted-job entries of a user, with those its outstanding descriptor reads will take. -/
def State.acceptUse (s : State) (i : Nat) : Nat :=
  s.acceptHeld i + (s.chans.filter fun x => x.2.fetchesFor i).length

/-- Accepted-job entries held, with those that outstanding descriptor reads will take (R16). -/
def State.acceptTotal (s : State) : Nat := s.acceptedJobs.length + (s.chans.filter fun x => x.2.fetching).length

/-- INST_SHR_TRK.ACCEPT in force. -/
def State.acceptShare (s : State) (i : Nat) : Nat := min 16384 (((s.inst i).share 3).cur.extractLsb' 0 15).toNat

/-- The channel that the user's round-robin serves next (R384). -/
def State.fetchTurn (s : State) (i : Nat) : Option Nat :=
  let cs := (s.chans.filter fun x => x.2.instNum == i && (s.nextPos x.1).isSome).map (·.1)
  (cs.find? fun c => (s.inst i).lastChan < c).or cs.head?

/-- DESCRIPTOR_FETCH: the channel whose turn it is reads its next descriptor (R80, R384). -/
def execDescriptorFetch (chan : BitVec 13) (s : State) : Out :=
  let c := chan.toNat
  let s := { s with out := [] }
  let x := s.chan c
  match s.nextPos c, x.entry with
  | some p, some e =>
    let i := e.inst.toNat
    if !s.fetchOk || !s.instRuns i || s.acceptShare i ≤ s.acceptUse i || 16384 ≤ s.acceptTotal || s.fetchTurn i != some c then .next s
    else
      let s := (s.putChan c { x with fetching := true, fetchEntry := some e }).modInst i fun y => { y with lastChan := c }
      .next (s.send (readReq (e.sub + BitVec.ofNat 64 (64 * (p.toNat % 2 ^ e.l))) e.inst 1 (.descriptor c p)))
  | _, _ => .next s

/-- CHM_INST_POLL.PERIOD in ticks, as it acts (Table CHP.12). -/
def Inst.pollTicks (x : Inst) : Nat := 100 * min 1000 (max 1 x.poll.toNat)

/-- A poll of channel `c` is due: it is enabled, and its user's period has passed since the last one (R82, log entry 85). -/
def State.pollDue (s : State) (c : Nat) : Bool :=
  let x := s.chan c
  x.enabled && x.pollAt.all fun t => t + (s.inst x.instNum).pollTicks ≤ s.now

/-- DOORBELL_POLL: a channel's doorbell line is read once per poll period (R82, R388). -/
def execDoorbellPoll (chan : BitVec 13) (s : State) : Out :=
  let c := chan.toNat
  let s := { s with out := [] }
  .next (if s.pollDue c then (s.ringChan c).modChan c fun x => { x with pollAt := some s.now } else s)

/-! ## Acceptance (R84 to R86, R111) -/

/-- The address of a region list: input or output. -/
def Job.listAddr (j : Job) (output : Bool) : Nat := if output then j.num 20 8 else j.num 8 8

/-- A region list that is read: nonzero and aligned. -/
def Job.readsList (j : Job) (output : Bool) : Bool := j.listAddr output != 0 && j.listAddr output % 64 == 0

/-- The sum of the lengths of regions. -/
def regionSum (l : List (HAddr × Nat)) : Nat := l.foldl (fun n r => n + r.2) 0

/-- The first failing check of Table CHP.5. -/
def Job.badDescriptor (j : Job) : Option Nat :=
  let opts := j.num 48 2
  let misaligned := fun (o : Bool) => j.listAddr o % 64 != 0
  if j.num 36 4 ≠ 0 ∨ j.num 50 6 ≠ 0 then some 1
  else if j.num 2 1 / 8 ≠ 0 then some 2
  else if 2 < j.policy then some 3
  else if j.entry.pcount ≤ j.num 0 2 then some 4
  else if !optionsOk (BitVec.ofNat 16 opts) then some 7
  else if j.num 40 2 / 1024 % 32 ≠ 0 ∨ j.num 42 2 / 1024 % 32 ≠ 0 then some 8
  else if misaligned false ∨ misaligned true ∨ j.listBad ∨ 0xFFFFFFFF < regionSum j.inputs ∨ 0xFFFFFFFF < regionSum j.outputs then some 5
  else if j.num 16 4 ≠ regionSum j.inputs ∨ regionSum j.outputs < j.capacity then some 6
  else none

/-- Every list has been read: the descriptor is checked, and the job joins its home stand's queue or ends (R86, R130). -/
def State.checkDescriptor (s : State) (id : Nat) : State :=
  match s.job id with
  | none => s
  | some j =>
    if !j.lists.isEmpty then s
    else match j.badDescriptor with
      | some d => s.endJob id 4 d
      | none => s.putJob id { j with queued := true, stand := s.homeStand j.chan.toNat }

/-- A line of a region list is read. -/
def State.readList (s : State) (id : Nat) (j : Job) (output : Bool) (k : Nat) : State :=
  s.send (readReq (BitVec.ofNat 64 (j.listAddr output + 64 * k)) j.inst 0 (.regions id output k))

/-- A descriptor has been read OK: it takes an accepted-job entry, and its region lists are read (R86, R112). -/
def State.acceptJob (s : State) (c : Nat) (p : BitVec 32) (e : ChanEntry) (d : Line) : State :=
  match Assoc.freeKey s.jobs 16384 0 with
  | none => s
  | some id =>
    let o := s.dsp.nextOrder
    let j : Job := { inst := e.inst, chan := BitVec.ofNat 13 c, pos := p, entry := e, desc := d, order := o }
    let need := [false, true].filter j.readsList
    let j := { j with lists := need.map fun b => (b, 0) }
    let s := ({ s with dsp := { s.dsp with nextOrder := o + 1 } }).putJob id j
    (need.foldl (fun t b => t.readList id j b 0) s).checkDescriptor id

/-- A descriptor read has ended. The job keeps the entry that was in force when its descriptor was fetched (R73). -/
def State.descBack (s : State) (c : Nat) (p : BitVec 32) (d : Option Line) : State :=
  let x := s.chan c
  match x.fetchEntry with
  | none => s
  | some e =>
    if !x.fetching then s else
    match d with
    | none => (s.putChan c { x with fetching := false, stopped := true }).arrive e.inst.toNat
    | some d =>
      let y := match x.refetch with
        | q :: t => if q = p then { x with refetch := t } else { x with fetch := p + 1 }
        | [] => { x with fetch := p + 1 }
      (s.putChan c { y with fetching := false }).acceptJob c p e d

/-- The entries of a list line up to its terminating entry: the regions, a nonzero reserved field, and whether the list ends
(Table CHP.4). -/
def parseRegions (d : Line) : List Nat → List (HAddr × Nat) × Bool × Bool
  | [] => ([], false, false)
  | k :: t =>
    let n := lineNum d (16 * k + 8) 4
    let rsv := lineNum d (16 * k + 12) 4 != 0
    if n = 0 then ([], rsv, true)
    else
      let q := parseRegions d t
      ((BitVec.ofNat 64 (lineNum d (16 * k) 8), n) :: q.1, rsv || q.2.1, q.2.2)

/-- The entry of a job after a line of a list. -/
def Job.addRegions (j : Job) (output : Bool) (k : Nat) (d : Line) : Job × Bool :=
  let q := parseRegions d [0, 1, 2, 3]
  let more := !q.2.2 && k < 3
  let rest := j.lists.filter (· != (output, k))
  let j := { j with listBad := j.listBad || q.2.1, lists := if more then (output, k + 1) :: rest else rest }
  (if output then { j with outputs := j.outputs ++ q.1 } else { j with inputs := j.inputs ++ q.1 }, more)

/-- A line of a region list has been read. -/
def State.regionsBack (s : State) (id : Nat) (output : Bool) (k : Nat) (d : Line) : State :=
  match s.job id with
  | none => s
  | some j =>
    let q := j.addRegions output k d
    let s := s.putJob id q.1
    if q.2 then s.readList id q.1 output (k + 1) else s.checkDescriptor id

/-- A channel table read has ended (R75). The entry takes effect at a boundary, that of a takeover too (R73, R416). -/
def State.entryBack (s : State) (c : Nat) (i : BitVec 8) (d : Option Line) : State :=
  match (s.chan c).refresh with
  | .reading asked take =>
    let r := match d with
      | none => Refresh.failed asked (some i) 7
      | some l =>
        let k := entryReason l i.toNat
        if k ≠ 0 then Refresh.failed asked (some i) k else Refresh.got asked take (entryEnables l) (parseEntry l)
    (s.modChan c fun x => { x with refresh := r }).endTakeover
  | _ => s

end Sys2Proof.Machine
end

