-- ==== Sys2Proof/Machine/Control.lean ====
section
/-!
DEFINITION. Control transfer, hardware loops and REP (Table INS.6, R172, R173, R193, R196, R204, R218 to R222).
-/

namespace Sys2Proof.Machine

/-- A short transfer: it may not stand in a delay slot, and it ends a locked sequence. -/
def hop (dIn dOut : Nat) : Shape := { dIn := dIn, dOut := dOut, noSlot := true, endsLock := true }

/-- A long transfer. -/
def hopLong (dIn : Nat) : Shape := { len := 2, dIn := dIn, endsLock := true }

/-- The displacement of a short branch (R193). -/
def shortDisp (o : BitVec 4) : Int := if o.toNat < 8 then o.toNat - 8 else o.toNat - 7

/-- The flow of a taken forerunner-class branch: a slot in forerunner mode (Table ENG.10). -/
def Ctx.takenSlot (x : Ctx) (t : SAddr) (closes : Bool) : Flow := if x.fr then .slot t closes else .jump t closes

/-- A branch by a condition on the popped cell. -/
def branch (cond : Word → Bool) (t : Ctx → SAddr) (slots : Bool) : Work := fun s _ _ x =>
  let y := x.drop 1
  .ok { s := s, x := y
        flow := if cond (x.top 0) then (if slots then x.takenSlot (t x) true else .jump (t x) true) else .next }

/-- BR ( -- ). -/
def execBr (i : Issue) (o : BitVec 4) : State → Out :=
  issue i (hop 0 0) fun s _ _ x => .ok { s := s, x := x, flow := x.takenSlot (SAddr.offset x.pc (shortDisp o)) true }

/-- BZ ( x -- ). -/
def execBz (i : Issue) (o : BitVec 4) : State → Out :=
  issue i (hop 1 0) (branch (· == 0) (fun x => SAddr.offset x.pc (shortDisp o)) true)

/-- BNZ ( x -- ). -/
def execBnz (i : Issue) (o : BitVec 4) : State → Out :=
  issue i (hop 1 0) (branch (· != 0) (fun x => SAddr.offset x.pc (shortDisp o)) true)

/-- BRL ( -- ). -/
def execBrl (i : Issue) (off : BitVec 12) : State → Out :=
  issue i (hopLong 0) fun s _ _ x => .ok { s := s, x := x, flow := .jump (SAddr.offset x.pc off.toInt) true }

/-- BZL ( x -- ). -/
def execBzl (i : Issue) (off : BitVec 10) : State → Out :=
  issue i (hopLong 1) (branch (· == 0) (fun x => SAddr.offset x.pc off.toInt) false)

/-- BNZL ( x -- ). -/
def execBnzl (i : Issue) (off : BitVec 10) : State → Out :=
  issue i (hopLong 1) (branch (· != 0) (fun x => SAddr.offset x.pc off.toInt) false)

/-! ## Calls and returns -/

/-- A call finds no return-stack room: 28 entries or more in trap mode (R167). -/
def Ctx.callFull (x : Ctx) : Bool := !x.rsov && decide (28 ≤ x.rstack.length)

/-- CALL ( -- ) RS: ( -- ra ): the return address follows the slot in forerunner mode (R204). -/
def execCall (i : Issue) (woff : BitVec 10) : State → Out :=
  issue i (hopLong 0) fun s _ _ x =>
    if x.callFull then .trap 7 0 else
    let y := x.rpush (SAddr.plus x.pc (if x.fr then 3 else 2))
    .ok { s := s, x := y, flow := x.takenSlot (SAddr.wordOffset x.pc woff.toInt) false }

/-- The top `k` cells move to a new window (R162, R164): the group that receives them is dirty. -/
def Ctx.newWindow (x : Ctx) (k : Nat) : Ctx :=
  let moved := (List.range k).map fun n => x.top (k - 1 - n)
  let y := x.drop k
  { y with windows := Window.empty :: y.windows }.pushAll moved

/-- WINDOW_OVER of a windowed call while TW is 1, whatever cells the window holds (R179). -/
def callInTrap (x : Ctx) : Option (Nat × Nat) := if x.tw then some (5, 0) else none

/-- A windowed call: `pops` cells leave before the `k` moved ones. -/
def callWindow (k pops len : Nat) (t : Ctx → SAddr) : Work := fun s _ _ x =>
  if 8 ≤ x.windows.length then .trap 5 0
  else if x.callFull then .trap 7 0
  else
    let y := (x.drop pops).newWindow k
    .ok { s := s, x := y.rpush (SAddr.plus x.pc len), flow := .jump (t x) false }

/-- CALLW k ( x1 … xk -- ) RS: ( -- ra ). The leader after that of k = 4 is unassigned (R196, Table ENC.2). -/
def execCallw (i : Issue) (k : BitVec 3) (woff : BitVec 9) : State → Out :=
  issue i { hopLong k.toNat with fpWait := true, first := callInTrap, unassigned := if 4 < k.toNat then some 2 else none }
    (callWindow k.toNat 0 2 fun x => SAddr.wordOffset x.pc woff.toInt)

/-- The syllable address in T. -/
def Ctx.target (x : Ctx) : SAddr := (x.top 0).extractLsb' 0 26

/-- CALLT ( sa -- ) RS: ( -- ra ). -/
def execCallt (i : Issue) : State → Out :=
  issue i (hop 1 0) fun s _ _ x =>
    if x.callFull then .trap 7 0
    else .ok { s := s, x := (x.drop 1).rpush (SAddr.plus x.pc 1), flow := .jump x.target false }

/-- CALLWT k ( x1 … xk sa -- ) RS: ( -- ra ). The codes after that of k = 4 are unassigned (Table ENC.1). -/
def execCallwt (i : Issue) (k : BitVec 3) : State → Out :=
  issue i { hop (k.toNat + 1) 0 with fpWait := true, first := callInTrap, unassigned := if 4 < k.toNat then some 1 else none }
    (callWindow k.toNat 1 1 Ctx.target)

/-- RET RS: ( ra -- ). -/
def execRet (i : Issue) : State → Out :=
  issue i (hop 0 0) fun s _ _ x =>
    match x.rstack with
    | [] => .trap 8 0
    | r :: t => .ok { s := s, x := { x with rstack := t }, flow := .jump r true }

/-- The cells of the current window, bottom first, as an instruction reads them. -/
def Ctx.cellList (x : Ctx) : List Word := (List.range x.depth).map x.cell

/-- RETW: the callee's window is appended to its caller's (R163). -/
def execRetw (i : Issue) : State → Out :=
  issue i { hop 0 0 with fpWait := true } fun s _ _ x =>
    match x.tw, x.windows with
    | true, _ => .trap 3 2
    | false, _ :: w :: ws =>
      if 16 < w.depth + x.depth then .trap 4 2
      else match x.rstack with
        | [] => .trap 8 0
        | r :: t =>
          let y := { x with windows := w :: ws, rstack := t, shadow := [] }.pushAll x.cellList
          .ok { s := s, x := y, flow := .jump r true }
    | false, _ => if 0 < x.spilled then .trap 6 0 else .trap 3 2

/-- RETI RS: ( ra e -- ) (R178). -/
def execReti (i : Issue) : State → Out :=
  issue i (hop 0 0) fun s _ _ x =>
    match x.rstack with
    | e :: r :: t =>
      -- Closing the trap window discards its cells, so a result due in one is waited for (R312).
      if x.tw && !e.getLsbD 4 && x.fpu.inflight.any (·.inTrap) then .wait
      else .ok { s := s, x := { x with rstack := t }.leave e, flow := .jump r true }
    | _ => .trap 8 0

/-- JMPT ( sa -- ). -/
def execJmpt (i : Issue) : State → Out :=
  issue i (hop 1 0) fun s _ _ x => .ok { s := s, x := x.drop 1, flow := .jump x.target true }

/-! ## Loops and REP -/

/-- BREAKL ( -- ): the innermost level closes, and no other (R219). -/
def execBreakl (i : Issue) : State → Out :=
  issue i (hop 0 0) fun s _ _ x =>
    match x.loops.getLast? with
    | none => .ok { s := s, x := x }
    | some l => .ok { s := s, x := { x with loops := x.loops.dropLast }, flow := .jump (SAddr.plus l.stop 1) false }

/-- LOOP ( c -- ): a level opens over E + 1 syllables, or the body is skipped (R173, R197). -/
def execLoop (i : Issue) (e : BitVec 9) : State → Out :=
  issue i { hopLong 1 with misuse := fun x => if 4 ≤ x.loops.length then some 9 else none } fun s _ _ x =>
    let n := (x.top 0).extractLsb' 0 24
    let start := SAddr.plus x.pc 2
    let stop := SAddr.plus x.pc (2 + e.toNat)
    let y := x.drop 1
    if n = 0 then .ok { s := s, x := y, flow := .jump (SAddr.plus stop 1) false }
    else .ok { s := s, x := { y with loops := y.loops ++ [⟨start, stop, n⟩] } }

/-- SETRC ( x -- ). -/
def execSetrc (i : Issue) : State → Out :=
  issue i { dIn := 1 } (onCtx fun x => { x.drop 1 with rc := (x.top 0).extractLsb' 0 8 })

/-- REP ( -- ): the next instruction runs RC times (R174, R221). -/
def execRep (i : Issue) : State → Out :=
  issue i { hop 0 0 with misuse := fun x => if x.loops.any (fun l => l.stop == x.pc) then some 8 else none }
    (onCtx fun x => { x with rep := some x.rc })

end Sys2Proof.Machine
end

