-- ==== Sys2Proof/Machine/Cruise.lean ====
section
/-!
DEFINITION. The cruise (R437 to R439) and the power budget (R438, R47). Delays are in femtoseconds, so the product of a
delay and a clock of f MHz is 10^-9 times their product; step k runs at (2,000 + 25k) / 2 MHz.
-/

namespace Sys2Proof.Machine

/-- Twice the clock of step `k` in MHz (R437). -/
def clock2 (k : Nat) : Nat := 2000 + 25 * k

/-- The margin of delay `d` at step `k` is at least 8 %. -/
def marginKept (d k : Nat) : Bool := d * clock2 k ≤ 1840000000

/-- The margin is at least 12 %. -/
def marginGood (d k : Nat) : Bool := d * clock2 k ≤ 1760000000

/-- CLK_ISL_STAT.MARGIN: units of 0.1 %, truncated, in 10 bits (log entry 28). -/
def marginUnits (d k : Nat) : Nat := min 1023 ((2000000000 - d * clock2 k) / 2000000)

/-- CLK_ISL_AGE.DRIFT: the rise of the delay since the first sample, in units of 0.1 %, saturating. -/
def driftUnits (first d : Nat) : Nat := min 65535 ((d - first) * 1000 / first)

/-- The largest step from `k` down that keeps 8 %; 0 where none does (log entry 28). -/
def keptStep (d : Nat) : Nat → Nat
  | 0 => 0
  | k + 1 => if marginKept d (k + 1) then k + 1 else keptStep d k

/-- CLK_CTL.TARGET as it acts. -/
def Chk.targetNow (c : Chk) : Nat := min 32 c.target.toNat

/-- CLK_BUDGET as it acts. -/
def Chk.budgetNow (c : Chk) : Nat := min 26000 c.budget.toNat

/-- The step after a sample (R438). A step costs 0.32 mW (Table PRT.10), so a rise above step 20 stays within the budget
exactly while the estimate is below it. -/
def Chk.newStep (c : Chk) (d k good : Nat) : Nat :=
  let k1 := if marginKept d k then k else keptStep d k
  if c.targetNow < k1 then c.targetNow
  else if marginGood d k && 4 ≤ good && c.raise && k1 < c.targetNow && (k1 < 20 || c.pest.toNat < c.budgetNow) then k1 + 1
  else k1

/-- An island's step changes: an ISLAND record, and source 688 where it is lowered (R438). -/
def State.setStep (s : State) (p k : Nat) : State :=
  let old := (s.eng p).step
  if k = old then s else
  let s := s.modEng p fun e => { e with step := k }
  let s := s.telemetry 0x80 (standOf p, (s.logicalOf p).getD 0xFF, 0xFF) p [old, k, (s.eng p).margin, (s.eng p).drift]
  if k < old then s.arrive 688 else s

/-- An island that the cruise samples: an engine island in service, or a gated coppice island (R437). -/
def State.sampled (s : State) (p : Nat) : Bool :=
  (s.logicalOf p).isSome || (p % 17 == 16 && (s.spare (standOf p)).st != 1)

/-- What a STAND record reports: the lowest and the highest step and the least margin of the stand's sampled islands, and the successful
retries that CHK_ENG_CNT shows of its logical engines (Table CHK.6, log entry 136). -/
def State.standValues (s : State) (d : Nat) : List Nat :=
  let ps := ((List.range 17).map fun k => 17 * d + k).filter s.sampled
  let steps := ps.map fun p => (s.eng p).step
  let retries := ((List.range 16).map fun k => (s.log (16 * d + k)).retries.toNat).foldl (· + ·) 0
  [steps.foldl min 32, steps.foldl max 0, (ps.map fun p => (s.eng p).margin).foldl min 1023, retries]

/-- A STAND record for each stand and the POWER record: one batch (Table CHK.6). -/
def State.standBatch (s : State) : State :=
  let s := (List.range 16).foldl (fun t d => t.telemetry 0x81 (d, 0xFF, 0xFF) 0 (t.standValues d)) s
  s.telemetry 0x82 noPlace 0 [s.chk.pest.toNat, s.chk.budget.toNat]

/-- One round of samples ends with the last sampled island: every TELP rounds a batch follows. -/
def State.roundDone (s : State) : State :=
  let n := s.chk.samples + 1
  if max 1 s.chk.telp.toNat ≤ n then { s with chk := { s.chk with samples := 0 } }.standBatch
  else { s with chk := { s.chk with samples := n } }

/-- The measurements of a sample enter the island's registers. -/
def Engine.measured (e : Engine) (d : Nat) : Engine :=
  let first := e.firstDelay.getD d
  { e with
    margin := marginUnits d e.step, firstDelay := some first, drift := driftUnits first d
    goodSamples := if marginGood d e.step then e.goodSamples + 1 else 0 }

/-- An island without 8 % at step 0: a coppice island makes its spare UNUSABLE, and an engine island is retired (R439). -/
def State.spentIsland (s : State) (p : Nat) : State :=
  let d := standOf p
  let s := if p % 17 = 16 ∧ (s.spare d).st ≠ 2 then (s.putSpare d { s.spare d with st := 2 }).arrive 690 else s
  if (s.logicalOf p).isSome && (s.eng p).substPend.isNone then (s.arrive 689).replaceEngine p 4 else s

/-- CRUISE_SAMPLE: one island's sample (R437 to R439); `none` is a unit island, which runs at 1.0 GHz. -/
def execCruiseSample (isl : Option (Fin 272)) (delayFs : Nat) (s : State) : Out :=
  let s := { s with out := [] }
  if !s.works || s.life.shut == .squash then .next s else
  match isl with
  | none => if marginKept delayFs 0 then .next s else .next ((s.attn 6).arrive 691)
  | some f =>
    let p := f.val
    if !s.sampled p then .next s else
    let s := s.modEng p fun e => e.measured delayFs
    let e := s.eng p
    let k := s.chk.newStep delayFs e.step e.goodSamples
    let spent := !marginKept delayFs 0
    let s := s.setStep p k
    let s := if spent then s.spentIsland p else s
    let last := ((List.range 272).filter fun q => p < q && s.sampled q).isEmpty
    .next (if last then s.roundDone else s).settle

/-- POWER_BUDGET_CHECK: the estimate against the budget; islands above step 20 go to step 20, highest first, and source 692
fires (R438). -/
def execPowerBudgetCheck (estimate : BitVec 16) (s : State) : Out :=
  let s := { s with out := [] }
  if !s.works || s.life.shut == .squash then .next s else
  let s := { s with chk := { s.chk with pest := estimate } }
  if estimate.toNat ≤ s.chk.budgetNow then .next s else
  let high := fun (k : Nat) => (List.range 272).filter fun p => (s.eng p).step == k
  let order := ((List.range 12).map fun n => 32 - n).flatMap high
  .next ((order.foldl (fun t p => t.setStep p 20) s).arrive 692)

end Sys2Proof.Machine
end

