-- ==== Sys2Proof/Machine/Binary64.lean ====
section
/-!
DEFINITION. Binary64 values in double cells (R282), exact arithmetic on them, and the one rounding of each result (R285 to
R290). The engine never produces a subnormal result, so a tiny result is only marked.
-/

namespace Sys2Proof.Machine

/-- A binary64 datum: a NaN with its 64 bits, an infinity, or ±m × 2^e with m a whole number. -/
inductive Fval where
  | nan (bits : BitVec 64)
  | inf (neg : Bool)
  | fin (neg : Bool) (m : Nat) (e : Int)
  deriving DecidableEq, Repr

/-- The 64 bits that a double cell carries; bits [35:28] of the high cell are ignored (R282). -/
def bits64 (v : BitVec 72) : BitVec 64 := (hiWord v).extractLsb' 0 28 ++ loWord v

/-- A binary64 value as a double cell, bits [35:28] of the high cell 0 (R282). -/
def cells64 (b : BitVec 64) : BitVec 72 := ((b.extractLsb' 36 28).setWidth 36) ++ (b.extractLsb' 0 36)

/-- The biased exponent field. -/
def expField (b : BitVec 64) : Nat := (b.extractLsb' 52 11).toNat

/-- The fraction field. -/
def fracField (b : BitVec 64) : Nat := (b.extractLsb' 0 52).toNat

/-- The datum of 64 bits (IEEE 754). -/
def Fval.of (b : BitVec 64) : Fval :=
  if expField b = 2047 then (if fracField b = 0 then .inf b.msb else .nan b)
  else if expField b = 0 then .fin b.msb (fracField b) (-1074)
  else .fin b.msb (2 ^ 52 + fracField b) ((expField b : Int) - 1075)

/-- A subnormal operand. -/
def subnormal (b : BitVec 64) : Bool := expField b == 0 && fracField b != 0

/-- A signalling NaN: bit 51 is 0. -/
def signalling (b : BitVec 64) : Bool := expField b == 2047 && fracField b != 0 && !b.getLsbD 51

/-- A NaN. -/
def isNan (b : BitVec 64) : Bool := expField b == 2047 && fracField b != 0

/-- A NaN quieted (R285). -/
def quiet (b : BitVec 64) : BitVec 64 := b ||| (1 <<< 51)

/-- The default quiet NaN (Table BIN.3). -/
def defaultNan : BitVec 64 := 0x7FF8000000000000

/-- A zero with a sign. -/
def zero64 (neg : Bool) : BitVec 64 := if neg then 0x8000000000000000 else 0

/-- An infinity with a sign. -/
def inf64 (neg : Bool) : BitVec 64 := if neg then 0xFFF0000000000000 else 0x7FF0000000000000

/-- The rounding directions of FCVT (Table ENC.3): 0 nearest-even, 1 toward zero, 2 toward +∞, 3 toward −∞. Everything else
rounds to nearest-even. -/
def roundsUp (dir : Nat) (neg : Bool) (q r den : Nat) : Bool :=
  if r = 0 then false
  else match dir with
    | 0 => den < 2 * r || (2 * r == den && q % 2 == 1)
    | 1 => false
    | 2 => !neg
    | _ => neg

/-- What rounding found. -/
structure Rounded where
  bits : BitVec 64
  inexact : Bool := false
  overflow : Bool := false
  tiny : Bool := false
  deriving DecidableEq, Repr

/-- num / den scaled by 2^(−e): numerator and denominator. -/
def scaled (num den : Nat) (e : Int) : Nat × Nat :=
  if 0 ≤ e then (num, den * 2 ^ e.toNat) else (num * 2 ^ (-e).toNat, den)

/-- The exponent e with 2^52 ≤ num / den × 2^(−e) < 2^53, for a positive quotient. -/
def normExp (num den : Nat) : Int :=
  let e : Int := (Nat.log2 num : Int) - Nat.log2 den - 52
  let q := scaled num den e
  if q.1 < 2 ^ 52 * q.2 then e - 1 else e

/-- ±num / den rounded once to 53 bits as if the exponent had no lower limit (R285, R290). -/
def roundRat (dir : Nat) (neg : Bool) (num den : Nat) : Rounded :=
  if num = 0 then { bits := zero64 neg } else
  let e := normExp num den
  let s := scaled num den e
  let q := s.1 / s.2
  let r := s.1 % s.2
  let q := if roundsUp dir neg q r s.2 then q + 1 else q
  let (q, e) := if q = 2 ^ 53 then (2 ^ 52, e + 1) else (q, e)
  let sign : Nat := bit neg * 2 ^ 63
  if 971 < e then { bits := inf64 neg, inexact := true, overflow := true }
  else if e < -1074 then { bits := zero64 neg, inexact := true, tiny := true }
  else { bits := BitVec.ofNat 64 (sign + (e + 1075).toNat * 2 ^ 52 + (q - 2 ^ 52)), inexact := r != 0 }

/-- ±m × 2^e rounded. -/
def roundBin (dir : Nat) (neg : Bool) (m : Nat) (e : Int) : Rounded :=
  if 0 ≤ e then roundRat dir neg (m * 2 ^ e.toNat) 1 else roundRat dir neg m (2 ^ (-e).toNat)

/-- The value of a finite datum in units of 2^e, where e is at most its exponent. -/
def units (neg : Bool) (m : Nat) (e' e : Int) : Int :=
  let v : Int := m * 2 ^ (e' - e).toNat
  if neg then -v else v

end Sys2Proof.Machine
end

