-- ==== Sys2Proof/Machine/Decimal.lean ====
section
/-!
DEFINITION. Decimal operands and their checks (R237 to R240), rounding (R247, R248), accumulators and kerfs (R241 to R249),
and the decimal floating-point formats (R267).
-/

namespace Sys2Proof.Machine

/-! ## Digits and signs -/

/-- The nine nibbles of a word, most significant first (R237). -/
def wordNibbles (w : Word) : List Nat := (List.range 9).map fun i => (w.extractLsb' (32 - 4 * i) 4).toNat

/-- A word from nine nibbles. -/
def nibbleWord (l : List Nat) : Word := BitVec.ofNat 36 ((List.range 9).foldl (fun v i => 16 * v + l.getD i 0 % 16) 0)

/-- A checked decimal value, or the sub-code of Table LDG.6. -/
inductive Checked where
  | value (v : Int)
  | bad (sub : Nat)
  deriving DecidableEq, Repr

/-- A sign code means minus (Table LDG.1). -/
def minusCode (n : Nat) : Bool := n == 0xB || n == 0xD

/-- The number that digits spell, most significant first. -/
def digitsValue (l : List Nat) : Nat := l.foldl (fun v d => 10 * v + d) 0

/-- Digits and a sign nibble checked under Table LDG.1 (R239). -/
def checkDecimal (digits : List Nat) (sign : Nat) : Checked :=
  if digits.any (9 < ·) then .bad 1
  else if sign < 10 then .bad 2
  else .value (if minusCode sign then -(digitsValue digits : Int) else digitsValue digits)

/-- A cell decimal (R237). -/
def cellDecimal (w : Word) : Checked := checkDecimal ((wordNibbles w).take 8) ((wordNibbles w).getD 8 0)

/-- A double-cell decimal (R238). -/
def dblDecimal (v : BitVec 72) : Checked :=
  let n := wordNibbles (hiWord v) ++ wordNibbles (loWord v)
  checkDecimal (n.take 17) (n.getD 17 0)

/-- The digits of a number, `n` of them, most significant first. -/
def digitsOf (n v : Nat) : List Nat := (List.range n).map fun i => v / 10 ^ (n - 1 - i) % 10

/-- The sign code written (R240). -/
def signCode (v : Int) : Nat := if v < 0 then 0xD else 0xC

/-! ## Rounding (Table LDG.3) -/

/-- x / g rounded to a whole number by a mode. -/
def roundMode (mode : Nat) (x : Int) (g : Nat) : Int :=
  let k := x.natAbs / g
  let r := x.natAbs % g
  let neg := decide (x < 0)
  let up := r != 0 && match mode with
    | 0 => g < 2 * r || (2 * r == g && k % 2 == 1)
    | 1 => g ≤ 2 * r
    | 2 => g < 2 * r
    | 3 => false
    | 4 => true
    | 5 => !neg
    | 6 => neg
    | _ => k % 5 == 0
  let m := if up then k + 1 else k
  if neg then -(m : Int) else m

/-- The cash step of a code, in ulps (R248, Table ENC.3). -/
def cashStep (c : Nat) : Nat :=
  match c with
  | 0 => 1
  | 1 => 5
  | 2 => 10
  | 3 => 25
  | _ => 50

/-! ## Accumulators -/

/-- A coefficient of at most 98 digits (R241, R244). -/
def fits98 (v : Int) : Bool := v.natAbs < 10 ^ 98

/-- The largest kerf magnitude (R242). -/
def kerfMax : Nat := 10 ^ 44 - 1

/-- The grid of an accumulator in ulps (R248). -/
def Accum.grid (a : Accum) : Nat := cashStep a.cash.toNat

/-- A kerf takes a further amount in kerf units; beyond its range it saturates with the sign of the exact result (R242). -/
def Accum.addKerf (a : Accum) (k : Int) : Accum × Bool :=
  let v := a.kerf + k
  if v.natAbs ≤ kerfMax then ({ a with kerf := v }, false)
  else ({ a with kerf := if v < 0 then -(kerfMax : Int) else kerfMax }, true)

/-- x × 10^−t rounded to a grid at scale s, in ulps, and the residue in units of 10^−(s + 40) (R246). -/
def splitAt (mode grid s : Nat) (x : Int) (t : Nat) : Int × Int :=
  let u := 10 ^ (t - s)
  let r := roundMode mode x (grid * u) * grid
  (r, (x - r * u) * 10 ^ (s + 40 - t))

/-- An operand x × 10^−t aligned to an accumulator: the amount in ulps and the kerf residue (R246). -/
def Accum.align (a : Accum) (x : Int) (t : Nat) : Int × Int :=
  if t ≤ a.scale then (x * 10 ^ (a.scale - t), 0) else splitAt a.mode.toNat a.grid a.scale x t

/-- An amount and a residue enter an accumulator; none where it would need more than 98 digits (R246, R249). -/
def Accum.enter (a : Accum) (q : Int × Int) : Option (Accum × Bool) :=
  let v := a.coef + q.1
  if fits98 v then some ({ a with coef := v }.addKerf q.2) else none

/-- An operand is added (R246). -/
def Accum.addAt (a : Accum) (x : Int) (t : Nat) : Option (Accum × Bool) := a.enter (a.align x t)

/-- KTAKE (R255). -/
def Accum.take (a : Accum) : Option Accum :=
  let r := roundMode a.mode.toNat a.kerf (a.grid * 10 ^ 40) * a.grid
  let v := a.coef + r
  if fits98 v then some { a with coef := v, kerf := a.kerf - r * 10 ^ 40 } else none

/-- LMUL by m × 10^−t (R259). -/
def Accum.times (a : Accum) (m : Int) (t : Nat) : Option (Accum × Bool) :=
  let p := a.coef * m
  let u := 10 ^ t
  let r := roundMode a.mode.toNat p (a.grid * u) * a.grid
  if fits98 r then some ({ a with coef := r }.addKerf ((p - r * u) * 10 ^ (40 - t))) else none

/-- What LSCALE gives: the accumulator, or a sub-code (R258). -/
inductive Scaled where
  | ok (a : Accum)
  | bad (sub : Nat)
  deriving DecidableEq, Repr

/-- LSCALE to scale `s` (R258). -/
def Accum.rescale (a : Accum) (s : Nat) : Scaled :=
  if s = a.scale then .ok a
  else if a.scale < s then
    let u := 10 ^ (s - a.scale)
    let k := a.kerf * u
    if kerfMax < k.natAbs then .bad 5
    else if fits98 (a.coef * u) then .ok { a with coef := a.coef * u, kerf := k, scale := s } else .bad 7
  else
    let u := 10 ^ (a.scale - s)
    let r := roundMode a.mode.toNat a.coef (a.grid * u) * a.grid
    -- In units of 10^−(scale + 40): the old kerf and the residue.
    let k : Int := a.kerf + (a.coef - r * u) * 10 ^ 40
    if k % u != 0 || kerfMax < (k / u).natAbs then .bad 5
    else if fits98 r then .ok { a with coef := r, kerf := k / u, scale := s } else .bad 7

/-- −1, 0 or 1 for values at two scales (R256). -/
def compareAt (x : Int) (s : Nat) (y : Int) (t : Nat) : Int :=
  let u := x * 10 ^ t
  let v := y * 10 ^ s
  if u = v then 0 else if u < v then -1 else 1

/-! ## Decimal floating point (R267, IEEE 754-2019) -/

/-- The three digits of a declet, as a number from 0 to 999. -/
def decletValue (d : Nat) : Nat :=
  let b := fun i => d / 2 ^ (9 - i) % 2
  let hi := 4 * b 0 + 2 * b 1 + b 2
  let mid := 4 * b 3 + 2 * b 4 + b 5
  if b 6 = 0 then 100 * hi + 10 * mid + (4 * b 7 + 2 * b 8 + b 9)
  else match b 7, b 8 with
    | 0, 0 => 100 * hi + 10 * mid + (8 + b 9)
    | 0, _ => 100 * hi + 10 * (8 + b 5) + (4 * b 3 + 2 * b 4 + b 9)
    | _, 0 => 100 * (8 + b 2) + 10 * mid + (4 * b 0 + 2 * b 1 + b 9)
    | _, _ =>
      match b 3, b 4 with
      | 0, 0 => 100 * (8 + b 2) + 10 * (8 + b 5) + (4 * b 0 + 2 * b 1 + b 9)
      | 0, _ => 100 * (8 + b 2) + 10 * (4 * b 0 + 2 * b 1 + b 5) + (8 + b 9)
      | _, 0 => 100 * hi + 10 * (8 + b 5) + (8 + b 9)
      | _, _ => 100 * (8 + b 2) + 10 * (8 + b 5) + (8 + b 9)

/-- The canonical declet of a number from 0 to 999: the lowest of those that spell it. -/
def decletOf (n : Nat) : Nat := ((List.range 1024).find? fun d => decletValue d == n).getD 0

/-- A decimal interchange format: declets, bits of exponent continuation, and bias. -/
structure DecFormat where
  declets : Nat
  expBits : Nat
  bias : Int
  deriving DecidableEq, Repr

/-- Decimal64. -/
def decimal64 : DecFormat := ⟨5, 8, 398⟩

/-- Decimal128. -/
def decimal128 : DecFormat := ⟨11, 12, 6176⟩

/-- Width in bits. -/
def DecFormat.width (f : DecFormat) : Nat := 1 + 5 + f.expBits + 10 * f.declets

/-- Digits of the coefficient. -/
def DecFormat.digits (f : DecFormat) : Nat := 3 * f.declets + 1

/-- The signed coefficient and the exponent of a finite value; none for an infinity or a NaN. -/
def DecFormat.decode (f : DecFormat) (v : Nat) : Option (Int × Int) :=
  let cont := 10 * f.declets
  let comb := v / 2 ^ (cont + f.expBits) % 32
  let e := v / 2 ^ cont % 2 ^ f.expBits
  if 30 ≤ comb then none else
  let top := if comb < 24 then (comb / 8, comb % 8) else (comb / 2 % 4, 8 + comb % 2)
  let low := (List.range f.declets).foldl (fun a i => 1000 * a + decletValue (v / 2 ^ (10 * (f.declets - 1 - i)) % 1024)) 0
  let c : Int := top.2 * 1000 ^ f.declets + low
  some (if v / 2 ^ (f.width - 1) % 2 = 1 then -c else c, ((top.1 * 2 ^ f.expBits + e : Nat) : Int) - f.bias)

/-- The encoding of a coefficient and an exponent that the format holds. -/
def DecFormat.encode (f : DecFormat) (c : Int) (q : Int) : Nat :=
  let m := c.natAbs
  let msd := m / 1000 ^ f.declets
  let e := (q + f.bias).toNat
  let hi := e / 2 ^ f.expBits
  let comb := if msd < 8 then 8 * hi + msd else 24 + 2 * hi + (msd - 8)
  let low := (List.range f.declets).foldl (fun a i => 1024 * a + decletOf (m / 1000 ^ (f.declets - 1 - i) % 1000)) 0
  bit (decide (c < 0)) * 2 ^ (f.width - 1) + comb * 2 ^ (10 * f.declets + f.expBits) +
    (e % 2 ^ f.expBits) * 2 ^ (10 * f.declets) + low

/-- Trailing zeros are dropped until the coefficient fits; none where a digit other than 0 would go. -/
def dropZeros (limit : Nat) : (fuel : Nat) → (c q : Int) → Option (Int × Int)
  | 0, c, q => if c.natAbs < limit then some (c, q) else none
  | f + 1, c, q => if c.natAbs < limit then some (c, q) else if c % 10 = 0 then dropZeros limit f (c / 10) (q + 1) else none

/-- Out: the encoding of c × 10^−s at the smallest exponent from −s on at which it is exact and fits (R267). -/
def DecFormat.out (f : DecFormat) (c : Int) (s : Nat) : Option Nat :=
  (dropZeros (10 ^ f.digits) 98 c (-(s : Int))).map fun x => f.encode x.1 x.2

end Sys2Proof.Machine
end

