-- ==== Sys2Proof/Machine/Float.lean ====
section
/-!
DEFINITION. Floating-point instructions (Table BIN.4): what each operation computes (R285 to R290), its issue, and its
completion (R284, R292, R312).
-/

namespace Sys2Proof.Machine

/-! ## What an operation computes -/

/-- The result of an operation: the value in its cells, the flags IV DZ OF UF IX from bit 0, and whether the cause is
FP_SUBNORMAL. `sign` is the sign of the exact result; `none` where the exact result is a NaN. -/
structure FpOut where
  val : BitVec 72
  flags : BitVec 5 := 0
  subn : Bool := false
  sign : Option Bool := none
  deriving DecidableEq, Repr

/-- IV. -/
def flagIV : BitVec 5 := 1
/-- DZ. -/
def flagDZ : BitVec 5 := 2
/-- OF. -/
def flagOF : BitVec 5 := 4
/-- UF. -/
def flagUF : BitVec 5 := 8
/-- IX. -/
def flagIX : BitVec 5 := 16

/-- A binary64 result without rounding. -/
def FpOut.exact (b : BitVec 64) (flags : BitVec 5 := 0) : FpOut :=
  { val := cells64 b, flags := flags, sign := if isNan b then none else some b.msb }

/-- A rounded result: its flags, and FP_SUBNORMAL where it is tiny under TRAP (R290). An estimate never sets IX (R287). -/
def Rounded.out (r : Rounded) (flush estimate : Bool) : FpOut :=
  let ix : BitVec 5 := if estimate then 0 else flagIX
  { val := cells64 r.bits, sign := some r.bits.msb, subn := r.tiny && !flush
    flags := if r.tiny then (if flush then flagUF ||| ix else 0)
      else (if r.overflow then flagOF else 0) ||| (if r.inexact then ix else 0) }

/-- The first NaN among the operands, quieted, with IV for a signalling one anywhere (R285). -/
def firstNan (l : List (BitVec 64)) : Option FpOut :=
  (l.find? isNan).map fun b => FpOut.exact (quiet b) (if l.any signalling then flagIV else 0)

/-- An invalid operation without a NaN operand. -/
def invalid : FpOut := FpOut.exact defaultNan flagIV

/-- The sum of two data that are no NaN. -/
def sumOf (flush : Bool) (a b : Fval) : FpOut :=
  match a, b with
  | .inf s, .inf t => if s = t then FpOut.exact (inf64 s) else invalid
  | .inf s, _ => FpOut.exact (inf64 s)
  | _, .inf t => FpOut.exact (inf64 t)
  | .fin s m e, .fin t n f =>
    let g := min e f
    let v := units s m e g + units t n f g
    if v = 0 then FpOut.exact (zero64 (s && t)) else (roundBin 0 (decide (v < 0)) v.natAbs g).out flush false
  | _, _ => invalid

/-- The exact product of two data that are no NaN; none for 0 × ∞. -/
def productOf (a b : Fval) : Option Fval :=
  match a, b with
  | .inf s, .inf t => some (.inf (s != t))
  | .inf s, .fin t n _ => if n = 0 then none else some (.inf (s != t))
  | .fin s m _, .inf t => if m = 0 then none else some (.inf (s != t))
  | .fin s m e, .fin t n f => some (.fin (s != t) (m * n) (e + f))
  | x, _ => some x

/-- The datum with its sign changed. -/
def Fval.negate (a : Fval) : Fval :=
  match a with
  | .nan b => .nan b
  | .inf s => .inf (!s)
  | .fin s m e => .fin (!s) m e

/-- a + b. -/
def fpAdd (flush : Bool) (a b : BitVec 64) : FpOut := (firstNan [a, b]).getD (sumOf flush (Fval.of a) (Fval.of b))

/-- a − b. -/
def fpSub (flush : Bool) (a b : BitVec 64) : FpOut :=
  (firstNan [a, b]).getD (sumOf flush (Fval.of a) (Fval.of b).negate)

/-- a × b. -/
def fpMul (flush : Bool) (a b : BitVec 64) : FpOut :=
  (firstNan [a, b]).getD (match productOf (Fval.of a) (Fval.of b) with
    | none => invalid
    | some (.fin s m e) => (roundBin 0 s m e).out flush false
    | some (.inf s) => FpOut.exact (inf64 s)
    | some (.nan b) => FpOut.exact b)

/-- c ± a × b with one rounding; 0 × ∞ with a quiet NaN c sets IV and delivers c (R285). -/
def fpFused (flush minus : Bool) (a b c : BitVec 64) : FpOut :=
  let p := if isNan a ∨ isNan b then some (Fval.inf false) else productOf (Fval.of a) (Fval.of b)
  match firstNan [a, b, c], p with
  | some r, none => { r with flags := r.flags ||| flagIV }
  | some r, some _ => r
  | none, none => invalid
  | none, some p => sumOf flush (if minus then p.negate else p) (Fval.of c)

/-- The relation word of FCMP (R286): 1 equal, 2 less, 4 greater, 8 unordered. -/
def fpRelation (a b : Fval) : Nat :=
  match a, b with
  | .nan _, _ => 8
  | _, .nan _ => 8
  | .inf s, .inf t => if s = t then 1 else if s then 2 else 4
  | .inf s, _ => if s then 2 else 4
  | _, .inf t => if t then 4 else 2
  | .fin s m e, .fin t n f =>
    let g := min e f
    let u := units s m e g
    let v := units t n f g
    if u = v then 1 else if u < v then 2 else 4

/-- FCMP. -/
def fpCmp (a b : BitVec 64) : FpOut :=
  { val := BitVec.ofNat 72 (fpRelation (Fval.of a) (Fval.of b)), sign := some false
    flags := if signalling a || signalling b then flagIV else 0 }

/-- The largest k below 2^16 with k² ≤ n. -/
def rootFloor (n : Nat) : Nat :=
  (List.range 16).foldl (fun k i => let t := k + 2 ^ (15 - i); if t * t ≤ n then t else k) 0

/-- m × 2^15 of the operand ±1.f × 2^e (R287). -/
def estimateM (m : Nat) : Nat := 2 ^ 15 + 2 * ((m - 2 ^ 52) / 2 ^ 38) + 1

/-- num / den to the nearest whole number, ties to even. -/
def nearest (num den : Nat) : Nat :=
  if roundsUp 0 false (num / den) (num % den) den then num / den + 1 else num / den

/-- FRECIP (R287). -/
def fpRecip (flush : Bool) (a : BitVec 64) : FpOut :=
  (firstNan [a]).getD (match Fval.of a with
    | .fin s m e =>
      if m = 0 then FpOut.exact (inf64 s) flagDZ
      else (roundBin 0 s (nearest (2 ^ 30) (estimateM m)) (-15 - (e + 52))).out flush true
    | .inf s => FpOut.exact (zero64 s)
    | .nan b => FpOut.exact b)

/-- 1 / √m′ to 15 significant bits, in units of 2^−15 (R287). -/
def rootEstimate (m : Nat) (odd : Bool) : Nat :=
  let k := if odd then 2 ^ 44 else 2 ^ 45
  let q := rootFloor (k / m)
  if (2 * q + 1) * (2 * q + 1) * m < 4 * k then q + 1 else q

/-- FRSQRT (R287). -/
def fpRsqrt (flush : Bool) (a : BitVec 64) : FpOut :=
  (firstNan [a]).getD (match Fval.of a with
    | .fin s m e =>
      if m = 0 then FpOut.exact (inf64 s) flagDZ
      else if s then invalid
      else
        let x := e + 52
        (roundBin 0 false (rootEstimate (estimateM m) (x % 2 != 0)) (-15 - x / 2)).out flush true
    | .inf s => if s then invalid else FpOut.exact (zero64 false)
    | .nan b => FpOut.exact b)

/-- A conversion to an integer of the range [lo, hi] in a cell or a double cell (R288). -/
def fpToInt (dir : Nat) (lo hi : Int) (a : BitVec 64) : FpOut :=
  match Fval.of a with
  | .nan _ => { val := 0, flags := flagIV, sign := none }
  | .inf s => { val := BitVec.ofInt 72 (if s then lo else hi), flags := flagIV, sign := some s }
  | .fin s m e =>
    let num := if 0 ≤ e then m * 2 ^ e.toNat else m
    let den := if 0 ≤ e then 1 else 2 ^ (-e).toNat
    let q := num / den
    let r := num % den
    let q := if roundsUp dir s q r den then q + 1 else q
    let v : Int := if s then -(q : Int) else q
    if v < lo then { val := BitVec.ofInt 72 lo, flags := flagIV, sign := some s }
    else if hi < v then { val := BitVec.ofInt 72 hi, flags := flagIV, sign := some s }
    else { val := BitVec.ofInt 72 v, flags := if r = 0 then 0 else flagIX, sign := some s }

/-- A conversion of an integer to binary64. -/
def fpOfInt (dir : Nat) (v : Int) : FpOut := (roundRat dir (decide (v < 0)) v.natAbs 1).out true false

/-- FCVT (R288). -/
def fpCvt (kind : Nat) (dir : Nat) (a : BitVec 72) : FpOut :=
  match kind with
  | 0 => fpToInt dir (-(2 ^ 35)) (2 ^ 35 - 1) (bits64 a)
  | 1 => fpToInt dir 0 (2 ^ 36 - 1) (bits64 a)
  | 2 => fpOfInt dir (hiWord a).toInt
  | 3 => fpOfInt dir (hiWord a).toNat
  | 4 => fpToInt dir (-(2 ^ 71)) (2 ^ 71 - 1) (bits64 a)
  | _ => fpOfInt dir a.toInt

/-- Bit 63 of a value in a double cell changed (FNEG) or cleared (FABS); bits [35:28] of the high cell become 0 (R282, R285). -/
def signed (negate : Bool) (v : BitVec 72) : BitVec 72 :=
  let b := bits64 v
  cells64 ((BitVec.ofBool (negate && !b.msb)) ++ b.extractLsb' 0 63)

/-- FCVT reads a binary64 operand. -/
def cvtFromFloat (kind : BitVec 4) : Bool := kind == 0 || kind == 1 || kind == 4

/-- The binary64 operands an operation reads. -/
def FpOp.operands (o : FpOp) : List (BitVec 72) :=
  match o.kind with
  | .add => [o.a, o.b]
  | .sub => [o.a, o.b]
  | .mul => [o.a, o.b]
  | .cmp => [o.a, o.b]
  | .fma => [o.a, o.b, o.c]
  | .step => [o.a, o.b, o.c]
  | .recip => [o.a]
  | .rsqrt => [o.a]
  | .neg => []
  | .abs => []
  | .cvt k _ => if cvtFromFloat k then [o.a] else []

/-- An operand as FLUSH reads it (R290). -/
def flushed (flush : Bool) (a : BitVec 72) : BitVec 72 :=
  let b := bits64 a
  if flush && subnormal b then cells64 (zero64 b.msb) else a

/-- The operation on its operands, subnormal ones taken as they are or flushed. -/
def FpOp.raw (o : FpOp) (flush : Bool) : FpOut :=
  let a := bits64 (flushed flush o.a)
  let b := bits64 (flushed flush o.b)
  let c := bits64 (flushed flush o.c)
  match o.kind with
  | .add => fpAdd flush a b
  | .sub => fpSub flush a b
  | .mul => fpMul flush a b
  | .fma => fpFused flush false a b c
  | .step => fpFused flush true a b c
  | .cmp => fpCmp a b
  | .recip => fpRecip flush a
  | .rsqrt => fpRsqrt flush a
  | .neg => FpOut.exact (bits64 (signed true o.a))
  | .abs => FpOut.exact (bits64 (signed false o.a))
  | .cvt k r => fpCvt k.toNat r.toNat (if cvtFromFloat k then flushed flush o.a else o.a)

/-- The operation's result is binary64. -/
def FpOp.floats (o : FpOp) : Bool :=
  match o.kind with
  | .cmp => false
  | .cvt k _ => !cvtFromFloat k
  | _ => true

/-- An operation's outcome. Under TRAP a subnormal operand or a tiny result writes a zero with the sign of the exact
result and sets no flag (R290). Where the exact result is a NaN its sign is free (`freeSign`, log entry 7); a result that
is no binary64 value is 0. -/
def FpOp.result (o : FpOp) (freeSign : Bool) : FpOut :=
  let r := o.raw o.flush
  if !o.flush && (r.subn || o.operands.any fun a => subnormal (bits64 a)) then
    { val := if o.floats then cells64 (zero64 (r.sign.getD freeSign)) else 0, subn := true, sign := r.sign }
  else r

/-- The code of an operation in word 1 of the exception record (Table BIN.7). -/
def FpKind.code : FpKind → Nat
  | .add => 0
  | .sub => 1
  | .mul => 2
  | .fma => 3
  | .neg => 4
  | .abs => 5
  | .cmp => 6
  | .recip => 7
  | .rsqrt => 8
  | .step => 9
  | .cvt .. => 0xF

/-- The exception record of an operation (Table BIN.7). -/
def FpOp.record (o : FpOp) (subn : Bool) (raised : BitVec 5) : FpRecord :=
  { addr := o.addr, a := o.a, b := o.b, c := o.c
    info := BitVec.ofNat 36 (o.kind.code + 16 * bit subn + 32 * raised.toNat + 1024 * o.pos + 32768) }

/-! ## Status (Table BIN.6) -/

/-- The status word as read: PEND is live. -/
def Fpu.word (f : Fpu) : Word :=
  (f.status &&& 0x1F1F) ||| BitVec.ofNat 36 (8192 * bit (f.pendFp.isSome || f.pendSub.isSome))

/-- Flags whose enable bit is 1. -/
def Fpu.enabled (f : Fpu) (flags : BitVec 5) : BitVec 5 := flags &&& (f.status >>> 8).setWidth 5

/-- Flags are set; an enabled one makes FP pending, unless an earlier operation's cause is pending (R291, R292). -/
def Fpu.raise (f : Fpu) (flags : BitVec 5) (record : BitVec 5 → FpRecord) : Fpu :=
  let e := f.enabled flags
  { f with
    status := f.status ||| flags.setWidth 36
    pendFp := if e = 0 then f.pendFp else if f.pendFp.isSome then f.pendFp else some (record e) }

/-! ## Completion -/

/-- The operation's cells in the window current at its issue take their values. -/
def Ctx.land (x : Ctx) (o : FpOp) (v : BitVec 72) : Ctx :=
  let put := fun (w : Window) =>
    if o.size = 1 then w.write o.pos (loWord v) else (w.write (o.pos - 1) (loWord v)).write o.pos (hiWord v)
  if o.inTrap then { x with trapWin := put x.trapWin }
  else { x with windows := put (x.windows.headD Window.empty) :: x.windows.tail }

/-- The oldest operation of a context completes (R284, R292). -/
def Ctx.complete (x : Ctx) (freeSign : Bool) : Ctx :=
  match x.fpu.inflight with
  | [] => x
  | o :: t =>
    let r := o.result freeSign
    let x := x.land o r.val
    let f := { x.fpu with inflight := t }
    if r.subn then
      { x with fpu := { f with pendSub := if f.pendSub.isSome then f.pendSub else some (o.record true 0) } }
    else { x with fpu := f.raise r.flags (o.record false) }

/-- The oldest operation of context `c` completes: in the context, and in what an open slot would return to (R172, R284). -/
def Engine.complete (e : Engine) (c : Nat) (freeSign : Bool) : Engine :=
  { e.putCtx c ((e.ctx c).complete freeSign) with
    slot := e.slot.map fun d => if d.ctx = c then { d with saved := d.saved.complete freeSign } else d }

/-- The operation passes its significands through the multiplier (R284, Table CHK.1 row 2). -/
def FpKind.multiplies (k : FpKind) : Bool :=
  match k with
  | .mul => true
  | .fma => true
  | .step => true
  | _ => false

/-- FP_RESULT: the oldest operation in flight completes, with or without a boundary; a failed check repeats it (R284, R297, R425
to R427). -/
def execFpResult (a : At) (check : Check) (s : State) : Out :=
  let p := a.isl.val
  let c := a.ctx.val
  let s := { s with out := [] }
  let x := s.ctx p c
  match x.fpu.inflight with
  | [] => .next s
  | o :: _ =>
    if !(s.eng p).running then .next s else
    let done := fun (s : State) => { s with draws := s.draws + 1 }.modEng p fun e => e.complete c (Config.freeChoice s.draws)
    let inst := (s.jobAt p c).map (·.inst)
    let failed := fun row => Host.Outcome.next ((s.unslot p c).checkFailed p c row o.addr).settle
    let passed := fun row n => Host.Outcome.next ((done s).retried p c row n o.addr inst)
    match check with
    | .failed => failed 4
    | .second => passed 4 2
    | .third => passed 4 3
    | .mulFailed => if o.kind.multiplies then failed 2 else .next (done s)
    | .mulSecond => if o.kind.multiplies then passed 2 2 else .next (done s)
    | .mulThird => if o.kind.multiplies then passed 2 3 else .next (done s)
    | _ => .next (done s)

/-! ## Issue -/

/-- A floating-point operation enters the section: its operands leave the stack, and its result cells await their
values. -/
def fpStart (kind : FpKind) (dIn size : Nat) (a b c : Ctx → BitVec 72) : Work := fun s _ _ x =>
  let y := x.setDepth (x.depth - dIn + size)
  let o : FpOp := { kind := kind, addr := x.pc, inTrap := x.tw, pos := x.depth - dIn + size - 1, size := size, a := a x, b := b x,
                    c := c x, flush := x.fsub }
  let cells := (List.range size).map fun k => x.depth - dIn + k
  .ok { s := s, x := { y with
    fpu := { y.fpu with inflight := y.fpu.inflight ++ [o] }
    shadow := y.shadow.filter fun q => !cells.contains q.1 } }

/-- No operand. -/
def noOperand (_ : Ctx) : BitVec 72 := 0

/-- A floating-point shape (Table BIN.4). -/
def fp (dIn dOut : Nat) : Shape := { dIn := dIn, dOut := dOut, row := 4 }

/-- FADD ( a b -- a+b ). -/
def execFadd (i : Issue) : State → Out :=
  issue i (fp 4 2) (fpStart .add 4 2 (fun x => x.dblTop 2) (fun x => x.dblTop 0) noOperand)

/-- FSUB ( a b -- a−b ). -/
def execFsub (i : Issue) : State → Out :=
  issue i (fp 4 2) (fpStart .sub 4 2 (fun x => x.dblTop 2) (fun x => x.dblTop 0) noOperand)

/-- FMUL ( a b -- a×b ). -/
def execFmul (i : Issue) : State → Out :=
  issue i { fp 4 2 with mul := true } (fpStart .mul 4 2 (fun x => x.dblTop 2) (fun x => x.dblTop 0) noOperand)

/-- FMA ( a b c -- a×b+c ). -/
def execFma (i : Issue) : State → Out :=
  issue i { fp 6 2 with mul := true } (fpStart .fma 6 2 (fun x => x.dblTop 4) (fun x => x.dblTop 2) (fun x => x.dblTop 0))

/-- FSTEP ( a b c -- c−a×b ). -/
def execFstep (i : Issue) : State → Out :=
  issue i { fp 6 2 with mul := true } (fpStart .step 6 2 (fun x => x.dblTop 4) (fun x => x.dblTop 2) (fun x => x.dblTop 0))

/-- FNEG or FABS. It takes one cycle: its result is there at the next instruction, unless older operations of the context are in
flight, whose results come first (R284, Table BIN.4). -/
def signWork (kind : FpKind) : Work := fun s p c x =>
  if x.fpu.inflight.isEmpty then
    let r := signed (kind == .neg) (x.dblTop 0)
    .ok { s := s, x := x.replace 2 [loWord r, hiWord r] }
  else fpStart kind 2 2 (fun x => x.dblTop 0) noOperand noOperand s p c x

/-- FNEG ( a -- r ): bit 63 alone changes (R285). -/
def execFneg (i : Issue) : State → Out := issue i (fp 2 2) (signWork .neg)

/-- FABS ( a -- r ): bit 63 becomes 0 (R285). -/
def execFabs (i : Issue) : State → Out := issue i (fp 2 2) (signWork .abs)

/-- FCMP ( a b -- w ) (R286). -/
def execFcmp (i : Issue) : State → Out :=
  issue i (fp 4 1) (fpStart .cmp 4 1 (fun x => x.dblTop 2) (fun x => x.dblTop 0) noOperand)

/-- FRECIP ( a -- r ) (R287). -/
def execFrecip (i : Issue) : State → Out :=
  issue i (fp 2 2) (fpStart .recip 2 2 (fun x => x.dblTop 0) noOperand noOperand)

/-- FRSQRT ( a -- r ) (R287). -/
def execFrsqrt (i : Issue) : State → Out :=
  issue i (fp 2 2) (fpStart .rsqrt 2 2 (fun x => x.dblTop 0) noOperand noOperand)

/-- FCVT: the stack effect is that of its kind (R288). -/
def execFcvt (i : Issue) (kind : BitVec 4) (round : BitVec 2) : State → Out :=
  let one := kind == 2 || kind == 3
  let size := if kind == 0 || kind == 1 then 1 else 2
  let dIn := if one then 1 else 2
  issue i { fp dIn size with len := 2, reserved := 5 < kind.toNat }
    (fpStart (.cvt kind round) dIn size (fun x => if one then dbl (x.top 0) 0 else x.dblTop 0) noOperand noOperand)

/-- A word of the exception record (Table BIN.7). -/
def FpRecord.word (r : FpRecord) (k : Nat) : Word :=
  match k with
  | 0 => r.addr.setWidth 36
  | 1 => r.info
  | 2 => hiWord r.a
  | 3 => loWord r.a
  | 4 => hiWord r.b
  | 5 => loWord r.b
  | 6 => hiWord r.c
  | _ => loWord r.c

/-- FFLAGS ( v m -- f ) (R293): the status word is read and its RW bits written, or a record word is read. -/
def execFflags (i : Issue) : State → Out :=
  issue i { fp 2 1 with fpWait := true } (onCtx fun x =>
    let v := x.top 1
    let m := x.top 0
    if m.msb then x.replace 2 [x.fpu.record.word (v.toNat % 8)]
    else
      let k : Word := m &&& 0x1F1F
      { x.replace 2 [x.fpu.word] with fpu := { x.fpu with status := (x.fpu.status &&& ~~~k) ||| (v &&& k) } })

/-- FBAR ( -- ) (R294). -/
def execFbar (i : Issue) : State → Out := issue i { fp 0 0 with fpWait := true } (onCtx id)

end Sys2Proof.Machine
end

