-- ==== Sys2Proof/Machine/Ledger.lean ====
section
/-!
DEFINITION. Ledger instructions (Table LDG.7): accumulators, kerfs and balance (R241 to R260), allocation (R261 to R263) and
conversions (R264 to R268).
-/

namespace Sys2Proof.Machine

/-! ## Parts of the ledger -/

/-- The ledger with accumulator `a` replaced. -/
def Ledger.putAcc (l : Ledger) (a : BitVec 2) (v : Accum) : Ledger := { l with accs := Tab.put l.accs a.toNat v }

/-- The scale of a cell operand (R245): OSC, or the accumulator's own under ACC. -/
def Ledger.opScale (l : Ledger) (a : BitVec 2) : Nat := l.osc.getD (l.acc a).scale

/-- The ledger status word as read: KNZ and BZ are live (Table LDG.5). -/
def Ledger.word (l : Ledger) : Word :=
  let knz := (List.range 4).any fun a => (Tab.get (fun _ => {}) l.accs a : Accum).kerf != 0
  (l.status &&& 0x773) ||| BitVec.ofNat 36 (4 * bit knz + 8 * bit (l.bal == 0))

/-- The flag of a sub-code (Table LDG.6). -/
def subFlag (sub : Nat) : Word :=
  if sub ≤ 6 then 0x20 else if sub = 7 then 0x01 else if sub = 8 then 0x02 else 0x10

/-- A sub-code raises LEDGER (Table LDG.6). -/
def Ledger.raises (l : Ledger) (sub : Nat) : Bool :=
  if sub ≤ 6 then true else if sub = 7 then l.status.getLsbD 8 else if sub = 8 then l.status.getLsbD 9 else l.status.getLsbD 10

/-- An instruction ends with the ledger `l`, each value with its residue (R272), and with a condition where it met one: its flag is set, and LEDGER is taken after
the instruction where it is raised (R252). -/
def ledgerDone (s : State) (x : Ctx) (l : Ledger) (sub : Option Nat := none) : Res Done :=
  let l := l.seal x.ledger
  match sub with
  | none => .ok { s := s, x := { x with ledger := l } }
  | some k =>
    .ok { s := s, x := { x with ledger := { l with status := l.status ||| subFlag k } }
          late := if l.raises k then some (9, k) else none }

/-- A ledger shape: its cells, the held values it reads, and its micro-routine. -/
def ldg (dIn dOut : Nat) (reads : List Nat := []) (micro : Option Routine := none) : Shape :=
  { dIn := dIn, dOut := dOut, row := 5, reads := reads, micro := micro }

/-- A long ledger shape. -/
def ldgLong (dIn dOut : Nat) (reserved : Bool := false) (reads : List Nat := []) (micro : Option Routine := none) : Shape :=
  { len := 2, dIn := dIn, dOut := dOut, row := 5, reserved := reserved, reads := reads, micro := micro }

/-- La and Ka among the held values. -/
def heldAcc (a : BitVec 2) : List Nat := [a.toNat, a.toNat + 4]

/-! ## Clearing, flags, settings -/

/-- LCLR La ( -- ): La and Ka become 0. -/
def execLclr (i : Issue) (a : BitVec 2) : State → Out :=
  issue i (ldg 0 0) fun s _ _ x =>
    ledgerDone s x (x.ledger.putAcc a { x.ledger.acc a with coef := 0, kerf := 0 })

/-- LCLR BAL ( -- ). -/
def execLclrBal (i : Issue) : State → Out :=
  issue i (ldg 0 0) fun s _ _ x => ledgerDone s x { x.ledger with bal := 0 }

/-- KCLR La ( -- ): Ka becomes 0 (R255). -/
def execKclr (i : Issue) (a : BitVec 2) : State → Out :=
  issue i (ldg 0 0) fun s _ _ x => ledgerDone s x (x.ledger.putAcc a { x.ledger.acc a with kerf := 0 })

/-- LFLAGS ( v m -- f ) (R251). -/
def execLflags (i : Issue) : State → Out :=
  issue i (ldg 2 1 [4, 5, 6, 7, 8] (some .lflags)) fun s _ _ x =>
    let k : Word := x.top 0 &&& 0x773
    let v := (x.ledger.status &&& ~~~k) ||| (x.top 1 &&& k)
    ledgerDone s (x.replace 2 [x.ledger.word]) { x.ledger with status := v }

/-- LRND La ( -- ): mode and cash step (R248). -/
def execLrnd (i : Issue) (a : BitVec 2) (mode cash : BitVec 3) : State → Out :=
  issue i (ldgLong 0 0 (5 ≤ cash.toNat)) fun s _ _ x =>
    ledgerDone s x (x.ledger.putAcc a { x.ledger.acc a with mode := mode, cash := cash })

/-- LOSC ( -- ): the operand scale (R245). -/
def execLosc (i : Issue) (scale : BitVec 6) : State → Out :=
  issue i (ldgLong 0 0 (40 < scale.toNat)) fun s _ _ x => ledgerDone s x { x.ledger with osc := some scale.toNat }

/-- LSCALE La ( -- ) (R258). -/
def execLscale (i : Issue) (a : BitVec 2) (scale : BitVec 6) : State → Out :=
  issue i (ldgLong 0 0 (40 < scale.toNat) (heldAcc a) (some .lscale)) fun s _ _ x =>
    match (x.ledger.acc a).rescale scale.toNat with
    | .ok v => ledgerDone s x (x.ledger.putAcc a v)
    | .bad k => ledgerDone s x x.ledger (some k)

/-! ## Adding and posting -/

/-- An accumulator after an operand entered it: OVERFLOW, or the new value with KERF_SAT where the kerf saturated. -/
def entered (s : State) (x : Ctx) (l : Ledger) (a : BitVec 2) (r : Option (Accum × Bool)) : Res Done :=
  match r with
  | none => ledgerDone s x x.ledger (some 7)
  | some (v, sat) => ledgerDone s x (l.putAcc a v) (if sat then some 8 else none)

/-- A checked operand with a sign applied enters La (R246). -/
def addWork (a : BitVec 2) (cells : Nat) (minus : Bool) : Work := fun s _ _ x =>
  let y := x.drop cells
  match if cells = 1 then cellDecimal (x.top 0) else dblDecimal (x.dblTop 0) with
  | .bad k => ledgerDone s y x.ledger (some k)
  | .value v =>
    entered s y x.ledger a ((x.ledger.acc a).addAt (if minus then -v else v) (x.ledger.opScale a))

/-- LADD La: cell form ( x -- ), double form ( lo hi -- ). -/
def execLadd (i : Issue) (a : BitVec 2) (d : Bool) : State → Out :=
  let n := if d then 2 else 1
  issue i { ldg n 0 (heldAcc a) with rep := true } (addWork a n false)

/-- LSUB La. -/
def execLsub (i : Issue) (a : BitVec 2) (d : Bool) : State → Out :=
  let n := if d then 2 else 1
  issue i { ldg n 0 (heldAcc a) with rep := true } (addWork a n true)

/-- A posting: La receives the operand under R246, BAL receives it exactly with its sign, or neither changes (R254). -/
def postWork (a : BitVec 2) (credit : Bool) : Work := fun s _ _ x =>
  let y := x.drop 2
  match dblDecimal (x.dblTop 0) with
  | .bad k => ledgerDone s y x.ledger (some k)
  | .value v =>
    let t := x.ledger.opScale a
    let w := v * 10 ^ (40 - t)
    let b := x.ledger.bal + (if credit then -w else w)
    if !fits98 b then ledgerDone s y x.ledger (some 7)
    else entered s y { x.ledger with bal := b } a ((x.ledger.acc a).addAt v t)

/-- LPOST.D La ( lo hi -- ). -/
def execLpostD (i : Issue) (a : BitVec 2) : State → Out := issue i { ldg 2 0 (8 :: heldAcc a) with rep := true } (postWork a false)

/-- LPOST.C La ( lo hi -- ). -/
def execLpostC (i : Issue) (a : BitVec 2) : State → Out := issue i { ldg 2 0 (8 :: heldAcc a) with rep := true } (postWork a true)

/-- KTAKE La ( -- ) (R255). -/
def execKtake (i : Issue) (a : BitVec 2) : State → Out :=
  issue i (ldg 0 0 (heldAcc a) (some .ktake)) fun s _ _ x =>
    match (x.ledger.acc a).take with
    | none => ledgerDone s x x.ledger (some 7)
    | some v => ledgerDone s x (x.ledger.putAcc a v)

/-- LCMP La ( lo hi -- r ) (R256). With an operand that fails its check it pushes no result (R252). -/
def execLcmp (i : Issue) (a : BitVec 2) : State → Out :=
  issue i (ldg 2 1 [a.toNat] (some .lcmp)) fun s _ _ x =>
    match dblDecimal (x.dblTop 0) with
    | .bad k => ledgerDone s (x.drop 2) x.ledger (some k)
    | .value v =>
      let c := compareAt (x.ledger.acc a).coef (x.ledger.acc a).scale v (x.ledger.opScale a)
      ledgerDone s (x.replace 2 [if c = 0 then 1 else if c < 0 then 2 else 4]) x.ledger

/-! ## Images (R257) -/

/-- The eleven words of an image at the top of A. -/
def imageAddrs (x : Ctx) : List WAddr := (List.range 11).map fun k => WAddr.plus x.atop k

/-- The image of a coefficient: 98 digits and the sign code. -/
def imageOf (v : Int) : List Word :=
  let n := digitsOf 98 v.natAbs ++ [signCode v]
  (List.range 11).map fun k => nibbleWord ((n.drop (9 * k)).take 9)

/-- Words that an instruction reads one after another: the values, or the trap of the first forbidden, waiting or
uncorrectable one. -/
def State.readParts (s : State) (p c : Nat) (parts : List (WAddr × List Bool)) : Res (List Word × State) :=
  let addrs := parts.map (·.1)
  match s.accessBars p c false addrs with
  | some k => .trap 2 k
  | none =>
    (s.fetchParts p parts).bind fun ws =>
      match s.partBar p (parts.zip ws) false with
      | some (k, _) => .trap 14 k
      | none =>
        let s := addrs.foldl (fun t a => t.touch p c a) s
        let s := (parts.zip ws).foldl (fun t q => match placeOf q.1.1 with
          | .io k => if q.2.2 then t else t.ioClear p k
          | _ => t) s
        .ok (ws.map (·.1), s)

/-- LLOAD La ( -- ) A: ( a -- a ). -/
def execLload (i : Issue) (a : BitVec 2) : State → Out :=
  issue i { ldg 0 0 [] (some .lload) with aIn := 1, aOut := 1, data := atTop } fun s p c x =>
    (s.readParts p c ((imageAddrs x).map fun w => (w, fullWord))).bind fun q =>
      let n := q.1.flatMap wordNibbles
      match checkDecimal (n.take 98) (n.getD 98 0) with
      | .bad k => ledgerDone q.2 x x.ledger (some k)
      | .value v => ledgerDone q.2 x (x.ledger.putAcc a { x.ledger.acc a with coef := v })

/-- LSTORE's own work: every word is checked, then every word is written (R309). -/
def storeImage (v : Ledger → Int) : Work := fun s p c x =>
  if !(s.eng p).sbuf.isEmpty then .wait else
  match s.accessBars p c true (imageAddrs x) with
  | some k => .trap 2 k
  | none =>
    let s := (imageAddrs x).foldl (fun t w => t.touch p c w) s
    .ok { s := s.putWords p c x.atop (imageOf (v x.ledger)), x := x }

/-- LSTORE La ( -- ) A: ( a -- a ). -/
def execLstore (i : Issue) (a : BitVec 2) : State → Out :=
  issue i { ldg 0 0 [a.toNat] (some .lstore) with aIn := 1, aOut := 1 } (storeImage fun l => (l.acc a).coef)

/-- LSTORE BAL ( -- ) A: ( a -- a ). -/
def execLstoreBal (i : Issue) : State → Out :=
  issue i { ldg 0 0 [8] (some .lstore) with aIn := 1, aOut := 1 } (storeImage Ledger.bal)

/-! ## Multiplication, division, allocation -/

/-- LMUL La ( lo hi -- ) (R259). -/
def execLmul (i : Issue) (a : BitVec 2) : State → Out :=
  issue i (ldgLong 2 0 false (heldAcc a) (some .lmul)) fun s _ _ x =>
    let y := x.drop 2
    match dblDecimal (x.dblTop 0) with
    | .bad k => ledgerDone s y x.ledger (some k)
    | .value m => entered s y x.ledger a ((x.ledger.acc a).times m (x.ledger.opScale a))

/-- One step of long division on coefficients (R260): the remainder, and what the quotient gains. -/
def ledgerStep (r d : Int) (j : Nat) : Int × Int :=
  let sa : Int := if r < 0 then -1 else 1
  let sd : Int := if d < 0 then -1 else 1
  let u := d.natAbs * 10 ^ j
  let q : Nat := if d = 0 then 9 else min 9 (r.natAbs / u)
  (sa * ((r.natAbs : Int) - q * u), sa * sd * q * 10 ^ j)

/-- LDSTEP La ( lo hi j -- lo hi j' ) (R260). -/
def execLdstep (i : Issue) (a : BitVec 2) : State → Out :=
  issue i { ldg 3 3 [a.toNat, (a + 1).toNat] (some .ldstep) with rep := true } fun s _ _ x =>
    let j := (x.top 0).toNat
    let y := x.replace 1 [x.top 0 - 1]
    let l := x.ledger
    let b := a + 1
    match dblDecimal (x.dblTop 1) with
    | .bad k => ledgerDone s y l (some k)
    | .value d =>
      if 97 < j then ledgerDone s y l (some 6) else
      let l := if d = 0 then { l with status := l.status ||| 0x40 } else l
      let q := ledgerStep (l.acc a).coef d j
      let v := (l.acc b).coef + q.2
      if !fits98 v then ledgerDone s y l (some 7)
      else ledgerDone s y ((l.putAcc a { l.acc a with coef := q.1 }).putAcc b { l.acc b with coef := v })

/-- A whole share: 10^20. -/
def wholeShare : Nat := 10 ^ 20

/-- LSHARE La ( plo phi -- ) (R262, Table LDG.8). -/
def execLshare (i : Issue) (a : BitVec 2) (last : Bool) : State → Out :=
  issue i (ldgLong 2 0 false (a.toNat :: 9 :: 10 :: heldAcc (a + 1)) (some .lshare)) fun s _ _ x =>
    let y := x.drop 2
    let l := x.ledger
    let v := l.acc a
    let h := l.share.getD { owner := a, total := v.coef, scale := v.scale, mode := v.mode, cash := v.cash, prop := 0, allotted := 0 }
    let c := h.prop + (x.dblTop 0).toNat
    if h.owner ≠ a then ledgerDone s y l (some 9)
    else if !last && wholeShare < c then ledgerDone s y { l with share := some h } (some 9)
    else if last && c ≠ wholeShare then ledgerDone s y { l with share := none } (some 9)
    else
      let g := cashStep h.cash.toNat
      let u := if last then h.total else roundMode h.mode.toNat (h.total * c) (g * wholeShare) * g
      let b := a + 1
      match if fits98 u then (l.acc b).addAt (u - h.allotted) h.scale else none with
      | none => ledgerDone s y l (some 7)
      | some (w, sat) =>
        ledgerDone s y { l.putAcc b w with share := if last then none else some { h with prop := c, allotted := u } }
          (if sat then some 8 else none)

/-! ## Conversions: into (R264 to R268) -/

/-- What a conversion into an accumulator reads: a value at a scale, or a sub-code. -/
inductive ConvIn where
  | value (v : Int) (t : Nat)
  | bad (sub : Nat)
  deriving DecidableEq, Repr

/-- La and Ka as LCLR and an addition leave them, or OVERFLOW (R264). -/
def convInto (s : State) (y : Ctx) (l : Ledger) (a : BitVec 2) (r : ConvIn) : Res Done :=
  match r with
  | .bad k => ledgerDone s y l (some k)
  | .value v t => entered s { y with ledger := l } l a ({ l.acc a with coef := 0, kerf := 0 }.addAt v t)

/-- A checked decimal at a scale. -/
def Checked.conv (r : Checked) (t : Nat) : ConvIn :=
  match r with
  | .value v => .value v t
  | .bad k => .bad k

/-- The lengths of Table LDG.9. -/
def stringLength (fmt : Nat) (out : Bool) (n : Nat) : Bool :=
  match fmt with
  | 0 => 1 ≤ n && n ≤ 49
  | 1 => 1 ≤ n && n ≤ 98
  | _ => (if out then 2 ≤ n else 1 ≤ n) && n ≤ 99

/-- The words of a string of `n` bytes from byte `o`, with the bytes of each (R265). -/
def stringParts (a : WAddr) (o n : Nat) : List (WAddr × List Bool) :=
  let first := o / 4
  let last := (o + n - 1) / 4
  (List.range (last + 1 - first)).map fun k =>
    let w := first + k
    (WAddr.plus a w, byteRange (if w = first then o % 4 else 0) (if w = last then (o + n - 1) % 4 + 1 else 4))

/-- The bytes of a string from its words. -/
def stringBytes (o n : Nat) (ws : List Word) : List Nat :=
  (List.range n).map fun k => (wordByte (ws.getD ((o % 4 + k) / 4) 0) ((o % 4 + k) % 4)).toNat

/-- A sub-code for a condition that comes after the digit and sign checks: the lowest is raised (R252). -/
def Checked.unless (r : Checked) (bad : Bool) : Checked :=
  match r with
  | .bad k => .bad k
  | .value v => if bad then .bad 3 else .value v

/-- A string read in its format (R265). -/
def readString (fmt : Nat) (b : List Nat) : Checked :=
  let high := b.any (256 ≤ ·)
  match fmt with
  | 0 =>
    let n := b.flatMap fun v => [v / 16 % 16, v % 16]
    (checkDecimal n.dropLast (n.getLastD 0)).unless high
  | 1 =>
    let zone := b.dropLast.any fun v => v / 16 % 16 != 3 && v / 16 % 16 != 15
    (checkDecimal (b.map (· % 16)) (b.getLastD 0 / 16 % 16)).unless (high || zone)
  | _ =>
    let signed := b.headD 0 == 0x2B || b.headD 0 == 0x2D
    let d := if signed then b.drop 1 else b
    if d.isEmpty || 98 < d.length || d.any (fun v => v < 0x30 || 0x39 < v) then .bad 3
    else .value (if b.headD 0 = 0x2D then -(digitsValue (d.map (· - 0x30)) : Int) else digitsValue (d.map (· - 0x30)))

/-- A decimal floating-point value for an accumulator of scale `s` (R267). -/
def decIn (f : DecFormat) (v s : Nat) : ConvIn :=
  match f.decode v with
  | none => .bad 3
  | some (c, q) =>
    if 0 ≤ q then .value (c * 10 ^ q.toNat) 0
    else
      let t := (-q).toNat
      if t ≤ s + 40 then .value c t
      else if c % 10 ^ (t - (s + 40)) = 0 then .value (c / 10 ^ (t - (s + 40))) (s + 40) else .bad 4

/-- The exception record of a binary64 conversion. The manual gives LCONV no operation code there, and no POS for a result
that is no cell: those bits are free (log entry 7). -/
def convRecord (x : Ctx) (a : BitVec 72) (free : Word) (pos : Option Nat) (raised : BitVec 5) : FpRecord :=
  { addr := x.pc, a := a
    info := BitVec.ofNat 36 (free.toNat % 16 + 32 * raised.toNat + 1024 * ((pos.getD (free.toNat / 1024)) % 32) + 32768) }

/-- Binary64 into: rounded to La's grid, the residue discarded (R268). The flags are added to the floating-point status. -/
def float64In (s : State) (x y : Ctx) (a : BitVec 2) : Res Done :=
  let q := s.drawWord
  let flagged := fun (f : BitVec 5) =>
    { y with fpu := y.fpu.raise f (convRecord x (x.dblTop 0) q.1 none) }
  match Fval.of (bits64 (x.dblTop 0)) with
  | .fin neg m e =>
    let v := x.ledger.acc a
    let num := if 0 ≤ e then m * 2 ^ e.toNat * 10 ^ v.scale else m * 10 ^ v.scale
    let den := v.grid * if 0 ≤ e then 1 else 2 ^ (-e).toNat
    let r := roundMode v.mode.toNat (if neg then -(num : Int) else num) den * v.grid
    if !fits98 r then ledgerDone s y x.ledger (some 7)
    else
      let l := x.ledger.putAcc a { v with coef := r, kerf := 0 }
      if num % den = 0 then ledgerDone s y l else ledgerDone q.2 (flagged flagIX) l
  | _ => ledgerDone q.2 (flagged flagIV) x.ledger (some 3)

/-- LCONV into La from the stack or a string. -/
def convIn (a : BitVec 2) (fmt : Nat) : Work := fun s p c x =>
  let l := x.ledger
  let t := l.opScale a
  match fmt with
  | 3 => convInto s (x.drop 1) l a (.value (x.top 0).toInt t)
  | 4 => convInto s (x.drop 2) l a (.value (x.dblTop 0).toInt t)
  | 5 => convInto s (x.drop 2) l a (decIn decimal64 (bits64 (x.dblTop 0)).toNat (l.acc a).scale)
  | 6 => convInto s (x.drop 4) l a (decIn decimal128 (bits64 (x.dblTop 0) ++ bits64 (x.dblTop 2)).toNat (l.acc a).scale)
  | 7 => float64In s x (x.drop 2) a
  | _ =>
    let n := (x.top 0).toNat
    let o := ((x.top 1).extractLsb' 0 18).toNat
    if !stringLength fmt false n then ledgerDone s (x.drop 2) l (some 3) else
    (s.readParts p c (stringParts x.atop o n)).bind fun q =>
      convInto q.2 (x.drop 2) l a ((readString fmt (stringBytes o n q.1)).conv t)

/-! ## Conversions: out -/

/-- value(La) as a whole number of 10^−t; none where a digit other than 0 would go (R264). -/
def Accum.at (v : Accum) (t : Nat) : Option Int :=
  if v.scale ≤ t then some (v.coef * 10 ^ (t - v.scale))
  else if v.coef % 10 ^ (v.scale - t) = 0 then some (v.coef / 10 ^ (v.scale - t)) else none

/-- The cells of an out form on the stack, the deepest first, or a sub-code with all-zero cells (R264, R266). -/
def convPush (s : State) (x : Ctx) (n : Nat) (r : List Word ⊕ Nat) : Res Done :=
  match r with
  | .inl ws => ledgerDone s (x.pushAll ws) x.ledger
  | .inr k => ledgerDone s (x.pushAll (List.replicate n 0)) x.ledger (some k)

/-- A coefficient of `bits` bits in two's complement (R266). -/
def binaryOut (v : Option Int) (bits : Nat) : Int ⊕ Nat :=
  match v with
  | none => .inr 4
  | some k => if -(2 ^ (bits - 1)) ≤ k ∧ k < 2 ^ (bits - 1) then .inl k else .inr 7

/-- The bytes of a value in a string format, or a sub-code (R265). -/
def writeString (fmt n : Nat) (v : Option Int) : List NineBit ⊕ Nat :=
  match v with
  | none => .inr 4
  | some k =>
    let size := match fmt with
      | 0 => 2 * n - 1
      | 1 => n
      | _ => n - 1
    if 10 ^ size ≤ k.natAbs then .inr 7 else
    let d := digitsOf size k.natAbs
    let b : List Nat := match fmt with
      | 0 =>
        let m := d ++ [signCode k]
        (List.range n).map fun i => 16 * m.getD (2 * i) 0 + m.getD (2 * i + 1) 0
      | 1 => (List.range n).map fun i => 16 * (if i + 1 = n then signCode k else 15) + d.getD i 0
      | _ => (if k < 0 then 0x2D else 0x2B) :: d.map (0x30 + ·)
    .inl (b.map (BitVec.ofNat 9))

/-- A string is written: each word's bytes (R309). -/
def State.putString (s : State) (p c : Nat) (o : Nat) (parts : List (WAddr × List Bool)) (b : List NineBit) : State :=
  (List.range parts.length).foldl (fun t k =>
    match parts[k]? with
    | none => t
    | some (a, m) =>
      let w := wordOfBytes ((List.range 4).map fun i => if o % 4 ≤ 4 * k + i then b.getD (4 * k + i - o % 4) 0 else 0)
      t.putBytes p c a m w) s

/-- LCONV out to a string: every word is checked before any byte is written. A word written in part must be readable. -/
def stringOut (a : BitVec 2) (fmt : Nat) : Work := fun s p c x =>
  if !(s.eng p).sbuf.isEmpty then .wait else
  let n := (x.top 0).toNat
  let o := ((x.top 1).extractLsb' 0 18).toNat
  let y := x.drop 2
  if !stringLength fmt true n then ledgerDone s y x.ledger (some 3) else
  let parts := stringParts x.atop o n
  match s.accessBars p c true (parts.map (·.1)) with
  | some k => .trap 2 k
  | none =>
    match s.eccBars p ((parts.filter fun q => q.2 != fullWord).map (·.1)) with
    | some k => .trap 14 k
    | none =>
      match writeString fmt n ((x.ledger.acc a).at (x.ledger.opScale a)) with
      | .inr k => ledgerDone s y x.ledger (some k)
      | .inl b =>
        let s := parts.foldl (fun t q => t.touch p c q.1) s
        ledgerDone (s.putString p c o parts b) y x.ledger

/-- Binary64 out: nearest-even, with the inexact flag (R268). -/
def float64Out (s : State) (x : Ctx) (a : BitVec 2) : Res Done :=
  let v := x.ledger.acc a
  let r := roundRat 0 (decide (v.coef < 0)) v.coef.natAbs (10 ^ v.scale)
  let w := cells64 r.bits
  let y := x.pushAll [loWord w, hiWord w]
  if !r.inexact then ledgerDone s y x.ledger else
  let q := s.drawWord
  ledgerDone q.2 { y with fpu := y.fpu.raise flagIX (convRecord x 0 q.1 (some (x.depth + 1))) } x.ledger

/-- LCONV out of La to the stack or a string. -/
def convOut (a : BitVec 2) (fmt : Nat) : Work := fun s p c x =>
  let v := x.ledger.acc a
  let t := x.ledger.opScale a
  match fmt with
  | 3 => convPush s x 1 (match binaryOut (v.at t) 36 with
    | .inl k => .inl [BitVec.ofInt 36 k]
    | .inr k => .inr k)
  | 4 => convPush s x 2 (match binaryOut (v.at t) 72 with
    | .inl k => .inl [loWord (BitVec.ofInt 72 k), hiWord (BitVec.ofInt 72 k)]
    | .inr k => .inr k)
  | 5 => convPush s x 2 (match decimal64.out v.coef v.scale with
    | some n => let w := cells64 (BitVec.ofNat 64 n); .inl [loWord w, hiWord w]
    | none => .inr 4)
  | 6 => convPush s x 4 (match decimal128.out v.coef v.scale with
    | some n =>
      let l := cells64 (BitVec.ofNat 64 n)
      let h := cells64 (BitVec.ofNat 64 (n / 2 ^ 64))
      .inl [loWord l, hiWord l, loWord h, hiWord h]
    | none => .inr 4)
  | 7 => float64Out s x a
  | _ => stringOut a fmt s p c x

/-- Cells that a format holds on the stack (Table LDG.9). -/
def convCells (fmt : Nat) : Nat :=
  match fmt with
  | 3 => 1
  | 4 => 2
  | 5 => 2
  | 6 => 4
  | 7 => 2
  | _ => 0

/-- LCONV: the stack effect is that of its format and direction (Table LDG.9). The binary64 forms complete in the
floating-point section's order (R284). -/
def execLconv (i : Issue) (a : BitVec 2) (out : Bool) (fmt : BitVec 4) : State → Out :=
  let f := fmt.toNat
  let string := f < 3
  let h := ldgLong (if string then 2 else if out then 0 else convCells f) (if out then convCells f else 0) (7 < f)
    (if out then [a.toNat] else []) (some .lconv)
  issue i { h with
      aIn := bit string, aOut := bit string, fpWait := f == 7
      data := fun x => if string then some (WAddr.plus x.atop (((x.top 1).extractLsb' 0 18).toNat / 4)) else none }
    (if out then convOut a f else convIn a f)

end Sys2Proof.Machine
end

