-- ==== Sys2Proof/Machine/Inspect.lean ====
section
/-!
DEFINITION. What a debugger sees of a context (Table DBG.5): the value of each item and the effect of writing it. Where the
table gives no layout, log entry 50 states the one used.
-/

namespace Sys2Proof.Machine

/-! ## Windows -/

/-- The place in the resident windows of the window at ring position `k`: the base window is window 0, and window n lies at
position n mod 8. -/
def Ctx.ringPlace (x : Ctx) (k : Nat) : Option Nat :=
  (List.range x.windows.length).find? fun j => (x.spilled + x.windows.length - 1 - j) % 8 == k % 8

/-- The window at ring position `k`, or the trap window for 8. -/
def Ctx.ringWindow (x : Ctx) (k : Nat) : Option Window :=
  if k = 8 then some x.trapWin else if 8 < k then none else (x.ringPlace k).bind fun j => x.windows[j]?

/-- That window replaced. -/
def Ctx.putRing (x : Ctx) (k : Nat) (w : Window) : Ctx :=
  if k = 8 then { x with trapWin := w } else
  match x.ringPlace k with
  | some j => { x with windows := x.windows.set j w }
  | none => x

/-- A spilled window would lie at ring position `k`. -/
def Ctx.ringSpilled (x : Ctx) (k : Nat) : Bool := (x.ringPlace k).isNone && (List.range x.spilled).any fun n => n % 8 == k

/-- A window with its depth and dirty bits written: the cells of a clean group read 0 (R164). -/
def Window.header (w : Window) (depth : Nat) (dirty : BitVec 4) : Window :=
  { cells := w.cells.filter fun q => dirty.getLsbD (q.1 / 4), depth := depth, dirty := dirty }

/-- Group 0x001. -/
def Ctx.windowWord (x : Ctx) (k : Nat) : Word :=
  match x.ringWindow k with
  | some w => BitVec.ofNat 36 (w.depth + 32 * w.dirty.toNat + 512)
  | none => BitVec.ofNat 36 (1024 * bit (k < 8 && x.ringSpilled k))

/-! ## Decimal items -/

/-- Word `k` of a value held as `n` words of nibbles, digits first and the sign code last (R237, R257). -/
def decimalWord (n : Nat) (v : Int) (k : Nat) : Word :=
  nibbleWord (((digitsOf (9 * n - 1) v.natAbs ++ [signCode v]).drop (9 * k)).take 9)

/-- The value with that word replaced, if every nibble of it is valid (R239). -/
def setDecimalWord (n : Nat) (v : Int) (k : Nat) (w : Word) : Option Int :=
  let d := digitsOf (9 * n - 1) v.natAbs ++ [signCode v]
  let e := d.take (9 * k) ++ wordNibbles w ++ d.drop (9 * k + 9)
  match checkDecimal (e.take (9 * n - 1)) (e.getD (9 * n - 1) 0) with
  | .value u => some u
  | .bad _ => none

/-- Index 75: four scales of 6 bits, then four modes of 3 bits. -/
def Ledger.scalesWord (l : Ledger) : Word :=
  BitVec.ofNat 36 ((List.range 4).foldl (fun v a =>
    let r := l.acc (BitVec.ofNat 2 a)
    v + r.scale % 64 * 64 ^ a + r.mode.toNat * (2 ^ 24 * 8 ^ a)) 0)

/-- A write of index 75. -/
def Ledger.setScales (l : Ledger) (w : Word) : Ledger :=
  (List.range 4).foldl (fun l a =>
    let r := l.acc (BitVec.ofNat 2 a)
    l.putAcc (BitVec.ofNat 2 a) { r with scale := (w.extractLsb' (6 * a) 6).toNat, mode := w.extractLsb' (24 + 3 * a) 3 }) l

/-- Index 78: owner, open, scale, mode and cash step of the share sequence. -/
def Share.word (h : Share) : Word :=
  BitVec.ofNat 36 (h.owner.toNat + 4 + 8 * (h.scale % 64) + 512 * h.mode.toNat + 4096 * h.cash.toNat)

/-- Group 0x005. -/
def Ledger.inspect (l : Ledger) (i : Nat) : Option Word :=
  if i < 44 then some (decimalWord 11 (l.acc (BitVec.ofNat 2 (i / 11))).coef (i % 11))
  else if i < 55 then some (decimalWord 11 l.bal (i - 44))
  else if i < 75 then some (decimalWord 5 (l.acc (BitVec.ofNat 2 ((i - 55) / 5))).kerf ((i - 55) % 5))
  else if i = 75 then some l.scalesWord
  else if i = 76 then some (BitVec.ofNat 36 (l.osc.getD 63))
  else if i = 77 then some l.word
  else if i = 78 then some (match l.share with
    | some h => h.word
    | none => 0)
  else if i = 79 ∨ i = 80 then some (match l.share with
    | some h => BitVec.ofNat 36 (if i = 79 then h.prop / 2 ^ 36 else h.prop)
    | none => 0)
  else none

/-- A write to group 0x005: an invalid nibble, a scale above 40 or a share sequence that is not open is refused. -/
def Ledger.adjust (l : Ledger) (i : Nat) (w : Word) : Option Ledger :=
  if i < 44 then
    let a := BitVec.ofNat 2 (i / 11)
    (setDecimalWord 11 (l.acc a).coef (i % 11) w).map fun v => l.putAcc a { l.acc a with coef := v }
  else if i < 55 then (setDecimalWord 11 l.bal (i - 44) w).map fun v => { l with bal := v }
  else if i < 75 then
    let a := BitVec.ofNat 2 ((i - 55) / 5)
    (setDecimalWord 5 (l.acc a).kerf ((i - 55) % 5) w).map fun v => l.putAcc a { l.acc a with kerf := v }
  else if i = 75 then
    if (List.range 4).all fun a => (w.extractLsb' (6 * a) 6).toNat ≤ 40 then some (l.setScales w) else none
  else if i = 76 then
    if w = 63 then some { l with osc := none } else if w.toNat ≤ 40 then some { l with osc := some w.toNat } else none
  else if i = 77 then some { l with status := w &&& 0x773 }
  else if i = 78 then
    if !w.getLsbD 2 then some { l with share := none }
    else if 40 < (w.extractLsb' 3 6).toNat then none
    else match l.share with
      | some h => some { l with share := some { h with
          owner := w.extractLsb' 0 2, scale := (w.extractLsb' 3 6).toNat, mode := w.extractLsb' 9 3, cash := w.extractLsb' 12 3 } }
      | none => none
  else match l.share with
    | some h =>
      if i = 79 then some { l with share := some { h with prop := w.toNat * 2 ^ 36 + h.prop % 2 ^ 36 } }
      else if i = 80 then some { l with share := some { h with prop := h.prop / 2 ^ 36 * 2 ^ 36 + w.toNat } }
      else none
    | none => none

/-! ## Floating point (group 0x006) -/

/-- A word of the record replaced; index 1 to 7 names record words 1 to 7. -/
def FpRecord.put (r : FpRecord) (k : Nat) (w : Word) : FpRecord :=
  match k with
  | 1 => { r with info := w &&& 0xFFFF }
  | 2 => { r with a := dbl w (loWord r.a) }
  | 3 => { r with a := dbl (hiWord r.a) w }
  | 4 => { r with b := dbl w (loWord r.b) }
  | 5 => { r with b := dbl (hiWord r.b) w }
  | 6 => { r with c := dbl w (loWord r.c) }
  | _ => { r with c := dbl (hiWord r.c) w }

/-- Group 0x006. -/
def Fpu.inspect (f : Fpu) (i : Nat) : Option Word :=
  if i = 0 then some f.word else if i < 8 then some (f.record.word i) else none

/-- A write to group 0x006. -/
def Fpu.adjust (f : Fpu) (i : Nat) (w : Word) : Option Fpu :=
  if i = 0 then some { f with status := w &&& 0x1F1F }
  else if i < 8 then some { f with record := f.record.put i w } else none

/-! ## Control state (group 0x004) -/

/-- MODE, and MODE as it will be once every pending change has taken effect. -/
def Ctx.modeWord (x : Ctx) : Word := BitVec.ofNat 36 (x.mode.toNat + 16 * x.applyModes.mode.toNat)

/-- The code of a context state read back. -/
def CtxState.ofCode (k : Nat) : Option CtxState :=
  match k with
  | 0 => some .free
  | 1 => some .assigned
  | 2 => some .ready
  | 3 => some .blocked
  | 4 => some .sleeping
  | 5 => some .frozen
  | 6 => some .halted
  | _ => none

/-- Group 0x004. -/
def Ctx.control (x : Ctx) (now i : Nat) : Option Word :=
  let lvl : Option LoopLevel := x.loops[i % 4]?
  if i = 0 then some (x.pc.setWidth 36)
  else if i = 1 then some (BitVec.ofNat 36 (bit x.c + 2 * bit x.v + 4 * bit x.z + 8 * bit x.n))
  else if i = 2 then some x.modeWord
  else if i = 3 then some (x.cb.setWidth 36)
  else if i = 4 then some (x.tvb.setWidth 36)
  else if i = 5 then some (x.wsp.setWidth 36)
  else if i = 6 then some (x.wsl.setWidth 36)
  else if i = 7 then some (x.rc.setWidth 36)
  else if i < 12 then some ((lvl.map fun l => l.start.setWidth 36).getD 0)
  else if i < 16 then some ((lvl.map fun l => l.stop.setWidth 36).getD 0)
  else if i < 20 then some ((lvl.map fun l => l.count.setWidth 36).getD 0)
  else if i = 20 then some (BitVec.ofNat 36 (x.jobTimer.left now))
  else if i = 21 then some (BitVec.ofNat 36 x.state.code)
  else none

/-- An open loop level changed. -/
def Ctx.setLoop (x : Ctx) (k : Nat) (f : LoopLevel → LoopLevel) : Option Ctx :=
  (x.loops[k]?).map fun l => { x with loops := x.loops.set k (f l) }

/-- A write to group 0x004. The job timer stands while the context is halted, or runs where DBG_WDT_RUN.RUN lets it. The state
written is the one that RESUME returns to. -/
def Ctx.setControl (x : Ctx) (now : Nat) (run : Bool) (i : Nat) (w : Word) : Option Ctx :=
  if i = 0 then some { x with pc := w.setWidth 26 }
  else if i = 1 then some { x with c := w.getLsbD 0, v := w.getLsbD 1, z := w.getLsbD 2, n := w.getLsbD 3 }
  else if i = 2 then
    let m : BitVec 4 := w.extractLsb' 4 4
    some { x with mode := w.setWidth 4, modePend := if m = w.setWidth 4 then [] else [(2, 0xF, m)] }
  else if i = 3 then some { x with cb := w.setWidth 8 }
  else if i = 4 then some { x with tvb := w.setWidth 24 }
  else if i = 5 then some { x with wsp := w.setWidth 14 }
  else if i = 6 then some { x with wsl := w.setWidth 14 }
  else if i = 7 then some { x with rc := w.setWidth 8 }
  else if i < 8 then none
  else if i < 12 then x.setLoop (i % 4) fun l => { l with start := w.setWidth 26 }
  else if i < 16 then x.setLoop (i % 4) fun l => { l with stop := w.setWidth 26 }
  else if i < 20 then x.setLoop (i % 4) fun l => { l with count := w.setWidth 24 }
  else if i = 20 then
    let n := (w.setWidth 32).toNat
    some { x with jobTimer := if n = 0 then .off else if run then .until (now + n) else .paused n }
  else if i = 21 then (CtxState.ofCode w.toNat).map fun st => if st = .halted then x else { x with haltedFrom := st, waitDone := false }
  else none

/-! ## Stacks (groups 0x002 and 0x003): entry 0 is the oldest -/

/-- An entry, or the depth at index `top`. -/
def stackItem {w : Nat} (l : List (BitVec w)) (top i : Nat) : Option Word :=
  if i = top then some (BitVec.ofNat 36 l.length)
  else if i < top then some ((l.reverse.getD i 0).setWidth 36) else none

/-- An entry, or the depth, written: a deeper stack gains entries of 0, a shallower one loses its newest. -/
def setStackItem {w : Nat} (l : List (BitVec w)) (top i : Nat) (v : Word) : Option (List (BitVec w)) :=
  if i = top then
    if v.toNat ≤ top then some ((l.reverse.take v.toNat ++ List.replicate (v.toNat - l.length) 0).reverse) else none
  else if i < l.length then some (l.reverse.set i (v.setWidth w)).reverse else none

/-! ## The whole table -/

/-- The item of a context at a group and an index, where Table DBG.5 names one. -/
def Ctx.inspect (x : Ctx) (now g i : Nat) : Option Word :=
  match g with
  | 0 => if i < 144 then some (((x.ringWindow (i / 16)).map fun w => w.cell (i % 16)).getD 0) else none
  | 1 => if i < 9 then some (x.windowWord i) else none
  | 2 => stackItem x.astack 8 i
  | 3 => stackItem x.rstack 32 i
  | 4 => x.control now i
  | 5 => x.ledger.inspect i
  | 6 => x.fpu.inspect i
  | _ => none

/-- A write of that item: the context, where the item can be written. -/
def Ctx.adjust (x : Ctx) (now : Nat) (run : Bool) (g i : Nat) (w : Word) : Option Ctx :=
  match g with
  | 0 => if i < 144 then (x.ringWindow (i / 16)).map fun q => x.putRing (i / 16) (q.write (i % 16) w) else none
  | 1 =>
    let d := (w.extractLsb' 0 5).toNat
    if i < 9 ∧ d ≤ 16 then (x.ringWindow i).map fun q => x.putRing i (q.header d (w.extractLsb' 5 4)) else none
  | 2 => (setStackItem x.astack 8 i w).map fun l => { x with astack := l }
  | 3 => (setStackItem x.rstack 32 i w).map fun l => { x with rstack := l }
  | 4 => x.setControl now run i w
  | 5 => (x.ledger.adjust i w).map fun l => { x with ledger := l.seal x.ledger }
  | 6 => (x.fpu.adjust i w).map fun f => { x with fpu := f }
  | _ => none

end Sys2Proof.Machine
end

