-- ==== Sys2Proof/Machine/Epoch.lean ====
section
/-!
DEFINITION. The epoch boundary (R119 to R129, R133, R137 to R139, R343, R385): every pending setting applies in the order of
Table DSP.1, then the steal table and the granules follow. Granule zeroing and the affinity rebuild.
-/

namespace Sys2Proof.Machine

/-! ## Rows of Table DSP.1 -/

/-- A written grant applies to a granule under the rule of two ticks (R121). -/
def Gran.apply (g : Gran) (t : Nat) : Gran :=
  match g.wrote with
  | none => g
  | some w => if w + 2 ≤ t then { g with curKind := g.kind, curOwner := g.owner, wrote := none } else g

/-- The mirror reserve and the grants apply. -/
def State.applyGrants (s : State) (t : Nat) : State :=
  let f := fun (x : Nat × Gran) => (x.1, x.2.apply t)
  { s with ldk := { s.ldk with mirRes := s.ldk.mirRes.apply t, grans := s.ldk.grans.map f } }

/-- The shares and the priority of a user apply. -/
def Inst.applyShares (x : Inst) (t : Nat) : Inst :=
  let f := fun (r : Nat × Gov Reg32) => (r.1, r.2.apply t)
  { x with shares := x.shares.map f, prio := x.prio.apply t }

/-- The shares and the priorities of every user apply. -/
def State.applyShares (s : State) (t : Nat) : State :=
  let f := fun (x : Nat × Inst) => (x.1, x.2.applyShares t)
  { s with insts := s.insts.map f }

/-- A rebuilt affinity table becomes the front copy, and queued jobs move to their new home stands (R128, R130). It is no written setting:
HOLD does not keep it back. -/
def State.swapAffinity (s : State) (t : Nat) : State :=
  match s.dsp.affBack, s.dsp.affReady with
  | some b, some r =>
    if r + 2 ≤ t then
      let s := { s with dsp := { s.dsp with affFront := b, affBack := none, affReady := none } }
      let move := fun (x : Nat × Job) =>
        (x.1, if x.2.queued && x.2.st == .accepted then { x.2 with stand := s.homeStand x.2.chan.toNat } else x.2)
      { s with jobs := s.jobs.map move }
    else s
  | _, _ => s

/-- DSP_STEAL_CTL applies; EN 0 ends every HOT stand and its counting. The flag says that counting is on at this boundary
(R133). -/
def State.applySteal (s : State) (t : Nat) : Bool × State :=
  let was := s.dsp.steal.cur.1
  let g := s.dsp.steal.apply t
  let s := { s with dsp := { s.dsp with steal := g } }
  if g.cur.1 then (was, s)
  else
    let cool := fun (x : Nat × StandQ) => (x.1, { x.2 with hot := false, qual := 0 })
    (false, { s with dsp := { s.dsp with stands := s.dsp.stands.map cool } })

/-- Channel refreshes whose entry has been read and that were asked for 2 ticks ago apply (R73). -/
def State.applyRefreshes (s : State) (t : Nat) : State :=
  let due := fun (x : Nat × Chan) => match x.2.refresh with
    | .got a _ _ _ => decide (a + 2 ≤ t)
    | .failed a _ _ => decide (a + 2 ≤ t)
    | _ => false
  (((s.chans.filter due).map (·.1)).foldl State.applyRefresh s).endTakeover

/-- The durable policies apply. -/
def State.applyDurable (s : State) (t : Nat) : State :=
  let f := fun (x : Nat × Inst) => (x.1, { x.2 with durable := x.2.durable.apply t })
  { s with insts := s.insts.map f }

/-- Slots other than `n` whose front or back owner is user `i`. -/
def State.otherSlots (s : State) (n : Nat) (i : BitVec 8) : Nat :=
  ({ s with units := { s.units with slots := Assoc.erase s.units.slots n } } : State).slotsOwned i

/-- INST_SHR_GRAN.KEYS in force. -/
def State.keyShare (s : State) (i : BitVec 8) : Nat := min 1024 (((s.inst i.toNat).share 1).cur.extractLsb' 16 11).toNat

/-- A slot's usage limit applies, and its back copy becomes the front copy (R343). A key of a user that holds its share in
other slots waits with reason 4 (Table CIZ.3, log entry 40). -/
def State.applySlot (s : State) (t n : Nat) : State :=
  let k := s.slot n
  let k := { k with limit := k.limit.apply t }
  let s := s.putSlot n k
  match k.back with
  | none => s
  | some b =>
    if t < k.backAt + 2 then s
    else if b.kind ≠ 0 ∧ s.keyShare b.owner ≤ s.otherSlots n b.owner then
      if k.reason = 4 then s else (s.putSlot n { k with reason := 4 }).arrive 626
    else
      let reason := if k.reason = 4 then 0 else k.reason
      (s.putSlot n { k with front := b, back := none, counter := 0, reason := reason }).arrive 627

/-- Every slot's limit and swap apply. -/
def State.applySlots (s : State) (t : Nat) : State := (s.units.slots.map (·.1)).foldl (fun u n => u.applySlot t n) s

/-- A period table swap: the target applies, and once its epoch is reached and the back copy has been complete for 2 ticks
the copies swap (R129). -/
def Period.apply (p : Period) (t : Nat) (epoch : BitVec 32) : Period :=
  let g := p.swap.apply t
  let due := p.swapDue || (p.swap.wrote.isSome && g.wrote.isNone)
  let p := { p with swap := g, swapDue := due }
  if due && (epoch - g.cur).toNat < 2 ^ 31 && p.ready && p.readyAt + 2 ≤ t
  then { p with front := !p.front, ready := false, swapDue := false }
  else p

/-- Every user's period table swap, and the epoch period, apply. -/
def State.applyPeriods (s : State) (t : Nat) : State :=
  let f := fun (x : Nat × Inst) => (x.1, { x.2 with period := x.2.period.apply t s.dsp.epoch })
  { s with insts := s.insts.map f, dsp := { s.dsp with period := s.dsp.period.apply t } }

/-! ## Steal table (R133) -/

/-- Jobs queued at a stand. -/
def State.depthOf (s : State) (d : Nat) : Nat := (s.jobs.filter fun x => x.2.queued && x.2.stand == d).length

/-- A stand's row at a boundary: its depth, and whether it is HOT. `total` and `n` are the depths and the number of the
stands that hold a logical engine. -/
def StandQ.judged (q : StandQ) (c : Bool × BitVec 8) (counts : Bool) (depth total n : Nat) : StandQ :=
  let qual := counts && 0 < n && 2 * total < depth * n && c.2.toNat ≤ depth
  let run := if qual then min 4 (q.qual + 1) else 0
  let stays := q.hot && !(depth * n ≤ total)
  { q with depth := BitVec.ofNat 16 (min 65535 depth), qual := run, hot := c.1 && (stays || run == 4) }

/-- The steal table is computed from the depths of this boundary. -/
def State.judgeStands (s : State) (counts : Bool) : State :=
  let live := (List.range 16).filter s.standLive
  let total := live.foldl (fun n d => n + s.depthOf d) 0
  (List.range 16).foldl (fun t d => t.putStand d ((t.stand d).judged s.dsp.steal.cur counts (s.depthOf d) total live.length)) s

/-! ## Granules (R137 to R139, R385) -/

/-- INST_SHR_GRAN.GRAN in force. -/
def State.granShare (s : State) (i : BitVec 8) : Nat := min 1024 (((s.inst i.toNat).share 1).cur.extractLsb' 0 11).toNat

/-- A granule takes a kind: a new one drains the old, and the old one given back ends the drain (R139). -/
def Gran.give (g : Gran) (k : GranKind) : Gran :=
  match g.draining with
  | some old => if old = k then { g with applied := k, draining := none } else { g with applied := k }
  | none => if g.applied = k then g else { g with applied := k, draining := some g.applied }

/-- What a granule's grant gives it, with `used` granules already given to each user: the kind, and whether the reserve
overrides the grant or the user's share leaves it out. -/
def State.granTarget (s : State) (used : List (Nat × Nat)) (g : Nat) (x : Gran) : GranKind × Bool × Bool :=
  if g < 32 then (.period, false, false)
  else if 1024 - min 992 s.ldk.mirRes.cur.toNat ≤ g then (.mirror, x.curKind != 0, false)
  else if x.curKind = 2 then (.system, false, false)
  else if x.curKind = 1 then
    if (Assoc.lookup used x.curOwner.toNat).getD 0 < s.granShare x.curOwner then (.inst x.curOwner, false, false)
    else (.free, false, true)
  else (.free, false, false)

/-- The granules from `g` on take what their grants give them. CONFLICT and GRANX are set where a grant is newly overridden or
newly left out (R138, R385). -/
def State.giveGranules (s : State) : List Nat → List (Nat × Nat) → State
  | [], _ => s
  | g :: t, used =>
    let x := s.gran g
    let q := s.granTarget used g x
    let used := match q.1 with
      | .inst i => Assoc.insert used i.toNat ((Assoc.lookup used i.toNat).getD 0 + 1)
      | _ => used
    let grant := (x.curKind, x.curOwner)
    let y := { x.give q.1 with
      overridden := if q.2.1 then some grant else none, leftOut := if q.2.2 then some x.curOwner else none }
    let s := if y = x then s else s.putGran g y
    let s := if q.2.1 && x.overridden != some grant then { s with ldk := { s.ldk with conflict := true } } else s
    let s := if q.2.2 && x.leftOut != some x.curOwner then s.modInst x.curOwner.toNat fun i => { i with granx := true } else s
    s.giveGranules t used

/-! ## The boundary -/

/-- A takeover's channel table reads begin (R416). -/
def State.takeoverReads (s : State) : State :=
  if !s.mir.takeRead then s else
  let s := { s with mir := { s.mir with takeRead := false } }
  let taken := (s.insts.filter fun x => x.2.home == 2).map (·.1)
  let mine := (List.range 8192).filter fun c => taken.any fun i => s.ownsChan i c
  (mine.foldl (fun t c => t.askRefresh c true) s).endTakeover

/-- Pending values may apply at the boundary of tick `t`: not while HOLD is 1, nor until it has been 0 for 2 ticks (R122). -/
def State.applies (s : State) (t : Nat) : Bool := !s.dsp.hold && s.dsp.holdCleared + 2 ≤ t

/-- Every row of Table DSP.1, from the first to the last (R125), then what the new settings decide. HOLD 1 also withholds a period table
swap whose target applied before and is reached (log entry 58). -/
def State.applyAll (s : State) (t : Nat) : State :=
  let s := ((s.applyGrants t).applyShares t).swapAffinity t
  let q := s.applySteal t
  let s := (((q.2.applyRefreshes t).applyDurable t).applySlots t).applyPeriods t
  let s := (s.judgeStands q.1).giveGranules (List.range 1024) []
  s.trimCache.takeoverReads

/-- The next boundary falls one period after this one, in the period of the epoch that begins (R119, R120). -/
def Dsp.arm (d : Dsp) (t : Nat) : Dsp := { d with due := some (t + d.periodNow) }

/-- EPOCH_BOUNDARY: the epoch number counts, and the pending settings apply (R119 to R129). A boundary that falls during RETAIN
changes nothing, and the next one falls a period later (R46, log entry 14). -/
def execEpochBoundary (s : State) : Out :=
  let s := { s with out := [] }
  match s.dsp.due with
  | none => .next s
  | some t =>
    if !s.ready || s.now < t then .next s else
    if s.life.power == .retain then .next { s with dsp := s.dsp.arm t } else
    let s := { s with dsp := { s.dsp with epoch := s.dsp.epoch + 1 } }
    let s := if s.applies t then s.applyAll t
      else ((s.swapAffinity t).judgeStands s.dsp.steal.cur.1).giveGranules (List.range 1024) []
    let s := { s with dsp := s.dsp.arm t }
    .next (s.pump.stepSets.replayPump.placePump).settle

/-- AFFINITY_REBUILD_DONE: the back copy of the affinity table is complete (R128). -/
def execAffinityRebuildDone (s : State) : Out :=
  let s := { s with out := [] }
  if s.up && s.dsp.affBack.isSome && s.dsp.affReady.isNone then
    .next { s with dsp := { s.dsp with affReady := some s.now } }
  else .next s

/-- Every word of granule `g` is zero and loses its mark (R139, R143). -/
def LogDeck.zero (l : LogDeck) (g : Nat) : LogDeck :=
  { l with mem := l.mem.filter fun x => granuleOf x.1 != g, bad := l.bad.filter fun w => granuleOf w != g
           resv := l.resv.filter fun r => granuleOf (8 * r.1) != g }

/-- GRANULE_ZEROING_DONE: a DRAINING granule without a holder has been zeroed, and goes to its new owner (R139). -/
def execGranuleZeroingDone (g : BitVec 10) (s : State) : Out :=
  let s := { s with out := [] }
  let n := g.toNat
  let x := s.gran n
  if !s.works || x.draining.isNone || s.granHeld n then .next s
  else .next ({ s with ldk := s.ldk.zero n }.putGran n { x with draining := none }).settle

end Sys2Proof.Machine
end

