-- ==== Sys2Proof/Machine/Sync.lean ====
section
/-!
DEFINITION. The states of the mirror link (R407 to R409, R412 to R420): sessions, loss, takeover, fencing and the
resynchronisation that ends in PAIRED.
-/

namespace Sys2Proof.Machine

/-! ## Leaving the pair (R412) -/

/-- An own entry that no RETIRE can follow moves to the retire list once its commit has posted. -/
def State.releasePosted (s : State) : State :=
  (s.mir.own.filter fun x => x.2.posted).foldl (fun t x => (t.dropOwn x.1).retireLater x.1 x.2) s

/-- Step 3 ends with UNMIRRORED for every commit that waits in it. -/
def State.endWaits (s : State) : State :=
  ((s.jobs.filter fun x => x.2.mirroring == .waiting && x.2.st == .sealed).map (·.1)).foldl (fun t id => t.endMirror id false) s

/-- The link enters LOST, REPLACED or DISABLED. In REPLACED the session goes on: an ATTEST that is still being computed is sent, and a
STATE_SYNC that has come is kept for SYNC (R408, log entry 133). -/
def State.leaveLink (s : State) (l : Link) : State :=
  let stays := l == .replaced
  let s := { s with
    mir := { s.mir with
      link := l, sentDone := false, gotDone := false, gotSync := false, waitSync := if stays then s.mir.waitSync else none, lostAt := s.now }
    units := { s.units with attest := s.units.attest && stays } }
  (s.releasePosted).endWaits

/-! ## Takeover (R414, R416) -/

/-- The takeover condition. -/
def State.mayTake (s : State) : Bool := s.mir.link == .lost && (s.mir.arb || s.mir.peerFenced)

/-- A takeover begins: PEER users become TAKEN, the fence of R415 ends, and the channel tables are read at the next
boundary (log entry 38). -/
def State.beginTakeover (s : State) : State :=
  let take := fun (x : Nat × Inst) => if x.2.home = 1 then (x.1, { x.2 with home := 2 }) else x
  let s := { s with
    insts := s.insts.map take
    mir := { s.mir with takeover := true, takeRead := true, tookOver := true, tookNow := true, selfFenced := false } }
  s.arrive 597

/-- With AUTOTAKE a takeover begins as soon as the condition holds, once for each loss. -/
def State.checkTake (s : State) : State :=
  if s.mayTake && s.mir.autotake && !s.mir.takeover && !s.mir.tookNow then s.beginTakeover else s

/-- The link enters LOST (R413): HELLO goes on under a new nonce. -/
def State.enterLost (s : State) : State :=
  let s := (s.leaveLink .lost).dropLanes.drawNonce
  ({ s with mir := { s.mir with tookNow := false } }.arrive 593).checkTake

/-! ## Sessions (R408) -/

/-- What a HELLO says of the partner. -/
structure HelloBody where
  fenced : Bool
  nonce : BitVec 48
  start : BitVec 32
  units : Nat
  lstate : Nat

/-- The fields of a HELLO (Table MIR.4). -/
def helloBody (f : BitVec 256) : HelloBody :=
  ⟨f.getLsbD 198, f.extractLsb' 147 48, f.extractLsb' 115 32, fget f 97 18, fget f 195 3⟩

/-- PEERFENCED follows the partner's last frame (R413). -/
def State.setPeerFenced (s : State) (b : Bool) : State :=
  let was := s.mir.peerFenced
  let s := { s with mir := { s.mir with peerFenced := b } }
  if b && !was then s.arrive 603 else s

/-- A new session begins under the two nonces: the ATTEST computation is asked for on cipher lane 0 (R408, R409). A RETIRE of
the session before has no acknowledgement in this one; R418 sends it again. -/
def State.beginSession (s : State) (h : HelloBody) : State :=
  let anew := fun (x : Nat × OwnRec) => (x.1, { x.2 with retireSeq := none })
  let stall := if s.mir.link = .lost then s.now else s.mir.stallAt
  let s := s.dropLanes
  { s with
    mir := { s.mir with
      link := .bringup, retiring := [], own := s.mir.own.map anew, peerNonce := h.nonce, helloStart := h.start, helloFenced := h.fenced, credit := h.units
      announced := h.units, sentDone := false, gotDone := false, gotSync := false, waitSync := none, lostAt := s.now, stallAt := stall }
    units := { s.units with attest := true } }

/-- Lane `k` is up with a new sequence. -/
def State.laneUp (s : State) (k : Nat) : State := s.putLane k { up := true, lastRx := s.now, lastNack := (s.lane k).lastNack }

/-- A lane is up. -/
def State.anyLane (s : State) : Bool := (s.lane 0).up || (s.lane 1).up

/-! ## Records sent again (R406, R418) -/

/-- An own record is sent again where its cost fits; one beyond the partner's whole reserve goes without its payload (R410). -/
def State.resend (s : State) (rid : Nat) : State :=
  match s.own rid with
  | none => s
  | some o =>
    let big := s.oversize o.body
    let c := s.charge o.body
    let r := s.fitted o.body
    let s := if big then (match o.job with
      | some id => (s.mirCount 11).modJob id fun j => if j.status = 0 then { j with detail := j.detail ||| 1 } else j
      | none => s.mirCount 11) else s
    if s.mir.credit < c then s.putOwn rid { o with body := r, unsent := true }
    else
      let k := s.pickLane
      let s := { s with mir := { s.mir with credit := s.mir.credit - c } }
      (s.putOwn rid { o with body := r, cost := c, lane := k == 1, acked := false, unsent := false }).sendRecord k rid r

/-- Records that waited for credit go out as far as it allows. -/
def State.resendPump (s : State) : State :=
  if s.mir.link.talks then ((s.mir.own.filter fun x => x.2.unsent).map (·.1)).foldl State.resend s else s

/-- A RETIRE for own entry `rid`; its acknowledgement releases the entry (R412). -/
def State.sendOwnRetire (s : State) (rid : Nat) (o : OwnRec) : State :=
  let k := s.pickLane
  let seq := (s.lane k).txSeq + BitVec.ofNat 24 (s.lane k).queue.length
  (s.putOwn rid { o with lane := k == 1, retireSeq := some seq }).sendRetire rid o.body.csn

/-- Entries whose commit has posted and whose record has gone out again get their RETIRE (R12, R412). -/
def State.retireSent (s : State) : State :=
  if s.mayRetire then
    (s.mir.own.filter fun x => x.2.posted && !x.2.unsent && x.2.retireSeq.isNone).foldl (fun t x => t.sendOwnRetire x.1 x.2) s
  else s

/-! ## Resynchronisation (R418 to R420) -/

/-- An accepted-job entry goes at once, without release and without completion (R420). -/
def State.vanish (s : State) (id : Nat) : State :=
  match s.job id with
  | none => s
  | some j =>
    let s := match j.place with
      | some (p, c) => s.clearCtx p c
      | none => s
    let mine := fun (p : Purpose) => match p with
      | .releaseLine k => k == id
      | .completion k => k == id
      | .dirty _ (some k) _ => k == id
      | q => q.ofJob id
    let s := (s.endUnits id).dropReads mine false
    let r := s.ring (.inst j.inst)
    let s := s.putRing (.inst j.inst) { r with wait := r.wait.filter fun q => q.job != some id }
    { s with jobs := Assoc.erase s.jobs id }

/-- A LOCAL user that the partner took over is LENT, in RESET, with nothing left in the tracker (R420). -/
def State.lend (s : State) (i : Nat) : State :=
  let b := BitVec.ofNat 8 i
  let s := s.modInst i fun x => { x with home := 3, rstate := .reset, rstDue := none }
  let s := s.dropReads (fun p => match p with
      | .descriptor c _ => (s.chan c).fetchEntry.any (·.inst == b)
      | .scanSlot c _ => s.chanInst c == some b
      | _ => false) false
  let stop := fun (x : Nat × Chan) => if x.2.fetchEntry.any (·.inst == b) then (x.1, { x.2 with fetching := false }) else x
  let s := { s with chans := s.chans.map stop }
  let ids := (s.jobs.filter fun x => x.2.inst == b).map (·.1)
  let s := ids.foldl State.vanish s
  let keep := s.mir.own.filter fun x => x.2.body.inst != b
  { s with mir := { s.mir with own := keep } }

/-- TAKEN 1: every LOCAL user is lent, and the fence of R415 ends. -/
def State.takenByPartner (s : State) : State :=
  let is := (List.range 256).filter fun i => (s.inst i).home == 0
  let s := is.foldl State.lend s
  { s with mir := { s.mir with selfFenced := false } }

/-- Table MIR.7 for one own entry. -/
def State.resyncOwn (s : State) (same : Bool) (rid : Nat) : State :=
  match s.own rid with
  | none => s
  | some o =>
    if o.posted then (if same then s.sendOwnRetire rid o else s.dropOwn rid)
    else if same && o.acked then s
    else s.resend rid

/-- A RETIRE of the retire list goes out; its acknowledgement gives its units back (R410, R412). -/
def State.sendListed (s : State) (x : Nat × BitVec 48 × Nat) : State :=
  let k := s.pickLane
  let seq := (s.lane k).txSeq + BitVec.ofNat 24 (s.lane k).queue.length
  ({ s with mir := { s.mir with retiring := s.mir.retiring ++ [(k == 1, seq, x.2.2)] } }).sendRetire x.1 x.2.1

/-- The retire list: a RETIRE for each place where the partner still knows this start; then it is empty (R412). -/
def State.emptyRetire (s : State) (same : Bool) : State :=
  let l := s.mir.retire
  let s := { s with mir := { s.mir with retire := [] } }
  if same then l.foldl State.sendListed s else s

/-- The channel table entry of a held record's channel is read to find its rings; a channel its user does not own has
none (R419). -/
def State.findHeld (s : State) (key : Nat) : State :=
  match Assoc.lookup s.mir.held key with
  | none => s
  | some r =>
    let i := r.inst.toNat
    let c := r.chan.toNat
    if !s.ownsChan i c then s.staleHeld key r
    else s.send (readReq ((s.inst i).ctBase + BitVec.ofNat 64 (64 * (c - (s.inst i).first))) r.inst 2 (.heldTable key))

/-- Held records of another start of the partner are completed where it is fenced, and discarded where it is not (R419). Those of its
new start, which it has sent again, stay. -/
def State.resyncHeld (s : State) : State :=
  let old := s.mir.held.filter fun r => r.2.start != s.mir.helloStart
  if old.isEmpty then s
  else if s.mir.helloFenced then
    let keys := old.map (·.1)
    keys.foldl State.findHeld { s with mir := { s.mir with finish := keys } }
  else old.foldl (fun t x => t.staleHeld x.1 x.2) s

/-- The partner's STATE_SYNC is acted on (R418 to R420). -/
def State.actSync (s : State) (pstart : BitVec 32) (taken : Bool) : State :=
  let s := { s with mir := { s.mir with gotSync := true, waitSync := none } }
  let s := if taken then s.takenByPartner else s
  let same := pstart == s.mir.start
  let s := (s.mir.own.map (·.1)).foldl (fun t rid => t.resyncOwn same rid) s
  (s.emptyRetire same).resyncHeld

/-- The link is PAIRED for this side (R418, R420); phase 7 ends (R479). -/
def State.becomePaired (s : State) : State :=
  let s := { s with
    mir := { s.mir with
      link := .paired, peerStart := s.mir.helloStart, everPaired := true, tookOver := false, selfFenced := false }
    life := { s.life with waitLink := false } }
  let s := (s.arrive 601).arrive 592
  if s.life.phase = 7 then s.reachReady else s

/-- The records that R419 completes are done. -/
def State.finished (s : State) : Bool :=
  s.mir.finish.all (fun k => (Assoc.lookup s.mir.held k).isNone) && s.jobs.all fun x => x.2.status != 9

/-- DONE goes out once the partner's STATE_SYNC has been acted on; with both DONEs the link is PAIRED (R418). -/
def State.syncPump (s : State) : State :=
  if s.mir.link ≠ .sync ∨ !s.mir.gotSync ∨ (!s.mir.sentDone && !s.mir.finish.isEmpty && !s.finished) then s else
  let s := if s.mir.finish.isEmpty then s else { s with mir := { s.mir with finish := [] } }.arrive 602
  let s := if s.mir.sentDone then s else { s.sendSync true with mir := { (s.sendSync true).mir with sentDone := true } }
  if s.mir.gotDone then s.becomePaired else s

/-- The link enters SYNC: STATE_SYNC goes out, and one that came before is acted on (R408, R418). -/
def State.enterSync (s : State) : State :=
  let s := { s with mir := { s.mir with link := .sync } }.sendSync false
  match s.mir.waitSync with
  | some (p, t) => (s.actSync p t).syncPump
  | none => s

/-- What a link command lets go on. -/
def State.afterLink (s : State) : State :=
  ((s.syncPump.resendPump.retireSent.mirrorPump.stepSets.replayPump).pump).settle

end Sys2Proof.Machine
end

