-- ==== Sys2Proof/Machine/HostEvents.lean ====
section
/-!
DEFINITION. What the licensee's fabric does at a host port (R54 to R66): responses by the purpose of their request (Tables
HST.4 to HST.6), NOTIFY messages, credits, timeouts, reissues and tag quarantine; the clocks (R25) and the ring polls (R441).
-/

namespace Sys2Proof.Machine

/-! ## How a request ends -/

/-- The outcome of a request (Table HST.4). -/
inductive Answer where
  | ok (d : Line)
  | refused
  | poison

/-- The line of an answer, for a purpose that treats every error alike. -/
def Answer.line? : Answer → Option Line
  | .ok d => some d
  | _ => none

/-- The answer is OK. -/
def Answer.good : Answer → Bool
  | .ok _ => true
  | _ => false

/-- A job's own read failed: ACCESS_FAULT with a detail, or HOST_FAULT 0x01 on poison (Table HST.5, Table CHP.8). -/
def State.readFailed (s : State) (id detail : Nat) (a : Answer) : State :=
  match a with
  | .poison => s.endSoon id 5 1
  | _ => s.endSoon id 3 detail

/-- Octets of a line at their offsets in a transfer or image that begins at octet address `base`. -/
def lineAt (base len line : Nat) (d : Line) (m : List (Nat × Octet)) : List (Nat × Octet) :=
  (List.range 64).foldl (fun m k =>
    let a := 64 * line + k
    if base ≤ a ∧ a < base + len then Assoc.insert m (a - base) (lineOctet d k) else m) m

/-- A line of an XFER has arrived (R232). -/
def State.xferLine (s : State) (id slot line : Nat) (d : Line) : State :=
  match (s.job id).bind (·.place) with
  | none => s
  | some (p, c) =>
    let x := s.ctx p c
    match Assoc.lookup x.xfers slot with
    | none => s
    | some f =>
      let g := { f with got := lineAt f.host.toNat f.len line d f.got, linesDue := f.linesDue - 1 }
      (s.putCtx p c { x with xfers := Assoc.insert x.xfers slot g }).writeArrived p c f g

/-! ## Program images (R90, R92) -/

/-- The public key of the user is read: two lines in SPACE MGR (R90). -/
def State.readKey (s : State) (id : Nat) (j : Job) : State :=
  (s.putJob id { j with load := .key 2 }).readLines j (s.inst j.inst.toNat).pkey 2 (Purpose.publicKey id) [0, 1]

/-- Every line of an image is there: header, CRC and, for a SIGNED image, the key that checks its signature (R92). -/
def State.imageArrived (s : State) (id : Nat) (j : Job) : State :=
  let n := entryLen j.ptEntry
  let image := octetsFrom j.imageOctets 0 n
  if !headerValid (imageWords image) then s.endJob id 2 0x82
  else if crc32c image ≠ j.ptEntry.extractLsb' 128 32 then s.endJob id 2 0x80
  else if entrySigned j.ptEntry then s.readKey id j
  else if (s.inst j.inst.toNat).sigReq then s.endJob id 2 0x81
  else s.imageVerified id

/-- A line of an image has arrived. -/
def State.imageLine (s : State) (id k : Nat) (d : Line) : State :=
  match s.job id with
  | none => s
  | some j =>
    match j.load with
    | .image n =>
      let j := { j with imageOctets := lineAt 0 (entryOctets j.ptEntry) k d j.imageOctets, load := .image (n - 1) }
      let s := s.putJob id j
      if n = 1 then s.imageArrived id j else s
    | _ => s

/-- A line of the public key has arrived: with both, the signature is checked (R90). -/
def State.keyLine (s : State) (id k : Nat) (d : Line) : State :=
  match s.job id with
  | none => s
  | some j =>
    match j.load with
    | .key n =>
      let j := { j with keyOctets := lineAt 0 96 k d j.keyOctets, load := .key (n - 1) }
      let s := s.putJob id j
      if n ≠ 1 then s
      else
        let len := entryLen j.ptEntry
        let sig := octetsFrom j.imageOctets len 96
        let key := octetsFrom j.keyOctets 0 96
        if ecdsaVerify (beNat (key.take 48)) (beNat (key.drop 48)) (sha384 (octetsFrom j.imageOctets 0 len)) (beNat (sig.take 48))
            (beNat (sig.drop 48)) then s.imageVerified id
        else s.endJob id 2 0x81
    | _ => s

/-! ## Period tables (R129) -/

/-- The back copy of a user's table is written: 18 lines as 256 words (R70). -/
def State.writePeriod (s : State) (i : Nat) : State :=
  let p := (s.inst i).period
  let ws := packOctets true (octetsFrom p.got 0 1152)
  let s := s.putDecks none (periodWord i (!p.front) 0) ws
  s.modInst i fun x => { x with period := { x.period with ready := true, readyAt := s.now, got := [] } }

/-- A line of a period table has been read. A failed one sets ERR and ends the load. -/
def State.periodBack (s : State) (i k : Nat) (d : Option Line) : State :=
  let p := (s.inst i).period
  match d with
  | some d =>
    let rest := p.loading.filter (· != k)
    let s := s.modInst i fun x => { x with period := { p with loading := rest, got := lineAt 0 1152 k d p.got } }
    if rest.isEmpty then s.writePeriod i else s
  | none =>
    let s := s.dropReads (fun q => match q with
      | .periodLine n _ => n == i
      | _ => false) false
    s.modInst i fun x => { x with period := { p with loading := [], got := [], err := true } }

/-! ## Held records of a partner that is gone (R419) -/

/-- The doorbell line of a held record's channel is read for its head. -/
def State.heldTableBack (s : State) (rid : Nat) (d : Option Line) : State :=
  match Assoc.lookup s.mir.held rid, d with
  | some r, some d =>
    if entryReason d r.inst.toNat ≠ 0 then s.staleHeld rid r
    else
      let e := parseEntry d
      ({ s with mir := { s.mir with found := Assoc.insert s.mir.found rid e } }).send
        (readReq e.dbell r.inst 1 (.heldBell rid))
  | some r, none => s.staleHeld rid r
  | none, _ => s

/-- A held record before H is complete; another one's slot is read (R114). -/
def State.heldBellBack (s : State) (rid : Nat) (d : Option Line) : State :=
  match Assoc.lookup s.mir.held rid, Assoc.lookup s.mir.found rid, d with
  | some r, some e, some d =>
    let h := BitVec.ofNat 32 (lineNum d 4 4)
    if 2 ^ 31 ≤ (r.pos - h).toNat then s.dropHeld rid r
    else s.send (readReq (e.slot r.pos) r.inst 1 (.heldSlot rid))
  | some r, _, none => s.staleHeld rid r
  | _, _, _ => s

/-- The slot of a held record shows whether it is complete (R116). -/
def State.heldSlotBack (s : State) (rid : Nat) (d : Option Line) : State :=
  match Assoc.lookup s.mir.held rid, Assoc.lookup s.mir.found rid, d with
  | some r, some e, some d => if e.complete r.pos d then s.dropHeld rid r else (s.takeHeld rid r e).replayPump
  | some r, _, none => s.staleHeld rid r
  | _, _, _ => s

/-! ## By purpose (Table HST.5) -/

/-- BROKEN of a user's dirty log is set, and source 565 + 16n fires (Table EVC.2). -/
def State.breakLog (s : State) (i n : Nat) : State :=
  (s.modInst i fun x => { x with dl := { x.dl with broken := true } }).arrive (565 + 16 * n)

/-- A request of port `n` has its final outcome. -/
def State.answered (s : State) (n : Nat) (r : HostReq) (a : Answer) : State :=
  match r.purpose, a with
  | .xfer id slot line, .ok d => s.xferLine id slot line d
  | .xfer id _ _, a => s.readFailed id 1 a
  | .pgmTable id, .ok d => s.tableArrived id d
  | .pgmTable id, a => s.readFailed id 2 a
  | .image id k, .ok d => s.imageLine id k d
  | .image id _, a => s.readFailed id 2 a
  | .signature id k, .ok d => s.imageLine id k d
  | .signature id _, a => s.readFailed id 2 a
  | .publicKey id k, .ok d => s.keyLine id k d
  | .publicKey id _, a => s.readFailed id 2 a
  | .regions id out k, .ok d => s.regionsBack id out k d
  | .regions id _ _, a => s.readFailed id 2 a
  | .chanTable c, a => s.entryBack c r.inst a.line?
  | .doorbell i l, a => s.bellBack i l a.line?
  | .descriptor c p, a => s.descBack c p a.line?
  | .scanSlot c p, a => s.scanBack c p a.line?
  | .releaseLine id, a => s.lineReleased id (r.addr.toNat / 64) a.good
  | .completion id, a => if a.good then s.delivered id true else s.completionFailed id
  | .dirty i job rec, a =>
    let s := if a.good then s else s.breakLog i n
    let s := match job with
      | some id => s.dirtied id
      | none => s
    match rec with
    | some (ring, p) => s.recordDirtied ring p
    | none => s
  | .message .., _ => s
  | .record ring p job, a =>
    let q := s.recordWritten ring p job a.good
    match q.1 with
    | some id => q.2.delivered id false
    | none => q.2.passTelemetry
  | .ringLine ring why, a =>
    (s.controlRead ring why (a.line?.map fun d => BitVec.ofNat 32 (lineNum d 0 4))).passTelemetry
  | .periodLine i k, a => s.periodBack i k a.line?
  | .heldTable rid, a => s.heldTableBack rid a.line?
  | .heldBell rid, a => s.heldBellBack rid a.line?
  | .heldSlot rid, a => s.heldSlotBack rid a.line?
  | .suycia, _ => s
  | .suyLine b, a => s.suyLineRead b (a.line?.map fun d => (BitVec.ofNat 32 (lineNum d 0 4), BitVec.ofNat 32 (lineNum d 4 4)))
  | .dropped, _ => s

/-- What an answer lets go on: requests that wait for tags, sets that wait for lines, replays, and what settles. -/
def State.afterAnswer (s : State) : State := (s.pump.stepSets.replayPump.mirrorPump.syncPump).settle

/-! ## Responses (R54, R60, R61, Table HST.6) -/

/-- Tag `t` of port `n` goes to a state. -/
def State.setTag (s : State) (n t : Nat) (u : TagUse) : State :=
  let p := s.port n
  s.putPort n { p with tags := Assoc.insert p.tags t u }

/-- A request ends: its tag is quarantined (R59), and its purpose takes the outcome. -/
def State.finishTag (s : State) (n t : Nat) (u : TagUse) (a : Answer) : State :=
  ((s.setTag n t { u with st := .quarantined }).answered n u.req a).afterAnswer

/-- The wait before reissue `k`, in port cycles (R61). -/
def backoff (k : Nat) : Nat := min 4096 (64 * 2 ^ (k - 1))

/-- RETRY: the request waits for its reissue, or the sixteenth ends it (R61). -/
def State.retryTag (s : State) (n t : Nat) (u : TagUse) : State :=
  let k := u.retries + 1
  if 16 ≤ k then ((s.violation n 10 4 t (some u.req)).arrive (564 + 16 * n)).finishTag n t u .refused
  else s.setTag n t { u with st := .retryWait (backoff k), retries := k }

/-- A request is answered (Table HST.4): an error is recorded (R63). -/
def State.respond (s : State) (n t : Nat) (u : TagUse) (code : Nat) (d : Line) : State :=
  let read := u.req.typ == .read
  if 5 ≤ code then (s.violation n 4 code t (some u.req)).finishTag n t u .refused
  else if code = 4 then s.retryTag n t u
  else if code = 0 then s.finishTag n t u (.ok d)
  else
    (s.recordHost n 0xFF code t (some u.req)).finishTag n t u (if code = 3 && read then .poison else .refused)

/-- The host ports are clocked: no reset, RUN or a RETAIN exit in progress (Table PRT.9). Start-up that has stopped and R32 change nothing
here: the answers of writes in flight still arrive (R38). -/
def State.portsOn (s : State) : Bool :=
  !s.life.porst && !s.life.sysrst && (s.life.power == .run || (s.life.power == .retain && s.life.leaving))

/-- A request ends after R32: its tag is quarantined or lost, its purpose takes nothing, and the fence may be complete (R38). -/
def State.endMuted (s : State) (n t : Nat) (u : TagUse) (st : TagState) : State := (s.setTag n t { u with st := st }).settleFence

/-- RESPONSE_BEAT: a response beat is checked against its tag (R60, Table HST.6). Its credit is returned at once, within the
window of R54. -/
def execResponseBeat (port : Bool) (tag : BitVec 13) (code : BitVec 3) (data : Line) (s : State) : Out :=
  let n := bit port
  let t := tag.toNat
  let c := code.toNat
  let s := { s with out := [] }
  if !s.portsOn then .next s else
  let s := s.portBack n
  let u := Assoc.lookup (s.port n).tags t
  if (s.port n).rsCredits = 0 then .next (s.violation n 5 c t (u.map (·.req))).settle else
  let s := s.emit (.rsCredit port)
  match u with
  | none => .next (s.violation n 0 c t none).settle
  | some u =>
    match u.st with
    | .quarantined => .next (s.violationLate n 1 c t u.req).settle
    | .retryWait _ => .next (s.violationLate n 1 c t u.req).settle
    | .lost => .next ((s.setTag n t { u with st := .quarantined }).violationLate n 2 c t u.req).settle
    | .squashed => .next ((s.setTag n t { u with st := .quarantined }).hostCount n 3).afterAnswer
    | .outstanding => .next (if s.life.changed then s.endMuted n t u .quarantined else s.respond n t u c data)

/-- HOST_REQUEST_TIMEOUT: no response within HPI_Hn_TMO ticks: handled as ACCESS_ERR, and the tag is lost to the pool until its
response arrives (R62). -/
def execHostRequestTimeout (port : Bool) (tag : BitVec 13) (s : State) : Out :=
  let n := bit port
  let t := tag.toNat
  let s := { s with out := [] }
  match Assoc.lookup (s.port n).tags t with
  | none => .next s
  | some u =>
    let due := s.portsOn && !s.portStill n && u.due ≤ s.now && (u.st == .outstanding || u.st == .squashed)
    if !due then .next s else
    if s.life.changed then .next (s.endMuted n t u .lost) else
    let s := ((s.setTag n t { u with st := .lost }).violation n 9 0 t (some u.req)).arrive (563 + 16 * n)
    .next (if u.st = .squashed then s else s.answered n u.req .refused).afterAnswer

/-- RETRY_REISSUE: the backoff has ended, and the request goes out again on its port with its tag (R57, R61), but for a write that a
fence stops (R38). -/
def execRetryReissue (port : Bool) (tag : BitVec 13) (s : State) : Out :=
  let n := bit port
  let t := tag.toNat
  let s := { s with out := [] }
  let p := s.port n
  match Assoc.lookup p.tags t with
  | none => .next s
  | some u =>
    match u.st with
    | .retryWait _ =>
      if !s.up || p.credits = 0 || s.portStill n || (u.req.purpose.fenced && s.fenceWanted) then .next s else
      let r := u.req
      let u := { u with st := .outstanding, due := s.now + max 1000 p.tmo.toNat }
      .next ((s.putPort n { p with credits := p.credits - 1, tags := Assoc.insert p.tags t u }).emit
        (.host port t r.typ.code r.addr r.inst r.attr r.oen r.data))
    | _ => .next s

/-- TAG_QUARANTINE_END: a tag returns to its pool (R59). -/
def execTagQuarantineEnd (port : Bool) (tag : BitVec 13) (s : State) : Out :=
  let n := bit port
  let s := { s with out := [] }
  let p := s.port n
  match Assoc.lookup p.tags tag.toNat with
  | none => .next s
  | some u =>
    if s.up && u.st == .quarantined then
      .next ((s.putPort n { p with tags := Assoc.erase p.tags tag.toNat }).pump).settle
    else .next s

/-- REQUEST_CREDIT_RETURN: the licensee grants a credit; a DOWN port that is enabled comes UP from phase 6 on, and in a RETAIN exit before
RUN is reported (R54, R55, Table PRT.9). -/
def execRequestCreditReturn (port : Bool) (s : State) : Out :=
  let n := bit port
  let s := { s with out := [] }
  if !s.up || !s.portsOn then .next s else
  let s := s.portBack n
  let p := s.port n
  if 255 ≤ p.credits then .next (s.violation n 6 0 0 none).settle else
  let s := s.putPort n { p with credits := p.credits + 1 }
  if p.en && !p.up && 6 ≤ s.life.phase then
    let s := s.portUp n
    .next (if s.life.phase = 6 then s.endPhase6 else s).afterAnswer
  else .next s.pump.settle

/-! ## NOTIFY (R64, R65) -/

/-- A violation that names a host line. -/
def State.violationAt (s : State) (n k addr : Nat) : State :=
  (s.hostCount n k).recordGlobal 2 1 none noPlace (k + 2048 * n) addr

/-- NOTIFY: a doorbell line has been written (R64, R65). A disabled port drops it (R55), and a user that does not fetch counts
it in NTCOAL (R388); so does the complex while it fetches nothing as a whole (log entry 92). -/
def execNotify (port : Bool) (line : BitVec 58) (s : State) : Out :=
  let n := bit port
  let s := { s with out := [] }
  if !s.up || !s.portsOn then .next s else
  let s := s.portBack n
  let p := s.port n
  if p.ntCredits = 0 then .next (s.violationAt n 8 (64 * line.toNat)).settle else
  let s := s.emit (.ntCredit port)
  if !p.en then .next s
  else if (s.bellChans line).isEmpty then .next (s.violationAt n 7 (64 * line.toNat)).settle
  else if !s.fetchOk then .next (s.hostCount n 12)
  else
    let q := s.ringLine line
    .next (if q.1 then q.2.hostCount n 12 else q.2)

/-! ## Clocks (R25) -/

/-- A port without its clock: what its registers hold is open, but what waits on it stays (R25, log entry 39). -/
def Port.unclocked (p : Port) (d : Nat) : Port :=
  { p with
    up := Config.freeChoice d
    credits := (Config.freeWord (d + 1)).toNat % 256
    rsCredits := (Config.freeWord (d + 2)).toNat % 65
    ntCredits := (Config.freeWord (d + 3)).toNat % 33 }

/-- An extension port without its clock: its live requests stay waiting (R25, log entry 39). -/
def ExtPort.unclocked (x : ExtPort) (d : Nat) : ExtPort := { x with dropped := (Config.freeWord d).toNat }

/-- A lane without its clock. -/
def Lane.unclocked (l : Lane) (d : Nat) : Lane :=
  { l with
    up := Config.freeChoice d
    txSeq := (Config.freeWord (d + 1)).setWidth 24
    rxSeq := (Config.freeWord (d + 2)).setWidth 24 }

/-- The key port and the entropy port without REFCLK: what they have taken towards a key or a reseed is open. -/
def State.unclockedRef (s : State) (d : Nat) : State :=
  let word := fun (k : Nat) => (Config.freeWord (d + k)).setWidth 64
  let key := (List.range 4).foldl (fun (v : BitVec 256) k => (v <<< 64) ||| (word k).setWidth 256) 0
  { s with
    life := { s.life with key := key }
    units := { s.units with entropy := s.units.entropy.zipIdx.map fun q => word (4 + q.2) } }

/-- The state of the ports of a clock that stopped. REFCLK gives the ticks: a stop of it is over when the next tick comes (log entry
39). -/
def State.unclocked (s : State) (clk : ClockId) : State :=
  let d := s.draws
  let gone := if clk = .refclk then s.life.noClock else clk :: s.life.noClock.filter (· != clk)
  let s := { s with draws := d + 20, life := { s.life with noClock := gone } }
  match clk with
  | .refclk => s.unclockedRef d
  | .hclk0 => (List.range 16).foldl (fun t k => t.putExt k ((t.ext k).unclocked (d + 4 + k))) (s.putPort 0 ((s.port 0).unclocked d))
  | .hclk1 => s.putPort 1 ((s.port 1).unclocked d)
  | .mclk => (s.putLane 0 ((s.lane 0).unclocked d)).putLane 1 ((s.lane 1).unclocked (d + 4))

/-- The clock must run now (Table PRT.3): REFCLK outside OFF, the others in RUN, and while RETAIN is being left (Table PRT.9). -/
def State.mustRun (s : State) (clk : ClockId) : Bool :=
  let run := s.life.power == .run || s.life.leaving
  match clk with
  | .refclk => true
  | .hclk0 => run
  | .hclk1 => run && (s.port 1).en
  | .mclk => run && s.mir.en

/-- CLOCK_MISSING: ERR_ATTN, the cause CLOCK, and an open state of the port; what waits on it stays waiting (R25). -/
def execClockMissing (clk : ClockId) (s : State) : Out :=
  let s := { s with out := [] }
  if !s.alive || !s.mustRun clk then .next s else .next ((s.attn 1).unclocked clk)

/-! ## Ring polls (R440, R441) -/

/-- RING_CONTROL_POLL: a full ring's control line is read again while a record waits, at most once per µs. -/
def execRingControlPoll (r : RingId) (s : State) : Out :=
  let s := { s with out := [] }
  let x := s.ring r
  let due := x.ctlAt.all fun t => t + 100 ≤ s.now
  if s.up && x.en && !x.starting && x.starved && due then .next (s.readControl r .full) else .next s

/-- RING_REWRITE: a completion record whose write failed 100 µs ago is written again at its position (R441), its dirty bit first where one is
due (R67, R68). -/
def execRingRewrite (r : RingId) (s : State) : Out :=
  let s := { s with out := [] }
  let x := s.ring r
  if !(s.up && x.en) then .next s else
  match x.wait.find? fun q => q.stage == .failed && decide (q.due ≤ s.now) with
  | none => .next s
  | some q =>
    match q.pos with
    | none => .next s
    | some p =>
      let go := s.launch r q p
      let y := go.2.ring r
      let wait := y.wait.map fun w => if w.stage == .failed && w.pos == some p then { w with stage := go.1 } else w
      .next (go.2.putRing r { y with wait := wait })

end Sys2Proof.Machine
end

