-- ==== Sys2Proof/Machine/Link.lean ====
section
/-!
DEFINITION. The receiving side of the mirror link: lanes, sequence checks and replay (R404 to R406), the frames of Table
MIR.3, the periods and the timeouts (R408, R413 to R415), and PAIR_ARB.
-/

namespace Sys2Proof.Machine

/-! ## Violations (R421) -/

/-- A counted violation: its counter, its MIRROR record, and the link reset after more than 64 in 1 ms. -/
def State.linkFault (s : State) (k counter : Nat) (f : BitVec 256) : State :=
  let s := (s.mirCount counter).recordGlobal 0x0B 1 none noPlace counter k ((f.setWidth 512) <<< 256)
  let v := (s.mir.violations.filter fun t => s.now < t + 100000) ++ [s.now]
  if 64 < v.length then
    (({ s with mir := { s.mir with violations := [] } }.restartLink).mirCount 10).arrive 596
  else { s with mir := { s.mir with violations := v } }

/-- A NACK outside the replay buffer is a counted violation that resets the link at once (Table MIR.6). -/
def State.nackFault (s : State) (k : Nat) (f : BitVec 256) : State :=
  let v := (s.mir.violations.filter fun t => s.now < t + 100000) ++ [s.now]
  let s := { s with mir := { s.mir with violations := if 64 < v.length then [] else v } }
  ((((s.mirCount 5).recordGlobal 0x0B 1 none noPlace 5 k ((f.setWidth 512) <<< 256)).restartLink).mirCount 10).arrive 596

/-! ## Frames and their numbers (R404, R405) -/

/-- The link is in use: enabled, from phase 7 on (R423, log entry 43). -/
def State.linkOn (s : State) : Bool :=
  s.up && (s.life.power == .run || s.life.leaving) && 7 ≤ s.life.phase && !s.testing && s.mir.link != .disabled

/-- TYPE of a frame. -/
def frameType (f : BitVec 256) : Nat := fget f 252 4

/-- SEQ of a frame. -/
def frameSeq (f : BitVec 256) : BitVec 24 := f.extractLsb' 228 24

/-- RSEQ of a frame. -/
def frameRseq (f : BitVec 256) : BitVec 24 := f.extractLsb' 204 24

/-- Frame bits [hi:lo] are 0. -/
def clearBits (f : BitVec 256) (hi lo : Nat) : Bool := fget f lo (hi + 1 - lo) == 0

/-- A frame comes to lane `k`: `true` with the state that acts on it when its CRC is right and its type is one of the row's. A
frame that fails its CRC is dropped and answered with NACK. -/
def State.frameArrives (s : State) (k : Nat) (isType : Nat → Bool) (f : BitVec 256) : Bool × State :=
  let s := if s.linkOn then s.clockBack .mclk else s
  if !s.linkOn then (false, s)
  else if f.extractLsb' 0 32 ≠ frameCrc f then (false, (s.linkFault k 0 f).sendNack k)
  else if !isType (frameType f) then (false, s)
  else (true, s.putLane k { s.lane k with lastRx := s.now, hail := (s.lane k).hail && frameType f == 0 })

/-- The SEQ of the oldest frame in the replay buffer. -/
def Lane.oldest (l : Lane) : BitVec 24 := l.txSeq - BitVec.ofNat 24 l.replay.length

/-- A RETIRE's acknowledgement releases its entry and its units (R410, R412). -/
def State.retireAcked (s : State) (k : Nat) (rseq : BitVec 24) : State :=
  let done := fun (x : Nat × OwnRec) => x.2.lane == (k == 1) && x.2.retireSeq.any fun q => (rseq - 1 - q).toNat < 2 ^ 23
  let listed := fun (x : Bool × BitVec 24 × Nat) => x.1 == (k == 1) && decide ((rseq - 1 - x.2.1).toNat < 2 ^ 23)
  let back := (s.mir.retiring.filter listed).foldl (fun n x => n + x.2.2) 0
  let s := { s with mir := { s.mir with credit := s.mir.credit + back, retiring := s.mir.retiring.filter fun x => !listed x } }
  (s.mir.own.filter done).foldl (fun t x =>
    { t.dropOwn x.1 with mir := { (t.dropOwn x.1).mir with credit := t.mir.credit + x.2.cost } }) s

/-- A received RSEQ passes frames of the replay buffer, and those that wait go out (R405). -/
def State.passed (s : State) (k : Nat) (rseq : BitVec 24) : State :=
  let l := s.lane k
  let n := (rseq - l.oldest).toNat
  if n = 0 ∨ l.replay.length < n then s
  else
    let s := s.putLane k { l with replay := l.replay.drop n }
    (s.retireAcked k rseq).drainLane k l.queue

/-- The check of an unsequenced frame on a lane that is up: one with the expected SEQ is accepted, and its RSEQ counts; one ahead is
dropped and answered with NACK; any other is dropped and counted in DUPF (R404, log entry 41). -/
def State.plainFrame (s : State) (k : Nat) (f : BitVec 256) : Bool × State :=
  let gap := (frameSeq f - (s.lane k).rxSeq).toNat
  if !(s.lane k).up then (false, s)
  else if gap = 0 then (true, s.passed k (frameRseq f))
  else if gap < 2 ^ 23 then (false, (s.linkFault k 1 f).sendNack k)
  else (false, s.mirCount 2)

/-- A sequenced frame is accepted when its SEQ is the expected one; after 512 of them a HEARTBEAT goes out (R404, R405). -/
def State.acceptSeq (s : State) (k : Nat) (f : BitVec 256) : Bool × State :=
  let l := s.lane k
  let gap := (frameSeq f - l.rxSeq).toNat
  if !l.up then (false, s)
  else if gap = 0 then
    let s := (s.putLane k { l with rxSeq := l.rxSeq + 1, accepted := l.accepted + 1 }).passed k (frameRseq f)
    (true, if 512 ≤ (s.lane k).accepted then s.sendHeartbeat k else s)
  else if gap < 2 ^ 23 then (false, (s.linkFault k 1 f).sendNack k)
  else (false, s.mirCount 2)

/-- A sequenced frame of type `typ` arrives and is accepted. -/
def State.sequenced (s : State) (k typ : Nat) (f : BitVec 256) : Bool × State :=
  let q := s.frameArrives k (· == typ) f
  if q.1 then q.2.acceptSeq k f else q

/-! ## Bring-up frames -/

/-! ## Lanes that go down (R406) -/

/-- A RETIRE that has no own entry is one of the retire list: the units of the first of them on lane `k` go with it. -/
def State.moveListed (s : State) (k rid : Nat) (csn : BitVec 48) : State :=
  match s.mir.retiring.find? fun x => x.1 == (k == 1) with
  | none => s.sendRetire rid csn
  | some x => ({ s with mir := { s.mir with retiring := s.mir.retiring.erase x } }).sendListed (rid, csn, x.2.2)

/-- A frame of lane `k` that goes on either lane goes out again; a RETIRE keeps its entry. -/
def State.moveFrame (s : State) (k : Nat) (typ : BitVec 4) (body : BitVec 172) : State :=
  if typ = 5 then
    let rid := (body.extractLsb' 159 13).toNat
    let csn : BitVec 48 := body.extractLsb' 111 48
    match s.own rid with
    | some o => if o.retireSeq.isSome ∧ o.body.csn = csn then s.sendOwnRetire rid o else s.moveListed k rid csn
    | none => s.moveListed k rid csn
  else if typ = 1 ∨ typ = 4 ∨ typ = 7 then s.sendSeq s.pickLane typ body
  else s

/-- What lane `k` had under way moves, once it is down or has a new sequence: frames that go on either lane, records without an ACK, sent
again whole while records flow, and behind them the RETIREs (R406, R409, log entry 42). -/
def State.laneOver (s : State) (k : Nat) (fresh : Lane) : State :=
  let l := s.lane k
  let frames := (l.replay.map fun f => ((f.extractLsb' 252 4 : BitVec 4), (f.extractLsb' 32 172 : BitVec 172))) ++ l.queue
  let s := (s.putLane k fresh).arrive 595
  let mine := if s.mayRetire then s.mir.own.filter fun x => x.2.lane == (k == 1) && !x.2.acked && !x.2.unsent else []
  let s := (frames.filter (·.1 != 5)).foldl (fun t f => t.moveFrame k f.1 f.2) s
  let s := mine.foldl (fun t x => (t.putOwn x.1 { x.2 with lane := t.pickLane == 1 }).sendRecord t.pickLane x.1 x.2.body) s
  (frames.filter (·.1 == 5)).foldl (fun t f => t.moveFrame k f.1 f.2) s

/-- A lane goes down. -/
def State.laneDown (s : State) (k : Nat) : State :=
  s.laneOver k { lastRx := (s.lane k).lastRx, lastNack := (s.lane k).lastNack }

/-! ## HELLO -/

/-- A HELLO of the session on a lane that is up here, from a partner past BRINGUP: the lane is down there. Where its sequence does not
stand at what the HELLO shows, it starts anew here too; and HELLO goes back (R406, log entry 134). -/
def State.laneReturns (s : State) (k : Nat) (f : BitVec 256) : State :=
  let l := s.lane k
  let same := frameSeq f == l.rxSeq && (frameRseq f - l.oldest).toNat ≤ l.replay.length
  let s := if same then s else s.laneOver k { up := true, lastRx := s.now, lastNack := l.lastNack }
  s.putLane k { s.lane k with hail := true }

/-- A HELLO of version 3. The first lane up begins a session; another NONCE than the session's begins a new one, with a new
own nonce where this side had left BRINGUP (log entry 44). On a lane that is up in its session it counts as any unsequenced frame
does, unless the lane is down at the partner. -/
def State.helloArrives (s : State) (k : Nat) (f : BitVec 256) : State :=
  let h := helloBody f
  let s := s.setPeerFenced h.fenced
  if !s.anyLane then (s.beginSession h).laneUp k
  else if h.nonce = s.mir.peerNonce then
    let s := { s with mir := { s.mir with helloFenced := h.fenced } }
    if !(s.lane k).up then s.laneUp k
    else if 2 ≤ h.lstate ∧ h.lstate ≠ 4 then s.laneReturns k f
    else (s.plainFrame k f).2
  else
    let s := if s.mir.link = .bringup then s else s.restartLink
    (s.beginSession h).laneUp k

/-- HELLO: a lane comes up, or a session begins (R408). -/
def execHello (lane : Bool) (frame : BitVec 256) (s : State) : Out :=
  let k := bit lane
  let q := { s with out := [] }.frameArrives k (· == 0) frame
  let s := q.2
  if !q.1 then .next s.afterLink
  else if fget frame 200 4 ≠ 3 then .next (s.linkFault k 9 frame).afterLink
  else if !clearBits frame 96 32 then .next (s.linkFault k 4 frame).afterLink
  else .next (s.helloArrives k frame).afterLink

/-- The partner's digest is recorded, and answered in BRINGUP: SYNC where it is the expected one, else REPLACED (R408, R409). -/
def State.attested (s : State) (digest : BitVec 64) : State :=
  let s := { s with mir := { s.mir with seen := digest } }
  if s.mir.link ≠ .bringup then s
  else if s.aon.peerv && s.aon.peerId == digest then s.enterSync
  else (s.leaveLink .replaced).arrive 594

/-- ATTEST: the partner's digest is checked (R408, R421). -/
def execAttest (lane : Bool) (frame : BitVec 256) (s : State) : Out :=
  let k := bit lane
  let q := { s with out := [] }.sequenced k 1 frame
  let s := q.2
  if !q.1 then .next s.afterLink
  else if !clearBits frame 91 32 then .next (s.linkFault k 4 frame).afterLink
  else if frame.extractLsb' 92 48 ≠ s.mir.nonce then .next (s.linkFault k 7 frame).afterLink
  else .next (s.attested (frame.extractLsb' 140 64)).afterLink

/-- ATTEST_COMPUTATION_DONE: the digest recomputed on cipher lane 0 is sent, or, where it differs from MIR_SELF_ID, the link is
DISABLED (R409). -/
def execAttestComputationDone (digest : BitVec 64) (s : State) : Out :=
  let s := { s with out := [] }
  if !s.linkOn || !s.units.attest || (s.onLane .cipher 0).isSome then .next s else
  let s := { s with units := { s.units with attest := false } }
  if digest = s.mir.selfId then .next (s.sendAttest digest).afterLink
  else .next ((s.attn 7).leaveLink .disabled).dropLanes.afterLink

/-- STATE_SYNC: acted on in SYNC, kept until then before it (R418). -/
def execStateSync (lane : Bool) (frame : BitVec 256) (s : State) : Out :=
  let k := bit lane
  let q := { s with out := [] }.sequenced k 7 frame
  let s := q.2
  if !q.1 then .next s.afterLink
  else if !clearBits frame 155 32 then .next (s.linkFault k 4 frame).afterLink
  else
    let p : BitVec 32 := frame.extractLsb' 172 32
    let t := frame.getLsbD 156
    match s.mir.link with
    | .sync =>
      let s := if s.mir.gotSync then s else s.actSync p t
      .next { s with mir := { s.mir with gotDone := s.mir.gotDone || frame.getLsbD 157 } }.afterLink
    | .bringup => .next { s with mir := { s.mir with waitSync := some (p, t) } }.afterLink
    | .replaced => .next { s with mir := { s.mir with waitSync := some (p, t) } }.afterLink
    | _ => .next s.afterLink

/-! ## Commit records (R411) -/

/-- The key of a held record. -/
def heldKey (rid : Nat) (csn : BitVec 48) : Nat := 8192 * csn.toNat + rid

/-- A lane's record in progress changes. -/
def State.putBuilding (s : State) (k : Nat) (b : Option Partial) : State := s.putLane k { s.lane k with building := b }

/-- A record is malformed: counted, refused, and its further frames are discarded (Table MIR.6). -/
def State.spoilRecord (s : State) (k : Nat) (b : Partial) (f : BitVec 256) : State :=
  let s := s.putBuilding k (some { b with bad := true })
  let s := if b.bad then s else s.sendAck b.rid b.body.csn 1
  s.linkFault k 4 f

/-- A record whose last frame is written: it is held and acknowledged, or refused where it exceeds the free units or the held
records (R411). -/
def State.storeRecord (s : State) (k : Nat) (b : Partial) (f : BitVec 256) : State :=
  let s := s.putBuilding k none
  let key := heldKey b.rid b.body.csn
  let old := (Assoc.lookup s.mir.held key).map (·.units)
  let used := s.mir.heldUnits - old.getD 0
  let full := s.reserveUnits < used + b.units || (old.isNone && 8192 ≤ s.mir.held.length)
  if full then (s.sendAck b.rid b.body.csn 1).linkFault k 8 f
  else
    let r := { b.body with units := b.units, start := s.mir.helloStart }
    let m := { s.mir with held := Assoc.insert s.mir.held key r, heldUnits := used + b.units }
    ({ s with mir := m }).sendAck b.rid b.body.csn 0

/-- A record in progress is stored once nothing of it is due. -/
def State.stepRecord (s : State) (k : Nat) (b : Partial) (f : BitVec 256) : State :=
  if b.info && b.extents == 0 && b.lines == 0 then s.storeRecord k b f else s.putBuilding k (some b)

/-- The record that a COMMIT_REC begins. -/
def partialOf (f : BitVec 256) : Partial :=
  { rid := fget f 191 13, extents := fget f 70 20, units := 1 + fget f 70 20
    body := { inst := f.extractLsb' 183 8, chan := f.extractLsb' 170 13, pos := f.extractLsb' 138 32, csn := f.extractLsb' 90 48
              nExt := fget f 70 20, pay := f.getLsbD 69 } }

/-- Records flow: in PAIRED, and in SYNC for those sent again. -/
def State.takesRecords (s : State) : Bool := s.mir.link == .paired || s.mir.link == .sync

/-- COMMIT_REC: a record begins; one still open on the lane is out of order (R411, R421). -/
def execCommitRec (lane : Bool) (frame : BitVec 256) (s : State) : Out :=
  let k := bit lane
  let q := { s with out := [] }.sequenced k 2 frame
  let s := q.2
  if !q.1 || !s.takesRecords then .next s.afterLink else
  let s := match (s.lane k).building with
    | some b => if b.bad then s else s.spoilRecord k b frame
    | none => s
  let b := partialOf frame
  let bad := !clearBits frame 68 32 || (!b.body.pay && b.extents != 0)
  .next (if bad then s.spoilRecord k b frame else s.putBuilding k (some b)).afterLink

/-- An INFO frame fills the record in. -/
def Partial.addInfo (b : Partial) (f : BitVec 256) : Partial :=
  { b with
    info := true
    body := { b.body with
      tag := f.extractLsb' 157 32, octets := f.extractLsb' 125 32, engine := f.extractLsb' 117 8, ctx := f.extractLsb' 114 3
      ledger := f.extractLsb' 107 7 } }

/-- An EXTENT frame opens its lines. -/
def Partial.addExtent (b : Partial) (f : BitVec 256) : Partial :=
  let part := f.getLsbD 130
  let n := if part then 1 else fget f 110 20
  { b with
    extents := b.extents - 1, lines := n, line := fget f 131 58, quarter := 0, units := b.units + n
    oen := if part then f.extractLsb' 66 64 else BitVec.allOnes 64 }

/-- A DATA frame brings a quarter of a line: 16 octets, octet 0 in frame bits [159:152]. -/
def Partial.addData (b : Partial) (f : BitVec 256) : Partial :=
  let data := (List.range 16).foldl (fun m i =>
    let o := 16 * b.quarter + i
    if b.oen.getLsbD o then Assoc.insert m (64 * b.line + o) (f.extractLsb' (152 - 8 * i) 8) else m) b.body.data
  let b := { b with body := { b.body with data := data } }
  if b.quarter = 3 then { b with quarter := 0, line := b.line + 1, lines := b.lines - 1 } else { b with quarter := b.quarter + 1 }

/-- A PAYLOAD frame in the order of its record, with its reserved bits 0. -/
def Partial.takes (b : Partial) (f : BitVec 256) : Option Partial :=
  match fget f 189 2 with
  | 0 => if !b.info && clearBits f 106 32 then some (b.addInfo f) else none
  | 1 =>
    let rest := if f.getLsbD 130 then clearBits f 65 32 else clearBits f 109 32 && fget f 110 20 != 0
    if b.info && b.lines == 0 && 0 < b.extents && rest then some (b.addExtent f) else none
  | 2 => if b.info && 0 < b.lines && clearBits f 188 160 then some (b.addData f) else none
  | _ => none

/-- PAYLOAD: the next frame of the record open on the lane (R411, R421). -/
def execPayload (lane : Bool) (frame : BitVec 256) (s : State) : Out :=
  let k := bit lane
  let q := { s with out := [] }.sequenced k 3 frame
  let s := q.2
  if !q.1 || !s.takesRecords then .next s.afterLink else
  match (s.lane k).building with
  | none => .next (s.linkFault k 4 frame).afterLink
  | some b =>
    if b.rid ≠ fget frame 191 13 then .next (s.spoilRecord k b frame).afterLink
    else if b.bad then .next s.afterLink
    else match b.takes frame with
      | some b => .next (s.stepRecord k b frame).afterLink
      | none => .next (s.spoilRecord k b frame).afterLink

/-- Step 3 of a commit ends with the partner's answer (R411). -/
def State.ackArrives (s : State) (rid : Nat) (o : OwnRec) (stored : Bool) : State :=
  let s := s.putOwn rid { o with acked := true }
  let s := if stored then s else s.mirCount 12
  match o.job with
  | some id => s.endMirror id stored
  | none => s

/-- ACK: a record is stored or refused (R411). -/
def execAck (lane : Bool) (frame : BitVec 256) (s : State) : Out :=
  let k := bit lane
  let q := { s with out := [] }.sequenced k 4 frame
  let s := q.2
  if !q.1 then .next s.afterLink
  else if !clearBits frame 140 32 || 1 < fget frame 141 2 then .next (s.linkFault k 4 frame).afterLink
  else
    let rid := fget frame 191 13
    match s.own rid with
    | some o =>
      if o.body.csn = frame.extractLsb' 143 48 then .next (s.ackArrives rid o (fget frame 141 2 == 0)).afterLink
      else .next (s.linkFault k 6 frame).afterLink
    | none => .next (s.linkFault k 6 frame).afterLink

/-- RETIRE: the held record is discarded (R411). -/
def execRetire (lane : Bool) (frame : BitVec 256) (s : State) : Out :=
  let k := bit lane
  let q := { s with out := [] }.sequenced k 5 frame
  let s := q.2
  if !q.1 then .next s.afterLink
  else if !clearBits frame 142 32 then .next (s.linkFault k 4 frame).afterLink
  else
    let key := heldKey (fget frame 191 13) (frame.extractLsb' 143 48)
    match Assoc.lookup s.mir.held key with
    | some r => .next (s.dropHeld key r).afterLink
    | none => .next (s.linkFault k 6 frame).afterLink

/-! ## Liveness and acknowledgement -/

/-- HEARTBEAT: a liveness frame, whose FENCED counts on any lane (R413). -/
def execHeartbeat (lane : Bool) (frame : BitVec 256) (s : State) : Out :=
  let k := bit lane
  let q := { s with out := [] }.frameArrives k (· == 6) frame
  let s := q.2
  if !q.1 then .next s.afterLink
  else if !clearBits frame 167 32 then .next (s.linkFault k 4 frame).afterLink
  else .next ((s.setPeerFenced (frame.getLsbD 203)).plainFrame k frame).2.afterLink

/-- The frames of the replay buffer go out again, but for its first `n`, with the RSEQ of now (R405). -/
def State.replayLane (s : State) (k n : Nat) : State :=
  let l := s.lane k
  let again := (l.replay.drop n).map fun f => mkFrame (f.extractLsb' 252 4) (frameSeq f) l.rxSeq (f.extractLsb' 32 172)
  again.foldl (fun t f => t.emit (.frame (k == 1) f))
    (s.putLane k { l with replay := l.replay.take n ++ again, accepted := if again.isEmpty then l.accepted else 0 })

/-- NACK: frames are sent again from its RSEQ, and what it passes leaves the buffer, so that waiting frames follow; one outside the
replay buffer resets the link (R405, R421). -/
def execNack (lane : Bool) (frame : BitVec 256) (s : State) : Out :=
  let k := bit lane
  let q := { s with out := [] }.frameArrives k (· == 8) frame
  let s := q.2
  if !q.1 || !(s.lane k).up then .next s.afterLink
  else if !clearBits frame 203 32 then .next (s.linkFault k 4 frame).afterLink
  else
    let l := s.lane k
    let n := (frameRseq frame - l.oldest).toNat
    let ok := frameSeq frame == l.rxSeq
    if ok && l.replay.length < n then .next (s.nackFault k frame).afterLink
    else .next ((if ok then s.replayLane k n else s).plainFrame k frame).2.afterLink

/-- UNKNOWN_FRAME: a frame of type 9 to 15 is dropped and counted (R421). -/
def execUnknownFrame (lane : Bool) (frame : BitVec 256) (s : State) : Out :=
  let k := bit lane
  let q := { s with out := [] }.frameArrives k (fun t => 9 ≤ t) frame
  if q.1 then .next (q.2.linkFault k 3 frame).afterLink else .next q.2.afterLink

/-- HELLO_PERIOD: HELLO goes out on each lane in BRINGUP and LOST, and on a lane that is down, here or at the partner, in any
state (R406, R408, log entries 43 and 134). -/
def execHelloPeriod (lane : Bool) (s : State) : Out :=
  let k := bit lane
  let s := { s with out := [] }
  let speaks := s.mir.link == .bringup || s.mir.link == .lost || !(s.lane k).up || (s.lane k).hail
  if s.linkOn && speaks then .next (s.sendHello k) else .next s

/-- HEARTBEAT_PERIOD: a lane that is up sends a HEARTBEAT (R413). -/
def execHeartbeatPeriod (lane : Bool) (s : State) : Out :=
  let k := bit lane
  let s := { s with out := [] }
  if s.linkOn && (s.lane k).up then .next (s.sendHeartbeat k) else .next s

/-! ## Timeouts -/

/-- 160 µs in ticks (R406, R413). -/
def silence : Nat := 16000

/-- LANE_DOWN_TIMEOUT: 160 µs without a frame that passes its CRC, while the other lane has had one (R406). -/
def execLaneDownTimeout (lane : Bool) (s : State) : Out :=
  let k := bit lane
  let s := { s with out := [] }
  let l := s.lane k
  let o := s.lane (1 - k)
  if s.linkOn && l.up && o.up && l.lastRx + silence ≤ s.now && s.now < o.lastRx + silence then .next (s.laneDown k).afterLink
  else .next s

/-- The link has a partner to lose: it is in a session, or has been PAIRED (R413). -/
def State.hasPartner (s : State) : Bool :=
  s.linkOn && s.mir.link != .lost && (s.anyLane || s.mir.everPaired)

/-- PARTNER_LOSS_TIMEOUT: 160 µs without a frame on either lane (R413). -/
def execPartnerLossTimeout (s : State) : Out :=
  let s := { s with out := [] }
  let last := max s.mir.lostAt (max (s.lane 0).lastRx (s.lane 1).lastRx)
  if s.hasPartner && last + silence ≤ s.now then .next s.enterLost.afterLink else .next s

/-- BRINGUP_STALL_TIMEOUT: 1 ms in BRINGUP or SYNC after having been PAIRED (R413). -/
def execBringupStallTimeout (s : State) : Out :=
  let s := { s with out := [] }
  let waits := s.mir.link == .bringup || s.mir.link == .sync
  if s.linkOn && waits && s.mir.everPaired && s.mir.stallAt + millisecond ≤ s.now then .next s.enterLost.afterLink else .next s

/-- SELF_FENCE: LOST for MIR_ARB_WAIT ticks without the takeover condition (R415). -/
def execSelfFence (s : State) : Out :=
  let s := { s with out := [] }
  let m := s.mir
  let alone := m.link == .lost && !s.mayTake && !m.takeover && !m.tookNow && !m.selfFenced
  if s.linkOn && alone && m.arbWait != 0 && m.lostAt + m.arbWait.toNat ≤ s.now then
    .next ({ s with mir := { m with selfFenced := true } }.arrive 599).settle
  else .next s

/-- PAIR_ARB: the takeover grant changes. Its level is kept at all times; a grant outside LOST is counted, in RETAIN and once R32 has
acted too, and one in LOST acts while the complex is in RUN (R39, R414). -/
def execPairArb (level : Bool) (s : State) : Out :=
  let rises := level && !s.mir.arb
  let s := { s with out := [], mir := { s.mir with arb := level } }
  if !s.alive then .next s
  else if rises && s.mir.link != .lost then .next ((s.mirCount 13).arrive 600)
  else if s.up && s.life.power == .run then .next s.checkTake.afterLink
  else .next s

end Sys2Proof.Machine
end

