-- ==== Sys2Proof/Machine/Upkeep.lean ====
section
/-!
DEFINITION. Scrubbing (R144, R327, R429), event timers (R376), the drain limit (R392) and the checks of a microcode patch (R329
to R334).
-/

namespace Sys2Proof.Machine

/-! ## Scrubbing -/

/-- Scrubbers run: not from step 2 of the shutdown sequence on (Tables CHK.7 and LCB.3). -/
def State.scrubs (s : State) : Bool := s.clocked && 5 ≤ s.life.phase && s.life.shut != .squash

/-- The number of a scrubbed memory: 0 the log deck, then the local stores by engine, then the microcode stores by stand. -/
def scrubLog : Nat := 0

/-- The local store of engine `p`. -/
def scrubStore (p : Nat) : Nat := 1 + p

/-- The microcode store of stand `d`. -/
def scrubMicro (d : Nat) : Nat := 1000 + d

/-- A scrub read of a memory whose pass takes `period` ticks: a pass that overruns it by more than 100 % is recorded once, and goes on;
the read of the last word ends the pass (R429, log entry 135). -/
def State.scrubStep (s : State) (k period : Nat) (last : Bool) : State :=
  let q := (Assoc.lookup s.chk.passes k).getD (s.now, false)
  let late := !q.2 && decide (q.1 + 2 * period < s.now)
  { s with chk := { s.chk with
      passes := Assoc.insert s.chk.passes k (if last then (s.now, false) else (q.1, q.2 || late))
      overruns := s.chk.overruns + bit late } }

/-- The line that a slice keeps in a row (R136). -/
def State.lineIn (s : State) (slice row : Nat) : Nat := (s.placeLine (BitVec.ofNat 19 (slice + 64 * row))).toNat

/-- What a scrub read of one log deck word found (R143). -/
def State.scrubWord (s : State) (f : Fin 64 × Fin 8 × Ecc) : State :=
  match f.2.2 with
  | .clean => s
  | .corrected => { s with ldk := { s.ldk with ce := satInc s.ldk.ce } }
  | .uncorrectable => s.markBad 0 (BitVec.ofNat 24 (0x400000 + 8 * s.lineIn f.1.val s.ldk.row + f.2.1.val)) 2

/-- The next row of every slice; a pass ends after the last (R144). -/
def LogDeck.nextRow (l : LogDeck) : LogDeck :=
  if l.row + 1 < 8192 then { l with row := l.row + 1 } else { l with row := 0, passes := l.passes + 1 }

/-- LOG_DECK_SCRUB: one line of each slice is read (R144). -/
def execLogDeckScrub (found : List (Fin 64 × Fin 8 × Ecc)) (s : State) : Out :=
  let s := { s with out := [] }
  if !s.scrubs then .next s else
  let s := found.foldl State.scrubWord (s.scrubStep scrubLog 800000000 (s.ldk.row + 1 == 8192))
  .next { s with ldk := s.ldk.nextRow }

/-- LOCAL_STORE_SCRUB: one word of an engine's local store. A corrected word is written back and counted (Table CHK.2). -/
def execLocalStoreScrub (isl : Fin 272) (addr : BitVec 14) (ecc : Ecc) (s : State) : Out :=
  let s := { s with out := [] }
  if !s.scrubs then .next s else
  let s := s.scrubStep (scrubStore isl.val) 100000000 (addr == BitVec.allOnes 14)
  match ecc with
  | .clean => .next s
  | .corrected => .next (s.countCorrected 1)
  | .uncorrectable => .next (s.markBad isl.val (addr.setWidth 24) 2)

/-- MICROCODE_SCRUB: one microword of a stand's store (R327). -/
def execMicrocodeScrub (stand : Fin 16) (addr : BitVec 12) (ecc : Ecc) (s : State) : Out :=
  let s := { s with out := [] }
  if !s.scrubs then .next s else
  let s := s.scrubStep (scrubMicro stand.val) 1600000 (addr == BitVec.allOnes 12)
  match ecc with
  | .clean => .next s
  | .corrected => .next { s with mcs := { s.mcs with ce := satInc s.mcs.ce } }
  | .uncorrectable => .next (s.badMicro stand.val addr.toNat 2)

/-- The ECC_UE record of a state store. Its word address is a free value: the command names no word (log entry 7). -/
def State.recordState (s : State) (memory sev : Nat) (owner : Option (BitVec 8)) : State :=
  let q := s.drawWord
  (q.2.attn 4).recordBoth 4 sev owner noPlace memory q.1.toNat (putNum 32 1 2)

/-- A key slot whose word is uncorrectable: both copies become EMPTY, and requests on a lane end with a unit error (Table
CHK.2). -/
def State.loseSlot (s : State) (n : Nat) : State :=
  let k := s.slot n
  let owner := if k.front.kind = 0 then none else some k.front.owner
  let lose := fun (r : Nat × UnitReq) => (r.1, if r.2.lane.isSome && r.2.kind != 0 && r.2.slot.toNat == n then { r.2 with keyLost := true } else r.2)
  let s := s.putSlot n { k with front := {}, back := none }
  ({ s with units := { s.units with reqs := s.units.reqs.map lose } }).recordState 6 2 owner

/-- A parity error drops the oldest trace record (Table CHK.2). -/
def Dbg.dropOldest (d : Dbg) : Dbg :=
  match d.trace with
  | [] => d
  | _ :: t => { d with trace := t, trcDrop := satInc d.trcDrop }

/-- The memory code of a state store whose corrected words are counted (Tables CHK.2 and CHK.11). -/
def countedStore : StateStore → Option Nat
  | .tracker => some 5
  | .keySlot _ => some 6
  | _ => none

/-- STATE_SCRUB: a word of the state stores of Table CHK.2. A corrected word of the tracker or of the key-slot store is written back and
counted. -/
def execStateScrub (store : StateStore) (ecc : Ecc) (s : State) : Out :=
  let s := { s with out := [] }
  if !s.scrubs || ecc == .clean then .next s else
  if ecc = .corrected then .next (match countedStore store with
    | some k => s.countCorrected k
    | none => s) else
  match store with
  | .tracker => .next ((s.recordState 5 3 none).setFatal 4).settleFence
  | .keySlot k => .next (s.loseSlot k.toNat)
  | .replay => if s.mir.link.talks then .next (s.restartLink.mirCount 10).afterLink else .next s
  | .trace => .next { s with dbg := s.dbg.dropOldest }

/-! ## Event timers (R376) -/

/-- An event timer whose count has reached 0: a periodic one reloads, a one-shot one clears EN, and so does a PERIOD of 0. -/
def EvTimer.fired (x : EvTimer) (now : Nat) : EvTimer :=
  if x.periodic && x.period != 0 then
    { x with timer := match x.timer with
      | .until d => .until (d + x.period.toNat)
      | _ => .until (now + x.period.toNat) }
  else { x with en := false, timer := .off }

/-- EVENT_TIMER: a timer reaches 0 and makes an arrival. Timers count through RETAIN. -/
def execEventTimer (t : BitVec 5) (s : State) : Out :=
  let s := { s with out := [] }
  let n := t.toNat
  let x : EvTimer := Tab.get (fun _ => {}) s.evc.timers n
  if !s.up || !x.en || !x.timer.due s.now then .next s else
  .next ({ s with evc := { s.evc with timers := Tab.put s.evc.timers n (x.fired s.now) } }.arrive (736 + n))

/-! ## The drain limit -/

/-- DRAIN_TIMEOUT: INST_RST_TMO ticks since DRAIN; the user enters SQUASHING (R389, R392). -/
def execDrainTimeout (inst : BitVec 8) (s : State) : Out :=
  let s := { s with out := [] }
  let x := s.inst inst.toNat
  match x.rstDue with
  | none => .next s
  | some t => if s.up && x.rstate == .draining && t ≤ s.now then .next (s.squashInst inst.toNat).settle else .next s

/-! ## Patch images (Table MCS.5) -/

/-- Octet `i` of the staging buffer. -/
def Mcs.octet (m : Mcs) (i : Nat) : Octet := (Tab.get countDflt m.stage (i / 4)).extractLsb' (8 * (i % 4)) 8

/-- Octets `i` to `i + n - 1` of the staged image. -/
def Mcs.octets (m : Mcs) (i n : Nat) : List Octet := (List.range n).map fun k => m.octet (i + k)

/-- A little-endian field of the image. -/
def Mcs.field (m : Mcs) (i n : Nat) : Nat := leNat (m.octets i n)

/-- R of the image. -/
def Mcs.remaps (m : Mcs) : Nat := m.field 8 2

/-- W of the image. -/
def Mcs.words (m : Mcs) : Nat := m.field 10 2

/-- C of the image. -/
def Mcs.body (m : Mcs) : Nat := 4 * m.remaps + 18 * m.words

/-- Check 2: the header and the length. The last staged word may hold unwritten octets (Table MCS.8). -/
def Mcs.headerOk (m : Mcs) : Bool :=
  m.field 0 4 == 0x50434D31 && m.field 4 2 == 1 && m.field 28 36 == 0 && m.remaps ≤ 64 && m.words ≤ 1024 &&
    m.staged == (272 + m.body + 3) / 4

/-- Check 3: the public key. -/
def Mcs.keyOk (m : Mcs) : Bool := beNat (sha384 (m.octets 64 96)) == Config.patchKeyDigest.toNat

/-- Check 4: the signature. -/
def Mcs.signatureOk (m : Mcs) : Bool :=
  let c := m.body
  ecdsaVerify (beNat (m.octets 64 48)) (beNat (m.octets 112 48)) (sha384 (m.octets 0 (176 + c))) (beNat (m.octets (176 + c) 48))
    (beNat (m.octets (224 + c) 48))

/-- The label mcpatch. -/
def patchLabel : List Octet := [0x6D, 0x63, 0x70, 0x61, 0x74, 0x63, 0x68]

/-- The patch key of generation `g` (R330): the KDF of R341 with G as its context (log entry 45). -/
def patchKeyOf (root : List Octet) (g : Nat) : List Octet :=
  let block := fun (i : Nat) => cmac root (beOctets 4 i ++ patchLabel ++ [0] ++ beOctets 4 g ++ beOctets 4 256)
  block 1 ++ block 2

/-- Check 6 and the plaintext. -/
def Mcs.open (m : Mcs) (key : List Octet) : Option (List Octet) :=
  let c := m.body
  let ct := m.octets 160 c
  let iv := m.octets 16 12
  if gcmTag key iv (m.octets 0 160) ct = m.octets (160 + c) 16 then some (gcmText key iv ct) else none

/-- The remap entries of a plaintext. -/
def remapEntries (n : Nat) (p : List Octet) : List (BitVec 32) :=
  (List.range n).map fun i => BitVec.ofNat 32 (leNat ((p.drop (4 * i)).take 4))

/-- The microwords of a plaintext. -/
def microWords (r w : Nat) (p : List Octet) : List (BitVec 144) :=
  (List.range w).map fun i => BitVec.ofNat 144 (beNat ((p.drop (4 * r + 18 * i)).take 18))

/-- FROM of a remap entry. -/
def remapFrom (e : BitVec 32) : Nat := (e.extractLsb' 0 12).toNat

/-- TO of a remap entry. -/
def remapTo (e : BitVec 32) : Nat := (e.extractLsb' 12 12).toNat

/-- Check 8. -/
def remapsOk (w : Nat) (es : List (BitVec 32)) : Bool :=
  es.all (fun e => remapFrom e ≤ 0xBFF && 0xC00 ≤ remapTo e && remapTo e < 0xC00 + w && (e.extractLsb' 24 8) == 0) &&
    (es.map remapFrom).eraseDups.length == es.length

/-- The effective version floor (R332). -/
def State.patchFloor (s : State) : Nat := max s.mcs.floor.toNat s.aon.high.toNat

/-- Checks 2 to 5 of Table MCS.6: the first that fails. -/
def State.patchBar (s : State) : Option Nat :=
  let m := s.mcs
  if !m.headerOk then some 2
  else if !m.keyOk then some 3
  else if !m.signatureOk then some 4
  else if m.field 6 2 < s.patchFloor then some 5
  else none

/-- Check 6 derives the patch key into the cipher unit's patch key register (R330). -/
def State.derivePatchKey (s : State) : State :=
  if s.patchBar.isSome then s else
  { s with units := { s.units with
      patchKey := BitVec.ofNat 256 (beNat (patchKeyOf s.rootKey (s.mcs.field 12 4))) } }

/-- The outcome of the checks 2 to 8 of Table MCS.6: the refusal, or the microwords and remap entries to load. -/
def State.checkPatch (s : State) : Nat ⊕ (List (BitVec 144) × List (BitVec 32)) :=
  let m := s.mcs
  match s.patchBar with
  | some k => .inl k
  | none =>
    match m.open (beOctets 32 s.units.patchKey.toNat) with
    | none => .inl 6
    | some p =>
      let ws := microWords m.remaps m.words p
      let es := remapEntries m.remaps p
      if !ws.all microOk then .inl 7
      else if !remapsOk m.words es then .inl 8
      else .inr (ws, es)

/-- The patch is loaded (R334): words by patch RAM address, the remap table, the version and the high-water version. -/
def State.loadPatch (s : State) (ws : List (BitVec 144)) (es : List (BitVec 32)) : State :=
  let v := BitVec.ofNat 16 (s.mcs.field 6 2)
  let ram := (ws.zipIdx 0xC00).foldl (fun m x => Tab.set microDflt m x.2 x.1) []
  { s with
    mcs := { s.mcs with
      state := 2, reason := 0, ver := v, ram := ram
      remap := es.map fun e => (BitVec.ofNat 12 (remapFrom e), BitVec.ofNat 12 (remapTo e)) }
    aon := { s.aon with high := if s.aon.high.toNat < v.toNat then v else s.aon.high } }

/-- PATCH_CHECK_DONE: boot firmware has checked the staged image (R333, R334); phase 4 ends, and with it the patch key register is cleared
(R330). -/
def execPatchCheckDone (s : State) : Out :=
  let s := { s with out := [] }
  if !(s.up && s.life.phase == 4 && s.mcs.state == 1) then .next s else
  let s := s.derivePatchKey
  match s.checkPatch with
  | .inl k => .next (s.refusePatch k)
  | .inr (ws, es) => .next (s.loadPatch ws es).endPhase4

end Sys2Proof.Machine
end

