-- ==== Sys2Proof/Machine/Regs.lean ====
section
/-!
DEFINITION. What the register port shows (R483 to R492 and the register tables of every chapter): the value of each register,
index windows, _LO and _HI pairs, and the registers that a read clears.
-/

namespace Sys2Proof.Machine

/-! ## Fields -/

/-- A register value from (lowest bit, value) pairs. -/
def fieldsOf (l : List (Nat × Nat)) : Reg32 := BitVec.ofNat 32 (l.foldl (fun v x => v + x.2 * 2 ^ x.1) 0)

/-- Bits [31:0] of a value. -/
def loHalf {w : Nat} (v : BitVec w) : Reg32 := v.setWidth 32

/-- Bits [63:32] of a value. -/
def hiHalf {w : Nat} (v : BitVec w) : Reg32 := (v >>> 32).setWidth 32

/-- The octets that the strobes of a transfer select (R486). -/
def xMask (x : RegXfer) : Reg32 :=
  (List.range 4).foldl (fun m k => if x.strb.getLsbD k then m ||| ((0xFF : Reg32) <<< (8 * k)) else m) 0

/-- The data of a transfer; octets without a strobe are 0. -/
def xBits (x : RegXfer) : Reg32 := x.data &&& xMask x

/-- The value of a register after a transfer acts on its octets. -/
def xOver (x : RegXfer) (old : Reg32) : Reg32 := (old &&& ~~~(xMask x)) ||| xBits x

/-- The transfer acts on some bit of [lo + w - 1 : lo]. -/
def xHits (x : RegXfer) (lo w : Nat) : Bool := ((xMask x).extractLsb' lo w) != 0

/-! ## Index registers (R488, R489) -/

/-- The index registers of the register port, or the debug path's own copy. -/
def State.idxOf (s : State) (dbg : Bool) : Idx := if dbg then s.dbgIdx else s.idx

/-- One path's index registers are replaced. -/
def State.putIdx (s : State) (dbg : Bool) (i : Idx) : State := if dbg then { s with dbgIdx := i } else { s with idx := i }

/-- The value of the index register at an address. -/
def Idx.read (i : Idx) (a : Nat) : Option Reg32 :=
  match a with
  | 0x00018 => some (i.xidx.setWidth 32)
  | 0x0100C => some (i.isl.setWidth 32)
  | 0x03040 => some (i.cnt.setWidth 32)
  | 0x03080 => some (i.dl.setWidth 32)
  | 0x04004 => some (i.chst.setWidth 32)
  | 0x04010 => some (i.chmInst.setWidth 32)
  | 0x05000 => some (i.stand.setWidth 32)
  | 0x05010 => some (i.dspInst.setWidth 32)
  | 0x06000 => some (i.gran.setWidth 32)
  | 0x06010 => some (i.hot.setWidth 32)
  | 0x07000 => some (i.slot.setWidth 32)
  | 0x07090 => some (i.cLane.setWidth 32)
  | 0x08000 => some (i.zLane.setWidth 32)
  | 0x09000 => some (i.src.setWidth 32)
  | 0x0900C => some (i.set.setWidth 32)
  | 0x09020 => some (i.tmr.setWidth 32)
  | 0x0A028 => some (i.mirInst.setWidth 32)
  | 0x0A030 => some (i.mirCnt.setWidth 32)
  | 0x0B00C => some (i.eng.setWidth 32)
  | 0x0B018 => some (i.chkStand.setWidth 32)
  | 0x0B060 => some (i.ier.setWidth 32)
  | 0x0C00C => some (i.trc.setWidth 32)
  | 0x0C020 => some (i.pu.setWidth 32)
  | 0x0D004 => some (i.widx.setWidth 32)
  | _ => none

/-- The index register at an address takes a value. -/
def Idx.write (i : Idx) (a : Nat) (v : Reg32) : Idx :=
  match a with
  | 0x00018 => { i with xidx := v.setWidth 4 }
  | 0x0100C => { i with isl := v.setWidth 9 }
  | 0x03040 => { i with cnt := v.setWidth 5 }
  | 0x03080 => { i with dl := v.setWidth 8 }
  | 0x04004 => { i with chst := v.setWidth 13 }
  | 0x04010 => { i with chmInst := v.setWidth 8 }
  | 0x05000 => { i with stand := v.setWidth 4 }
  | 0x05010 => { i with dspInst := v.setWidth 8 }
  | 0x06000 => { i with gran := v.setWidth 10 }
  | 0x06010 => { i with hot := v.setWidth 6 }
  | 0x07000 => { i with slot := v.setWidth 10 }
  | 0x07090 => { i with cLane := v.setWidth 3 }
  | 0x08000 => { i with zLane := v.setWidth 4 }
  | 0x09000 => { i with src := v.setWidth 10 }
  | 0x0900C => { i with set := v.setWidth 9 }
  | 0x09020 => { i with tmr := v.setWidth 5 }
  | 0x0A028 => { i with mirInst := v.setWidth 8 }
  | 0x0A030 => { i with mirCnt := v.setWidth 4 }
  | 0x0B00C => { i with eng := v.setWidth 8 }
  | 0x0B018 => { i with chkStand := v.setWidth 4 }
  | 0x0B060 => { i with ier := v.setWidth 8 }
  | 0x0C00C => { i with trc := v.setWidth 13 }
  | 0x0C020 => { i with pu := v.setWidth 8 }
  | 0x0D004 => { i with widx := v.setWidth 13 }
  | _ => i

/-! ## Values by region -/

/-- A ring register set (Table CHK.9): offset from its base. -/
def Ring.read (r : Ring) (o : Nat) : Option Reg32 :=
  match o with
  | 0x00 => some (loHalf r.base)
  | 0x04 => some (hiHalf r.base)
  | 0x08 => some (fieldsOf [(0, r.l.toNat), (8, bit r.en)])
  | 0x0C => some (loHalf r.cline)
  | 0x10 => some (hiHalf r.cline)
  | 0x14 => some r.tail
  | 0x18 => some r.drop
  | _ => none

/-- GLB (Tables MAP.2, MAP.3, SCP.1, ENC.6, ENC.7). -/
def State.readGlb (s : State) (i : Idx) (a : Nat) : Option Reg32 :=
  match a with
  | 0x00 => some 0x6B125624
  | 0x04 => some (fieldsOf [(0, bit s.glb.rsvacc), (1, bit (s.life.phase == 8)), (2, bit s.errAttn), (3, bit s.errFatal)])
  | 0x08 => some (fieldsOf [(0, s.glb.rsvaddr.toNat), (31, bit s.glb.rsvwrite)])
  | 0x10 => some 0x3F02
  | 0x14 => some (fieldsOf [(0, s.liveEngines), (9, 16), (14, 8)])
  | 0x1C => some ((s.glb.present.getD i.xidx.toNat 0).setWidth 32)
  | _ => none

/-- CLK (Tables CHK.8, CHK.10). -/
def State.readClk (s : State) (i : Idx) (a : Nat) : Option Reg32 :=
  let p := i.isl.toNat
  match a with
  | 0x1000 => some (fieldsOf [(0, bit s.chk.raise), (1, s.chk.target.toNat), (7, s.chk.telp.toNat)])
  | 0x1004 => some (s.chk.budget.setWidth 32)
  | 0x1008 => some (s.chk.pest.setWidth 32)
  | 0x1010 => some (if p < 272 then BitVec.ofNat 32 (s.eng p).islStat else 0)
  | 0x1014 => some (if p < 272 then BitVec.ofNat 32 (min 65535 (s.eng p).drift) else 0)
  | 0x1018 => some s.chk.tdrop
  | _ => if 0x1040 ≤ a then s.chk.tel.read (a - 0x1040) else none

/-- LCB (Tables LCB.6, LCB.7). -/
def State.readLcb (s : State) (a : Nat) : Option Reg32 :=
  let l := s.life
  match a with
  | 0x2000 => some (fieldsOf [(0, if s.scrapped then 5 else l.lc.code), (3, l.phase), (7, bit l.stopped), (8, bit l.quick),
      (9, l.sigClass.toNat), (12, bit s.aon.lost)])
  | 0x2004 => some (loHalf s.aon.sig)
  | 0x2008 => some (hiHalf s.aon.sig)
  | 0x200C => some (fieldsOf [(0, bit l.sigSeen), (1, s.aon.slog2.toNat), (6, s.aon.count.toNat)])
  | 0x2010 => some (s.aon.log2.setWidth 32)
  | 0x2014 => some 0
  | 0x2018 => some (fieldsOf [(0, bit l.lpass), (1, bit l.mpass), (2, l.mfail.toNat)])
  | 0x201C => some l.shutTmo
  | 0x2020 => some (fieldsOf [(0, l.keyBeats.toNat), (4, bit l.keyHeld), (5, bit l.ephemeral), (6, bit l.keyTimeout),
      (8, l.keyLate.toNat)])
  | 0x2024 => some (s.aon.result.setWidth 32)
  | _ => none

/-- The counter that HPI_CNT_INDEX selects (Table HST.9). TAGLOST is live. -/
def Port.counter (p : Port) (k : Nat) : Reg32 :=
  if k = 11 then BitVec.ofNat 32 p.lost else if k < 13 then Tab.get countDflt p.counts k else 0

/-- HPI (Tables HST.7 to HST.11). -/
def State.readHpi (s : State) (i : Idx) (a : Nat) : Option Reg32 :=
  let d := (s.inst i.dl.toNat).dl
  let ctl := fun (p : Port) => fieldsOf [(0, bit p.en), (1, bit p.up)]
  match a with
  | 0x3000 => some (ctl (s.port 0))
  | 0x3004 => some (ctl (s.port 1))
  | 0x3008 => some ((s.port 0).tmo.setWidth 32)
  | 0x300C => some ((s.port 1).tmo.setWidth 32)
  | 0x3010 => some (s.steer.setWidth 32)
  | 0x3044 => some ((s.port (i.cnt.toNat / 16)).counter (i.cnt.toNat % 16))
  | 0x3084 => some (fieldsOf [(0, bit d.en), (1, bit d.broken)])
  | 0x3088 => some (loHalf d.base)
  | 0x308C => some (hiHalf d.base)
  | 0x3090 => some (loHalf d.low)
  | 0x3094 => some (hiHalf d.low)
  | 0x3098 => some d.pages
  | 0x309C => some d.unlogged
  | _ => none

/-- A written value of `g` awaits a boundary. -/
def Gov.pends {α : Type} (g : Gov α) : Bool := g.wrote.isSome

/-- A refresh of some channel awaits a boundary (CHM_CHREF.PEND). -/
def State.refreshPends (s : State) : Bool := s.chans.any fun c => c.2.refresh != .idle

/-- The grant table or the reserve awaits a boundary (LDK_STAT.PEND). -/
def State.grantsPend (s : State) : Bool := s.ldk.mirRes.pends || s.ldk.grans.any fun g => g.2.wrote.isSome

/-- Share values of a user await a boundary. -/
def Inst.sharesPend (x : Inst) : Bool := x.shares.any fun r => r.2.pends

/-- CHM_EPOCH_CTL.PEND: values written to Table DSP.1's settings await a boundary. -/
def State.epochPends (s : State) : Bool :=
  s.dsp.period.pends || s.dsp.steal.pends || s.grantsPend || s.refreshPends ||
    s.insts.any (fun x => x.2.sharesPend || x.2.prio.pends || x.2.durable.pends || x.2.period.swap.pends) ||
    s.units.slots.any fun k => k.2.limit.pends

/-- Accepted-job entries of a channel. -/
def State.liveOn (s : State) (c : Nat) : Nat := (s.acceptedJobs.filter fun x => x.2.chan.toNat == c).length

/-- CHM (Tables CHP.10 to CHP.13, DSP.4, DSP.5). -/
def State.readChm (s : State) (i : Idx) (a : Nat) : Option Reg32 :=
  let c := s.chan i.chst.toNat
  let x := s.inst i.chmInst.toNat
  match a with
  | 0x4000 => some (fieldsOf [(31, bit s.refreshPends)])
  | 0x4008 => some (fieldsOf [(0, bit c.enabled), (1, c.reason.toNat), (4, bit c.stopped), (5, bit c.broken),
      (16, min 65535 (s.liveOn i.chst.toNat))])
  | 0x400C => some (fieldsOf [(0, c.dbOvr.toNat), (16, c.dbHead.toNat)])
  | 0x4014 => some (loHalf x.ctBase)
  | 0x4018 => some (hiHalf x.ctBase)
  | 0x401C => some (fieldsOf [(0, x.first), (16, x.count)])
  | 0x4020 => some (x.poll.setWidth 32)
  | 0x4024 => some x.jobTmo
  | 0x4028 => some (fieldsOf [(0, x.durable.next.toNat), (2, bit x.sigReq)])
  | 0x402C => some (loHalf x.csn)
  | 0x4030 => some (hiHalf x.csn)
  | 0x4034 => some (loHalf x.pkey)
  | 0x4038 => some (hiHalf x.pkey)
  | 0x4100 => some (s.dsp.period.next.setWidth 32)
  | 0x4104 => some s.dsp.epoch
  | 0x4108 => some (fieldsOf [(0, bit s.dsp.hold), (1, bit s.epochPends)])
  | _ => none

/-- DSP (Table DSP.6). -/
def State.readDsp (s : State) (i : Idx) (a : Nat) : Option Reg32 :=
  let q := s.stand i.stand.toNat
  let x := s.inst i.dspInst.toNat
  let p := x.period
  match a with
  | 0x5004 => some (fieldsOf [(0, q.depth.toNat), (16, bit q.hot)])
  | 0x5008 => some (fieldsOf [(0, q.outs.toNat), (16, q.ins.toNat)])
  | 0x500C => some (fieldsOf [(0, bit s.dsp.steal.next.1), (8, s.dsp.steal.next.2.toNat)])
  | 0x5014 => some (x.prio.next.setWidth 32)
  | 0x5018 => some (loHalf p.host)
  | 0x501C => some (hiHalf p.host)
  | 0x5020 => some (fieldsOf [(1, bit p.front), (2, bit p.ready), (3, bit p.err), (4, bit (p.held || !p.loading.isEmpty))])
  | 0x5024 => some p.swap.next
  | _ => none

/-- Granule `g` lies in the mirror reserve in force. -/
def State.inReserve (s : State) (g : Nat) : Bool := 1024 - min 992 s.ldk.mirRes.cur.toNat ≤ g

/-- LDK (Table DSP.7). -/
def State.readLdk (s : State) (i : Idx) (a : Nat) : Option Reg32 :=
  let g := s.gran i.gran.toNat
  match a with
  | 0x6004 => some (fieldsOf [(0, g.owner.toNat), (8, g.kind.toNat), (16, bit g.draining.isSome), (17, bit (s.inReserve i.gran.toNat))])
  | 0x6008 => some (s.ldk.mirRes.next.setWidth 32)
  | 0x600C => some (fieldsOf [(0, bit s.grantsPend), (1, bit s.ldk.conflict)])
  | 0x6014 => some (Tab.get countDflt s.ldk.hot i.hot.toNat)
  | 0x6018 => some s.ldk.passes
  | 0x601C => some s.ldk.ce
  | 0x6020 => some s.ldk.ue
  | _ => none

/-- A lane's two counts. -/
def laneWord (l : List (Nat × (BitVec 16 × BitVec 16))) (k : Nat) : Reg32 :=
  let v := Tab.get (fun _ => (0, 0)) l k
  fieldsOf [(0, v.1.toNat), (16, v.2.toNat)]

/-- CIU and CMU (Tables CIZ.10, CIZ.11). -/
def State.readCiu (s : State) (i : Idx) (a : Nat) : Option Reg32 :=
  let k := s.slot i.slot.toNat
  match a with
  | 0x7004 => some (k.ctl.setWidth 32)
  | 0x7008 => some k.gen
  | 0x700C => some (k.llen.setWidth 32)
  | 0x7030 => some 0
  | 0x7034 => some (fieldsOf [(0, k.front.kind.toNat), (3, bit k.work.isSome), (4, bit k.back.isSome), (5, k.reason.toNat),
      (8, k.front.owner.toNat), (16, bit (k.front.kind != 0 && k.limitNow ≤ k.counter))])
  | 0x7038 => some (loHalf k.front.digest)
  | 0x703C => some (hiHalf k.front.digest)
  | 0x7040 => some (BitVec.ofNat 32 k.counter)
  | 0x7044 => some (BitVec.ofNat 32 (k.counter / 2 ^ 32 % 256))
  | 0x7048 => some (BitVec.ofNat 32 k.limit.next)
  | 0x704C => some (BitVec.ofNat 32 (k.limit.next / 2 ^ 32 % 2))
  | 0x7080 => some (fieldsOf [(0, s.units.drbgState.toNat), (2, min s.units.calls (2 ^ 21 - 1))])
  | 0x7084 => some s.units.entDrop
  | 0x7094 => some (laneWord s.units.cipherStat i.cLane.toNat)
  | 0x8004 => some (laneWord s.units.compStat i.zLane.toNat)
  | _ => if 0x7010 ≤ a ∧ a ≤ 0x702C then some (Tab.get countDflt k.labels ((a - 0x7010) / 4)) else none

/-- EVC (Tables EVC.4, EVC.5). -/
def State.readEvc (s : State) (i : Idx) (a : Nat) : Option Reg32 :=
  let c := s.src i.src.toNat
  let t : EvTimer := Tab.get (fun _ => {}) s.evc.timers i.tmr.toNat
  match a with
  | 0x9004 => some (fieldsOf [(0, c.prio.toNat), (4, c.tset.toNat), (10, bit c.wakeEn), (11, bit c.own)])
  | 0x9008 => some (fieldsOf [(0, c.count.toNat), (8, bit c.pend), (9, bit c.sig), (10, c.engine.toNat)])
  | 0x9010 => some (Tab.get setDflt s.evc.sets (8 * (i.set.toNat % 64) + i.set.toNat / 64))
  | 0x9014 => some 0
  | 0x9018 => some s.evc.sat
  | 0x901C => some s.evc.msgDrop
  | 0x9024 => some (fieldsOf [(0, bit t.en), (1, bit t.periodic)])
  | 0x9028 => some t.period
  | 0x902C => some (BitVec.ofNat 32 (t.timer.left s.now))
  | _ => none

/-- MIR (Tables MIR.9, MIR.10). -/
def State.readMir (s : State) (i : Idx) (a : Nat) : Option Reg32 :=
  let m := s.mir
  match a with
  | 0xA000 => some (fieldsOf [(0, bit m.en), (1, bit m.autotake), (2, bit s.aon.peerv)])
  | 0xA004 => some (fieldsOf [(0, m.link.code), (3, bit (s.lane 0).up), (4, bit (s.lane 1).up), (5, bit s.aon.fenced),
      (6, bit m.peerFenced), (7, bit m.takeover), (8, bit m.arb)])
  | 0xA008 => some (loHalf m.selfId)
  | 0xA00C => some (hiHalf m.selfId)
  | 0xA010 => some (loHalf s.aon.peerId)
  | 0xA014 => some (hiHalf s.aon.peerId)
  | 0xA018 => some (loHalf m.seen)
  | 0xA01C => some (hiHalf m.seen)
  | 0xA020 => some 0
  | 0xA024 => some m.arbWait
  | 0xA02C => some ((s.inst i.mirInst.toNat).home.setWidth 32)
  | 0xA034 => some (if i.mirCnt.toNat < 14 then Tab.get countDflt m.counts i.mirCnt.toNat else 0)
  | 0xA038 => some (fieldsOf [(0, m.held.length % 2 ^ 14), (16, m.own.length % 2 ^ 14)])
  | 0xA03C => some (BitVec.ofNat 32 (m.credit % 2 ^ 18))
  | 0xA040 => some m.start
  | _ => none

/-- CHK (Tables CHK.8 to CHK.10). -/
def State.readChk (s : State) (i : Idx) (a : Nat) : Option Reg32 :=
  let l := s.log i.eng.toNat
  let p := s.spare i.chkStand.toNat
  match a with
  | 0xB000 => some (s.chk.attn.setWidth 32)
  | 0xB004 => some (s.chk.mask.setWidth 32)
  | 0xB008 => some (s.chk.fatal.setWidth 32)
  | 0xB010 => some (BitVec.ofNat 32 (s.engStat i.eng.toNat))
  | 0xB014 => some (fieldsOf [(0, l.retries.toNat), (16, l.regErrs.toNat)])
  | 0xB01C => some (fieldsOf [(0, p.st.toNat), (2, if p.st = 1 then p.engaged.toNat else 0), (10, min 31 p.removed)])
  | 0xB020 => some 0
  | _ =>
    if 0xB064 ≤ a then (s.inst i.ier.toNat).errRing.read (a - 0xB064)
    else if 0xB040 ≤ a then s.chk.ger.read (a - 0xB040) else none

/-- The selected patch unit: 16 × stand + unit. -/
def State.patchUnit (s : State) (i : Idx) : PatchUnit := Tab.get unitDflt s.dbg.units i.pu.toNat

/-- DBG (Tables DBG.9, DBG.10). -/
def State.readDbg (s : State) (i : Idx) (a : Nat) : Option Reg32 :=
  let d := s.dbg
  let u := s.patchUnit i
  match a with
  | 0xC000 => some (fieldsOf [(0, bit d.attached), (1, bit (d.attached && d.path == .suycia)), (2, d.scope.toNat), (4, d.inst.toNat),
      (12, bit d.puign), (13, d.fails.toNat)])
  | 0xC004 => some (fieldsOf [(0, bit d.wdtRun)])
  | 0xC008 => some (fieldsOf [(0, bit d.trcEn), (1, bit d.trcWrap), (2, d.trcKinds.toNat), (8, d.trcEngine.toNat), (16, bit d.trcAll)])
  | 0xC010 => some (((d.trace.getD (i.trc.toNat % 2048) 0).extractLsb' (32 * (i.trc.toNat / 2048)) 32))
  | 0xC014 => some d.trcDrop
  | 0xC024 => some (fieldsOf [(0, u.addr.toNat), (16, bit u.en)])
  | 0xC028 => some (loHalf u.word)
  | 0xC02C => some (hiHalf u.word)
  | 0xC040 => some (fieldsOf [(0, bit d.suyEn), (1, d.suyL.toNat), (6, d.suyEngine.toNat)])
  | 0xC044 => some (loHalf d.suyBase)
  | 0xC048 => some (hiHalf d.suyBase)
  | 0xC04C => some (loHalf d.suyCline)
  | 0xC050 => some (hiHalf d.suyCline)
  | _ => none

/-- MCS (Tables MCS.7, MCS.8). -/
def State.readMcs (s : State) (i : Idx) (a : Nat) : Option Reg32 :=
  let m := s.mcs
  match a with
  | 0xD000 => some (fieldsOf [(2, bit m.isOpen), (3, m.state.toNat), (8, m.reason.toNat)])
  | 0xD008 => some (Tab.get countDflt m.stage i.widx.toNat)
  | 0xD00C => some (m.floor.setWidth 32)
  | 0xD010 => some (m.wait.setWidth 32)
  | 0xD014 => some (fieldsOf [(0, m.ver.toNat), (16, s.aon.high.toNat)])
  | 0xD018 => some m.ce
  | 0xD01C => some m.ue
  | _ => none

/-! ## Pages of the virtual users (R382, Tables PTN.7, CHP.14, EVC.6) -/

/-- INST_STAT.OVER: some use exceeds its share (R387). -/
def State.overShare (s : State) (i : BitVec 8) : Bool :=
  let unitShare := min 24576 (((s.inst i.toNat).share 3).cur.extractLsb' 16 15).toNat
  s.maxCtx i < s.contextsOf i || s.granShare i < s.gransApplied i || s.keyShare i < s.slotsOwned i ||
    s.tagShare i 0 < (s.port 0).heldBy i || s.tagShare i 1 < (s.port 1).heldBy i ||
    s.acceptShare i.toNat < s.acceptHeld i.toNat || unitShare < s.unitUse i

/-- The value of a page register of user `n` at an offset. -/
def State.readPage (s : State) (n o : Nat) : Option Reg32 :=
  let i := BitVec.ofNat 8 n
  let x := s.inst n
  let rs : Nat := match x.rstate with
    | .run => 0
    | .draining => 1
    | .squashing => 2
    | .reset => 3
  match o with
  | 0x000 => some (fieldsOf [(0, n), (8, rs), (10, bit (s.overShare i))])
  | 0x004 => some (fieldsOf [(0, s.contextsOf i), (16, s.gransApplied i)])
  | 0x008 => some (fieldsOf [(0, s.acceptHeld n), (16, s.unitUse i)])
  | 0x00C => some (fieldsOf [(0, (s.port 0).heldBy i), (16, (s.port 1).heldBy i)])
  | 0x010 => some (fieldsOf [(0, s.slotsOwned i)])
  | 0x100 => some 0
  | 0x104 => some (loHalf x.csnLast)
  | 0x108 => some (hiHalf x.csnLast)
  | 0x200 => some (fieldsOf [(0, x.mask.toNat), (8, x.pend.toNat)])
  | 0x204 => some 0
  | 0x208 => some (fieldsOf [(0, x.errv.toNat), (3, bit x.erruse)])
  | 0x514 => some (fieldsOf [(0, bit x.sharesPend), (1, bit x.granx)])
  | 0x600 => some 0
  | 0x604 => some x.rstTmo
  | 0x608 => some (fieldsOf [(0, x.sq.toNat), (16, bit x.ign)])
  | _ =>
    if 0x400 ≤ o ∧ o < 0x480 then
      let v := x.vec ((o - 0x400) / 16)
      some (match o % 16 with
        | 0 => loHalf v.addr
        | 4 => hiHalf v.addr
        | 8 => v.data
        | _ => fieldsOf [(0, bit v.valid)])
    else if 0x500 ≤ o ∧ o ≤ 0x510 then some (x.share ((o - 0x500) / 4)).next
    else none

/-! ## The whole map (Table MAP.1) -/

/-- An address lies in a page of a virtual user. -/
def inPages (a : Nat) : Bool := 0x10000 ≤ a && a < 0x90000

/-- The value of the register at an aligned address; `none` for a reserved address (R483). -/
def State.regValue (s : State) (dbg : Bool) (a : Nat) : Option Reg32 :=
  let i := s.idxOf dbg
  match i.read a with
  | some v => some v
  | none =>
    if inPages a then s.readPage ((a - 0x10000) / 0x800) (a % 0x800)
    else match a / 0x1000 with
      | 0 => s.readGlb i a
      | 1 => s.readClk i a
      | 2 => s.readLcb a
      | 3 => s.readHpi i a
      | 4 => s.readChm i a
      | 5 => s.readDsp i a
      | 6 => s.readLdk i a
      | 7 => s.readCiu i a
      | 8 => s.readCiu i a
      | 9 => s.readEvc i a
      | 10 => s.readMir i a
      | 11 => s.readChk i a
      | 12 => s.readDbg i a
      | 13 => s.readMcs i a
      | _ => none

/-! ## Reads with effects -/

/-- The address holds an RC field (Table SCP.3). -/
def isRc (a : Nat) : Bool :=
  [0x1018, 0x1058, 0x3044, 0x309C, 0x400C, 0x5008, 0x6014, 0x601C, 0x6020, 0x7084, 0x7094, 0x8004, 0x9018, 0x901C, 0xA034, 0xB014,
    0xB058, 0xB07C, 0xC014, 0xD018, 0xD01C].contains a

/-- The _HI register of a _LO register (R487). -/
def hiOf (a : Nat) : Option Nat :=
  if [0x2004, 0x3088, 0x3090, 0x4014, 0x402C, 0x4034, 0x5018, 0x7038, 0x7040, 0x7048, 0xA008, 0xA010, 0xA018, 0xC028, 0xC044, 0xC04C,
      0x1040, 0x104C, 0xB040, 0xB04C, 0xB064, 0xB070].contains a then some (a + 4)
  else if inPages a ∧ (a % 0x800 = 0x104 ∨ (0x400 ≤ a % 0x800 ∧ a % 0x800 < 0x480 ∧ a % 16 = 0)) then some (a + 4)
  else none

/-- The address is a _HI register. -/
def isHi (a : Nat) : Bool := 4 ≤ a && hiOf (a - 4) == some a

/-- A ring's DROP is cleared. -/
def Ring.clearDrop (r : Ring) : Ring := { r with drop := 0 }

/-- A read of an RC register clears it (R486). -/
def State.clearRc (s : State) (dbg : Bool) (a : Nat) : State :=
  let i := s.idxOf dbg
  match a with
  | 0x1018 => { s with chk := { s.chk with tdrop := 0 } }
  | 0x1058 => { s with chk := { s.chk with tel := s.chk.tel.clearDrop } }
  | 0x3044 =>
    let n := i.cnt.toNat / 16
    let k := i.cnt.toNat % 16
    if k = 11 ∨ 13 ≤ k then s else s.putPort n { s.port n with counts := Assoc.erase (s.port n).counts k }
  | 0x309C => s.modInst i.dl.toNat fun x => { x with dl := { x.dl with unlogged := 0 } }
  | 0x400C => s.modChan i.chst.toNat fun c => { c with dbOvr := 0, dbHead := 0 }
  | 0x5008 => s.putStand i.stand.toNat { s.stand i.stand.toNat with outs := 0, ins := 0 }
  | 0x6014 => { s with ldk := { s.ldk with hot := Assoc.erase s.ldk.hot i.hot.toNat } }
  | 0x601C => { s with ldk := { s.ldk with ce := 0 } }
  | 0x6020 => { s with ldk := { s.ldk with ue := 0 } }
  | 0x7084 => { s with units := { s.units with entDrop := 0 } }
  | 0x7094 => { s with units := { s.units with cipherStat := Assoc.erase s.units.cipherStat i.cLane.toNat } }
  | 0x8004 => { s with units := { s.units with compStat := Assoc.erase s.units.compStat i.zLane.toNat } }
  | 0x9018 => { s with evc := { s.evc with sat := 0 } }
  | 0x901C => { s with evc := { s.evc with msgDrop := 0 } }
  | 0xA034 => { s with mir := { s.mir with counts := Assoc.erase s.mir.counts i.mirCnt.toNat } }
  | 0xB014 => s.putLog i.eng.toNat { s.log i.eng.toNat with retries := 0, regErrs := 0 }
  | 0xB058 => { s with chk := { s.chk with ger := s.chk.ger.clearDrop } }
  | 0xB07C => s.modInst i.ier.toNat fun x => { x with errRing := x.errRing.clearDrop }
  | 0xC014 => { s with dbg := { s.dbg with trcDrop := 0 } }
  | 0xD018 => { s with mcs := { s.mcs with ce := 0 } }
  | 0xD01C => { s with mcs := { s.mcs with ue := 0 } }
  | _ => s

/-- A _LO read latches its _HI register for the path, and a _HI read takes the latched value (R487). -/
def State.latchHi (s : State) (dbg : Bool) (a : Nat) : State :=
  let i := s.idxOf dbg
  match hiOf a with
  | some h => s.putIdx dbg { i with latched := Assoc.insert i.latched h ((s.regValue dbg h).getD 0) }
  | none => if isHi a then s.putIdx dbg { i with latched := Assoc.erase i.latched a } else s

/-- MCS_PSTAGE_INDEX advances after an access to MCS_PSTAGE_DATA (R488). -/
def State.stepIndex (s : State) (dbg : Bool) (a : Nat) : State :=
  if a = 0xD008 then
    let i := s.idxOf dbg
    s.putIdx dbg { i with widx := i.widx + 1 }
  else s

/-- The value that a read of the register returns: a latched _HI value first. -/
def State.readValue (s : State) (dbg : Bool) (a : Nat) : Option Reg32 :=
  match s.regValue dbg a, Assoc.lookup (s.idxOf dbg).latched a with
  | some _, some h => some h
  | v, _ => v

/-- What a read of the register leaves; `clears` for a read with the RC side effect (R448, R486). -/
def State.afterRead (s : State) (dbg clears : Bool) (a : Nat) : State :=
  let t := (s.latchHi dbg a).stepIndex dbg a
  if clears && isRc a then t.clearRc dbg a else t

end Sys2Proof.Machine
end

