-- ==== Sys2Proof/Machine/RegWrites.lean ====
section
/-!
DEFINITION. What a register write does (R26, R486, and the register tables of every chapter), for the register port and for
debug accesses of CLASS 0.
-/

namespace Sys2Proof.Machine

/-! ## Halves and governed values -/

/-- A 64-bit value with one half written; `keep` masks the bits that the low half holds. -/
def writeHalf {w : Nat} (v : BitVec w) (hi : Bool) (keep : Reg32) (x : RegXfer) : BitVec w :=
  if hi then
    let h := xOver x (hiHalf v)
    BitVec.ofNat w (v.toNat % 2 ^ 32 + 2 ^ 32 * h.toNat)
  else
    let l := xOver x (loHalf v) &&& keep
    BitVec.ofNat w (v.toNat / 2 ^ 32 * 2 ^ 32 + l.toNat)

/-- Bits [31:6] of a line address. -/
def lineBits : Reg32 := 0xFFFFFFC0

/-- A write to an epoch-governed field goes to its pending copy (R121). -/
def Gov.put {α : Type} (g : Gov α) (hit : Bool) (v : α) (now : Nat) : Gov α := if hit then g.write v now else g

/-! ## Rings (Table CHK.9) -/

/-- A write to a ring register but for EN. BASE, L and CLINE are fixed while EN is 1. -/
def Ring.put (r : Ring) (o : Nat) (x : RegXfer) : Ring :=
  if r.en then r else
  match o with
  | 0x00 => { r with base := writeHalf r.base false lineBits x }
  | 0x04 => { r with base := writeHalf r.base true lineBits x }
  | 0x08 => { r with l := (xOver x (r.l.setWidth 32)).setWidth 5 }
  | 0x0C => { r with cline := writeHalf r.cline false lineBits x }
  | 0x10 => { r with cline := writeHalf r.cline true lineBits x }
  | _ => r

/-- A write to a register of ring `id`; CTL sets or clears EN (R440, R441). -/
def State.writeRing (s : State) (id : RingId) (o : Nat) (x : RegXfer) : State :=
  let r := s.ring id
  let s := s.putRing id (r.put o x)
  if o = 0x08 ∧ xHits x 8 1 then (s.enableRing id (x.data.getLsbD 8)).passTelemetry.settle else s

/-! ## Regions -/

/-- GLB: RSVACC is cleared by writing 1. -/
def State.writeGlb (s : State) (a : Nat) (x : RegXfer) : State :=
  if a = 0x04 ∧ (xBits x).getLsbD 0 then { s with glb := { s.glb with rsvacc := false } } else s

/-- CLK. -/
def State.writeClk (s : State) (a : Nat) (x : RegXfer) : State :=
  let c := s.chk
  match a with
  | 0x1000 =>
    let v := xOver x ((s.readClk s.idx 0x1000).getD 0)
    { s with chk := { c with raise := v.getLsbD 0, target := v.extractLsb' 1 6, telp := v.extractLsb' 7 4 } }
  | 0x1004 => { s with chk := { c with budget := (xOver x (c.budget.setWidth 32)).setWidth 16 } }
  | _ => if 0x1040 ≤ a then s.writeRing .telemetry (a - 0x1040) x else s

/-- A direct BIST is asked for (R477): in TEST, MANUFACTURE and RECOVERY it begins, once the complex is ready in RUN with no
sequence under way; in BLANK and FIELD it is ignored and sets RSVACC. -/
def State.runBist (s : State) : State :=
  if s.life.lc = .blank ∨ s.life.lc = .field then { s with glb := { s.glb with rsvacc := true } }
  else if s.life.lc.directBist && s.ready && s.life.power == .run && s.life.shut == .none then s.beginShut true
  else s

/-- LCB. -/
def State.writeLcb (s : State) (a : Nat) (x : RegXfer) : State :=
  match a with
  | 0x2010 =>
    let v : BitVec 5 := (xOver x (s.aon.log2.setWidth 32)).setWidth 5
    if 16 ≤ v.toNat ∧ v.toNat ≤ 24 then { s with aon := { s.aon with log2 := v } } else s
  | 0x2014 => if (xBits x).getLsbD 0 then s.runBist else s
  | 0x201C => { s with life := { s.life with shutTmo := xOver x s.life.shutTmo } }
  | _ => s

/-- A write of HPI_Hn_CTL.EN (R55, R56): a DOWN port comes UP from phase 6 on where it holds a credit; an UP port without EN
goes DOWN once nothing on it awaits an answer. -/
def State.enablePort (s : State) (n : Nat) (en : Bool) : State :=
  let p := s.port n
  let s := s.putPort n { p with en := en }
  if en && !p.up && 6 ≤ s.life.phase && 0 < p.credits then
    let s := s.portUp n
    (if s.life.phase = 6 then s.endPhase6 else s).settle
  else if s.life.phase = 6 ∧ !(s.port 0).en ∧ !(s.port 1).en then s.endPhase6.settle
  else s.pump.settle

/-- HPI. -/
def State.writeHpi (s : State) (i : Idx) (a : Nat) (x : RegXfer) : State :=
  let n := i.dl.toNat
  let dl := fun (f : DirtyLog → DirtyLog) => s.modInst n fun y => { y with dl := f y.dl }
  let tmo := fun (n : Nat) => s.putPort n { s.port n with tmo := (xOver x ((s.port n).tmo.setWidth 32)).setWidth 24 }
  match a with
  | 0x3000 => if xHits x 0 1 then s.enablePort 0 (x.data.getLsbD 0) else s
  | 0x3004 => if xHits x 0 1 then s.enablePort 1 (x.data.getLsbD 0) else s
  | 0x3008 => tmo 0
  | 0x300C => tmo 1
  | 0x3010 =>
    let v : BitVec 2 := (xOver x (s.steer.setWidth 32)).setWidth 2
    if v = 3 then s else ({ s with steer := v }).pump
  | 0x3084 => dl fun d => { d with
      en := if xHits x 0 1 then x.data.getLsbD 0 else d.en, broken := d.broken && !(xBits x).getLsbD 1 }
  | 0x3088 => dl fun d => { d with base := writeHalf d.base false lineBits x }
  | 0x308C => dl fun d => { d with base := writeHalf d.base true lineBits x }
  | 0x3090 => dl fun d => { d with low := writeHalf d.low false 0xFFFFF000 x }
  | 0x3094 => dl fun d => { d with low := writeHalf d.low true 0 x }
  | 0x3098 => dl fun d => { d with pages := xOver x d.pages }
  | _ => s

/-- A channel of user `n` is enabled. -/
def State.chansEnabled (s : State) (n : Nat) : Bool := s.chans.any fun c => c.2.enabled && c.2.instNum == n

/-- A write to CHM_EPOCH_CTL.HOLD; clearing it starts the rule of two ticks (R122). -/
def State.writeHold (s : State) (hold : Bool) : State :=
  let cleared := if s.dsp.hold && !hold then s.now else s.dsp.holdCleared
  { s with dsp := { s.dsp with hold := hold, holdCleared := cleared } }

/-- CHM_INST_POLICY: a DURABLE of 0b11 is ignored. -/
def Inst.putPolicy (y : Inst) (x : RegXfer) (now : Nat) : Inst :=
  let v := xOver x (fieldsOf [(0, y.durable.next.toNat), (2, bit y.sigReq)])
  let d : BitVec 2 := v.setWidth 2
  { y with sigReq := v.getLsbD 2, durable := y.durable.put (xHits x 0 2 && d != 3) d now }

/-- CHM. -/
def State.writeChm (s : State) (i : Idx) (a : Nat) (x : RegXfer) : State :=
  let n := i.chmInst.toNat
  let free := !s.chansEnabled n
  let inst := fun (f : Inst → Inst) => s.modInst n f
  match a with
  | 0x4000 => if !xHits x 0 13 then s else s.askRefresh ((xBits x).extractLsb' 0 13).toNat false
  | 0x4008 =>
    let v := xBits x
    s.modChan i.chst.toNat fun c => { c with stopped := c.stopped && !v.getLsbD 4, broken := c.broken && !v.getLsbD 5 }
  | 0x4014 => if free then inst fun y => { y with ctBase := writeHalf y.ctBase false lineBits x } else s
  | 0x4018 => if free then inst fun y => { y with ctBase := writeHalf y.ctBase true lineBits x } else s
  | 0x401C =>
    if free then inst fun y =>
      let v := xOver x (fieldsOf [(0, y.first), (16, y.count)])
      { y with first := (v.extractLsb' 0 13).toNat, count := (v.extractLsb' 16 14).toNat }
    else s
  | 0x4020 => inst fun y => { y with poll := (xOver x (y.poll.setWidth 32)).setWidth 10 }
  | 0x4024 => inst fun y => { y with jobTmo := xOver x y.jobTmo }
  | 0x4028 => inst fun y => y.putPolicy x s.now
  | 0x402C => if free then inst fun y => { y with csn := writeHalf y.csn false 0xFFFFFFFF x } else s
  | 0x4030 => if free then inst fun y => { y with csn := writeHalf y.csn true 0 x } else s
  | 0x4034 => inst fun y => { y with pkey := writeHalf y.pkey false lineBits x }
  | 0x4038 => inst fun y => { y with pkey := writeHalf y.pkey true lineBits x }
  | 0x4100 =>
    let g := s.dsp.period
    { s with dsp := { s.dsp with period := g.put (xHits x 0 17) ((xOver x (g.next.setWidth 32)).setWidth 17) s.now } }
  | 0x4108 => if xHits x 0 1 then s.writeHold (x.data.getLsbD 0) else s
  | _ => s

/-- A period table load is asked for: one in progress restarts, and one whose back copy is still read is held (R129). -/
def State.loadPeriod (s : State) (n : Nat) : State :=
  let s := s.dropReads (fun q => match q with
      | .periodLine k _ => k == n
      | _ => false) false
  (s.modInst n fun y => { y with period := { y.period with held := true, loading := [], got := [], ready := false } }).settlePeriod n

/-- DSP. -/
def State.writeDsp (s : State) (i : Idx) (a : Nat) (x : RegXfer) : State :=
  let n := i.dspInst.toNat
  match a with
  | 0x500C =>
    let g := s.dsp.steal
    let v := xOver x (fieldsOf [(0, bit g.next.1), (8, g.next.2.toNat)])
    { s with dsp := { s.dsp with steal := g.put (xHits x 0 16) (v.getLsbD 0, v.extractLsb' 8 8) s.now } }
  | 0x5014 => s.modInst n fun y =>
      { y with prio := y.prio.put (xHits x 0 2) ((xOver x (y.prio.next.setWidth 32)).setWidth 2) s.now }
  | 0x5018 => s.modInst n fun y => { y with period := { y.period with host := writeHalf y.period.host false lineBits x } }
  | 0x501C => s.modInst n fun y => { y with period := { y.period with host := writeHalf y.period.host true lineBits x } }
  | 0x5020 =>
    let v := xBits x
    let s := s.modInst n fun y => { y with period := { y.period with err := y.period.err && !v.getLsbD 3 } }
    if v.getLsbD 0 then s.loadPeriod n else s
  | 0x5024 => s.modInst n fun y =>
      { y with period := { y.period with swap := y.period.swap.put (xMask x != 0) (xOver x y.period.swap.next) s.now } }
  | _ => s

/-- LDK. A grant of granules 0 to 31, or with KIND 0b11, is ignored. -/
def State.writeLdk (s : State) (i : Idx) (a : Nat) (x : RegXfer) : State :=
  let n := i.gran.toNat
  match a with
  | 0x6004 =>
    let g := s.gran n
    let v := xOver x (fieldsOf [(0, g.owner.toNat), (8, g.kind.toNat)])
    let kind : BitVec 2 := v.extractLsb' 8 2
    if n < 32 ∨ kind = 3 ∨ !xHits x 0 10 then s else s.putGran n { g with kind := kind, owner := v.extractLsb' 0 8, wrote := some s.now }
  | 0x6008 =>
    let g := s.ldk.mirRes
    { s with ldk := { s.ldk with mirRes := g.put (xHits x 0 10) ((xOver x (g.next.setWidth 32)).setWidth 10) s.now } }
  | 0x600C => { s with ldk := { s.ldk with conflict := s.ldk.conflict && !(xBits x).getLsbD 1 } }
  | _ => s

/-- CIU_KS_CMD of the selected slot (R341, R343). -/
def State.slotCommand (s : State) (n : Nat) (cmd : BitVec 2) : State :=
  if cmd = 1 then s.startDerive n else if cmd = 2 then s.clearSlot n else s

/-- CIU. -/
def State.writeCiu (s : State) (i : Idx) (a : Nat) (x : RegXfer) : State :=
  let n := i.slot.toNat
  let k := s.slot n
  match a with
  | 0x7004 => s.putSlot n { k with ctl := (xOver x (k.ctl.setWidth 32)).setWidth 20 }
  | 0x7008 => s.putSlot n { k with gen := xOver x k.gen }
  | 0x700C => s.putSlot n { k with llen := (xOver x (k.llen.setWidth 32)).setWidth 6 }
  | 0x7030 => s.slotCommand n ((xBits x).setWidth 2)
  | 0x7048 =>
    let v := k.limit.next / 2 ^ 32 * 2 ^ 32 + (xOver x (BitVec.ofNat 32 k.limit.next)).toNat
    s.putSlot n { k with limit := k.limit.put (xMask x != 0) v s.now }
  | 0x704C =>
    let h := ((xOver x (BitVec.ofNat 32 (k.limit.next / 2 ^ 32))).extractLsb' 0 1).toNat
    s.putSlot n { k with limit := k.limit.put (xHits x 0 1) (k.limit.next % 2 ^ 32 + 2 ^ 32 * h) s.now }
  | _ =>
    if 0x7010 ≤ a ∧ a ≤ 0x702C then
      let j := (a - 0x7010) / 4
      s.putSlot n { k with labels := Tab.set countDflt k.labels j (xOver x (Tab.get countDflt k.labels j)) }
    else s

/-- A write to EVC_SRC_CFG: the source is delivered again (R368). -/
def State.writeSrc (s : State) (n : Nat) (x : RegXfer) : State :=
  let c := s.src n
  let v := xOver x (fieldsOf [(0, c.prio.toNat), (4, c.tset.toNat), (10, bit c.wakeEn), (11, bit c.own)])
  if !xHits x 0 12 then s else
  (s.putSrc n { c with prio := v.extractLsb' 0 4, tset := v.extractLsb' 4 6, wakeEn := v.getLsbD 10, own := v.getLsbD 11 }).reroute [n]

/-- A write to a target set: the signalled sources that name it are delivered again (R368). -/
def State.writeSet (s : State) (k : BitVec 9) (x : RegXfer) : State :=
  let at' := 8 * (k.toNat % 64) + k.toNat / 64
  let v := xOver x (Tab.get setDflt s.evc.sets at')
  let ns := (s.evc.srcs.filter fun c => c.2.sig && c.2.tset.toNat == k.toNat % 64).map (·.1)
  if xMask x = 0 then s else ({ s with evc := { s.evc with sets := Tab.set setDflt s.evc.sets at' v } }).reroute ns

/-- A write to EVC_TMR_CTL (R376): one that sets EN loads LEFT, and a PERIOD of 0 clears EN. -/
def EvTimer.control (t : EvTimer) (en periodic : Bool) (now : Nat) : EvTimer :=
  if !en then { t with en := false, periodic := periodic, timer := t.timer.pause now }
  else if t.period = 0 then { t with en := false, periodic := periodic, timer := .off }
  else { t with en := true, periodic := periodic, timer := .until (now + t.period.toNat) }

/-- EVC. -/
def State.writeEvc (s : State) (i : Idx) (a : Nat) (x : RegXfer) : State :=
  let n := i.tmr.toNat
  let t : EvTimer := Tab.get (fun _ => {}) s.evc.timers n
  let put := fun (t : EvTimer) => { s with evc := { s.evc with timers := Tab.put s.evc.timers n t } }
  match a with
  | 0x9004 => s.writeSrc i.src.toNat x
  | 0x9010 => s.writeSet i.set x
  | 0x9014 => if !xHits x 0 10 then s else s.arrive ((xBits x).extractLsb' 0 10).toNat
  | 0x9024 => if xHits x 0 2 then put (t.control (x.data.getLsbD 0) (x.data.getLsbD 1) s.now) else s
  | 0x9028 => put { t with period := xOver x t.period }
  | _ => s

/-- A write to MIR_CTL.EN (R408): bring-up begins, or the link is DISABLED. In BLANK the link stays DISABLED (Table LCB.1). -/
def State.enableLink (s : State) (en : Bool) : State :=
  let was := s.mir.en
  let s := { s with mir := { s.mir with en := en } }
  if en && !was then (if s.life.lc = .blank then s else s.restartLink)
  else if !en && was then
    let s := (s.leaveLink .disabled).dropLanes
    (if s.life.phase = 7 then s.reachReady else { s with life := { s.life with waitLink := false } }).afterLink
  else s

/-- A write to MIR_CTL. -/
def State.writeMirCtl (s : State) (x : RegXfer) : State :=
  let v := xOver x ((s.readMir s.idx 0xA000).getD 0)
  let s := { s with
    mir := { s.mir with autotake := v.getLsbD 1 }
    aon := { s.aon with peerv := v.getLsbD 2 } }
  (s.enableLink (v.getLsbD 0)).checkTake

/-- MIR_CMD.ACCEPT: in REPLACED the seen digest becomes the expected one, and the link enters SYNC (R409). -/
def State.acceptPeer (s : State) : State :=
  if s.mir.link ≠ .replaced then s else
  ({ s with
    aon := { s.aon with peerId := s.mir.seen, peerv := true }
    mir := { s.mir with stallAt := s.now } }).enterSync.afterLink

/-- MIR_CMD.TAKE: a takeover, where AUTOTAKE is 0 and the condition holds (R414). -/
def State.takeNow (s : State) : State :=
  if s.mayTake && !s.mir.autotake && !s.mir.takeover then s.beginTakeover.afterLink else s

/-- MIR_CMD.LRESET (R408). -/
def State.resetLink (s : State) : State := if s.mir.link = .disabled then s else s.restartLink

/-- MIR_CMD: its bits act in their order. -/
def State.writeMirCmd (s : State) (v : Reg32) : State :=
  let s := if v.getLsbD 0 then s.acceptPeer else s
  let s := if v.getLsbD 1 then s.takeNow else s
  if v.getLsbD 2 then s.resetLink else s

/-- MIR_INST_HOME (R400): only in RESET, and only LOCAL or PEER; else it is ignored and IGN is set. -/
def Inst.putHome (y : Inst) (v : BitVec 2) : Inst :=
  if y.rstate = .reset ∧ v.toNat < 2 then { y with home := v } else { y with ign := true }

/-- MIR. -/
def State.writeMir (s : State) (i : Idx) (a : Nat) (x : RegXfer) : State :=
  match a with
  | 0xA000 => s.writeMirCtl x
  | 0xA010 => { s with aon := { s.aon with peerId := writeHalf s.aon.peerId false 0xFFFFFFFF x } }
  | 0xA014 => { s with aon := { s.aon with peerId := writeHalf s.aon.peerId true 0 x } }
  | 0xA020 => s.writeMirCmd (xBits x)
  | 0xA024 => { s with mir := { s.mir with arbWait := xOver x s.mir.arbWait } }
  | 0xA02C => if xHits x 0 2 then s.modInst i.mirInst.toNat fun y => y.putHome (x.data.setWidth 2) else s
  | _ => s

/-- A planned substitution (Table CHK.10): ignored unless the engine is in service and its spare is READY. -/
def State.askSubst (s : State) (l : Nat) : State :=
  let p := s.physOf l
  if s.inService l && s.spareReady (standOf p) then s.replaceEngine p 6 else s

/-- CHK. -/
def State.writeChk (s : State) (i : Idx) (a : Nat) (x : RegXfer) : State :=
  let c := s.chk
  match a with
  | 0xB000 => { s with chk := { c with attn := c.attn &&& ~~~((xBits x).setWidth 8) } }
  | 0xB004 => { s with chk := { c with mask := (xOver x (c.mask.setWidth 32)).setWidth 8 } }
  | 0xB020 => if (xBits x).getLsbD 8 then s.askSubst ((xBits x).extractLsb' 0 8).toNat else s
  | _ =>
    if 0xB064 ≤ a then s.writeRing (.inst i.ier) (a - 0xB064) x
    else if 0xB040 ≤ a then s.writeRing .global (a - 0xB040) x else s

/-- Every engine of stand `d` in service is halted (R459). -/
def State.standHalted (s : State) (d : Nat) : Bool :=
  (List.range 16).all fun k => !s.inService (16 * d + k) || (s.eng (s.physOf (16 * d + k))).halted

/-- A write to a patch unit's registers (R459). -/
def State.writePatch (s : State) (i : Idx) (f : PatchUnit → PatchUnit) : State :=
  if s.standHalted (i.pu.toNat / 16) then
    { s with dbg := { s.dbg with units := Tab.set unitDflt s.dbg.units i.pu.toNat (f (s.patchUnit i)) } }
  else { s with dbg := { s.dbg with puign := true } }

/-- DBG_SUY registers: every write is ignored while EN is 1 (the text under Table DBG.10), so that only a reset clears EN. -/
def Dbg.putSuycia (d : Dbg) (a : Nat) (x : RegXfer) : Dbg :=
  let v := xOver x (fieldsOf [(0, bit d.suyEn), (1, d.suyL.toNat), (6, d.suyEngine.toNat)])
  if d.suyEn then d
  else match a with
    | 0xC040 => { d with suyEn := v.getLsbD 0, suyL := v.extractLsb' 1 5, suyEngine := v.extractLsb' 6 8, suyStart := v.getLsbD 0 }
    | 0xC044 => { d with suyBase := writeHalf d.suyBase false lineBits x }
    | 0xC048 => { d with suyBase := writeHalf d.suyBase true lineBits x }
    | 0xC04C => { d with suyCline := writeHalf d.suyCline false lineBits x }
    | 0xC050 => { d with suyCline := writeHalf d.suyCline true lineBits x }
    | _ => d

/-- As `Dbg.putSuycia`; setting EN reads the monitor's control line (R440). -/
def State.putSuycia (s : State) (a : Nat) (x : RegXfer) : State :=
  let t := { s with dbg := s.dbg.putSuycia a x }
  if t.dbg.suyEn && !s.dbg.suyEn then t.readSuyLine true else t

/-- A timer under DBG_WDT_RUN.RUN: it runs, or stands with what it has left; one that has reached 0 stays so. -/
def Timer.underRun (x : Timer) (now : Nat) (run : Bool) : Timer :=
  if run then x.resume now else if x.due now then x else x.pause now

/-- The timers of a halted engine, and of halted contexts, start or stop counting with DBG_WDT_RUN.RUN (R458). -/
def Engine.underRun (e : Engine) (now : Nat) (run : Bool) : Engine :=
  let e := if e.halted then { e with wdt := e.wdt.underRun now run } else e
  { e with ctxs := e.ctxs.map fun q =>
      (q.1, if q.2.state = .halted then { q.2 with jobTimer := q.2.jobTimer.underRun now run } else q.2) }

/-- DBG_WDT_RUN.RUN is written. -/
def State.setWdtRun (s : State) (run : Bool) : State :=
  let s := { s with dbg := { s.dbg with wdtRun := run } }
  { s with engines := s.engines.map fun q => (q.1, q.2.underRun s.now run) }

/-- DBG. -/
def State.writeDbg (s : State) (i : Idx) (a : Nat) (x : RegXfer) : State :=
  let d := s.dbg
  match a with
  | 0xC000 => { s with dbg := { d with puign := d.puign && !(xBits x).getLsbD 12 } }
  | 0xC004 => s.setWdtRun ((xOver x (fieldsOf [(0, bit d.wdtRun)])).getLsbD 0)
  | 0xC008 =>
    let v := xOver x ((s.readDbg i 0xC008).getD 0)
    { s with dbg := { d with
        trcEn := v.getLsbD 0, trcWrap := v.getLsbD 1, trcKinds := v.extractLsb' 2 6, trcEngine := v.extractLsb' 8 8
        trcAll := v.getLsbD 16 } }
  | 0xC024 => s.writePatch i fun u =>
      let v := xOver x (fieldsOf [(0, u.addr.toNat), (16, bit u.en)])
      { u with addr := v.setWidth 16, en := v.getLsbD 16 }
  | 0xC028 => s.writePatch i fun u => { u with word := writeHalf u.word false 0xFFFFFFFF x }
  | 0xC02C => s.writePatch i fun u => { u with word := writeHalf u.word true 0 x }
  | _ => if 0xC040 ≤ a then s.putSuycia a x else s

/-- MCS_PCTL.SUPPLY (R331): ignored once phase 4 has begun its checks. -/
def State.supply (s : State) (v : BitVec 2) : State :=
  let open' := s.life.phase < 4 || (s.life.phase == 4 && s.mcs.state == 0)
  if (v = 1 ∨ v = 2) && open' then
    let s := { s with mcs := { s.mcs with supply := v } }
    if s.life.phase = 4 then s.takeSupply else s
  else s

/-- A word of the staging buffer is written, where it is open and an octet is strobed (R486). -/
def Mcs.putStage (m : Mcs) (k : Nat) (x : RegXfer) : Mcs :=
  if !m.isOpen || xMask x == 0 then m
  else { m with stage := Tab.set countDflt m.stage k (xOver x (Tab.get countDflt m.stage k)), staged := max m.staged (k + 1) }

/-- MCS_PFLOOR: only writes that raise it act, and none from phase 4 on (R332). -/
def State.raiseFloor (s : State) (x : RegXfer) : State :=
  let v : BitVec 16 := (xOver x (s.mcs.floor.setWidth 32)).setWidth 16
  if s.life.phase < 4 ∧ s.mcs.floor.toNat < v.toNat then { s with mcs := { s.mcs with floor := v } } else s

/-- MCS. -/
def State.writeMcs (s : State) (i : Idx) (a : Nat) (x : RegXfer) : State :=
  match a with
  | 0xD000 => s.supply ((xBits x).setWidth 2)
  | 0xD008 => { s with mcs := s.mcs.putStage i.widx.toNat x }
  | 0xD00C => s.raiseFloor x
  | 0xD010 => { s with mcs := { s.mcs with wait := (xOver x (s.mcs.wait.setWidth 32)).setWidth 24 } }
  | _ => s

/-! ## Pages of the virtual users -/

/-- Program images of a user become stale, those being loaded too (R91). -/
def State.flushPrograms (s : State) (n : Nat) : State :=
  let cached := fun (e : CacheEntry) => if e.key.inst = n then { e with stale := true } else e
  let local' := fun (o : Overlay) => if o.key.inst = n then { o with stale := true } else o
  let engine := fun (e : Nat × Engine) => (e.1, { e.2 with overlays := e.2.overlays.map local' })
  let job := fun (j : Nat × Job) => (j.1, if j.2.inst.toNat = n then { j.2 with flushed := true } else j.2)
  { s with
    dsp := { s.dsp with cache := s.dsp.cache.map cached }
    engines := s.engines.map engine
    jobs := s.jobs.map job }

/-- A write to INST_MSG_MASK: each vector unmasked with PEND set sends its message, or is counted without VALID (R379). -/
def State.writeMsgMask (s : State) (n : Nat) (mask : BitVec 8) : State :=
  let y := s.inst n
  let freed := y.mask &&& ~~~mask &&& y.pend
  let s := s.putInst n { y with mask := mask, pend := y.pend &&& ~~~freed }
  (List.range 8).foldl (fun t v =>
    if freed.getLsbD v then (if (y.vec v).valid then t.sendMsg n v else t.dropMsg) else t) s

/-- DRAIN (R388, R392): from RUN only. -/
def State.drain (s : State) (n : Nat) : State :=
  let y := s.inst n
  if y.rstate ≠ .run then s.putInst n { y with ign := true } else
  let due := if y.rstTmo = 0 then none else some (s.now + y.rstTmo.toNat)
  (s.putInst n { y with rstate := .draining, rstDue := due, sq := 0 }).settle

/-- SQUASH (R388, R389): from RUN or DRAINING. -/
def State.squash (s : State) (n : Nat) : State :=
  let y := s.inst n
  if y.rstate = .run then ((s.putInst n { y with sq := 0 }).squashInst n).settle
  else if y.rstate = .draining then (s.squashInst n).settle
  else s.putInst n { y with ign := true }

/-- RELEASE (R388, R393): from RESET only; every enabled channel of the user acts as a newly enabled one. -/
def State.release (s : State) (n : Nat) : State :=
  let y := s.inst n
  if y.rstate ≠ .reset then s.putInst n { y with ign := true } else
  let s := s.putInst n { y with rstate := .run }
  let mine := (s.chans.filter fun c => c.2.enabled && c.2.instNum == n).map (·.1)
  (mine.foldl State.startChan s).settle

/-- INST_RST_CTL.CMD. -/
def State.resetCommand (s : State) (n : Nat) (cmd : BitVec 2) : State :=
  if cmd = 1 then s.drain n else if cmd = 2 then s.squash n else if cmd = 3 then s.release n else s

/-- A message vector register. -/
def Vec.put (v : Vec) (o : Nat) (x : RegXfer) : Vec :=
  match o with
  | 0 => { v with addr := writeHalf v.addr false 0xFFFFFFFC x }
  | 4 => { v with addr := writeHalf v.addr true 0 x }
  | 8 => { v with data := xOver x v.data }
  | _ => { v with valid := if xHits x 0 1 then x.data.getLsbD 0 else v.valid }

/-- The bits that a share register holds (Table PTN.7). -/
def shareBits (r : Nat) : Reg32 :=
  match r with
  | 0 => 0x07FF07FF
  | 1 => 0x07FF07FF
  | 2 => 0x3FFF3FFF
  | 3 => 0x7FFF7FFF
  | _ => 0x000000FF

/-- A page register of user `n`. -/
def State.writePage (s : State) (n o : Nat) (x : RegXfer) : State :=
  match o with
  | 0x100 => if (xBits x).getLsbD 0 then s.flushPrograms n else s
  | 0x200 => if xHits x 0 8 then s.writeMsgMask n (x.data.setWidth 8) else s
  | 0x204 => s.modInst n fun y => { y with pend := y.pend &&& ~~~((xBits x).setWidth 8) }
  | 0x208 => s.modInst n fun y =>
      let v := xOver x (fieldsOf [(0, y.errv.toNat), (3, bit y.erruse)])
      { y with errv := v.setWidth 3, erruse := v.getLsbD 3 }
  | 0x514 => s.modInst n fun y => { y with granx := y.granx && !(xBits x).getLsbD 1 }
  | 0x600 => s.resetCommand n ((xBits x).setWidth 2)
  | 0x604 => s.modInst n fun y => { y with rstTmo := xOver x y.rstTmo }
  | 0x608 => s.modInst n fun y => { y with ign := y.ign && !(xBits x).getLsbD 16 }
  | _ =>
    if 0x400 ≤ o ∧ o < 0x480 then
      let v := (o - 0x400) / 16
      s.modInst n fun y => { y with vecs := Tab.put y.vecs v ((y.vec v).put (o % 16) x) }
    else if 0x500 ≤ o ∧ o ≤ 0x510 then
      let r := (o - 0x500) / 4
      s.modInst n fun y =>
        let g := y.share r
        { y with shares := Tab.set shareDflt y.shares r (g.put ((xMask x &&& shareBits r) != 0) (xOver x g.next &&& shareBits r) s.now) }
    else s

/-- A write acts on the register at an aligned address that is not reserved (R484, step 5). -/
def State.writeReg (s : State) (dbg : Bool) (a : Nat) (x : RegXfer) : State :=
  let i := s.idxOf dbg
  match i.read a with
  | some v => s.putIdx dbg (i.write a (xOver x v))
  | none =>
    if inPages a then s.writePage ((a - 0x10000) / 0x800) (a % 0x800) x
    else match a / 0x1000 with
      | 0 => s.writeGlb a x
      | 1 => s.writeClk a x
      | 2 => s.writeLcb a x
      | 3 => s.writeHpi i a x
      | 4 => s.writeChm i a x
      | 5 => s.writeDsp i a x
      | 6 => s.writeLdk i a x
      | 7 => s.writeCiu i a x
      | 9 => s.writeEvc i a x
      | 10 => s.writeMir i a x
      | 11 => s.writeChk i a x
      | 12 => s.writeDbg i a x
      | 13 => (s.writeMcs i a x).stepIndex dbg a
      | _ => s

end Sys2Proof.Machine
end

