-- ==== Sys2Proof/Machine/Port.lean ====
section
/-!
DEFINITION. Transfers on the register port (R26, R27, R484 to R492), and the register writes that the opcode table names.
-/

namespace Sys2Proof.Machine

/-! ## Who may reach what (R27, R382, R484, R492) -/

/-- The address lies in the instance half of a page (R382). -/
def inInstHalf (a : Nat) : Bool := inPages a && a % 0x800 < 0x400

/-- The address lies in the GLB or LCB region (Table MAP.1). -/
def inGlbLcb (a : Nat) : Bool := a / 0x1000 == 0 || a / 0x1000 == 2

/-- The complex has ended start-up as R465 or R477 states: no write acts. -/
def State.ended (s : State) : Bool := s.life.changed || s.life.directDone || (s.life.lc == .scrapped && s.life.stopped)

/-- R492 applies. -/
def State.muted (s : State) : Bool := s.life.stopped || s.ended

/-- The register port answers at all: neither reset is asserted and VDD is there (R26, R42). -/
def State.portOn (s : State) : Bool := !s.life.porst && !s.life.sysrst && s.life.power != .off

/-- How R484 decides a transfer. -/
inductive Verdict where
  /-- No C_ACK comes (R26). -/
  | dead
  | addrErr
  | accessErr
  /-- OK, with read data 0 and no effect. -/
  | quiet
  | reserved
  | acts
  deriving DecidableEq, Repr

/-- The order of R484. -/
def State.verdict (s : State) (dbg : Bool) (a : Nat) (write priv : Bool) : Verdict :=
  if a % 4 ≠ 0 then .addrErr
  else if !priv && !inInstHalf a then .accessErr
  else if s.muted && !inGlbLcb a then .quiet
  else if s.ended && write then .quiet
  else if (s.regValue dbg a).isNone then .reserved
  else .acts

/-- The verdict on the register port. -/
def State.portVerdict (s : State) (a : Nat) (write priv : Bool) : Verdict :=
  if s.portOn then s.verdict false a write priv else .dead

/-- A reserved access sets RSVACC, and loads GLB_RSVADDR when RSVACC was 0 (R485). -/
def State.noteReserved (s : State) (a : BitVec 20) (write : Bool) : State :=
  if s.glb.rsvacc then s else { s with glb := { s.glb with rsvacc := true, rsvaddr := a, rsvwrite := write } }

/-- C_ACK with its response and read data. -/
def State.answer (s : State) (resp : BitVec 2) (data : Reg32) : State := s.emit (.reg resp data)

/-! ## Transfers -/

/-- A write on the register port. -/
def State.portWrite (s : State) (a : BitVec 20) (x : RegXfer) : State :=
  let s := { s with out := [] }
  match s.portVerdict a.toNat true x.priv with
  | .dead => s
  | .addrErr => s.answer 2 0
  | .accessErr => s.answer 1 0
  | .quiet => s.answer 0 0
  | .reserved => (s.noteReserved a true).answer 0 0
  | .acts => (s.answer 0 0).writeReg false a.toNat x

/-- A read on the register port, with the side effects that the register has. -/
def State.portRead (s : State) (a : BitVec 20) (priv : Bool) : State :=
  let s := { s with out := [] }
  match s.portVerdict a.toNat false priv with
  | .dead => s
  | .addrErr => s.answer 2 0
  | .accessErr => s.answer 1 0
  | .quiet => s.answer 0 0
  | .reserved => (s.noteReserved a false).answer 0 0
  | .acts => (s.answer 0 ((s.readValue false a.toNat).getD 0)).afterRead false true a.toNat

/-- REGISTER_WRITE (R26, R486). -/
def execRegisterWrite (a : BitVec 20) (x : RegXfer) (s : State) : Out := .next (s.portWrite a x)

/-- RESERVED_ACCESS: an access to an address that names no register (R485); any other address is turned away. -/
def execReservedAccess (a : BitVec 20) (write priv : Bool) (s : State) : Out :=
  let s := { s with out := [] }
  if (s.regValue false a.toNat).isSome then .next s
  else if write then .next (s.portWrite a { data := 0, priv := priv })
  else .next (s.portRead a priv)

/-- READ_CLEAR: a read; an RC register is cleared (R486). -/
def execReadClear (a : BitVec 20) (priv : Bool) (s : State) : Out := .next (s.portRead a priv)

/-- LO_READ_LATCH: a read; a _LO register latches its _HI register (R487). -/
def execLoReadLatch (a : BitVec 20) (priv : Bool) (s : State) : Out := .next (s.portRead a priv)

/-! ## Register writes with a row of their own -/

/-- An address in the page of user `i` (R382). -/
def pageAddr (i : BitVec 8) (o : Nat) : BitVec 20 := BitVec.ofNat 20 (0x10000 + 0x800 * i.toNat + o)

/-- CHM_CHREF (R73). -/
def execChmChref (x : RegXfer) (s : State) : Out := .next (s.portWrite 0x04000 x)

/-- INST_PGM_FLUSH (R91). -/
def execInstPgmFlush (i : BitVec 8) (x : RegXfer) (s : State) : Out := .next (s.portWrite (pageAddr i 0x100) x)

/-- CHM_EPOCH_CTL.HOLD (R122). -/
def execEpochHoldClear (x : RegXfer) (s : State) : Out := .next (s.portWrite 0x04108 x)

/-- DSP_PT_CTL.LOAD (R129). -/
def execPtLoad (x : RegXfer) (s : State) : Out := .next (s.portWrite 0x05020 x)

/-- CIU_KS_CMD, DERIVE (R341). -/
def execDerive (x : RegXfer) (s : State) : Out := .next (s.portWrite 0x07030 x)

/-- CIU_KS_CMD, CLEAR (R343). -/
def execClear (x : RegXfer) (s : State) : Out := .next (s.portWrite 0x07030 x)

/-- EVC_SWSET (R363). -/
def execEvcSwset (x : RegXfer) (s : State) : Out := .next (s.portWrite 0x09014 x)

/-- EVC_TMR_CTL (R376). -/
def execEvcTmrCtl (x : RegXfer) (s : State) : Out := .next (s.portWrite 0x09024 x)

/-- EVC_SRC_CFG (R368). -/
def execEvcSrcCfg (x : RegXfer) (s : State) : Out := .next (s.portWrite 0x09004 x)

/-- INST_MSG_MASK (R379). -/
def execInstMsgMask (i : BitVec 8) (x : RegXfer) (s : State) : Out := .next (s.portWrite (pageAddr i 0x200) x)

/-- INST_MSG_PCLR (R379). -/
def execInstMsgPclr (i : BitVec 8) (x : RegXfer) (s : State) : Out := .next (s.portWrite (pageAddr i 0x204) x)

/-- INST_RST_CTL, DRAIN (R392). -/
def execDrain (i : BitVec 8) (x : RegXfer) (s : State) : Out := .next (s.portWrite (pageAddr i 0x600) x)

/-- INST_RST_CTL, SQUASH (R389). -/
def execSquash (i : BitVec 8) (x : RegXfer) (s : State) : Out := .next (s.portWrite (pageAddr i 0x600) x)

/-- INST_RST_CTL, RELEASE (R393). -/
def execRelease (i : BitVec 8) (x : RegXfer) (s : State) : Out := .next (s.portWrite (pageAddr i 0x600) x)

/-- HPI_Hn_CTL (R56). -/
def execHostPortEnable (port : Bool) (x : RegXfer) (s : State) : Out :=
  .next (s.portWrite (if port then 0x03004 else 0x03000) x)

/-- A ring's CTL register (R440, R441). The ring of a user is named by the command itself: it acts as
CHK_IER_INDEX naming that user would, and leaves that register (log entry 48). -/
def execRingEnable (r : RingId) (x : RegXfer) (s : State) : Out :=
  match r with
  | .telemetry => .next (s.portWrite 0x01048 x)
  | .global => .next (s.portWrite 0x0B048 x)
  | .inst i =>
    let k := s.idx.ier
    let t := ({ s with idx := { s.idx with ier := i } }).portWrite 0x0B06C x
    .next { t with idx := { t.idx with ier := k } }

/-- MIR_CTL (R408). -/
def execMirCtlEn (x : RegXfer) (s : State) : Out := .next (s.portWrite 0x0A000 x)

/-- MIR_CMD, ACCEPT (R409). -/
def execAccept (x : RegXfer) (s : State) : Out := .next (s.portWrite 0x0A020 x)

/-- MIR_CMD, TAKE (R414). -/
def execTake (x : RegXfer) (s : State) : Out := .next (s.portWrite 0x0A020 x)

/-- MIR_CMD, LRESET (R408). -/
def execLreset (x : RegXfer) (s : State) : Out := .next (s.portWrite 0x0A020 x)

/-- MIR_INST_HOME (R400). -/
def execMirInstHome (x : RegXfer) (s : State) : Out := .next (s.portWrite 0x0A02C x)

/-- CHK_SUBST (R430). -/
def execChkSubst (x : RegXfer) (s : State) : Out := .next (s.portWrite 0x0B020 x)

/-- LCB_BIST_CMD (R477). -/
def execBistRun (x : RegXfer) (s : State) : Out := .next (s.portWrite 0x02014 x)

/-- MCS_PCTL.SUPPLY, IMAGE (R331). -/
def execSupplyImage (x : RegXfer) (s : State) : Out := .next (s.portWrite 0x0D000 x)

/-- MCS_PCTL.SUPPLY, NONE (R331). -/
def execSupplyNone (x : RegXfer) (s : State) : Out := .next (s.portWrite 0x0D000 x)

/-- MCS_PSTAGE_DATA, written or read: the index advances (R335). -/
def execMcsPstageData (write : Bool) (x : RegXfer) (s : State) : Out :=
  .next (if write then s.portWrite 0x0D008 x else s.portRead 0x0D008 x.priv)

/-- MCS_PFLOOR (R332). -/
def execMcsPfloor (x : RegXfer) (s : State) : Out := .next (s.portWrite 0x0D00C x)

/-- DBG_PU_ADDR, DBG_PU_DATA_LO, DBG_PU_DATA_HI (R459), as `reg` 0, 1, 2; 3 names no register. -/
def execPatchUnitWrite (reg : BitVec 2) (x : RegXfer) (s : State) : Out :=
  if reg = 3 then .next { s with out := [] } else .next (s.portWrite (0x0C024 + 4 * reg.setWidth 20) x)

end Sys2Proof.Machine
end

