-- ==== Sys2Proof/Machine/Debug.lean ====
section
/-!
DEFINITION. Debug and run control (chapter 18): packets, their gating and targets, halt, resume and step, trigger groups,
attachment, and the Suycia resident monitor.
-/

namespace Sys2Proof.Machine

/-! ## Packets and answers (R445 to R447) -/

/-- The operations of Table DBG.2. -/
inductive DbgOp where
  | read
  | write
  | peek
  | consume
  | halt
  | resume
  | step
  | trigCfg
  | attach
  | detach
  /-- Codes 10 to 15. -/
  | bad
  deriving DecidableEq, Repr

/-- An operation code. -/
def DbgOp.ofCode (k : Nat) : DbgOp :=
  match k with
  | 0 => .read
  | 1 => .write
  | 2 => .peek
  | 3 => .consume
  | 4 => .halt
  | 5 => .resume
  | 6 => .step
  | 7 => .trigCfg
  | 8 => .attach
  | 9 => .detach
  | _ => .bad

/-- A packet: its path, operation, address part, data, and the parities. -/
structure Packet where
  path : DbgPath
  op : DbgOp
  cls : Nat
  addr : Nat
  data : Word := 0
  parityOk : Bool := true
  dataOk : Bool := true
  deriving DecidableEq, Repr

/-- The fault causes of Table DBG.4. -/
inductive DbgCause where
  | parity
  | badOp
  | denied
  | notHalted
  | sideEffect
  | access
  | busy
  | notAttached
  deriving DecidableEq, Repr

/-- DSTAT[3:0]. -/
def DbgCause.code : DbgCause → BitVec 4
  | .parity => 1
  | .badOp => 2
  | .denied => 3
  | .notHalted => 4
  | .sideEffect => 5
  | .access => 6
  | .busy => 7
  | .notAttached => 8

/-- What a packet comes to: done, with its data where it has any; begun and not completed yet; or a fault, with nothing done. -/
inductive Reply where
  | ok (data : Option Word) (s : State)
  | wait
  | fault (c : DbgCause)

/-- Data out. -/
def Reply.out (s : State) (v : Word) : Reply := .ok (some v) s

/-- Done, without data. -/
def Reply.done (s : State) : Reply := .ok none s

/-! ## Engines and the contexts of a field scope (R450) -/

/-- The physical engine of logical engine `l`, where it is in service. -/
def State.debugEngine (s : State) (l : Nat) : Option Nat := if s.inService l then some (s.physOf l) else none

/-- The scope is field. -/
def State.fieldScope (s : State) : Bool := s.dbg.scope == 2

/-- Context `c` of engine `p` holds a job of the field instance. -/
def State.fieldCtx (s : State) (p c : Nat) : Bool := (s.jobAt p c).any fun j => j.inst == s.dbg.inst

/-- Context `c` of engine `p` is halted. -/
def State.ctxHalted (s : State) (p c : Nat) : Bool := (s.ctx p c).state == .halted

/-! ## CLASS 0: the register port (R448, R489) -/

/-- A read of a register. READ of an RC register is refused, PEEK changes nothing, CONSUME has the side effect. -/
def State.regRead (s : State) (op : DbgOp) (a : Nat) : Reply :=
  match s.verdict true a false true with
  | .addrErr => .fault .access
  | .accessErr => .fault .access
  | .acts =>
    if op = .read ∧ isRc a then .fault .sideEffect
    else
      let v := ((s.readValue true a).getD 0).setWidth 36
      if op = .peek then .out s v else .out (s.afterRead true (op == .consume) a) v
  | _ => .out s 0

/-- A write of a register. Debug accesses never set RSVACC (R489). -/
def State.regWrite (s : State) (a : Nat) (w : Word) : Reply :=
  match s.verdict true a true true with
  | .addrErr => .fault .access
  | .accessErr => .fault .access
  | .acts =>
    let t := s.writeReg true a { data := w.setWidth 32 }
    .done { t with glb := { t.glb with rsvacc := t.glb.rsvacc && s.glb.rsvacc } }
  | _ => .done s

/-! ## CLASS 1: engine word addresses -/

/-- A read of the engine-private I/O word changes state. -/
def ioReadChanges (a : Nat) : Bool := a == 0x8002 || a == 0x8201

/-- The contexts with a job of the field instance whose context area or overlay range holds local store word `a`. -/
def State.fieldStore (s : State) (p a : Nat) : List Nat :=
  ((List.range 8).drop 1).filter fun c =>
    s.fieldCtx p c &&
      (match (s.eng p).region c a with
        | .own => true
        | .overlay => true
        | _ => false)

/-- Granule `g` is an INSTANCE granule of the field instance; a draining one is still its old owner's (R139). -/
def State.fieldGran (s : State) (g : Nat) : Bool :=
  (s.gran g).draining.getD (s.gran g).applied == .inst s.dbg.inst

/-- Why a CLASS 1 address cannot be reached, if it cannot. -/
def State.memBar (s : State) (p : Nat) (a : WAddr) (write : Bool) : Option DbgCause :=
  match placeOf a with
  | .none _ => some .access
  | .rom _ => if s.fieldScope then some .denied else if write then some .access else none
  | .deck w =>
    if s.fieldScope && !s.fieldGran (granuleOf w) then some .denied else none
  | .store k =>
    if s.fieldScope then
      let cs := s.fieldStore p k
      if cs.isEmpty then some .denied else if cs.any (s.ctxHalted p) then none else some .notHalted
    else if (s.eng p).halted then none else some .notHalted
  | .io _ => if s.fieldScope then some .denied else if (s.eng p).halted then none else some .notHalted

/-- A read at an engine word address. The data of an uncorrectable word is open (log entry 51). -/
def State.memRead (s : State) (op : DbgOp) (p : Nat) (a : WAddr) : Reply :=
  match s.memBar p a false with
  | some c => .fault c
  | none =>
    if (s.eccBar p a).isSome then
      let q := s.drawWord
      .out q.2 q.1
    else match placeOf a with
      | .io k =>
        if op = .read ∧ ioReadChanges k then .fault .sideEffect
        else .out (if op = .consume then s.ioClear p k else s) (s.ioValue p k)
      | _ => .out s (s.wordAt p a)

/-- A write at an engine word address. A log deck word is written for no context. -/
def State.memWrite (s : State) (p : Nat) (a : WAddr) (w : Word) : Reply :=
  match s.memBar p a true with
  | some c => .fault c
  | none =>
    match placeOf a with
    | .deck k => .done (s.putDeck none k w)
    | _ => .done (s.putWord p 0 a w)

/-! ## CLASS 2: context state (Table DBG.5) -/

/-- Why a context cannot be reached, if it cannot. -/
def State.ctxBar (s : State) (p c : Nat) : Option DbgCause :=
  if s.fieldScope then
    if !s.fieldCtx p c then some .denied else if s.ctxHalted p c then none else some .notHalted
  else if (s.eng p).halted then none else some .notHalted

/-- Context, group and index of an address. -/
def ctxTarget (a : Nat) : Nat × Nat × Nat := (a / 2 ^ 21 % 8, a / 2 ^ 12 % 512, a % 2 ^ 12)

/-- A read of context state. -/
def State.ctxRead (s : State) (p a : Nat) : Reply :=
  let t := ctxTarget a
  match s.ctxBar p t.1 with
  | some c => .fault c
  | none =>
    match (s.ctx p t.1).inspect s.now t.2.1 t.2.2 with
    | some v => .out s v
    | none => .fault .access

/-- A write of context state. -/
def State.ctxWrite (s : State) (p a : Nat) (w : Word) : Reply :=
  let t := ctxTarget a
  match s.ctxBar p t.1 with
  | some c => .fault c
  | none =>
    match (s.ctx p t.1).adjust s.now s.dbg.wdtRun t.2.1 t.2.2 w with
    | some x => .done (s.putCtx p t.1 x)
    | none => .fault .access

/-! ## CLASS 3: debug-internal words (Table DBG.4) -/

/-- DSTAT. -/
def State.dstat (s : State) : Word :=
  BitVec.ofNat 36 (s.dbg.cause.toNat + 16 * (if s.scrapped then 5 else s.life.lc.code) + 128 * s.dbg.scope.toNat +
    512 * s.dbg.inst.toNat)

/-- A new challenge is drawn from the DRBG: the first 8 octets of a generate call (R450, log entry 35). -/
def State.newChallenge (s : State) : Option State :=
  match s.drbg with
  | none => none
  | some (r, s) => some { s with dbg := { s.dbg with chal := BitVec.ofNat 64 (beNat (r.take 8)), chalFresh := true } }

/-- A read of a debug-internal word. A challenge that the DRBG cannot give yet is waited for (R352, R447). -/
def State.wordRead (s : State) (op : DbgOp) (k : Nat) : Reply :=
  let d := s.dbg
  match k with
  | 0 => .out s s.dstat
  | 1 => .out s (d.esel.setWidth 36)
  | 2 =>
    if op = .read then .fault .sideEffect
    else if op = .consume then
      match s.newChallenge with
      | some t => .out t ((t.dbg.chal >>> 32).setWidth 36)
      | none => .wait
    else .out s ((d.chal >>> 32).setWidth 36)
  | 3 => .out s ((d.chal.setWidth 32).setWidth 36)
  | 4 => .out s ((d.resp >>> 32).setWidth 36)
  | 5 => .out s ((d.resp.setWidth 32).setWidth 36)
  | 6 =>
    if op = .read then .fault .sideEffect
    else .out (if op = .consume then { s with dbg := { d with fired := 0 } } else s) (d.fired.setWidth 36)
  | _ => .fault .access

/-- A write of a debug-internal word. -/
def State.wordWrite (s : State) (k : Nat) (w : Word) : Reply :=
  let d := s.dbg
  match k with
  | 1 => .done { s with dbg := { d with esel := w.setWidth 8 } }
  | 4 => .done { s with dbg := { d with resp := BitVec.ofNat 64 (d.resp.toNat % 2 ^ 32 + 2 ^ 32 * (w.setWidth 32).toNat) } }
  | 5 => .done { s with dbg := { d with resp := BitVec.ofNat 64 (d.resp.toNat / 2 ^ 32 * 2 ^ 32 + (w.setWidth 32).toNat) } }
  | _ => .fault .access

/-! ## Reads and writes by class (Table DBG.3) -/

/-- READ, PEEK and CONSUME. -/
def State.locRead (s : State) (k : Packet) : Reply :=
  match k.cls with
  | 0 => s.regRead k.op (k.addr % 2 ^ 20)
  | 1 => match s.debugEngine s.dbg.esel.toNat with
    | some p => s.memRead k.op p (BitVec.ofNat 24 k.addr)
    | none => .fault .access
  | 2 => match s.debugEngine s.dbg.esel.toNat with
    | some p => s.ctxRead p k.addr
    | none => .fault .access
  | _ => s.wordRead k.op (k.addr % 8)

/-- WRITE. With a data parity error it is not performed (log entry 52). -/
def State.locWrite (s : State) (k : Packet) : Reply :=
  if !k.dataOk then .fault .parity else
  match k.cls with
  | 0 => s.regWrite (k.addr % 2 ^ 20) k.data
  | 1 => match s.debugEngine s.dbg.esel.toNat with
    | some p => s.memWrite p (BitVec.ofNat 24 k.addr) k.data
    | none => .fault .access
  | 2 => match s.debugEngine s.dbg.esel.toNat with
    | some p => s.ctxWrite p k.addr k.data
    | none => .fault .access
  | _ => s.wordWrite (k.addr % 8) k.data

/-! ## HALT, RESUME, STEP (R453 to R458) -/

/-- A HALT reaches an engine: it takes effect at its boundary outside a locked sequence. -/
def State.haltRequest (s : State) (p : Nat) : State :=
  let e := s.eng p
  if e.halted then s
  else if e.running then (s.modEng p fun e => { e with haltPend := true }).settleHalt p
  else s.modEng p fun e => { e with haltPend := true }

/-- A HALT in field scope: the contexts that hold jobs of the instance halt (R450). -/
def State.haltField (s : State) (p : Nat) : State :=
  let mark := fun (e : Engine) (c : Nat) => if s.fieldCtx p c then e.putCtx c { e.ctx c with haltPend := true } else e
  (s.modEng p fun e => (List.range 8).foldl mark e).settleHalt p

/-- A timer of a context that does not step: at least 4,096 ticks, and it still stands (R458). -/
def Timer.lift (x : Timer) (now : Nat) : Timer :=
  match x with
  | .paused l => .paused (max l 4096)
  | y => y.raise now

/-- RESUME in field scope: it also ends a step of one of its contexts that has not issued yet. -/
def State.resumeField (s : State) (p : Nat) : State :=
  let free := fun (e : Engine) (c : Nat) =>
    if s.fieldCtx p c then e.putCtx c { (e.ctx c).unhalt s.now with haltPend := false } else e
  s.modEng p fun e => { (List.range 8).foldl free e with stepping := e.stepping.filter fun c => !s.fieldCtx p c }

/-- STEP of context `c`: where it is READY it alone leaves HALTED, and the engine halts again after its instruction (R455). -/
def State.stepCtx (s : State) (p c : Nat) : State :=
  let lift := fun (e : Engine) (k : Nat) =>
    let x := e.ctx k
    e.putCtx k { x with jobTimer := x.jobTimer.lift s.now }
  let s := s.modEng p fun e =>
    if e.halted then { (List.range 8).foldl lift e with wdt := e.wdt.lift s.now } else lift e c
  let x := s.ctx p c
  let ready := x.state == .halted && (x.waitDone || x.haltedFrom == .ready)
  if !ready then s else
  (s.modEng p fun e =>
    let w := if e.halted then e.wdt.raise s.now else e.wdt
    { (e.putCtx c (x.unhalt s.now)) with stepping := some c, wdt := w }).settleSubst p

/-- HALT. -/
def State.doHalt (s : State) (k : Packet) : Reply :=
  if k.cls = 3 then (if s.fieldScope then .fault .denied else .done (State.fireGroups allFirings s [k.addr % 8]))
  else match s.debugEngine (k.addr % 256) with
    | some p => .done (if s.fieldScope then s.haltField p else s.haltRequest p)
    | none => .fault .access

/-- RESUME. -/
def State.doResume (s : State) (k : Packet) : Reply :=
  match s.debugEngine (k.addr % 256) with
  | some p => .done (if s.fieldScope then s.resumeField p else s.resumeEngine p)
  | none => .fault .access

/-- STEP. -/
def State.doStep (s : State) (k : Packet) : Reply :=
  let c := k.addr / 256 % 8
  match s.debugEngine (k.addr % 256) with
  | none => .fault .access
  | some p =>
    match s.ctxBar p c with
    | some e => .fault e
    | none => .done (s.stepCtx p c)

/-- TRIG_CFG (R457). With a data parity error it is not performed (log entry 52). -/
def State.doTrig (s : State) (k : Packet) : Reply :=
  if s.fieldScope then .fault .denied else
  if !k.dataOk then .fault .parity else
  let g := k.addr % 8
  let m := k.data.getLsbD 0
  let v : Bool × Bool := (m && k.data.getLsbD 1, m && k.data.getLsbD 2)
  let s := { s with dbg := { s.dbg with groups := Tab.set groupDflt s.dbg.groups (256 * g + k.addr / 8 % 256) v } }
  .done (if k.data.getLsbD 3 then State.fireGroups allFirings s [g] else s)

/-! ## Attachment (R450, R451) -/

/-- A debugger is attached. -/
def State.attachTo (s : State) (k : Packet) (scope : BitVec 2) (inst : BitVec 8) : State :=
  ({ s with dbg := { s.dbg with attached := true, path := k.path, scope := scope, inst := inst } }).arrive 704

/-- The label "debug". -/
def debugLabel : List Octet := [0x64, 0x65, 0x62, 0x75, 0x67]

/-- The answer that a challenge expects: the leftmost 64 bits of the CMAC. -/
def State.expectedResp (s : State) (inst : BitVec 8) : BitVec 64 :=
  BitVec.ofNat 64 (beNat ((cmac (kdf s.rootKey debugLabel inst.toNat 0 256) (beOctets 8 s.dbg.chal.toNat ++ [inst])).take 8))

/-- A field ATTACH fails: FAULT DENIED, and source 709. -/
def State.attachFailed (s : State) : State := ({ s with dbg := { s.dbg with fails := s.dbg.fails + 1 } }).arrive 709

/-- What an ATTACH comes to, and the state where it is denied: a failed challenge counts, and every try uses up its CHAL. With a data
parity error it is not performed and no try (log entry 52). -/
def State.doAttach (s : State) (k : Packet) : Reply × State :=
  if s.dbg.attached && s.dbg.path != k.path then (.fault .busy, s)
  else if 8 ≤ s.dbg.fails.toNat then (.fault .denied, s)
  else if !k.dataOk then (.fault .parity, s)
  else if s.life.lc = .field then
    let inst : BitVec 8 := k.data.setWidth 8
    let fresh := s.dbg.chalFresh
    let s := { s with dbg := { s.dbg with chalFresh := false } }
    if fresh && s.dbg.resp == s.expectedResp inst then (.done (s.attachTo k 2 inst), s)
    else (.fault .denied, s.attachFailed)
  else if k.data = 0 then (.done (s.attachTo k 1 0), s)
  else (.fault .denied, s)

/-! ## Gating (R449, R450, Table DBG.6) -/

/-- The packet reads DSTAT. -/
def Packet.readsDstat (k : Packet) : Bool := k.cls == 3 && k.addr % 8 == 0 && (k.op == .read || k.op == .peek)

/-- The life-cycle state allows the packet (Table DBG.6). -/
def State.lcAllows (s : State) (k : Packet) : Bool :=
  if s.scrapped then k.readsDstat
  else if s.life.lc = .blank then
    match k.op with
    | .attach => true
    | .detach => true
    | .halt => false
    | .resume => false
    | .step => false
    | .trigCfg => false
    | _ => k.cls == 0 || k.cls == 3
  else true

/-- The packet needs no attachment. -/
def Packet.free (k : Packet) : Bool :=
  match k.op with
  | .attach => true
  | .read => k.cls == 3
  | .peek => k.cls == 3
  | .consume => k.cls == 3 && k.addr % 8 == 2
  | .write => k.cls == 3 && (k.addr % 8 == 4 || k.addr % 8 == 5)
  | _ => false

/-- A CLASS 0 address that field scope allows: the instance half of the instance's page. -/
def State.fieldReg (s : State) (a : Nat) : Bool := inInstHalf a && (a - 0x10000) / 0x800 == s.dbg.inst.toNat

/-- The packet is denied in field scope. -/
def State.fieldDenies (s : State) (k : Packet) : Bool :=
  s.dbg.attached && s.fieldScope &&
    match k.op with
    | .trigCfg => true
    | .read => k.cls == 0 && !s.fieldReg (k.addr % 2 ^ 20)
    | .peek => k.cls == 0 && !s.fieldReg (k.addr % 2 ^ 20)
    | .consume => k.cls == 0 && !s.fieldReg (k.addr % 2 ^ 20)
    | .write => k.cls == 0 && !s.fieldReg (k.addr % 2 ^ 20)
    | _ => false

/-- The monitor's engine (R461). -/
def State.monitor (s : State) : Nat := s.dbg.suyEngine.toNat

/-- The packet would patch the stand of the monitor, or names its engine for HALT or STEP. -/
def State.touchesMonitor (s : State) (k : Packet) : Bool :=
  match k.op with
  | .halt => k.cls != 3 && k.addr % 256 == s.monitor
  | .step => k.addr % 256 == s.monitor
  | .write => k.cls == 0 && [0xC024, 0xC028, 0xC02C].contains (k.addr % 2 ^ 20) && s.dbgIdx.pu.toNat / 16 == s.monitor / 16
  | _ => false

/-- The monitor's engine is halted or about to be. -/
def State.monitorStops (s : State) : Bool :=
  let e := s.eng (s.physOf s.monitor)
  e.halted || e.haltPend

/-! ## One packet -/

/-- The operation itself. -/
def State.operate (s : State) (k : Packet) : Reply :=
  match k.op with
  | .read => s.locRead k
  | .peek => s.locRead k
  | .consume => s.locRead k
  | .write => s.locWrite k
  | .halt => s.doHalt k
  | .resume => s.doResume k
  | .step => s.doStep k
  | .trigCfg => s.doTrig k
  | .attach => (s.doAttach k).1
  | .detach => .done s.detach
  | .bad => .fault .badOp

/-- A packet with its gates in order: parity, operation, life cycle, attachment, field scope, the monitor's own engine. -/
def State.packet (s : State) (k : Packet) : Reply :=
  if !k.parityOk then .fault .parity
  else if k.op = .bad then .fault .badOp
  else if !s.lcAllows k then .fault .denied
  else if !k.free && !(s.dbg.attached && s.dbg.path == k.path) then .fault .notAttached
  else if s.fieldDenies k then .fault .denied
  else if k.path = .suycia && s.touchesMonitor k then .fault .busy
  else
    let r := s.operate k
    match r with
    | .ok _ t => if k.path = .suycia && !s.monitorStops && t.monitorStops then .fault .busy else r
    | _ => r

/-- What a faulting packet leaves: DSTAT's cause, and for a denied ATTACH its failure. -/
def State.faulted (s : State) (k : Packet) (c : DbgCause) : State :=
  let s := if k.op = .attach ∧ k.parityOk ∧ s.lcAllows k then (s.doAttach k).2 else s
  { s with dbg := { s.dbg with cause := c.code } }

/-- ACK, cause and data of an executed packet, and the state after it (R447). -/
def State.execute (s : State) (k : Packet) : (BitVec 3 × BitVec 4 × Option Word) × State :=
  match s.packet k with
  | .ok d t => ((1, 0, d), t)
  | .wait => ((2, 0, none), s)
  | .fault c => ((4, c.code, none), s.faulted k c)

/-! ## The two paths -/

/-- The monitor serves: it is enabled, its engine runs unhalted, and the host ports are there (R461). -/
def State.monitorUp (s : State) : Bool :=
  s.works && s.dbg.suyEn && !s.dbg.suyStart && s.inService s.monitor && (s.eng (s.physOf s.monitor)).running && !(s.eng (s.physOf s.monitor)).halted

/-- L of the monitor's rings (Table DBG.10). -/
def Dbg.suyLog (d : Dbg) : Nat := if 6 ≤ d.suyL.toNat ∧ d.suyL.toNat ≤ 12 then d.suyL.toNat else 6

/-- PHASE of position `p` (R440). -/
def Dbg.suyPhase (d : Dbg) (p : BitVec 32) : Bool := !p.getLsbD d.suyLog

/-- The response entry (Table DBG.8). -/
def suyEntry (phase : Bool) (r : BitVec 3 × BitVec 4 × Option Word) : List Octet :=
  [BitVec.ofNat 8 (r.1.toNat + 8 * r.2.1.toNat + 128 * bit phase), 0, 0, 0] ++ leOctets 5 (r.2.2.getD 0).toNat ++
    List.replicate 7 0

/-- The monitor writes its response and moves on by one position. -/
def State.suyAnswer (s : State) (pos : BitVec 32) (phase : Bool) (addr : HAddr) (r : BitVec 3 × BitVec 4 × Option Word) : State :=
  let o := (suyEntry phase r).zipIdx.map fun x => (addr.toNat % 64 + x.2, x.1)
  ({ s with dbg := { s.dbg with suyPos := pos + 1 } }).send (writeReq addr 0 2 o .suycia)

/-- The host address of the response at a position: the response ring follows the request ring. -/
def Dbg.suyAddr (d : Dbg) (p : BitVec 32) : HAddr :=
  d.suyBase + BitVec.ofNat 64 (16 * 2 ^ d.suyLog + 16 * (p.toNat % 2 ^ d.suyLog))

/-- The response ring has room for one more entry (R440). -/
def Dbg.suyRoom (d : Dbg) : Bool := (d.suyPos - d.suyHead).toNat < 2 ^ d.suyLog

/-- The monitor reads the request entry of its position: a READ on a tag of the manager pool, answered with the entry within this step (R59,
R461, log entry 94); none where no port, credit or tag allows it. -/
def State.suyFetch (s : State) : Option State :=
  let d := s.dbg
  let r := readReq (d.suyBase + BitVec.ofNat 64 (16 * (d.suyReq.toNat % 2 ^ d.suyLog))) 0 2 .suycia
  match s.portFor r, s.tryIssue r with
  | some n, some t =>
    match (s.port n).freeTag true, (s.port n).freeTag true |>.bind fun k => Assoc.lookup (t.port n).tags k with
    | some k, some u =>
      let t := (t.setTag n k { u with st := .quarantined }).emit (.rsCredit (n == 1))
      some { t with dbg := { t.dbg with suyReq := d.suyReq + 1 } }
    | _, _ => none
  | _, _ => none

/-- A packet of the two-wire port. While an access is pending, the identical packet asks for its outcome, and any other one is answered
WAIT and ignored (R447). -/
def State.serveWire (s : State) (k : Packet) : (BitVec 3 × Option Word) × State :=
  let other := s.dbg.pending.any fun a => !(k.op == .consume && k.cls == 3 && k.addr == a)
  if k.parityOk && other then ((2, none), s) else
  let q := s.execute k
  ((q.1.1, q.1.2.2),
   { q.2 with dbg := { q.2.dbg with pending := if q.1.1 = 2 then some k.addr else if k.parityOk then none else s.dbg.pending } })

/-- The debug paths answer: a direct BIST that has ended leaves the register port alone (R477). -/
def State.debugOn (s : State) : Bool := s.portOn && !s.life.directDone

/-- A packet on its path: the two-wire port acknowledges, the monitor writes its response, once it has one. -/
def State.serve (s : State) (k : Packet) : State :=
  let s := { s with out := [] }
  if !s.debugOn then s else
  match k.path with
  | .wire =>
    let q := s.serveWire k
    (q.2.emit (.dbg q.1.1 (q.1.2.map fun v => (v, oddOnes v)))).settle
  | .suycia =>
    if !s.monitorUp || (s.execute k).1.1 == 2 then s
    else if !s.dbg.suyRoom then s.readSuyLine false
    else match s.suyFetch with
    | none => s
    | some s =>
    let d := s.dbg
    let q := s.execute k
    (q.2.suyAnswer d.suyPos (d.suyPhase d.suyPos) (d.suyAddr d.suyPos) q.1).settle

/-- A packet from its address part. -/
def packetOf (op : DbgOp) (d : DbgAddr) (data : Word := 0) (dataOk : Bool := true) : Packet :=
  { path := d.path, op := op, cls := d.cls.toNat, addr := d.addr.toNat, data := data, parityOk := d.parityOk || d.path == .suycia
    dataOk := (dataOk && d.dataOk) || d.path == .suycia }

/-! ## The commands -/

/-- READ. -/
def execRead (d : DbgAddr) (s : State) : Out := .next (s.serve (packetOf .read d))

/-- WRITE. -/
def execWrite (d : DbgAddr) (data : Word) (dataParityOk : Bool) (s : State) : Out :=
  .next (s.serve (packetOf .write d data dataParityOk))

/-- PEEK. -/
def execPeek (d : DbgAddr) (s : State) : Out := .next (s.serve (packetOf .peek d))

/-- CONSUME. -/
def execConsume (d : DbgAddr) (s : State) : Out := .next (s.serve (packetOf .consume d))

/-- HALT. -/
def execHalt (d : DbgAddr) (s : State) : Out := .next (s.serve (packetOf .halt d))

/-- RESUME. -/
def execResume (d : DbgAddr) (s : State) : Out := .next (s.serve (packetOf .resume d))

/-- STEP. -/
def execStep (d : DbgAddr) (s : State) : Out := .next (s.serve (packetOf .step d))

/-- TRIG_CFG. -/
def execTrigCfg (d : DbgAddr) (data : Word) (s : State) : Out := .next (s.serve (packetOf .trigCfg d data))

/-- ATTACH. -/
def execAttach (d : DbgAddr) (data : Word) (s : State) : Out := .next (s.serve (packetOf .attach d data))

/-- DETACH. -/
def execDetach (d : DbgAddr) (s : State) : Out := .next (s.serve (packetOf .detach d))

/-- BAD_OP: operation codes 10 to 15 (R446); a lower code is no such packet. -/
def execBadOp (path : DbgPath) (op : BitVec 4) (parityOk : Bool) (s : State) : Out :=
  if op.toNat < 10 then .next { s with out := [] }
  else .next (s.serve (packetOf .bad { path := path, cls := 0, addr := 0, parityOk := parityOk }))

/-- PARSER_RESET: the packet parser is reset, and nothing else changes (R445). -/
def execParserReset (s : State) : Out := .next { s with out := [] }

/-- A deferred HALT breaks the reservation of every open locked sequence of its engine (R454). -/
def State.breakLocks (s : State) (p : Nat) : State :=
  let hit := (List.range 8).filter fun c => s.lockOpen p c && ((s.eng p).haltPend || (s.ctx p c).haltPend)
  let s := { s with ldk := { s.ldk with resv := s.ldk.resv.filter fun r => r.2.1 != p || !hit.contains r.2.2 } }
  hit.foldl (fun t c => t.modCtx p c fun x => { x with lock := x.lock.map fun l => { l with broken := true } }) s

/-- HALT_DEFERRAL_EXPIRY: 512 island cycles have passed since a HALT reached an engine with a locked sequence open (R454). -/
def execHaltDeferralExpiry (isl : Fin 272) (s : State) : Out :=
  let p := isl.val
  let s := { s with out := [] }
  .next (s.breakLocks p)

/-- SUYCIA_REQUEST: the monitor finds an entry with the phase of its position, executes it and answers (R461, Table DBG.8). -/
def execSuyciaRequest (entry : BitVec 128) (s : State) : Out :=
  let s := { s with out := [] }
  let op := (entry.extractLsb' 0 4).toNat
  let phase := entry.getLsbD 127
  if s.dbg.suyPhase s.dbg.suyReq != phase then .next s
  else
    .next (s.serve
      { path := .suycia, op := DbgOp.ofCode op, cls := (entry.extractLsb' 4 2).toNat, addr := (entry.extractLsb' 8 24).toNat
        data := entry.extractLsb' 32 36 })

end Sys2Proof.Machine
end

