-- ==== Sys2Proof/Machine/Stack.lean ====
section
/-!
DEFINITION. Stack, literal and address stack instructions (Tables INS.1 and INS.2, R157, R195, R209).
-/

namespace Sys2Proof.Machine

/-- A repeatable stack shape (Table INS.7). -/
def stk (dIn dOut : Nat) : Shape := { dIn := dIn, dOut := dOut, rep := true }

/-- A repeatable address stack shape. -/
def astk (dIn dOut aIn aOut : Nat) : Shape := { dIn := dIn, dOut := dOut, aIn := aIn, aOut := aOut, rep := true, row := 3 }

/-- NOP. -/
def execNop (i : Issue) : State → Out := issue i (stk 0 0) (onCtx id)

/-- DUP ( a -- a a ). -/
def execDup (i : Issue) : State → Out := issue i (stk 1 2) (onCtx fun x => x.replace 1 [x.top 0, x.top 0])

/-- DROP ( a -- ). -/
def execDrop (i : Issue) : State → Out := issue i (stk 1 0) (onCtx fun x => x.replace 1 [])

/-- SWAP ( a b -- b a ). -/
def execSwap (i : Issue) : State → Out := issue i (stk 2 2) (onCtx fun x => x.replace 2 [x.top 0, x.top 1])

/-- OVER ( a b -- a b a ): it only pushes, and leaves the cells below as they stand, also one whose loaded data it cannot see (R171,
R303, R312). -/
def execOver (i : Issue) : State → Out := issue i { stk 2 3 with copies := some 1 } (onCtx fun x => x.push (x.top 1))

/-- ROT ( a b c -- b c a ). -/
def execRot (i : Issue) : State → Out := issue i (stk 3 3) (onCtx fun x => x.replace 3 [x.top 1, x.top 0, x.top 2])

/-- NIP ( a b -- b ). -/
def execNip (i : Issue) : State → Out := issue i (stk 2 1) (onCtx fun x => x.replace 2 [x.top 0])

/-- TUCK ( a b -- b a b ). -/
def execTuck (i : Issue) : State → Out := issue i (stk 2 3) (onCtx fun x => x.replace 2 [x.top 0, x.top 1, x.top 0])

/-- DUP2 ( a b -- a b a b ). -/
def execDup2 (i : Issue) : State → Out :=
  issue i (stk 2 4) (onCtx fun x => x.replace 2 [x.top 1, x.top 0, x.top 1, x.top 0])

/-- DROP2 ( a b -- ). -/
def execDrop2 (i : Issue) : State → Out := issue i (stk 2 0) (onCtx fun x => x.replace 2 [])

/-- SWAP2 ( a b c d -- c d a b ). -/
def execSwap2 (i : Issue) : State → Out :=
  issue i (stk 4 4) (onCtx fun x => x.replace 4 [x.top 1, x.top 0, x.top 3, x.top 2])

/-- DEPTH ( -- n ): the depth before the push (R209). -/
def execDepth (i : Issue) : State → Out := issue i (stk 0 1) (onCtx fun x => x.push (BitVec.ofNat 36 x.depth))

/-- PICK n ( xn … x0 -- xn … x0 xn ) (R209). -/
def execPick (i : Issue) (n : BitVec 4) : State → Out :=
  issue i { stk (n.toNat + 1) (n.toNat + 2) with copies := some n.toNat } (onCtx fun x => x.push (x.top n.toNat))

/-- LIT n ( -- n ). -/
def execLit (i : Issue) (n : BitVec 5) : State → Out := issue i (stk 0 1) (onCtx fun x => x.push (n.setWidth 36))

/-- LITL ( -- v ): the immediate sign-extended (R195). -/
def execLitl (i : Issue) (imm : BitVec 13) : State → Out :=
  issue i { len := 2, dOut := 1 } (onCtx fun x => x.push (imm.signExtend 36))

/-- LITX ( a -- a' ): (a × 2^13) OR the immediate (R195). -/
def execLitx (i : Issue) (imm : BitVec 13) : State → Out :=
  issue i { len := 2, dIn := 1, dOut := 1 } (onCtx fun x => x.replace 1 [(x.top 0 <<< 13) ||| imm.setWidth 36])

/-- RDLC n ( -- c ): LCn, or 0 when level n is not open (R218). -/
def execRdlc (i : Issue) (n : BitVec 2) : State → Out :=
  issue i { dOut := 1 } (onCtx fun x => x.push (match x.loops[n.toNat]? with
    | some l => l.count.setWidth 36
    | none => 0))

/-! ## Address stack -/

/-- TOA ( x -- ) A: ( -- CB:x[15:0] ) (R157). -/
def execToa (i : Issue) : State → Out :=
  issue i (astk 1 0 0 1) (onCtx fun x => { x.drop 1 with astack := (x.cb ++ (x.top 0).extractLsb' 0 16) :: x.astack })

/-- FROMA ( -- x ) A: ( a -- ) (R157). -/
def execFroma (i : Issue) : State → Out :=
  issue i (astk 0 1 1 0) (onCtx fun x => { x.push (x.atop.setWidth 36) with astack := x.astack.drop 1 })

/-- ADUP A: ( a -- a a ). -/
def execAdup (i : Issue) : State → Out :=
  issue i (astk 0 0 1 2) (onCtx fun x => { x with astack := x.atop :: x.astack })

/-- ADROP A: ( a -- ). -/
def execAdrop (i : Issue) : State → Out := issue i (astk 0 0 1 0) (onCtx fun x => { x with astack := x.astack.drop 1 })

/-- ASWAP A: ( a b -- b a ). -/
def execAswap (i : Issue) : State → Out :=
  issue i (astk 0 0 2 2) (onCtx fun x => { x with astack := x.astack.getD 1 0 :: x.atop :: x.astack.drop 2 })

/-- AADD ( x -- ) A: ( a -- a' ): the short address plus x[15:0], within the bank. -/
def execAadd (i : Issue) : State → Out :=
  issue i (astk 1 0 1 1) (onCtx fun x =>
    { x.drop 1 with astack := WAddr.plus x.atop ((x.top 0).extractLsb' 0 16).toNat :: x.astack.drop 1 })

/-- AINC n A: ( a -- a' ), n from 1 to 8. -/
def execAinc (i : Issue) (n : BitVec 4) : State → Out :=
  issue i (astk 0 0 1 1) (onCtx fun x => { x with astack := WAddr.plus x.atop n.toNat :: x.astack.drop 1 })

/-- BANK ( -- ), or ( x -- ) with FROMT: sets CB (Table INS.8). -/
def execBank (i : Issue) (b : BitVec 8) (fromT : Bool) : State → Out :=
  issue i { len := 2, dIn := bit fromT, reserved := fromT && b != 0 } (onCtx fun x =>
    if fromT then { x.drop 1 with cb := (x.top 0).extractLsb' 0 8 } else { x with cb := b })

end Sys2Proof.Machine
end

