-- ==== Sys2Proof/Machine/System.lean ====
section
/-!
DEFINITION. System instructions (Table INS.8): time and scheduling, MODE, TRAP n, features, window spills (R165), the
keeper's event instructions (R369 to R373) and mailboxes (Table INS.9).
-/

namespace Sys2Proof.Machine

/-! ## Time and scheduling -/

/-- A keeper that executes SLEEP gives up the sources it could not take (R368). -/
def State.offerElsewhere (s : State) (p : Nat) : State :=
  s.reroute ((s.signalled p).filter fun n => (s.src n).prio.toNat ≤ (s.eng p).level)

/-- SLEEP's own work (R187): the keeper sleeps unless something is pending; a job context sleeps for t ticks, and t = 0 acts
as YIELD. A keeper that does not sleep gives up the sources it could not take here. -/
def sleepWork : Work := fun s p c x =>
  let t := (x.top 0).toNat
  let y := x.drop 1
  if c = 0 then
    if s.keeperPending p then .ok { s := s.offerElsewhere p, x := y }
    else .ok { s := s, x := { y with state := .sleeping, wake := if t = 0 then none else some (s.now + t) } }
  else if t = 0 then .ok { s := s, x := y }
  else .ok { s := s, x := { y with state := .sleeping, wake := some (s.now + t) } }

/-- SLEEP ( t -- ). A keeper that has gone to sleep gives up the sources it could not take (R368). -/
def execSleep (i : Issue) (s : State) : Out :=
  let t := s.issue i { dIn := 1, endsLock := true } sleepWork
  let p := i.isl.val
  if i.ctx = 0 ∧ (s.ctx p 0).state ≠ .sleeping ∧ (t.ctx p 0).state = .sleeping then .next (t.offerElsewhere p) else .next t

/-- YIELD ( -- ): the context has had its turn (R223). -/
def execYield (i : Issue) : State → Out := issue i { endsLock := true } (onCtx id)

/-- MODE ( v m -- ): the change takes effect at the third instruction after it (R169). -/
def execMode (i : Issue) : State → Out :=
  issue i { dIn := 2, endsLock := true, noSlot := true } (onCtx fun x =>
    { x.drop 2 with modePend := x.modePend ++ [(2, (x.top 0).extractLsb' 0 4, (x.top 1).extractLsb' 0 4)] })

/-- TRAP n ( -- ): trap 16 + n is taken after it. -/
def execTrap (i : Issue) (n : BitVec 4) : State → Out :=
  issue i { noSlot := true } fun s _ _ x => .ok { s := s, x := x, late := some (16 + n.toNat, n.toNat) }

/-- GLB_ID (Table ENC.5). -/
def glbId : Nat := 0o015304453044

/-- GLB_FEAT0 (Table ENC.7). -/
def glbFeat0 : Nat := 0x3F02

/-- GLB_FEAT1 (Table ENC.7). -/
def State.glbFeat1 (s : State) : Nat := s.liveEngines + 512 * 16 + 16384 * 8

/-- The feature word n as an engine of stand `d` reads it (Table ENC.5). -/
def State.featWord (s : State) (d n : Nat) : Word :=
  match n with
  | 0 => BitVec.ofNat 36 glbId
  | 1 => BitVec.ofNat 36 glbFeat0
  | 2 => BitVec.ofNat 36 s.glbFeat1
  | 3 => (s.glb.present.getD d 0).setWidth 36
  | _ => 0

/-- FEAT n ( -- x ). -/
def execFeat (i : Issue) (n : BitVec 9) : State → Out :=
  issue i { len := 2, dOut := 1 } fun s p _ x => .ok { s := s, x := x.push (s.featWord (standOf p) n.toNat) }

/-- TBR ( -- lo hi ): the time base (R185). -/
def execTbr (i : Issue) : State → Out :=
  issue i { len := 2, dOut := 2 } fun s _ _ x =>
    let t := BitVec.ofNat 64 s.now
    .ok { s := s, x := x.pushAll [t.extractLsb' 0 36, (t.extractLsb' 36 28).setWidth 36] }

/-- CTXQ ( -- x ) (R188). -/
def execCtxq (i : Issue) : State → Out :=
  issue i { dOut := 1 } fun s p c x =>
    .ok { s := s, x := x.push (BitVec.ofNat 36 (c + 8 * s.logicalNum p + 2048 * standOf p)) }

/-! ## Window spills (R165, R309, Table ENG.8) -/

/-- The groups of a window that hold a frame's cells. -/
def dirtyGroups (d : BitVec 4) : List Nat := (List.range 4).filter fun g => d.getLsbD g

/-- The frame words that SPILLW writes: offset in the frame and value. -/
def Window.frame (w : Window) : List (Nat × Word) :=
  (0, BitVec.ofNat 36 (w.depth + 32 * w.dirty.toNat)) ::
    (dirtyGroups w.dirty).flatMap fun g => (List.range 4).map fun k => (1 + 4 * g + k, w.cell (4 * g + k))

/-- The local store word at offset `k` of the frame at `a`. -/
def frameAddr (a : BitVec 14) (k : Nat) : WAddr := WAddr.plus (a.setWidth 24) k

/-- SPILLW's own work. The last resident window stays (R160, log entry 88). -/
def spillWork : Work := fun s p c x =>
  if !(s.eng p).sbuf.isEmpty then .wait else
  match x.windows.getLast? with
  | none => .ok { s := s, x := x.push 0 }
  | some w =>
    if x.windows.length ≤ 1 ∨ x.wsl.toNat < x.wsp.toNat + 17 then .ok { s := s, x := x.push 0 } else
    match s.accessBars p c true (w.frame.map fun q => frameAddr x.wsp q.1) with
    | some k => .trap 2 k
    | none =>
      let s := w.frame.foldl (fun t q => t.putWord p c (frameAddr x.wsp q.1) q.2) s
      .ok { s := s, x := { x with windows := x.windows.dropLast, spilled := x.spilled + 1, wsp := x.wsp + 17 }.push 1 }

/-- SPILLW ( -- f ): valid in a WINDOW_OVER handler. -/
def execSpillw (i : Issue) : State → Out :=
  issue i { dOut := 1, misuse := fun x => if x.tw && x.twCause == 5 then none else some 7, micro := some .spillw } spillWork

/-- A frame header is well formed: DEPTH 0 to 16, bits [35:9] 0. -/
def headerOk (w : Word) : Bool := w.toNat < 512 && w.toNat % 32 ≤ 16

/-- FILLW's own work. Eight resident windows leave no room for another (R160, log entry 88). -/
def fillWork : Work := fun s p c x =>
  if !(s.eng p).sbuf.isEmpty then .wait else
  if x.spilled = 0 ∨ 8 ≤ x.windows.length then .ok { s := s, x := x.push 0 } else
  let at0 := x.wsp - 17
  let head := frameAddr at0 0
  match s.accessBar p c false head with
  | some k => .trap 2 k
  | none =>
    match s.eccBar p head with
    | some k => .trap 14 k
    | none =>
      let h := s.wordAt p head
      if !headerOk h then .ok { s := s, x := x.push 0 } else
      let d := h.extractLsb' 5 4
      let cells := (dirtyGroups d).flatMap fun g => (List.range 4).map fun k => 4 * g + k
      let addrs := cells.map fun n => frameAddr at0 (1 + n)
      match s.accessBars p c false addrs with
      | some k => .trap 2 k
      | none =>
        match s.eccBars p addrs with
        | some k => .trap 14 k
        | none =>
          let w : Window := { depth := h.toNat % 32, dirty := d
                              cells := cells.foldl (fun m n => Tab.set wordDflt m n (s.wordAt p (frameAddr at0 (1 + n)))) [] }
          .ok { s := s, x := { x with windows := x.windows ++ [w], spilled := x.spilled - 1, wsp := at0 }.push 1 }

/-- FILLW ( -- f ): valid in a WINDOW_UNDER handler. -/
def execFillw (i : Issue) : State → Out :=
  issue i { dOut := 1, misuse := fun x => if x.tw && x.twCause == 6 then none else some 7, micro := some .fillw,
            data := fun x => some (frameAddr (x.wsp - 17) 0) }
    fillWork

/-! ## Events -/

/-- EOI ( -- ): the priority stack loses its top entry (R372). -/
def execEoi (i : Issue) : State → Out :=
  issue i { who := .keeper } fun s p _ x => .ok { s := s.modEng p fun e => { e with pstack := e.pstack.tail }, x := x }

/-- CLAIM ( n -- c ) (R369). -/
def execClaim (i : Issue) : State → Out :=
  issue i { dIn := 1, dOut := 1, who := .keeper, micro := some .claim } fun s _ _ x =>
    let q := s.claimSrc ((x.top 0).toNat % 1024)
    .ok { s := q.2, x := x.replace 1 [BitVec.ofNat 36 q.1] }

/-- PENDQ ( g -- w ) (R370). -/
def execPendq (i : Issue) : State → Out :=
  issue i { dIn := 1, dOut := 1, who := .keeper, micro := some .pendq } fun s p _ x =>
    .ok { s := s, x := x.replace 1 [s.pendWord p ((x.top 0).toNat % 64)] }

/-- SETPEND ( n -- ): one arrival at source n (R363). -/
def execSetpend (i : Issue) : State → Out :=
  issue i { dIn := 1, who := .keeper, micro := some .setpend } fun s _ _ x => .ok { s := s.arrive ((x.top 0).toNat % 1024), x := x.drop 1 }

/-! ## Mailboxes -/

/-- A send to logical engine `e`: whether it was taken (Table INS.9, R375). -/
def State.mboxSend (s : State) (e : Nat) (w : Word) : Bool × State :=
  if !s.inService e then (false, s) else
  let p := s.physOf e
  let x := s.eng p
  if 8 ≤ x.mbox.length then (false, s.putEng p { x with mbRefused := satInc x.mbRefused })
  else (true, (s.putEng p { x with mbox := x.mbox ++ [w] }).arrive (256 + p))

/-- MBOX send ( x e -- f ). -/
def execMboxSend (i : Issue) : State → Out :=
  issue i { len := 2, dIn := 2, dOut := 1, who := .keeper, micro := some .mbox } fun s _ _ x =>
    let q := s.mboxSend ((x.top 0).toNat % 256) (x.top 1)
    .ok { s := q.2, x := x.replace 2 [BitVec.ofNat 36 (bit q.1)] }

/-- MBOX receive ( -- x f ). -/
def execMboxReceive (i : Issue) : State → Out :=
  issue i { len := 2, dOut := 2, who := .keeper, micro := some .mbox } fun s p _ x =>
    match (s.eng p).mbox with
    | [] => .ok { s := s, x := x.pushAll [0, 0] }
    | w :: t => .ok { s := s.modEng p fun e => { e with mbox := t }, x := x.pushAll [w, 1] }

/-- MBOX query ( -- n ). -/
def execMboxQuery (i : Issue) : State → Out :=
  issue i { len := 2, dOut := 1, who := .keeper, micro := some .mbox } fun s p _ x =>
    .ok { s := s, x := x.push (BitVec.ofNat 36 (s.eng p).mbox.length) }

end Sys2Proof.Machine
end

