-- ==== Sys2Proof/Machine/Dispatch.lean ====
section
/-!
DEFINITION. What each command does to everything but the queue: one arm per constructor, each a direct call of its meaning.
-/

namespace Sys2Proof.Machine

/-- The effect of a command. -/
def exec (i : Instr) (s : State) : Host.Outcome State Fault Refusal :=
  match i with
  | .nop who => Sys2Proof.Machine.execNop who s
  | .dup who => Sys2Proof.Machine.execDup who s
  | .drop who => Sys2Proof.Machine.execDrop who s
  | .swap who => Sys2Proof.Machine.execSwap who s
  | .over who => Sys2Proof.Machine.execOver who s
  | .rot who => Sys2Proof.Machine.execRot who s
  | .nip who => Sys2Proof.Machine.execNip who s
  | .tuck who => Sys2Proof.Machine.execTuck who s
  | .dup2 who => Sys2Proof.Machine.execDup2 who s
  | .drop2 who => Sys2Proof.Machine.execDrop2 who s
  | .swap2 who => Sys2Proof.Machine.execSwap2 who s
  | .depth who => Sys2Proof.Machine.execDepth who s
  | .pick who n => Sys2Proof.Machine.execPick who n s
  | .lit who n => Sys2Proof.Machine.execLit who n s
  | .litl who imm => Sys2Proof.Machine.execLitl who imm s
  | .litx who imm => Sys2Proof.Machine.execLitx who imm s
  | .rdlc who n => Sys2Proof.Machine.execRdlc who n s
  | .toa who => Sys2Proof.Machine.execToa who s
  | .froma who => Sys2Proof.Machine.execFroma who s
  | .adup who => Sys2Proof.Machine.execAdup who s
  | .adrop who => Sys2Proof.Machine.execAdrop who s
  | .aswap who => Sys2Proof.Machine.execAswap who s
  | .aadd who => Sys2Proof.Machine.execAadd who s
  | .ainc who n => Sys2Proof.Machine.execAinc who n s
  | .bank who b fromT => Sys2Proof.Machine.execBank who b fromT s
  | .ld who => Sys2Proof.Machine.execLd who s
  | .st who => Sys2Proof.Machine.execSt who s
  | .ldp who => Sys2Proof.Machine.execLdp who s
  | .stp who => Sys2Proof.Machine.execStp who s
  | .ldb who => Sys2Proof.Machine.execLdb who s
  | .stb who => Sys2Proof.Machine.execStb who s
  | .ldh who => Sys2Proof.Machine.execLdh who s
  | .sth who => Sys2Proof.Machine.execSth who s
  | .ldd who => Sys2Proof.Machine.execLdd who s
  | .std who => Sys2Proof.Machine.execStd who s
  | .ldu who => Sys2Proof.Machine.execLdu who s
  | .stu who => Sys2Proof.Machine.execStu who s
  | .lock who n => Sys2Proof.Machine.execLock who n s
  | .lockend who => Sys2Proof.Machine.execLockend who s
  | .add who => Sys2Proof.Machine.execAdd who s
  | .adc who => Sys2Proof.Machine.execAdc who s
  | .sub who => Sys2Proof.Machine.execSub who s
  | .sbb who => Sys2Proof.Machine.execSbb who s
  | .neg who => Sys2Proof.Machine.execNeg who s
  | .and who => Sys2Proof.Machine.execAnd who s
  | .or who => Sys2Proof.Machine.execOr who s
  | .xor who => Sys2Proof.Machine.execXor who s
  | .not who => Sys2Proof.Machine.execNot who s
  | .shl who => Sys2Proof.Machine.execShl who s
  | .shr who => Sys2Proof.Machine.execShr who s
  | .asr who => Sys2Proof.Machine.execAsr who s
  | .rol who => Sys2Proof.Machine.execRol who s
  | .ror who => Sys2Proof.Machine.execRor who s
  | .shli who n => Sys2Proof.Machine.execShli who n s
  | .shri who n => Sys2Proof.Machine.execShri who n s
  | .asri who n => Sys2Proof.Machine.execAsri who n s
  | .roli who n => Sys2Proof.Machine.execRoli who n s
  | .rori who n => Sys2Proof.Machine.execRori who n s
  | .cmp who => Sys2Proof.Machine.execCmp who s
  | .clz who => Sys2Proof.Machine.execClz who s
  | .bfx who lsb wm1 => Sys2Proof.Machine.execBfx who lsb wm1 s
  | .bfi who lsb wm1 => Sys2Proof.Machine.execBfi who lsb wm1 s
  | .bperm who sel => Sys2Proof.Machine.execBperm who sel s
  | .mul who => Sys2Proof.Machine.execMul who s
  | .mulu who => Sys2Proof.Machine.execMulu who s
  | .dstep who => Sys2Proof.Machine.execDstep who s
  | .br who o => Sys2Proof.Machine.execBr who o s
  | .bz who o => Sys2Proof.Machine.execBz who o s
  | .bnz who o => Sys2Proof.Machine.execBnz who o s
  | .brl who off => Sys2Proof.Machine.execBrl who off s
  | .bzl who off => Sys2Proof.Machine.execBzl who off s
  | .bnzl who off => Sys2Proof.Machine.execBnzl who off s
  | .call who woff => Sys2Proof.Machine.execCall who woff s
  | .callw who k woff => Sys2Proof.Machine.execCallw who k woff s
  | .callt who => Sys2Proof.Machine.execCallt who s
  | .callwt who k => Sys2Proof.Machine.execCallwt who k s
  | .ret who => Sys2Proof.Machine.execRet who s
  | .retw who => Sys2Proof.Machine.execRetw who s
  | .reti who => Sys2Proof.Machine.execReti who s
  | .jmpt who => Sys2Proof.Machine.execJmpt who s
  | .breakl who => Sys2Proof.Machine.execBreakl who s
  | .loop who e => Sys2Proof.Machine.execLoop who e s
  | .setrc who => Sys2Proof.Machine.execSetrc who s
  | .rep who => Sys2Proof.Machine.execRep who s
  | .sleep who => Sys2Proof.Machine.execSleep who s
  | .yield who => Sys2Proof.Machine.execYield who s
  | .mode who => Sys2Proof.Machine.execMode who s
  | .trap who n => Sys2Proof.Machine.execTrap who n s
  | .feat who n => Sys2Proof.Machine.execFeat who n s
  | .tbr who => Sys2Proof.Machine.execTbr who s
  | .ctxq who => Sys2Proof.Machine.execCtxq who s
  | .spillw who => Sys2Proof.Machine.execSpillw who s
  | .fillw who => Sys2Proof.Machine.execFillw who s
  | .eoi who => Sys2Proof.Machine.execEoi who s
  | .claim who => Sys2Proof.Machine.execClaim who s
  | .pendq who => Sys2Proof.Machine.execPendq who s
  | .setpend who => Sys2Proof.Machine.execSetpend who s
  | .mboxSend who => Sys2Proof.Machine.execMboxSend who s
  | .mboxReceive who => Sys2Proof.Machine.execMboxReceive who s
  | .mboxQuery who => Sys2Proof.Machine.execMboxQuery who s
  | .ldesc who idx space keeper => Sys2Proof.Machine.execLdesc who idx space keeper s
  | .xfer who dir pack async => Sys2Proof.Machine.execXfer who dir pack async s
  | .creq who mode slot => Sys2Proof.Machine.execCreq who mode slot s
  | .zreq who dir opts => Sys2Proof.Machine.execZreq who dir opts s
  | .waitu who test => Sys2Proof.Machine.execWaitu who test s
  | .commit who => Sys2Proof.Machine.execCommit who s
  | .abort who detail trapf => Sys2Proof.Machine.execAbort who detail trapf s
  | .extensionInstruction who leader op => Sys2Proof.Machine.execExtensionInstruction who leader op s
  | .lclr who a => Sys2Proof.Machine.execLclr who a s
  | .lclrBal who => Sys2Proof.Machine.execLclrBal who s
  | .ladd who a dbl => Sys2Proof.Machine.execLadd who a dbl s
  | .lsub who a dbl => Sys2Proof.Machine.execLsub who a dbl s
  | .lpostD who a => Sys2Proof.Machine.execLpostD who a s
  | .lpostC who a => Sys2Proof.Machine.execLpostC who a s
  | .ktake who a => Sys2Proof.Machine.execKtake who a s
  | .kclr who a => Sys2Proof.Machine.execKclr who a s
  | .lcmp who a => Sys2Proof.Machine.execLcmp who a s
  | .lflags who => Sys2Proof.Machine.execLflags who s
  | .lload who a => Sys2Proof.Machine.execLload who a s
  | .lstore who a => Sys2Proof.Machine.execLstore who a s
  | .lstoreBal who => Sys2Proof.Machine.execLstoreBal who s
  | .lscale who a scale => Sys2Proof.Machine.execLscale who a scale s
  | .lrnd who a mode cash => Sys2Proof.Machine.execLrnd who a mode cash s
  | .losc who scale => Sys2Proof.Machine.execLosc who scale s
  | .lmul who a => Sys2Proof.Machine.execLmul who a s
  | .ldstep who a => Sys2Proof.Machine.execLdstep who a s
  | .lshare who a last => Sys2Proof.Machine.execLshare who a last s
  | .lconv who a out fmt => Sys2Proof.Machine.execLconv who a out fmt s
  | .fadd who => Sys2Proof.Machine.execFadd who s
  | .fsub who => Sys2Proof.Machine.execFsub who s
  | .fmul who => Sys2Proof.Machine.execFmul who s
  | .fma who => Sys2Proof.Machine.execFma who s
  | .fstep who => Sys2Proof.Machine.execFstep who s
  | .fneg who => Sys2Proof.Machine.execFneg who s
  | .fabs who => Sys2Proof.Machine.execFabs who s
  | .fcmp who => Sys2Proof.Machine.execFcmp who s
  | .frecip who => Sys2Proof.Machine.execFrecip who s
  | .frsqrt who => Sys2Proof.Machine.execFrsqrt who s
  | .fcvt who kind round => Sys2Proof.Machine.execFcvt who kind round s
  | .fflags who => Sys2Proof.Machine.execFflags who s
  | .fbar who => Sys2Proof.Machine.execFbar who s
  | .loadDataReturn a ecc => Sys2Proof.Machine.execLoadDataReturn a ecc s
  | .storeBufferDrain drain => Sys2Proof.Machine.execStoreBufferDrain drain s
  | .fpResult a check => Sys2Proof.Machine.execFpResult a check s
  | .interruptEntry entry => Sys2Proof.Machine.execInterruptEntry entry s
  | .deliveredTrapEntry entry => Sys2Proof.Machine.execDeliveredTrapEntry entry s
  | .jobTimer a => Sys2Proof.Machine.execJobTimer a s
  | .keeperWatchdog isl => Sys2Proof.Machine.execKeeperWatchdog isl s
  | .sleepExpiry a => Sys2Proof.Machine.execSleepExpiry a s
  | .dispatch stand => Sys2Proof.Machine.execDispatch stand s
  | .go a => Sys2Proof.Machine.execGo a s
  | .wdtKick isl => Sys2Proof.Machine.execWdtKick isl s
  | .coppiceSubstitution isl => Sys2Proof.Machine.execCoppiceSubstitution isl s
  | .coppiceHandover stand badCtx badStore => Sys2Proof.Machine.execCoppiceHandover stand badCtx badStore s
  | .cruiseSample isl delayFs => Sys2Proof.Machine.execCruiseSample isl delayFs s
  | .powerBudgetCheck estimate => Sys2Proof.Machine.execPowerBudgetCheck estimate s
  | .epochBoundary => Sys2Proof.Machine.execEpochBoundary s
  | .affinityRebuildDone => Sys2Proof.Machine.execAffinityRebuildDone s
  | .doorbellPoll chan => Sys2Proof.Machine.execDoorbellPoll chan s
  | .descriptorFetch chan => Sys2Proof.Machine.execDescriptorFetch chan s
  | .responseBeat port tag code data => Sys2Proof.Machine.execResponseBeat port tag code data s
  | .notify port line => Sys2Proof.Machine.execNotify port line s
  | .requestCreditReturn port => Sys2Proof.Machine.execRequestCreditReturn port s
  | .hostRequestTimeout port tag => Sys2Proof.Machine.execHostRequestTimeout port tag s
  | .retryReissue port tag => Sys2Proof.Machine.execRetryReissue port tag s
  | .tagQuarantineEnd port tag => Sys2Proof.Machine.execTagQuarantineEnd port tag s
  | .clockMissing clk => Sys2Proof.Machine.execClockMissing clk s
  | .ringControlPoll r => Sys2Proof.Machine.execRingControlPoll r s
  | .ringRewrite r => Sys2Proof.Machine.execRingRewrite r s
  | .admissionAnswer a => Sys2Proof.Machine.execAdmissionAnswer a s
  | .laneGrant u lane => Sys2Proof.Machine.execLaneGrant u lane s
  | .cipherRequestDone lane ecc => Sys2Proof.Machine.execCipherRequestDone lane ecc s
  | .compressionRequestDone lane ecc => Sys2Proof.Machine.execCompressionRequestDone lane ecc s
  | .deriveComplete slot => Sys2Proof.Machine.execDeriveComplete slot s
  | .shadeRekey lane => Sys2Proof.Machine.execShadeRekey lane s
  | .logDeckScrub found => Sys2Proof.Machine.execLogDeckScrub found s
  | .localStoreScrub isl addr ecc => Sys2Proof.Machine.execLocalStoreScrub isl addr ecc s
  | .microcodeScrub stand addr ecc => Sys2Proof.Machine.execMicrocodeScrub stand addr ecc s
  | .stateScrub store ecc => Sys2Proof.Machine.execStateScrub store ecc s
  | .granuleZeroingDone g => Sys2Proof.Machine.execGranuleZeroingDone g s
  | .eventTimer t => Sys2Proof.Machine.execEventTimer t s
  | .drainTimeout inst => Sys2Proof.Machine.execDrainTimeout inst s
  | .extensionRequest stand ctx => Sys2Proof.Machine.execExtensionRequest stand ctx s
  | .extensionResponseBeat stand ctx gen data dbl last stat => Sys2Proof.Machine.execExtensionResponseBeat stand ctx gen data dbl last stat s
  | .hello lane frame => Sys2Proof.Machine.execHello lane frame s
  | .attest lane frame => Sys2Proof.Machine.execAttest lane frame s
  | .commitRec lane frame => Sys2Proof.Machine.execCommitRec lane frame s
  | .payload lane frame => Sys2Proof.Machine.execPayload lane frame s
  | .ack lane frame => Sys2Proof.Machine.execAck lane frame s
  | .retire lane frame => Sys2Proof.Machine.execRetire lane frame s
  | .heartbeat lane frame => Sys2Proof.Machine.execHeartbeat lane frame s
  | .stateSync lane frame => Sys2Proof.Machine.execStateSync lane frame s
  | .nack lane frame => Sys2Proof.Machine.execNack lane frame s
  | .unknownFrame lane frame => Sys2Proof.Machine.execUnknownFrame lane frame s
  | .helloPeriod lane => Sys2Proof.Machine.execHelloPeriod lane s
  | .heartbeatPeriod lane => Sys2Proof.Machine.execHeartbeatPeriod lane s
  | .laneDownTimeout lane => Sys2Proof.Machine.execLaneDownTimeout lane s
  | .partnerLossTimeout => Sys2Proof.Machine.execPartnerLossTimeout s
  | .bringupStallTimeout => Sys2Proof.Machine.execBringupStallTimeout s
  | .selfFence => Sys2Proof.Machine.execSelfFence s
  | .pairArb level => Sys2Proof.Machine.execPairArb level s
  | .porstAssert => Sys2Proof.Machine.execPorstAssert s
  | .porstRelease => Sys2Proof.Machine.execPorstRelease s
  | .sysrstAssert => Sys2Proof.Machine.execSysrstAssert s
  | .sysrstRelease lc present => Sys2Proof.Machine.execSysrstRelease lc present s
  | .lcStateChange lc stable => Sys2Proof.Machine.execLcStateChange lc stable s
  | .keyBeat data => Sys2Proof.Machine.execKeyBeat data s
  | .keyTimeout => Sys2Proof.Machine.execKeyTimeout s
  | .entropyWord data health => Sys2Proof.Machine.execEntropyWord data health s
  | .entropyTimeout => Sys2Proof.Machine.execEntropyTimeout s
  | .selfTestDone sig patterns failing => Sys2Proof.Machine.execSelfTestDone sig patterns failing s
  | .patchWaitTimeout => Sys2Proof.Machine.execPatchWaitTimeout s
  | .patchCheckDone => Sys2Proof.Machine.execPatchCheckDone s
  | .keeperBootDone failing => Sys2Proof.Machine.execKeeperBootDone failing s
  | .hostBringupTimeout => Sys2Proof.Machine.execHostBringupTimeout s
  | .mirrorLinkupTimeout => Sys2Proof.Machine.execMirrorLinkupTimeout s
  | .pwrReqRetain => Sys2Proof.Machine.execPwrReqRetain s
  | .pwrReqRun => Sys2Proof.Machine.execPwrReqRun s
  | .pwrReqOff => Sys2Proof.Machine.execPwrReqOff s
  | .pwrReqInvalid => Sys2Proof.Machine.execPwrReqInvalid s
  | .retainEntryDone => Sys2Proof.Machine.execRetainEntryDone s
  | .retainExitDone => Sys2Proof.Machine.execRetainExitDone s
  | .shutdownTimeout => Sys2Proof.Machine.execShutdownTimeout s
  | .registerWrite addr x => Sys2Proof.Machine.execRegisterWrite addr x s
  | .reservedAccess addr write priv => Sys2Proof.Machine.execReservedAccess addr write priv s
  | .readClear addr priv => Sys2Proof.Machine.execReadClear addr priv s
  | .loReadLatch addr priv => Sys2Proof.Machine.execLoReadLatch addr priv s
  | .chmChref x => Sys2Proof.Machine.execChmChref x s
  | .instPgmFlush inst x => Sys2Proof.Machine.execInstPgmFlush inst x s
  | .epochHoldClear x => Sys2Proof.Machine.execEpochHoldClear x s
  | .ptLoad x => Sys2Proof.Machine.execPtLoad x s
  | .derive x => Sys2Proof.Machine.execDerive x s
  | .clear x => Sys2Proof.Machine.execClear x s
  | .evcSwset x => Sys2Proof.Machine.execEvcSwset x s
  | .evcTmrCtl x => Sys2Proof.Machine.execEvcTmrCtl x s
  | .instMsgMask inst x => Sys2Proof.Machine.execInstMsgMask inst x s
  | .instMsgPclr inst x => Sys2Proof.Machine.execInstMsgPclr inst x s
  | .drain inst x => Sys2Proof.Machine.execDrain inst x s
  | .squash inst x => Sys2Proof.Machine.execSquash inst x s
  | .release inst x => Sys2Proof.Machine.execRelease inst x s
  | .hostPortEnable port x => Sys2Proof.Machine.execHostPortEnable port x s
  | .ringEnable r x => Sys2Proof.Machine.execRingEnable r x s
  | .mirCtlEn x => Sys2Proof.Machine.execMirCtlEn x s
  | .accept x => Sys2Proof.Machine.execAccept x s
  | .take x => Sys2Proof.Machine.execTake x s
  | .lreset x => Sys2Proof.Machine.execLreset x s
  | .mirInstHome x => Sys2Proof.Machine.execMirInstHome x s
  | .chkSubst x => Sys2Proof.Machine.execChkSubst x s
  | .bistRun x => Sys2Proof.Machine.execBistRun x s
  | .supplyImage x => Sys2Proof.Machine.execSupplyImage x s
  | .supplyNone x => Sys2Proof.Machine.execSupplyNone x s
  | .mcsPstageData write x => Sys2Proof.Machine.execMcsPstageData write x s
  | .mcsPfloor x => Sys2Proof.Machine.execMcsPfloor x s
  | .patchUnitWrite reg x => Sys2Proof.Machine.execPatchUnitWrite reg x s
  | .read d => Sys2Proof.Machine.execRead d s
  | .write d data dataParityOk => Sys2Proof.Machine.execWrite d data dataParityOk s
  | .peek d => Sys2Proof.Machine.execPeek d s
  | .consume d => Sys2Proof.Machine.execConsume d s
  | .halt d => Sys2Proof.Machine.execHalt d s
  | .resume d => Sys2Proof.Machine.execResume d s
  | .step d => Sys2Proof.Machine.execStep d s
  | .trigCfg d data => Sys2Proof.Machine.execTrigCfg d data s
  | .attach d data => Sys2Proof.Machine.execAttach d data s
  | .detach d => Sys2Proof.Machine.execDetach d s
  | .parserReset => Sys2Proof.Machine.execParserReset s
  | .haltDeferralExpiry isl => Sys2Proof.Machine.execHaltDeferralExpiry isl s
  | .suyciaRequest entry => Sys2Proof.Machine.execSuyciaRequest entry s
  | .clearingCompareDone pass => Sys2Proof.Machine.execClearingCompareDone pass s
  | .attestComputationDone digest => Sys2Proof.Machine.execAttestComputationDone digest s
  | .xferComplete a slot ecc => Sys2Proof.Machine.execXferComplete a slot ecc s
  | .vaonPowerOn => Sys2Proof.Machine.execVaonPowerOn s
  | .keyValidIgnored => Sys2Proof.Machine.execKeyValidIgnored s
  | .stagingBufferTestDone => Sys2Proof.Machine.execStagingBufferTestDone s
  | .badOp path op parityOk => Sys2Proof.Machine.execBadOp path op parityOk s
  | .evcSrcCfg x => Sys2Proof.Machine.execEvcSrcCfg x s

end Sys2Proof.Machine
end

