-- ==== Sys2Proof/WellFormed.lean ====
section
/-!
DEFINITION. Which commands can exist: operand values that the encodings and the ports can carry.
-/

namespace Sys2Proof

/-- The presence inputs are given for the sixteen stands (R33). -/
def allStands (present : List (BitVec 16)) : Bool := present.length == 16

/-- A register address is a multiple of 4 (R483). -/
def aligned4 (a : BitVec 20) : Bool := a.toNat % 4 == 0

/-- The command names something its encoding or its port can carry. -/
def Instr.WF : Instr → Bool
  | .ainc _ n => 1 ≤ n.toNat && n.toNat ≤ 8
  | .lock _ n => 2 ≤ n.toNat && n.toNat ≤ 8
  | .callw _ k _ => k.toNat ≤ 4
  | .callwt _ k => k.toNat ≤ 4
  | .bperm .. => true
  | .jobTimer a => a.ctx.val != 0
  | .go a => a.ctx.val != 0
  | .admissionAnswer a => a.ctx.val != 0
  | .xferComplete a _ _ => a.ctx.val != 0
  | .laneGrant .cipher lane => lane.val < 8
  | .extensionRequest _ c => c.toNat < 136
  | .extensionResponseBeat _ c _ _ _ _ _ => c.toNat < 136
  | .sysrstRelease _ present => allStands present
  | .registerWrite a _ => aligned4 a
  | .reservedAccess a _ _ => aligned4 a
  | .readClear a _ => aligned4 a
  | .loReadLatch a _ => aligned4 a
  | .patchUnitWrite r _ => r.toNat < 3
  | _ => true

end Sys2Proof
end

