-- ==== Sys2Proof/Safety.lean ====
section
/-!
DEFINITION. The words that statements about the complex are made of: completion, the data stack as a list, and the
boundary at which one instruction runs undisturbed.
-/

namespace Sys2Proof.Machine

/-! ## Completion -/

/-- The command completes: `exec` answers a next state, and `post` holds of it. -/
def Completes (c : Instr) (s : State) (post : State → Prop) : Prop := ∃ t, exec c s = .next t ∧ post t

/-- The issue that an engine instruction carries: none for the other commands. -/
def issueOf (c : Instr) : Option Issue :=
  match c with
  | .nop i => some i
  | .dup i => some i
  | .drop i => some i
  | .swap i => some i
  | .over i => some i
  | .rot i => some i
  | .nip i => some i
  | .tuck i => some i
  | .dup2 i => some i
  | .drop2 i => some i
  | .swap2 i => some i
  | .depth i => some i
  | .pick i .. => some i
  | .lit i .. => some i
  | .litl i .. => some i
  | .litx i .. => some i
  | .rdlc i .. => some i
  | .toa i => some i
  | .froma i => some i
  | .adup i => some i
  | .adrop i => some i
  | .aswap i => some i
  | .aadd i => some i
  | .ainc i .. => some i
  | .bank i .. => some i
  | .ld i => some i
  | .st i => some i
  | .ldp i => some i
  | .stp i => some i
  | .ldb i => some i
  | .stb i => some i
  | .ldh i => some i
  | .sth i => some i
  | .ldd i => some i
  | .std i => some i
  | .ldu i => some i
  | .stu i => some i
  | .lock i .. => some i
  | .lockend i => some i
  | .add i => some i
  | .adc i => some i
  | .sub i => some i
  | .sbb i => some i
  | .neg i => some i
  | .and i => some i
  | .or i => some i
  | .xor i => some i
  | .not i => some i
  | .shl i => some i
  | .shr i => some i
  | .asr i => some i
  | .rol i => some i
  | .ror i => some i
  | .shli i .. => some i
  | .shri i .. => some i
  | .asri i .. => some i
  | .roli i .. => some i
  | .rori i .. => some i
  | .cmp i => some i
  | .clz i => some i
  | .bfx i .. => some i
  | .bfi i .. => some i
  | .bperm i .. => some i
  | .mul i => some i
  | .mulu i => some i
  | .dstep i => some i
  | .br i .. => some i
  | .bz i .. => some i
  | .bnz i .. => some i
  | .brl i .. => some i
  | .bzl i .. => some i
  | .bnzl i .. => some i
  | .call i .. => some i
  | .callw i .. => some i
  | .callt i => some i
  | .callwt i .. => some i
  | .ret i => some i
  | .retw i => some i
  | .reti i => some i
  | .jmpt i => some i
  | .breakl i => some i
  | .loop i .. => some i
  | .setrc i => some i
  | .rep i => some i
  | .sleep i => some i
  | .yield i => some i
  | .mode i => some i
  | .trap i .. => some i
  | .feat i .. => some i
  | .tbr i => some i
  | .ctxq i => some i
  | .spillw i => some i
  | .fillw i => some i
  | .eoi i => some i
  | .claim i => some i
  | .pendq i => some i
  | .setpend i => some i
  | .mboxSend i => some i
  | .mboxReceive i => some i
  | .mboxQuery i => some i
  | .ldesc i .. => some i
  | .xfer i .. => some i
  | .creq i .. => some i
  | .zreq i .. => some i
  | .waitu i .. => some i
  | .commit i => some i
  | .abort i .. => some i
  | .extensionInstruction i .. => some i
  | .lclr i .. => some i
  | .lclrBal i => some i
  | .ladd i .. => some i
  | .lsub i .. => some i
  | .lpostD i .. => some i
  | .lpostC i .. => some i
  | .ktake i .. => some i
  | .kclr i .. => some i
  | .lcmp i .. => some i
  | .lflags i => some i
  | .lload i .. => some i
  | .lstore i .. => some i
  | .lstoreBal i => some i
  | .lscale i .. => some i
  | .lrnd i .. => some i
  | .losc i .. => some i
  | .lmul i .. => some i
  | .ldstep i .. => some i
  | .lshare i .. => some i
  | .lconv i .. => some i
  | .fadd i => some i
  | .fsub i => some i
  | .fmul i => some i
  | .fma i => some i
  | .fstep i => some i
  | .fneg i => some i
  | .fabs i => some i
  | .fcmp i => some i
  | .frecip i => some i
  | .frsqrt i => some i
  | .fcvt i .. => some i
  | .fflags i => some i
  | .fbar i => some i
  | _ => none

/-! ## Contexts as lists -/

/-- The cells of a window, top first. -/
def Window.list (w : Window) : List Word := (List.range w.depth).map fun k => w.cell (w.depth - 1 - k)

/-- The data stack of a context, top first: its current window. -/
def Ctx.stack (x : Ctx) : List Word := x.win.list

/-- `y` is `z` but for its data stack, which is `d`. Every window but the current one is as in `z`. -/
def Ctx.Holds (y z : Ctx) (d : List Word) : Prop :=
  y.stack = d ∧ y = { z with windows := y.windows, trapWin := y.trapWin } ∧ y.windows.tail = z.windows.tail ∧
    if z.tw then y.windows = z.windows else y.trapWin = z.trapWin

/-- The context that an issue names. -/
def State.at' (s : State) (i : Issue) : Ctx := s.ctx i.isl.val i.ctx.val

/-- The engine that an issue names. -/
def State.engOf (s : State) (i : Issue) : Engine := s.eng i.isl.val

/-- The stacks of a context fit: at most 16 cells in each window and in the trap window (R160, R177), at most 8 addresses (R157). -/
def Ctx.Fits (x : Ctx) : Prop := (∀ w ∈ x.windows, w.depth ≤ 16) ∧ x.trapWin.depth ≤ 16 ∧ x.astack.length ≤ 8

/-- The state whose ports drive nothing. -/
def State.quietOut (s : State) : State := { s with out := [] }

/-- The context that `i` names becomes `x`, and its engine remembers its turn. -/
def State.turn (s : State) (i : Issue) (x : Ctx) : State :=
  s.putEng i.isl.val { (s.engOf i).putCtx i.ctx.val x with lastIssued := i.ctx.val }

/-- `s` after one undisturbed instruction of the context that `i` names: the context is `x`, its engine remembers its turn,
the ports drive nothing, and nothing else differs. -/
def State.retire (s : State) (i : Issue) (x : Ctx) : State := s.quietOut.turn i x

/-- The instructions that run from the control store (Table MCS.1). -/
def microCoded : Instr → Bool
  | .lmul .. => true
  | .lshare .. => true
  | .lconv .. => true
  | .ldstep .. => true
  | .lscale .. => true
  | .ktake .. => true
  | .lcmp .. => true
  | .lload .. => true
  | .lstore .. => true
  | .lstoreBal .. => true
  | .lflags .. => true
  | .spillw .. => true
  | .fillw .. => true
  | .claim .. => true
  | .pendq .. => true
  | .setpend .. => true
  | .mboxSend .. => true
  | .mboxReceive .. => true
  | .mboxQuery .. => true
  | .xfer .. => true
  | .creq .. => true
  | .zreq .. => true
  | .commit .. => true
  | _ => false

/-- No remap entry is active: a fetch of the control store reads the ROM's own word (R328), and a micro-routine ends with what the
manual says of its instruction or entry (log entry 53). No entry word of the store that engine `p` reads is marked uncorrectable
(R327). -/
def State.ownStore (s : State) (p : Nat) : Prop :=
  s.mcs.remap = [] ∧ ∀ a ∈ s.mcs.bad, a.1 = standOf p → ∀ r : Routine, a.2 ≠ r.entry.toNat

/-- An instruction of `len` syllables runs here: the context has the engine's turn (R152) between two boundaries, no check fails, its
words may be fetched, no boundary trap, halt, step, substitution, MODE change, squash or floating-point result is in the way, and no
micro-routine has yet to end. -/
structure State.Turn (s : State) (i : Issue) (len : Nat) : Prop where
  pass : i.check = .pass
  clean : i.bad = none
  may : s.mayIssue i.isl.val i.ctx.val = true
  slot : (s.engOf i).slot = none
  busy : (s.engOf i).micro.busy = none
  step : (s.engOf i).stepping = none
  halt : (s.engOf i).haltPend = false
  halts : ∀ c < 8, ((s.engOf i).ctx c).haltPend = false
  subst : (s.engOf i).substPend = none
  bound : (s.at' i).boundary i.ctx.val s.now = .clear
  fetch : s.fetchBar i.isl.val i.ctx.val (SAddr.word (s.at' i).pc) = none
  ecc : s.eccBar i.isl.val (SAddr.word (s.at' i).pc) = none
  even : len = 2 → (s.at' i).pc.getLsbD 0 = false
  modes : (s.at' i).modePend = []
  ending : (s.at' i).ending = none
  squash : (s.jobAt i.isl.val i.ctx.val).any (fun j => j.squashDue) = false
  fp : (s.at' i).fpu.inflight = []

/-- An undisturbed instruction of `len` syllables: it runs here, no load delay is visible, no REP repeats it, and no loop level ends in
it. -/
structure State.Boundary (s : State) (i : Issue) (len : Nat) : Prop extends s.Turn i len where
  shadow : (s.at' i).shadow = []
  rep : (s.at' i).rep = none
  loops : ∀ l ∈ (s.at' i).loops, l.passedBy (s.at' i).pc len = false

/-- As `State.Boundary`, outside a locked sequence: none is open, and the context holds no line reservation. -/
structure State.Quiet (s : State) (i : Issue) (len : Nat) : Prop extends s.Boundary i len where
  lock : (s.at' i).lock = none
  resv : ∀ r ∈ s.ldk.resv, r.2 ≠ (i.isl.val, i.ctx.val)

/-- The context before its work stands at a plain boundary. -/
structure Ctx.Plain (x : Ctx) : Prop where
  modes : x.modePend = []
  lock : x.lock = none
  rep : x.rep = none

/-- The syllable after an instruction of `len` syllables. -/
def State.nextPc (s : State) (i : Issue) (len : Nat) : SAddr := SAddr.plus (s.at' i).pc len

/-- The instruction runs and leaves data stack `d` and, beside the program counter, what `g` does to its context: nothing
else changes. -/
def State.Leaves (s : State) (c : Instr) (i : Issue) (len : Nat) (d : List Word) (g : Ctx → Ctx) : Prop :=
  ∃ y : Ctx, y.Holds { g (s.at' i) with pc := s.nextPc i len } d ∧ exec c s = .next (s.retire i y)

/-- The instruction runs and goes on at `target`: it leaves data stack `d` and what `g` does to its context, with the loop
levels it leaves closed when `closes`. Nothing else changes. -/
def State.Jumps (s : State) (c : Instr) (i : Issue) (d : List Word) (g : Ctx → Ctx) (target : SAddr) (closes : Bool) : Prop :=
  ∃ y : Ctx,
    y.Holds { g (s.at' i) with pc := target
                               loops := if closes then closeLeft (s.at' i).pc target (g (s.at' i)).loops else (g (s.at' i)).loops } d ∧
      exec c s = .next (s.retire i y)

/-! ## What an instruction computes: stacks first, the top of a stack at the head of its list -/

/-- What an instruction leaves, from the context before it: its data stack, and its change of the rest of the context.
`none` where the stacks hold too few cells or the operands are not those of the row. -/
abbrev Effect := Ctx → Option (List Word × (Ctx → Ctx))

/-- An instruction as a row of its table: who issues it, how many syllables it has, and its effect. -/
abbrev Row := Issue × Nat × Effect

/-- An effect on the data stack alone. -/
def onD (f : List Word → Option (List Word)) : Effect := fun x => (f x.stack).map fun d => (d, id)

/-- An effect on both stacks. -/
def onDA (f : Ctx → List Word → List WAddr → Option (List Word × List WAddr)) : Effect := fun x =>
  (f x x.stack x.astack).map fun q => (q.1, fun y => { y with astack := q.2 })

/-- An effect on the data stack and the flags. -/
def onDF (f : Ctx → List Word → Option (List Word × Cvzn)) : Effect := fun x =>
  (f x x.stack).map fun q => (q.1, fun y => y.setFlags q.2)

/-- Tables INS.1 and INS.6 (RDLC): stack and literal instructions (R195, R209, R218). -/
def stackRow : Instr → Option Row
  | .nop i => some (i, 1, onD some)
  | .dup i => some (i, 1, onD fun | a :: r => some (a :: a :: r) | _ => none)
  | .drop i => some (i, 1, onD fun | _ :: r => some r | _ => none)
  | .swap i => some (i, 1, onD fun | b :: a :: r => some (a :: b :: r) | _ => none)
  | .over i => some (i, 1, onD fun | b :: a :: r => some (a :: b :: a :: r) | _ => none)
  | .rot i => some (i, 1, onD fun | c :: b :: a :: r => some (a :: c :: b :: r) | _ => none)
  | .nip i => some (i, 1, onD fun | b :: _ :: r => some (b :: r) | _ => none)
  | .tuck i => some (i, 1, onD fun | b :: a :: r => some (b :: a :: b :: r) | _ => none)
  | .dup2 i => some (i, 1, onD fun | b :: a :: r => some (b :: a :: b :: a :: r) | _ => none)
  | .drop2 i => some (i, 1, onD fun | _ :: _ :: r => some r | _ => none)
  | .swap2 i => some (i, 1, onD fun | d :: c :: b :: a :: r => some (b :: a :: d :: c :: r) | _ => none)
  | .depth i => some (i, 1, onD fun r => some (BitVec.ofNat 36 r.length :: r))
  | .pick i n => some (i, 1, onD fun r => r[n.toNat]?.map fun v => v :: r)
  | .lit i n => some (i, 1, onD fun r => some (n.setWidth 36 :: r))
  | .litl i imm => some (i, 2, onD fun r => some (BitVec.ofInt 36 imm.toInt :: r))
  | .litx i imm => some (i, 2, onD fun | a :: r => some ((a <<< 13 ||| imm.setWidth 36) :: r) | _ => none)
  | .rdlc i n => some (i, 1, fun x => some ((match x.loops[n.toNat]? with
      | some l => l.count.setWidth 36
      | none => 0) :: x.stack, id))
  | _ => none

/-- Table INS.2 and BANK: address stack instructions (R157). A short address moves within its bank. -/
def addressRow : Instr → Option Row
  | .toa i => some (i, 1, onDA fun x d a => match d with
      | v :: r => some (r, (x.cb ++ v.setWidth 16) :: a)
      | _ => none)
  | .froma i => some (i, 1, onDA fun _ d a => match a with
      | v :: r => some (v.setWidth 36 :: d, r)
      | _ => none)
  | .adup i => some (i, 1, onDA fun _ d a => match a with
      | v :: r => some (d, v :: v :: r)
      | _ => none)
  | .adrop i => some (i, 1, onDA fun _ d a => match a with
      | _ :: r => some (d, r)
      | _ => none)
  | .aswap i => some (i, 1, onDA fun _ d a => match a with
      | v :: u :: r => some (d, u :: v :: r)
      | _ => none)
  | .aadd i => some (i, 1, onDA fun _ d a => match d, a with
      | v :: r, b :: t => some (r, WAddr.plus b (v.toNat % 65536) :: t)
      | _, _ => none)
  | .ainc i n => some (i, 1, onDA fun _ d a => match a with
      | b :: t => some (d, WAddr.plus b n.toNat :: t)
      | _ => none)
  | .bank i b fromT => some (i, 2, fun x => match fromT, x.stack with
      | true, v :: r => if b = 0 then some (r, fun y => { y with cb := v.setWidth 8 }) else none
      | true, [] => none
      | false, d => some (d, fun y => { y with cb := b }))
  | _ => none

/-! ### Integers -/

/-- A result and its flags, from the exact unsigned and the exact signed value: C tells a carry or a borrow, V a signed
value outside the cell (R168, Table INS.4). -/
def exactFlags (unsigned signed : Int) : Word × Cvzn :=
  let r := BitVec.ofInt 36 unsigned
  (r, ⟨decide (unsigned < 0 ∨ 2 ^ 36 ≤ unsigned), decide (signed < -(2 ^ 35) ∨ 2 ^ 35 ≤ signed), decide (r = 0), r.msb⟩)

/-- The flags of a logic result: C and V are cleared, or left alone under MODE.FLK (R217). -/
def logicResult (x : Ctx) (r : Word) : Word × Cvzn :=
  (r, if x.mode.getLsbD 3 then ⟨x.c, x.v, decide (r = 0), r.msb⟩ else ⟨false, false, decide (r = 0), r.msb⟩)

/-- The flags of a shift whose last bit out is `out` (R217). -/
def shifted (r : Word) (out : Bool) : Word × Cvzn := (r, ⟨out, false, decide (r = 0), r.msb⟩)

/-- A shift left by `n`, with the last bit out. -/
def shiftLeft (a : Word) (n : Nat) : Word × Cvzn := shifted (BitVec.ofNat 36 (a.toNat * 2 ^ n)) (a.toNat / 2 ^ (36 - n) % 2 == 1 && n != 0)

/-- A shift right by `n`, with the last bit out. -/
def shiftRight (a : Word) (n : Nat) : Word × Cvzn := shifted (BitVec.ofNat 36 (a.toNat / 2 ^ n)) (a.toNat / 2 ^ (n - 1) % 2 == 1 && n != 0)

/-- An arithmetic shift right by `n`, with the last bit out. -/
def shiftArith (a : Word) (n : Nat) : Word × Cvzn := shifted (BitVec.ofInt 36 (a.toInt / 2 ^ n)) (a.toNat / 2 ^ (n - 1) % 2 == 1 && n != 0)

/-- A rotate left by `n`, with the last bit rotated. -/
def rotLeft (a : Word) (n : Nat) : Word × Cvzn :=
  shifted (a <<< n ||| a >>> (36 - n)) (a.toNat / 2 ^ (36 - n) % 2 == 1 && n != 0)

/-- A rotate right by `n`, with the last bit rotated. -/
def rotRight (a : Word) (n : Nat) : Word × Cvzn :=
  shifted (a >>> n ||| a <<< (36 - n)) (a.toNat / 2 ^ (n - 1) % 2 == 1 && n != 0)

/-- A result and flags from two cells. -/
def two (f : Ctx → Word → Word → Word × Cvzn) : Effect := onDF fun x d => match d with
  | b :: a :: r => some ((f x a b).1 :: r, (f x a b).2)
  | _ => none

/-- A result and flags from one cell, by a count of at most 35. -/
def one (n : Nat) (f : Ctx → Word → Word × Cvzn) : Effect := onDF fun x d => match d with
  | a :: r => if n ≤ 35 then some ((f x a).1 :: r, (f x a).2) else none
  | _ => none

/-- Bits `lsb` to `lsb + w − 1` of a word, as a mask. -/
def fieldMask (lsb w : Nat) : Word := BitVec.ofNat 36 ((2 ^ w - 1) * 2 ^ lsb)

/-- Table INS.4 and Table BIN.2: integer instructions (R168, R217, R279, R280). -/
def integerRow : Instr → Option Row
  | .add i => some (i, 1, two fun _ a b => exactFlags (a.toNat + b.toNat) (a.toInt + b.toInt))
  | .adc i => some (i, 1, two fun x a b => exactFlags (a.toNat + b.toNat + bit x.c) (a.toInt + b.toInt + bit x.c))
  | .sub i => some (i, 1, two fun _ a b => exactFlags (a.toNat - b.toNat) (a.toInt - b.toInt))
  | .sbb i => some (i, 1, two fun x a b => exactFlags (a.toNat - b.toNat - bit x.c) (a.toInt - b.toInt - bit x.c))
  | .neg i => some (i, 1, one 0 fun _ a => exactFlags (-a.toNat) (-a.toInt))
  | .and i => some (i, 1, two fun x a b => logicResult x (a &&& b))
  | .or i => some (i, 1, two fun x a b => logicResult x (a ||| b))
  | .xor i => some (i, 1, two fun x a b => logicResult x (a ^^^ b))
  | .not i => some (i, 1, one 0 fun x a => logicResult x (~~~a))
  | .shl i => some (i, 1, one 1 fun _ a => shiftLeft a 1)
  | .shr i => some (i, 1, one 1 fun _ a => shiftRight a 1)
  | .asr i => some (i, 1, one 1 fun _ a => shiftArith a 1)
  | .rol i => some (i, 1, one 1 fun _ a => rotLeft a 1)
  | .ror i => some (i, 1, one 1 fun _ a => rotRight a 1)
  | .shli i n => some (i, 2, one n.toNat fun _ a => shiftLeft a n.toNat)
  | .shri i n => some (i, 2, one n.toNat fun _ a => shiftRight a n.toNat)
  | .asri i n => some (i, 2, one n.toNat fun _ a => shiftArith a n.toNat)
  | .roli i n => some (i, 2, one n.toNat fun _ a => rotLeft a n.toNat)
  | .rori i n => some (i, 2, one n.toNat fun _ a => rotRight a n.toNat)
  | .cmp i => some (i, 1, two fun _ a b =>
      (BitVec.ofNat 36 ((if a = b then 1 else 0) + (if a.toInt < b.toInt then 2 else 0) + (if a.toNat < b.toNat then 4 else 0) +
        (if b.toInt < a.toInt then 8 else 0) + (if b.toNat < a.toNat then 16 else 0)),
       (exactFlags (a.toNat - b.toNat) (a.toInt - b.toInt)).2))
  | .clz i => some (i, 1, onD fun
      | a :: r => some (BitVec.ofNat 36 (if a = 0 then 36 else 35 - a.toNat.log2) :: r)
      | _ => none)
  | .bfx i lsb wm1 => some (i, 2, onD fun
      | a :: r =>
        if lsb.toNat + wm1.toNat + 1 ≤ 36 then some (BitVec.ofNat 36 (a.toNat / 2 ^ lsb.toNat % 2 ^ (wm1.toNat + 1)) :: r) else none
      | _ => none)
  | .bfi i lsb wm1 => some (i, 2, onD fun
      | f :: a :: r =>
        let m := fieldMask lsb.toNat (wm1.toNat + 1)
        if lsb.toNat + wm1.toNat + 1 ≤ 36 then some (((a &&& ~~~m) ||| (f <<< lsb.toNat &&& m)) :: r) else none
      | _ => none)
  | .bperm i sel => some (i, 2, onD fun
      | a :: r =>
        let pick := fun (k : Nat) => wordByte a (sel.toNat / 4 ^ k % 4)
        some ((pick 0 ++ pick 1 ++ pick 2 ++ pick 3) :: r)
      | _ => none)
  | .mul i => some (i, 1, onDF fun _ d => match d with
      | b :: a :: r =>
        let p := a.toInt * b.toInt
        let v := BitVec.ofInt 72 p
        let big := decide (p < -(2 ^ 35) ∨ 2 ^ 35 ≤ p)
        some (hiWord v :: loWord v :: r, ⟨big, big, decide (p = 0), decide (p < 0)⟩)
      | _ => none)
  | .mulu i => some (i, 1, onDF fun _ d => match d with
      | b :: a :: r =>
        let p := a.toNat * b.toNat
        let v := BitVec.ofNat 72 p
        some (hiWord v :: loWord v :: r, ⟨decide (2 ^ 36 ≤ p), false, decide (p = 0), decide (2 ^ 71 ≤ p)⟩)
      | _ => none)
  | .dstep i => some (i, 1, onD fun
      | d :: q :: r :: t =>
        let v := 2 * r.toNat + q.toNat / 2 ^ 35
        let w := 2 * q.toNat
        some (if d.toNat ≤ v then d :: BitVec.ofNat 36 (w + 1) :: BitVec.ofNat 36 (v - d.toNat) :: t
          else d :: BitVec.ofNat 36 w :: BitVec.ofNat 36 v :: t)
      | _ => none)
  | _ => none

/-! ### Memory -/

/-- Bytes `lo` to `hi − 1` of a word as a number: byte 0 is the most significant (R7). -/
def partOf (w : Word) (lo hi : Nat) : Nat := w.toNat / 2 ^ (36 - 9 * hi) % 2 ^ (9 * (hi - lo))

/-- A load: the addresses it reads, the cells it pops, the cells it pushes (T first) from what those addresses hold, and
whether the address steps on (Table INS.3, R210, R211). -/
structure LoadRow where
  addrs : List WAddr
  pops : Nat
  pushes : (WAddr → Word) → List Word
  bump : Bool := false

/-- Table INS.3: loads. -/
def loadRow (c : Instr) (x : Ctx) : Option (Issue × LoadRow) :=
  match c, x.astack, x.stack with
  | .ld i, a :: _, _ => some (i, { addrs := [a], pops := 0, pushes := fun m => [m a] })
  | .ldp i, a :: _, _ => some (i, { addrs := [a], pops := 0, pushes := fun m => [m a], bump := true })
  | .ldb i, a :: _, o :: _ =>
    let k := o.toNat % 2 ^ 18
    let w := WAddr.plus a (k / 4)
    some (i, { addrs := [w], pops := 1, pushes := fun m => [BitVec.ofNat 36 (partOf (m w) (k % 4) (k % 4 + 1))] })
  | .ldh i, a :: _, o :: _ =>
    let k := o.toNat % 2 ^ 18
    let w := WAddr.plus a (k / 2)
    some (i, { addrs := [w], pops := 1, pushes := fun m => [BitVec.ofNat 36 (partOf (m w) (2 * (k % 2)) (2 * (k % 2) + 2))] })
  | .ldd i, a :: _, _ =>
    some (i, { addrs := [a, WAddr.plus a 1], pops := 0, pushes := fun m => [m a, m (WAddr.plus a 1)] })
  | .ldu i, a :: _, o :: _ =>
    let b := o.toNat % 4
    if b = 0 then some (i, { addrs := [a], pops := 1, pushes := fun m => [m a] })
    else some (i, { addrs := [a, WAddr.plus a 1], pops := 1
                    pushes := fun m => [BitVec.ofNat 36 (partOf (m a) b 4 * 2 ^ (9 * b) + partOf (m (WAddr.plus a 1)) 0 b)] })
  | _, _, _ => none

/-- A local store word that the context may read, or write: it exists and the access checks pass (R155, R156). -/
structure State.Plain (s : State) (i : Issue) (write : Bool) (a : WAddr) : Prop where
  bank : a.extractLsb' 16 8 = 0
  store : (a.extractLsb' 0 16).toNat < 0x4000
  access : s.accessBar i.isl.val i.ctx.val write a = none

/-- A local store word that a load finds in memory: it may be read, it is not uncorrectable, and no store to it waits in the
store buffer. -/
structure State.Readable (s : State) (i : Issue) (a : WAddr) : Prop extends s.Plain i false a where
  good : (a.extractLsb' 0 16).toNat ∉ (s.engOf i).bad
  buffer : ∀ e ∈ (s.engOf i).sbuf, e.addr ≠ a

/-- The local store word at an address of bank 0. -/
def State.localWord (s : State) (i : Issue) (a : WAddr) : Word := (s.engOf i).word (a.extractLsb' 0 16).toNat

/-- The cells that a load overwrites, with what they held: the next instruction reads that in native mode (R171). -/
def Ctx.oldCells (x : Ctx) (pops n : Nat) : List (Nat × Word) :=
  (List.range n).map fun k => (x.depth - pops + k, x.win.cell (x.depth - pops + k))

/-- A load runs: it pops, pushes what it read, and steps its address on where its row says so. In native mode the next
instruction still sees the cells it overwrote (R171). -/
def State.Loads (s : State) (c : Instr) (i : Issue) (l : LoadRow) : Prop :=
  let x := s.at' i
  let new := l.pushes (s.localWord i)
  s.Leaves c i 1 (new ++ x.stack.drop l.pops) fun y =>
    { y with
      astack := if l.bump then WAddr.plus y.atop 1 :: y.astack.tail else y.astack
      shadow := if y.mode.getLsbD 0 then [] else x.oldCells l.pops new.length }

/-- A store: the cells it pops, the bytes it writes at each address (byte 0 first) and their word, and whether the address
steps on. -/
structure StoreRow where
  pops : Nat
  parts : List (WAddr × List Bool × Word)
  bump : Bool := false

/-- The bytes `lo` to `hi − 1` of a word. -/
def someBytes (lo hi : Nat) : List Bool := [decide (lo ≤ 0 ∧ 0 < hi), decide (lo ≤ 1 ∧ 1 < hi), decide (lo ≤ 2 ∧ 2 < hi), decide (lo ≤ 3 ∧ 3 < hi)]

/-- `v` in bytes `lo` to `hi − 1` of a word whose other bytes are 0. -/
def placed (v lo hi : Nat) : Word := BitVec.ofNat 36 (v % 2 ^ (9 * (hi - lo)) * 2 ^ (36 - 9 * hi))

/-- Table INS.3: stores (R210 to R212). -/
def storeRow (c : Instr) (x : Ctx) : Option (Issue × StoreRow) :=
  match c, x.astack, x.stack with
  | .st i, a :: _, v :: _ => some (i, { pops := 1, parts := [(a, someBytes 0 4, v)] })
  | .stp i, a :: _, v :: _ => some (i, { pops := 1, parts := [(a, someBytes 0 4, v)], bump := true })
  | .stb i, a :: _, o :: v :: _ =>
    let k := o.toNat % 2 ^ 18
    some (i, { pops := 2, parts := [(WAddr.plus a (k / 4), someBytes (k % 4) (k % 4 + 1), placed v.toNat (k % 4) (k % 4 + 1))] })
  | .sth i, a :: _, o :: v :: _ =>
    let k := o.toNat % 2 ^ 18
    let h := 2 * (k % 2)
    some (i, { pops := 2, parts := [(WAddr.plus a (k / 2), someBytes h (h + 2), placed v.toNat h (h + 2))] })
  | .std i, a :: _, hi :: lo :: _ =>
    some (i, { pops := 2, parts := [(a, someBytes 0 4, hi), (WAddr.plus a 1, someBytes 0 4, lo)] })
  | .stu i, a :: _, o :: v :: _ =>
    let b := o.toNat % 4
    if b = 0 then some (i, { pops := 2, parts := [(a, someBytes 0 4, v)] })
    else some (i, { pops := 2, parts := [(a, someBytes b 4, placed (partOf v 0 (4 - b)) b 4),
                                         (WAddr.plus a 1, someBytes 0 b, placed (partOf v (4 - b) 4) 0 b)] })
  | _, _, _ => none

/-- The store buffer entries of a store, in the order in which they drain; two entries drain together (R183, R212). -/
def StoreRow.entries (l : StoreRow) (c : Nat) : List StoreEntry :=
  match l.parts with
  | [(a, b, w)] => [⟨a, b, w, c, false⟩]
  | [(a, b, w), (a', b', w')] => [⟨a, b, w, c, true⟩, ⟨a', b', w', c, false⟩]
  | _ => []

/-- `s` with entries added to the store buffer of the engine that `i` names. -/
def State.buffered (s : State) (i : Issue) (l : List StoreEntry) : State :=
  s.putEng i.isl.val { s.engOf i with sbuf := (s.engOf i).sbuf ++ l }

/-- Byte `k` (0 the most significant) of `new` where `bytes` marks it, else of `old`. -/
def mergeBytes (bytes : List Bool) (new old : Word) : Word :=
  let pick := fun (k : Nat) => wordByte (if bytes.getD k false then new else old) k
  pick 0 ++ pick 1 ++ pick 2 ++ pick 3

/-! ### Control -/

/-- The displacement of a short branch (R193). -/
def shortReach (o : BitVec 4) : Int := if o.toNat ≤ 7 then (o.toNat : Int) - 8 else (o.toNat : Int) - 7

/-- A transfer: its target, whether it closes the loop levels it leaves, the data stack, and its change of the context. -/
abbrev Hop := SAddr × Bool × List Word × (Ctx → Ctx)

/-- A return address on the return stack. -/
def pushed (ra : SAddr) (y : Ctx) : Ctx := { y with rstack := (ra :: y.rstack).take 32 }

/-- There is room for a call (R167): fewer than 28 entries in trap mode, and always in wrap mode. -/
def Ctx.callRoom (x : Ctx) : Bool := x.mode.getLsbD 2 || decide (x.rstack.length < 28)

/-- Table INS.6: transfers taken, with their targets, and their return addresses (R193, R196, R204, R218, R219). -/
def hopRow (c : Instr) (x : Ctx) : Option (Issue × Hop) :=
  let far := fun (off : Int) => SAddr.offset x.pc off
  match c, x.stack with
  | .br i o, d => some (i, far (shortReach o), true, d, id)
  | .bz i o, v :: r => if v = 0 then some (i, far (shortReach o), true, r, id) else none
  | .bnz i o, v :: r => if v ≠ 0 then some (i, far (shortReach o), true, r, id) else none
  | .brl i off, d => some (i, far off.toInt, true, d, id)
  | .bzl i off, v :: r => if v = 0 then some (i, far off.toInt, true, r, id) else none
  | .bnzl i off, v :: r => if v ≠ 0 then some (i, far off.toInt, true, r, id) else none
  | .call i woff, d =>
    if x.callRoom then some (i, SAddr.wordOffset x.pc woff.toInt, false, d, pushed (SAddr.plus x.pc (if x.mode.getLsbD 0 then 3 else 2)))
    else none
  | .callt i, v :: r => if x.callRoom then some (i, v.setWidth 26, false, r, pushed (SAddr.plus x.pc 1)) else none
  | .ret i, d => match x.rstack with
    | ra :: t => some (i, ra, true, d, fun y => { y with rstack := t })
    | [] => none
  | .jmpt i, v :: r => some (i, v.setWidth 26, true, r, id)
  | .breakl i, d => match x.loops.getLast? with
    | some l => some (i, SAddr.plus l.stop 1, false, d, fun y => { y with loops := y.loops.dropLast })
    | none => none
  | .loop i e, v :: r =>
    if v.toNat % 2 ^ 24 = 0 ∧ x.loops.length < 4 then some (i, SAddr.plus x.pc (3 + e.toNat), false, r, id) else none
  | _, _ => none

/-- The branches that have a delay slot in forerunner mode (Table ENG.10, R204). -/
def slotted : Instr → Bool
  | .br .. => true
  | .bz .. => true
  | .bnz .. => true
  | .call .. => true
  | _ => false

/-- The syllables of a transfer. -/
def hopLen : Instr → Nat
  | .brl .. => 2
  | .bzl .. => 2
  | .bnzl .. => 2
  | .call .. => 2
  | .loop .. => 2
  | _ => 1

/-- Table INS.6 and R174: what goes on at the next syllable. -/
def controlRow : Instr → Option Row
  | .bz i _ => some (i, 1, onD fun | v :: r => if v ≠ 0 then some r else none | _ => none)
  | .bnz i _ => some (i, 1, onD fun | v :: r => if v = 0 then some r else none | _ => none)
  | .bzl i _ => some (i, 2, onD fun | v :: r => if v ≠ 0 then some r else none | _ => none)
  | .bnzl i _ => some (i, 2, onD fun | v :: r => if v = 0 then some r else none | _ => none)
  | .breakl i => some (i, 1, fun x => if x.loops = [] then some (x.stack, id) else none)
  | .setrc i => some (i, 1, fun x => match x.stack with
      | v :: r => some (r, fun y => { y with rc := v.setWidth 8 })
      | _ => none)
  | .rep i => some (i, 1, fun x => some (x.stack, fun y => { y with rep := some x.rc }))
  | .loop i e => some (i, 2, fun x => match x.stack with
      | v :: r =>
        if v.toNat % 2 ^ 24 ≠ 0 ∧ x.loops.length < 4 then
          some (r, fun y => { y with loops := y.loops ++ [⟨SAddr.plus x.pc 2, SAddr.plus x.pc (2 + e.toNat), v.setWidth 24⟩] })
        else none
      | _ => none)
  | .yield i => some (i, 1, fun x => some (x.stack, id))
  | .mode i => some (i, 1, fun x => match x.stack with
      | m :: v :: r => some (r, fun y => { y with modePend := [(2, m.setWidth 4, v.setWidth 4)] })
      | _ => none)
  | _ => none

/-- REP may repeat a one-syllable stack or integer instruction (Table INS.7): each but RDLC. -/
def repeated : Instr → Bool
  | .rdlc .. => false
  | _ => true

/-- A windowed call (R162): the cells that leave the caller's window, and those that make up the callee's, T first. -/
def windowRow (c : Instr) (x : Ctx) : Option (Issue × SAddr × Nat × List Word × List Word) :=
  match c, x.stack with
  | .callw i k woff, d =>
    if k.toNat ≤ d.length then some (i, SAddr.wordOffset x.pc woff.toInt, 2, d.take k.toNat, d.drop k.toNat) else none
  | .callwt i k, v :: r =>
    if k.toNat ≤ r.length then some (i, v.setWidth 26, 1, r.take k.toNat, r.drop k.toNat) else none
  | _, _ => none

/-- The trap word (Table ENG.12). -/
def trapCell (code sub c : Nat) (split : Bool) : Word := BitVec.ofNat 36 (code + 32 * sub + 8192 * c + 65536 * bit split)

/-- The flags entry (Table ENG.12). -/
def flagsCell (x : Ctx) : SAddr :=
  BitVec.ofNat 26 (bit x.c + 2 * bit x.v + 4 * bit x.z + 8 * bit x.n + 16 * bit x.tw)

/-- The context in the handler of trap `code`, with the trap window `w`, and `resume` and the flags entry on its return stack (R177). -/
def Ctx.inTrap (x : Ctx) (code : Nat) (resume : SAddr) (w : Window) : Ctx :=
  { x with
    tw := true, twCause := code, trapWin := w, rstack := (flagsCell x :: resume :: x.rstack).take 32
    pc := syl0 (WAddr.plus x.tvb (4 * code)) }

/-- A trap is taken (R177): the return stack holds the resume address and the flags entry, the trap window the address `n`
with the trap word above it, and the handler of the trap's code runs. Nothing else changes. -/
def State.Traps (s : State) (c : Instr) (i : Issue) (code sub : Nat) (n resume : SAddr) : Prop :=
  ∃ w : Window, w.list = [trapCell code sub i.ctx.val false, n.setWidth 36] ∧
    exec c s = .next (s.retire i ((s.at' i).inTrap code resume w))

/-- As `State.Traps` states, behind an instruction that leaves data stack `d` and what `g` does to its context (R175). -/
def State.TrapsAfter (s : State) (c : Instr) (i : Issue) (d : List Word) (g : Ctx → Ctx) (code sub : Nat) (n resume : SAddr) : Prop :=
  ∃ (y : Ctx) (w : Window), y.Holds (g (s.at' i)) d ∧ w.list = [trapCell code sub i.ctx.val false, n.setWidth 36] ∧
    exec c s = .next (s.retire i (y.inTrap code resume w))

/-- A trap can be taken (R167, R179): TW is 0 and the return stack has room for two entries. -/
def Ctx.trapReady (x : Ctx) : Prop := x.tw = false ∧ (x.mode.getLsbD 2 = true ∨ x.rstack.length ≤ 30)

/-- The short instruction that `i` names stands in the slot of the taken branch `q` (R172): no check fails, its words may be fetched, no
halt, step, substitution, load delay, MODE change, lock, REP, end or squash of its job, or floating-point result is in the way, and no
loop level ends in the branch or its slot. -/
structure State.InSlot (s : State) (i : Issue) (q : DelaySlot) : Prop where
  pass : i.check = .pass
  clean : i.bad = none
  may : s.mayIssue i.isl.val i.ctx.val = true
  slot : (s.engOf i).slot = some q
  own : q.ctx = i.ctx.val
  busy : (s.engOf i).micro.busy = none
  step : (s.engOf i).stepping = none
  halt : (s.engOf i).haltPend = false
  halts : ∀ c < 8, ((s.engOf i).ctx c).haltPend = false
  subst : (s.engOf i).substPend = none
  trace : s.dbg.trcEn = false
  fetch : s.fetchBar i.isl.val i.ctx.val (SAddr.word (s.at' i).pc) = none
  ecc : s.eccBar i.isl.val (SAddr.word (s.at' i).pc) = none
  shadow : (s.at' i).shadow = []
  plain : (s.at' i).Plain
  ending : (s.at' i).ending = none
  squash : (s.jobAt i.isl.val i.ctx.val).any (fun j => j.squashDue) = false
  fp : (s.at' i).fpu.inflight = []
  loops : ∀ l ∈ (s.at' i).loops, l.passedBy q.saved.pc (SAddr.dist q.saved.pc (s.at' i).pc + 1) = false

/-! ### System -/

/-- Table INS.8: instructions that read the machine (R185, R188, R201, R224, R370). -/
def queryRow (s : State) : Instr → Option Row
  | .feat i n => some (i, 2, onD fun r =>
      let p := i.isl.val
      some ((if n.toNat = 0 then BitVec.ofNat 36 0o015304453044 else if n.toNat = 1 then 0x3F02
        else if n.toNat = 2 then BitVec.ofNat 36 (s.liveEngines + 16 * 2 ^ 9 + 8 * 2 ^ 14)
        else if n.toNat = 3 then (s.glb.present.getD (p / 17) 0).setWidth 36 else 0) :: r))
  | .tbr i => some (i, 2, onD fun r =>
      some (BitVec.ofNat 36 (s.now % 2 ^ 64 / 2 ^ 36) :: BitVec.ofNat 36 (s.now % 2 ^ 36) :: r))
  | .ctxq i => some (i, 1, onD fun r =>
      some (BitVec.ofNat 36 (i.ctx.val + 8 * s.logicalNum i.isl.val + 2048 * (i.isl.val / 17)) :: r))
  | .pendq i => some (i, 1, onD fun
      | g :: r => if i.ctx = 0 then some (s.pendWord i.isl.val (g.toNat % 64) :: r) else none
      | _ => none)
  | .mboxQuery i => some (i, 2, onD fun r => if i.ctx = 0 then some (BitVec.ofNat 36 (s.engOf i).mbox.length :: r) else none)
  | _ => none

/-! ### Jobs and units -/

/-- Octets `4k` to `4k + 3` of a descriptor as a cell. -/
def descWord (j : Job) (k : Nat) : Word := BitVec.ofNat 36 (j.desc.toNat / 2 ^ (32 * k) % 2 ^ 32)

/-- A unit status word (Table INS.11): code in [7:0], kind in [11:8], detail in [35:12]. -/
def unitStatus (kind : BitVec 4) (code : BitVec 8) (detail : BitVec 24) : Word :=
  BitVec.ofNat 36 (code.toNat + 256 * kind.toNat + 4096 * detail.toNat)

/-- Table INS.13: LDESC of the descriptor and the snapshot, and WAITU (R225, R228). A context that must wait becomes
BLOCKED. -/
def jobRow (s : State) : Instr → Option Row
  | .ldesc i idx space keeper => some (i, 2, fun x =>
      let word := fun (j : Job) => if space = 0 then some (descWord j idx.toNat) else if space = 1 then some (j.snapWord idx.toNat) else none
      match keeper, x.stack with
      | false, d => if i.ctx = 0 then none else ((s.jobAt i.isl.val i.ctx.val).bind word).map fun v => (v :: d, id)
      | true, k :: r =>
        if i.ctx ≠ 0 ∨ k.toNat % 8 = 0 then none else ((s.jobAt i.isl.val (k.toNat % 8)).bind word).map fun v => (v :: r, id)
      | true, [] => none)
  | .waitu i test => some (i, 2, fun x => match x.stack with
      | u :: r =>
        if i.ctx = 0 then none else
        match Assoc.lookup x.unitTags (u.toNat % 16) with
        | none => none
        | some t =>
          match t.done with
          | some (code, detail) =>
            if t.unitError then none
            else some (unitStatus t.kind code detail :: r, fun y => { y with unitTags := Assoc.erase y.unitTags (u.toNat % 16) })
          | none =>
            if test then some (BitVec.allOnes 36 :: r, id)
            else some (r, fun y => { y with state := .blocked, wait := .waitu (u.toNat % 16), waitPc := y.pc })
      | [] => none)
  | _ => none

/-- A request that an instruction hands on: the context stays at it, BLOCKED, until the answer comes (R226, R336). -/
def Ctx.asks (x : Ctx) (w : Waiting) : Ctx := { x with state := .blocked, wait := w, waitPc := x.pc }

/-! ### Ledger -/

/-- The ledger with accumulator `a` changed. -/
def accTo (a : BitVec 2) (f : Accum → Accum) (l : Ledger) : Ledger := { l with accs := Tab.put l.accs a.toNat (f (l.acc a)) }

/-- An effect on the ledger and the data stack. -/
def onL (f : Ledger → List Word → Option (List Word × Ledger)) : Effect := fun x =>
  (f x.ledger x.stack).map fun q => (q.1, fun y => { y with ledger := q.2 })

/-- The scale of a decimal operand (R245). -/
def operandScale (l : Ledger) (a : BitVec 2) : Nat :=
  match l.osc with
  | some n => n
  | none => (l.acc a).scale

/-- The ledger status word as it reads: the stored bits, KNZ and BZ (Table LDG.5). -/
def ledgerStatus (l : Ledger) : Word :=
  (l.status &&& 0x773) ||| (if [0, 1, 2, 3].any fun a => (l.acc a).kerf != 0 then 4 else 0) ||| (if l.bal = 0 then 8 else 0)

/-- Table LDG.7: ledger instructions that meet no condition of Table LDG.6. Operands are values that passed the checks of
R239. -/
def ledgerRow : Instr → Option Row
  | .lclr i a => some (i, 1, onL fun l d => some (d, accTo a (fun v => { v with coef := 0, kerf := 0 }) l))
  | .lclrBal i => some (i, 1, onL fun l d => some (d, { l with bal := 0 }))
  | .kclr i a => some (i, 1, onL fun l d => some (d, accTo a (fun v => { v with kerf := 0 }) l))
  | .lrnd i a mode cash => some (i, 2, onL fun l d =>
      if cash.toNat < 5 then some (d, accTo a (fun v => { v with mode := mode, cash := cash }) l) else none)
  | .losc i n => some (i, 2, onL fun l d => if n.toNat ≤ 40 then some (d, { l with osc := some n.toNat }) else none)
  | .lflags i => some (i, 1, onL fun l d => match d with
      | m :: v :: r =>
        let k : Word := m &&& 0x773
        some (ledgerStatus l :: r, { l with status := (l.status &&& ~~~k) ||| (v &&& k) })
      | _ => none)
  | .ladd i a dd => some (i, 1, onL fun l d => match dd, d with
      | false, w :: r => match cellDecimal w with
        | .value v => match (l.acc a).addAt v (operandScale l a) with
          | some (u, false) => some (r, accTo a (fun _ => u) l)
          | _ => none
        | .bad _ => none
      | true, h :: w :: r => match dblDecimal (h ++ w) with
        | .value v => match (l.acc a).addAt v (operandScale l a) with
          | some (u, false) => some (r, accTo a (fun _ => u) l)
          | _ => none
        | .bad _ => none
      | _, _ => none)
  | .lsub i a dd => some (i, 1, onL fun l d => match dd, d with
      | false, w :: r => match cellDecimal w with
        | .value v => match (l.acc a).addAt (-v) (operandScale l a) with
          | some (u, false) => some (r, accTo a (fun _ => u) l)
          | _ => none
        | .bad _ => none
      | true, h :: w :: r => match dblDecimal (h ++ w) with
        | .value v => match (l.acc a).addAt (-v) (operandScale l a) with
          | some (u, false) => some (r, accTo a (fun _ => u) l)
          | _ => none
        | .bad _ => none
      | _, _ => none)
  | .lpostD i a => some (i, 1, onL fun l d => match d with
      | h :: w :: r => match dblDecimal (h ++ w) with
        | .value v =>
          let t := operandScale l a
          let b := l.bal + v * 10 ^ (40 - t)
          match (l.acc a).addAt v t with
          | some (u, false) => if b.natAbs < 10 ^ 98 then some (r, { accTo a (fun _ => u) l with bal := b }) else none
          | _ => none
        | .bad _ => none
      | _ => none)
  | .lpostC i a => some (i, 1, onL fun l d => match d with
      | h :: w :: r => match dblDecimal (h ++ w) with
        | .value v =>
          let t := operandScale l a
          let b := l.bal - v * 10 ^ (40 - t)
          match (l.acc a).addAt v t with
          | some (u, false) => if b.natAbs < 10 ^ 98 then some (r, { accTo a (fun _ => u) l with bal := b }) else none
          | _ => none
        | .bad _ => none
      | _ => none)
  | .ktake i a => some (i, 1, onL fun l d => (l.acc a).take.map fun u => (d, accTo a (fun _ => u) l))
  | .lscale i a n => some (i, 2, onL fun l d =>
      if n.toNat ≤ 40 then
        match (l.acc a).rescale n.toNat with
        | .ok u => some (d, accTo a (fun _ => u) l)
        | .bad _ => none
      else none)
  | .lcmp i a => some (i, 1, onL fun l d => match d with
      | h :: w :: r => match dblDecimal (h ++ w) with
        | .value v =>
          let x := (l.acc a).coef * 10 ^ operandScale l a
          let y := v * 10 ^ (l.acc a).scale
          some ((if x = y then 1 else if x < y then 2 else 4) :: r, l)
        | .bad _ => none
      | _ => none)
  | .lmul i a => some (i, 2, onL fun l d => match d with
      | h :: w :: r => match dblDecimal (h ++ w) with
        | .value m => match (l.acc a).times m (operandScale l a) with
          | some (u, false) => some (r, accTo a (fun _ => u) l)
          | _ => none
        | .bad _ => none
      | _ => none)
  | .ldstep i a => some (i, 1, onL fun l d => match d with
      | j :: h :: w :: r => match dblDecimal (h ++ w) with
        | .value v =>
          if 97 < j.toNat then none else
          let x := (l.acc a).coef
          let u := v.natAbs * 10 ^ j.toNat
          let sa : Int := if x < 0 then -1 else 1
          let sd : Int := if v < 0 then -1 else 1
          let q := if v = 0 then 9 else min 9 (x.natAbs / u)
          let y := (l.acc (a + 1)).coef + sa * sd * q * 10 ^ j.toNat
          let l' := if v = 0 then { l with status := l.status ||| 0x40 } else l
          if y.natAbs < 10 ^ 98 then
            some ((j - 1) :: h :: w :: r,
              accTo (a + 1) (fun b => { b with coef := y }) (accTo a (fun b => { b with coef := sa * (x.natAbs - q * u) }) l'))
          else none
        | .bad _ => none
      | _ => none)
  | .lshare i a last => some (i, 2, onL fun l d => match d with
      | ph :: pl :: r =>
        let v := l.acc a
        let h := l.share.getD ⟨a, v.coef, v.scale, v.mode, v.cash, 0, 0⟩
        let c : Nat := h.prop + (ph.toNat * 2 ^ 36 + pl.toNat)
        let g := cashStep h.cash.toNat
        let u : Int := if last then h.total else roundMode h.mode.toNat (h.total * c) (g * 10 ^ 20) * g
        if h.owner = a ∧ (if last then c = 10 ^ 20 else c ≤ 10 ^ 20) ∧ u.natAbs < 10 ^ 98 then
          match (l.acc (a + 1)).addAt (u - h.allotted) h.scale with
          | some (w, false) =>
            some (r, { accTo (a + 1) (fun _ => w) l with share := if last then none else some { h with prop := c, allotted := u } })
          | _ => none
        else none
      | _ => none)
  | .lconv i a out fmt => some (i, 2, onL fun l d =>
      let into := fun (v : Int) (t : Nat) (r : List Word) =>
        match ({ l.acc a with coef := 0, kerf := 0 } : Accum).addAt v t with
        | some (u, false) => some (r, accTo a (fun _ => u) l)
        | _ => none
      let decimal := fun (q : Option (Int × Int)) (r : List Word) => match q with
        | some (c, e) =>
          if 0 ≤ e then into (c * 10 ^ e.toNat) 0 r
          else if -e ≤ (l.acc a).scale + 40 then into c (-e).toNat r else none
        | none => none
      let s := (l.acc a).scale
      let t := operandScale l a
      let whole := if s ≤ t then some ((l.acc a).coef * 10 ^ (t - s))
        else if (l.acc a).coef % 10 ^ (s - t) = 0 then some ((l.acc a).coef / 10 ^ (s - t)) else none
      match out, fmt.toNat, d with
      | false, 3, w :: r => into w.toInt t r
      | false, 4, h :: w :: r => into (h ++ w).toInt t r
      | false, 5, h :: w :: r => decimal (decimal64.decode (h.toNat % 2 ^ 28 * 2 ^ 36 + w.toNat)) r
      | false, 6, hh :: hl :: lh :: ll :: r =>
        decimal (decimal128.decode ((hh.toNat % 2 ^ 28 * 2 ^ 36 + hl.toNat) * 2 ^ 64 + (lh.toNat % 2 ^ 28 * 2 ^ 36 + ll.toNat))) r
      | true, 3, d => match whole with
        | some v => if -(2 ^ 35) ≤ v ∧ v < 2 ^ 35 then some (BitVec.ofInt 36 v :: d, l) else none
        | none => none
      | true, 4, d => match whole with
        | some v => if -(2 ^ 71) ≤ v ∧ v < 2 ^ 71 then
            some (hiWord (BitVec.ofInt 72 v) :: loWord (BitVec.ofInt 72 v) :: d, l) else none
        | none => none
      | true, 5, d => (decimal64.out (l.acc a).coef s).map fun n =>
          (BitVec.ofNat 36 (n / 2 ^ 36 % 2 ^ 28) :: BitVec.ofNat 36 n :: d, l)
      | true, 6, d => (decimal128.out (l.acc a).coef s).map fun n =>
          (BitVec.ofNat 36 (n / 2 ^ 100 % 2 ^ 28) :: BitVec.ofNat 36 (n / 2 ^ 64) :: BitVec.ofNat 36 (n / 2 ^ 36 % 2 ^ 28) ::
            BitVec.ofNat 36 n :: d, l)
      | _, _, _ => none)
  | _ => none

/-! ### Floating point -/

/-- An operation that enters the floating-point section: its kind, the cells it takes and leaves, and its operands, first to
last (Table BIN.4). -/
def floatRow (c : Instr) (x : Ctx) : Option (Issue × Nat × FpKind × Nat × Nat × List (BitVec 72)) :=
  match c, x.stack with
  | .fadd i, bh :: bl :: ah :: al :: _ => some (i, 1, .add, 4, 2, [ah ++ al, bh ++ bl])
  | .fsub i, bh :: bl :: ah :: al :: _ => some (i, 1, .sub, 4, 2, [ah ++ al, bh ++ bl])
  | .fmul i, bh :: bl :: ah :: al :: _ => some (i, 1, .mul, 4, 2, [ah ++ al, bh ++ bl])
  | .fcmp i, bh :: bl :: ah :: al :: _ => some (i, 1, .cmp, 4, 1, [ah ++ al, bh ++ bl])
  | .fma i, ch :: cl :: bh :: bl :: ah :: al :: _ => some (i, 1, .fma, 6, 2, [ah ++ al, bh ++ bl, ch ++ cl])
  | .fstep i, ch :: cl :: bh :: bl :: ah :: al :: _ => some (i, 1, .step, 6, 2, [ah ++ al, bh ++ bl, ch ++ cl])
  | .frecip i, ah :: al :: _ => some (i, 1, .recip, 2, 2, [ah ++ al])
  | .frsqrt i, ah :: al :: _ => some (i, 1, .rsqrt, 2, 2, [ah ++ al])
  | .fcvt i kind r, d =>
    if kind = 2 ∨ kind = 3 then
      match d with
      | a :: _ => some (i, 2, .cvt kind r, 1, 2, [a ++ (0 : Word)])
      | _ => none
    else if kind.toNat ≤ 5 then
      match d with
      | ah :: al :: _ => some (i, 2, .cvt kind r, 2, if kind = 0 ∨ kind = 1 then 1 else 2, [ah ++ al])
      | _ => none
    else none
  | _, _ => none

/-- The operation in flight that a row issues: its result's top cell, its operands, and subnormal handling as MODE stands. -/
def Ctx.opOf (x : Ctx) (kind : FpKind) (dIn size : Nat) (ops : List (BitVec 72)) : FpOp :=
  { kind := kind, addr := x.pc, inTrap := x.tw, pos := x.depth - dIn + size - 1, size := size, a := ops.getD 0 0
    b := ops.getD 1 0, c := ops.getD 2 0, flush := x.mode.getLsbD 1 }

/-- Floating-point instructions that end at once: FNEG, FABS, FFLAGS, FBAR (R285, R293, R294). -/
def floatNowRow : Instr → Option Row
  | .fneg i => some (i, 1, onD fun | h :: l :: r => some (((h ^^^ 0x8000000) &&& 0xFFFFFFF) :: l :: r) | _ => none)
  | .fabs i => some (i, 1, onD fun | h :: l :: r => some ((h &&& 0x7FFFFFF) :: l :: r) | _ => none)
  | .fbar i => some (i, 1, onD some)
  | .fflags i => some (i, 1, fun x => match x.stack with
      | m :: v :: r =>
        if m.msb then
          some ([x.fpu.record.addr.setWidth 36, x.fpu.record.info, hiWord x.fpu.record.a, loWord x.fpu.record.a,
            hiWord x.fpu.record.b, loWord x.fpu.record.b, hiWord x.fpu.record.c, loWord x.fpu.record.c].getD (v.toNat % 8) 0 :: r, id)
        else
          let k : Word := m &&& 0x1F1F
          let pend : Word := if x.fpu.pendFp.isSome ∨ x.fpu.pendSub.isSome then 0x2000 else 0
          some (((x.fpu.status &&& 0x1F1F) ||| pend) :: r,
            fun y => { y with fpu := { y.fpu with status := (y.fpu.status &&& ~~~k) ||| (v &&& k) } })
      | _ => none)
  | _ => none

/-- The value of a finite datum. -/
def Fval.value (a : Fval) : Rat :=
  match a with
  | .fin neg m e => (if neg then -1 else 1) * (m : Rat) * (2 : Rat) ^ e
  | _ => 0

/-- A number of at most 53 significant bits, as if the exponent range had no limits (R290). -/
def Sig53 (z : Rat) : Prop := ∃ (neg : Bool) (n : Nat) (k : Int), n < 2 ^ 53 ∧ z = (Fval.fin neg n k).value

/-- ±m × 2^e is `x` rounded to 53 significant bits: to nearest with ties to even, or toward zero, +∞ or −∞ (R285, Table ENC.3). -/
def Rounds53 (dir : Nat) (x : Rat) (neg : Bool) (m : Nat) (e : Int) : Prop :=
  let y := (Fval.fin neg m e).value
  match dir with
  | 0 => ∀ z, Sig53 z → (x - y).abs ≤ (x - z).abs ∧ ((x - y).abs = (x - z).abs → z = y ∨ m % 2 = 0)
  | 1 => y.abs ≤ x.abs ∧ 0 ≤ x * y ∧ ∀ z, Sig53 z → z.abs ≤ x.abs → z.abs ≤ y.abs
  | 2 => x ≤ y ∧ ∀ z, Sig53 z → x ≤ z → y ≤ z
  | _ => y ≤ x ∧ ∀ z, Sig53 z → z ≤ x → z ≤ y

/-- `q` is `x` rounded to a whole number by a direction of Table ENC.3. -/
def RoundsInt (dir : Nat) (x : Rat) (q : Int) : Prop :=
  match dir with
  | 0 => (x - q).abs ≤ 1 / 2 ∧ ((x - q).abs = 1 / 2 → q % 2 = 0)
  | 1 => (q : Rat).abs ≤ x.abs ∧ 0 ≤ x * q ∧ (x - q).abs < 1
  | 2 => x ≤ q ∧ (q : Rat) < x + 1
  | _ => (q : Rat) ≤ x ∧ x < q + 1

/-- An operation delivers the exact value `x`, not 0, rounded once (R285): an infinity with OF and IX beyond the range, a tiny result as
R290 has it, and else the rounded value, with IX where it is not `x`. -/
def FpOut.Delivers (o : FpOut) (flush : Bool) (x : Rat) : Prop :=
  ∃ (neg : Bool) (m : Nat) (e : Int), Rounds53 0 x neg m e ∧ 2 ^ 52 ≤ m ∧ m < 2 ^ 53 ∧
    if 971 < e then o.val = cells64 (inf64 neg) ∧ o.flags = 0x14 ∧ o.subn = false
    else if e < -1074 then
      o.sign = some neg ∧ o.subn = !flush ∧ (flush = true → o.val = cells64 (zero64 neg) ∧ o.flags = 0x18)
    else ∃ b : BitVec 64, o.val = cells64 b ∧ Fval.of b = .fin neg m e ∧ o.subn = false ∧
      o.flags = if (Fval.fin neg m e).value = x then 0 else 0x10

/-- An estimate delivers ±k × 2^e exactly, or its sign where it is tiny, without IX (R287). -/
def FpOut.Estimates (o : FpOut) (flush neg : Bool) (k : Nat) (e : Int) : Prop :=
  let y := (Fval.fin neg k e).value
  if y.abs < (2 : Rat) ^ (-1022 : Int) then
    o.sign = some neg ∧ o.subn = !flush ∧ (flush = true → o.val = cells64 (zero64 neg) ∧ o.flags = 8)
  else ∃ b : BitVec 64, o.val = cells64 b ∧ (Fval.of b).value = y ∧ b.msb = neg ∧ o.subn = false ∧ o.flags = 0

/-- An instruction's boundary with a floating-point trap pending that comes first: nothing else is in the way (R176, R292). -/
structure State.FpDue (s : State) (i : Issue) (code : Nat) (r : FpRecord) : Prop where
  pass : i.check = .pass
  clean : i.bad = none
  may : s.mayIssue i.isl.val i.ctx.val = true
  slot : (s.engOf i).slot = none
  busy : (s.engOf i).micro.busy = none
  step : (s.engOf i).stepping = none
  halt : (s.engOf i).haltPend = false
  halts : ∀ c < 8, ((s.engOf i).ctx c).haltPend = false
  subst : (s.engOf i).substPend = none
  bound : (s.at' i).boundary i.ctx.val s.now = if code = 11 then .sub r else .fp r
  plain : (s.at' i).Plain
  shadow : (s.at' i).shadow = []
  resv : ∀ q ∈ s.ldk.resv, q.2 ≠ (i.isl.val, i.ctx.val)
  ending : (s.at' i).ending = none
  squash : (s.jobAt i.isl.val i.ctx.val).any (fun j => j.squashDue) = false

/-! ## Events -/

/-- The engine has nothing waiting for its next boundary. -/
structure Engine.Calm (e : Engine) : Prop where
  slot : e.slot = none
  busy : e.micro.busy = none
  step : e.stepping = none
  halt : e.haltPend = false
  halts : ∀ c < 8, (e.ctx c).haltPend = false
  subst : e.substPend = none

/-- A context that has waited goes on with an instruction of `len` syllables: its engine's boundary is quiet, the context is
plain, its job does not end here, and no loop level ends in the instruction. -/
structure State.Resumes (s : State) (p c len : Nat) : Prop where
  calm : (s.eng p).Calm
  plain : (s.ctx p c).Plain
  ending : (s.ctx p c).ending = none
  squash : (s.jobAt p c).any (fun j => j.squashDue) = false
  loops : ∀ l ∈ (s.ctx p c).loops, l.passedBy (s.ctx p c).pc len = false

/-- A unit instruction of job `id` can be admitted (R336): its context goes on once it is answered, it does not wait for the DRBG, a
tracker entry is free within the user's share, and unit tag `t` is free. -/
structure State.Admits (s : State) (p c id t : Nat) (j : Job) (i : Instr) : Prop where
  goes : s.Resumes p c 2
  wait : (s.ctx p c).wait = .admission i
  blocked : (s.ctx p c).state = .blocked
  shadow : (s.ctx p c).shadow = []
  job : (s.ctx p c).job = some id
  entry : s.job id = some j
  early : (p, c) ∉ s.units.waiting
  share : s.unitUse j.inst < s.unitShare j.inst
  room : s.units.reqs.length + s.units.waiting.length < 24576
  tag : (s.ctx p c).freeUnitTag = some t
  depth : (s.ctx p c).depth ≤ 16

/-- The state in which a unit answers job `id`: its request has come, and the granules noted for it go to the request (R139). -/
def State.asked (s : State) (id : Nat) (j : Job) : State := s.quietOut.putJob id { j with asked := [] }

/-- The admission of context `c` of engine `p` ends with tag `t` in entry `u`: the tag is pushed on `d`, the context goes on behind its
instruction, and `v` is the rest of the state. -/
def State.Admitted (s : State) (a : At) (v : State) (t : Nat) (u : UnitTag) (d : List Word) : Prop :=
  let x := s.ctx a.isl.val a.ctx.val
  ∃ y : Ctx,
    y.Holds { x with wait := .nothing, state := .ready, pc := SAddr.plus x.pc 2, unitTags := Assoc.insert x.unitTags t u }
      (BitVec.ofNat 36 t :: d) ∧
    exec (.admissionAnswer a) s = .next (v.putCtx a.isl.val a.ctx.val y)

/-- The bank-relative words of a source as octets (R70). -/
def State.octetsAt (s : State) (packed : Bool) (n : Nat) (a : WAddr) : Option (List Octet) :=
  unpackOctets packed n ((List.range (wordsFor packed n)).map fun k => s.wordAt 0 (WAddr.plus a k))

/-- From `s` to `t` only engine `p` differs, and the ports drive nothing. -/
def State.OnlyEng (s t : State) (p : Nat) : Prop :=
  t = { s.quietOut with engines := t.engines } ∧ ∀ q, q ≠ p → t.eng q = s.eng q

/-- No source waits for a keeper to be awake: each pending one is signalled or disabled (R365, R367). -/
def State.noneWaits (s : State) : Prop :=
  ∀ x ∈ s.evc.srcs, (s.src x.1).pend = true → (s.src x.1).sig = true ∨ (s.src x.1).prio = 0

/-- An arrival at source `n` was counted (R363), and the source has an event pending. -/
def State.Arrived (s t : State) (n : Nat) : Prop :=
  (t.src n).count = satInc (s.src n).count ∧ (t.src n).pend = true

/-! ## Epochs -/

/-- A setting of Table DSP.1 after the boundary of tick `b`: the value written at least 2 ticks before applies, unless HOLD is 1 or
has been 0 for less than 2 ticks (R121, R122). -/
def Gov.settled {α : Type} (g : Gov α) (s : State) (b : Nat) : Gov α :=
  if s.dsp.hold = false ∧ s.dsp.holdCleared + 2 ≤ b then g.apply b else g

/-- A self-test cut short by a reset, from `a` to `b`: COMPLETE is 0, and RESULT stands or is that of the signature written (R472, R476). -/
structure Aon.CutTo (a b : Aon) : Prop where
  frame : b = { a with complete := false, sig := b.sig, count := b.count, result := b.result }
  result : b.result = a.result ∨ b.result = if b.sig = Config.expectedSignature b.slog2.toNat then 1 else 2

/-! ## The register port -/

/-- The register port answers, and every region takes writes (R484, R492). -/
def State.takesWrites (s : State) : Prop := s.portOn = true ∧ s.muted = false

/-- A privileged write of all four octets. -/
def whole (d : Reg32) : RegXfer := { data := d, strb := 0xF, priv := true }

/-- C_ACK with OK and read data `v`, and nothing else on the ports. -/
def State.okData (s : State) (v : Reg32) : State := { s with out := [.reg 0 v] }

/-! ## The mirror link -/

/-- A sequenced frame of type `typ` reaches lane `k` of a link in use whose clock runs: its CRC is right, its SEQ is the expected one,
and it acknowledges no new frame (R401, R404, R405). -/
structure State.Hears (s : State) (k typ : Nat) (f : BitVec 256) : Prop where
  on : s.linkOn = true
  crc : f.extractLsb' 0 32 = frameCrc f
  typ : frameType f = typ
  up : (s.lane k).up = true
  seq : frameSeq f = (s.lane k).rxSeq
  rseq : frameRseq f = (s.lane k).oldest
  few : (s.lane k).accepted < 511
  clock : s.linkStill = false

/-- The lane that has accepted a sequenced frame. -/
def State.heard (s : State) (k : Nat) : State :=
  let l := s.lane k
  s.quietOut.putLane k { l with lastRx := s.now, rxSeq := l.rxSeq + 1, accepted := l.accepted + 1, hail := false }

/-- An unsequenced frame of type `typ` reaches a lane of a link in use whose clock runs, with a right CRC (R402). -/
def State.Sees (s : State) (typ : Nat) (f : BitVec 256) : Prop :=
  s.linkOn = true ∧ f.extractLsb' 0 32 = frameCrc f ∧ frameType f = typ ∧ s.linkStill = false

/-- The lane that has had an unsequenced frame. -/
def State.seen (s : State) (k : Nat) : State := s.quietOut.putLane k { s.lane k with lastRx := s.now, hail := false }

/-! ## Debug -/

/-- A packet address on the two-wire port, with even parity. -/
def wireAt (cls : BitVec 2) (addr : BitVec 24) : DbgAddr := { path := .wire, cls := cls, addr := addr }

/-- A debugger with full scope is attached on the two-wire port of a complex that answers, is neither BLANK nor SCRAPPED and is not
shutting down, and no access of it is pending. -/
structure State.Debugs (s : State) : Prop where
  on : s.portOn = true
  attached : s.dbg.attached = true
  path : s.dbg.path = .wire
  scope : s.dbg.scope = 1
  alive : s.scrapped = false
  lc : s.life.lc ≠ .blank
  idle : s.dbg.pending = none
  direct : s.life.directDone = false
  shut : s.life.shut = .none

/-- A debug acknowledge of a packet that ran, its data with even parity, and what settles after it. -/
def State.acked (s : State) (data : Option Word) : State := (s.emit (.dbg 1 (data.map fun w => (w, oddOnes w)))).settle

/-- A FAULT answer with its cause: nothing else of the complex changes. -/
def State.denied (s : State) (cause : BitVec 4) : State :=
  ({ s.quietOut with dbg := { s.dbg with cause := cause } }.emit (.dbg 4 none)).settle

/-- The value of an accumulator in units of 10^−(s + 40): its coefficient and its kerf (R243). -/
def Accum.exact (a : Accum) : Int := a.coef * 10 ^ 40 + a.kerf

end Sys2Proof.Machine
end

