-- ==== Sys2Proof/Certificates/Slice0/Obligations.lean ====
section
/-!
DEFINITION. The statements about the complex that are to be proved. Each docstring names the rules of the manual, or says
what is the model's own choice and in which log entry.
-/

open Sys2Proof Sys2Proof.Machine

/-! ## The block -/

/-- The command at the front of the queue is what a step runs, on the queue's rest. On an empty queue the time base counts one
tick, from the release of PORST_N on (R185); that a step is a tick is the model's choice (log entry 1). Nothing else happens. -/
def Obligations.StepRunsFront : Prop :=
  ((∀ c s, step { s with pending := c :: s.pending } = exec c s) ∧
    ∀ c t s, s.pending = c :: t → step s = exec c { s with pending := t }) ∧
  ∀ s, s.pending = [] →
    step s = .next { s with now := (if s.life.porst then s.now else s.now + 1), out := [] }

/-- No command stops the complex. That a command whose condition does not hold, or that comes while a reset is held, answers a next
state too, and leaves everything but the ports as it is, is the model's own choice (log entries 72 and 83). Of these the second part
states the engine instructions but for COMMIT and ABORT: one of a context whose turn it is not changes nothing (R152). -/
def Obligations.EveryCommandCompletes : Prop :=
  (∀ c s, ∃ t, exec c s = .next t) ∧
  ∀ (c : Instr) (i : Issue) (s : State), issueOf c = some i →
    (match c with
      | .commit .. => False
      | .abort .. => False
      | _ => True) →
    s.mayIssue i.isl.val i.ctx.val = false → exec c s = .next s.quietOut

/-- A read of a local store or log deck word after a write of a whole word: the word written reads back, every other word
reads as before, and the canonical form stays. -/
def Obligations.WordReadsBack : Prop :=
  (∀ (e : Engine) (a b : Nat) (w : Word), (e.putWord a w).word b = if b = a then w else e.word b) ∧
    (∀ (s : State) (who : Option (Nat × Nat)) (a b : Nat) (w : Word), (s.putDeck who a w).deck b = if b = a then w else s.deck b) ∧
    (∀ (e : Engine) (a : Nat) (w : Word), Tab.canonical wordDflt e.lstore = true → Tab.canonical wordDflt (e.putWord a w).lstore = true)

/-- The log deck memory keeps its canonical form under every step, and so do the local stores: addresses rise strictly, and no entry
repeats what an unlisted word reads as. The tags in use of a host port stay among its 8,192 (R59). An engine instruction keeps every
data stack window within 16 cells and every address stack within 8 addresses (R157, R160, R206). -/
def Obligations.DeckStaysCanonical : Prop :=
  (∀ s t, Tab.canonical wordDflt s.ldk.mem = true → step s = .next t → Tab.canonical wordDflt t.ldk.mem = true) ∧
  (∀ s t, (∀ p, Tab.canonical wordDflt (s.eng p).lstore = true) → step s = .next t →
    ∀ p, Tab.canonical wordDflt (t.eng p).lstore = true) ∧
  (∀ s t, (∀ n, ∀ q ∈ (s.port n).tags, q.1 < 8192) → step s = .next t → ∀ n, ∀ q ∈ (t.port n).tags, q.1 < 8192) ∧
  ∀ (c : Instr) (i : Issue) (s t : State), issueOf c = some i → (∀ p k, (s.ctx p k).Fits) → exec c s = .next t →
    ∀ p k, (t.ctx p k).Fits

/-! ## Instructions: stacks and integers -/

/-- Tables INS.1 and R218 (RDLC): each stack and literal instruction leaves the data stack of its row, and nothing else of
the complex changes but the program counter. -/
def Obligations.StackInstructions : Prop :=
  ∀ (c : Instr) (i : Issue) (len : Nat) (f : Effect) (s : State) (d : List Word) (g : Ctx → Ctx),
    stackRow c = some (i, len, f) → s.Quiet i len → f (s.at' i) = some (d, g) → d.length ≤ 16 →
      (s.at' i).astack.length ≤ 8 → s.Leaves c i len d g

/-- Table INS.2 and BANK: the address stack instructions leave the two stacks of their row, and nothing else changes but the
program counter and, for BANK, CB (R157). -/
def Obligations.AddressStackInstructions : Prop :=
  ∀ (c : Instr) (i : Issue) (len : Nat) (f : Effect) (s : State) (d : List Word) (g : Ctx → Ctx), c.WF = true →
    addressRow c = some (i, len, f) → s.Quiet i len → f (s.at' i) = some (d, g) → d.length ≤ 16 →
      (g (s.at' i)).astack.length ≤ 8 → s.Leaves c i len d g

/-- Table INS.4 and Table BIN.2: the integer instructions leave the result and the flags of their row, and nothing else
changes but the program counter (R168, R217, R279, R280). -/
def Obligations.IntegerInstructions : Prop :=
  ∀ (c : Instr) (i : Issue) (len : Nat) (f : Effect) (s : State) (d : List Word) (g : Ctx → Ctx),
    integerRow c = some (i, len, f) → s.Quiet i len → f (s.at' i) = some (d, g) → d.length ≤ 16 →
      (s.at' i).astack.length ≤ 8 → s.Leaves c i len d g

/-- R280: whatever r, q and d are with r < d, one DSTEP keeps r × 2^36 + q's unread part against d: the new remainder is below
d, and r' + d × (quotient bit) is 2r + q[35]. R260: a division step of remainder r by D at position j gains sa × sd × q × 10^j, where q
is the lesser of 9 and |r| / (|D| × 10^j); it keeps remainder + D × gain, and the remainder never changes sign. A zero divisor gains
nines with the sign of r, or plus where r is 0, and leaves the remainder. -/
def Obligations.DivisionSteps : Prop :=
  (∀ r q d : Word, r.toNat < d.toNat →
    (divStep r q d).1.toNat < d.toNat ∧
      (divStep r q d).1.toNat + d.toNat * ((divStep r q d).2.toNat % 2) = 2 * r.toNat + q.toNat / 2 ^ 35 ∧
      (divStep r q d).2.toNat / 2 = q.toNat % 2 ^ 35) ∧
  ∀ (r d : Int) (j : Nat),
    let sa : Int := if r < 0 then -1 else 1
    let sd : Int := if d < 0 then -1 else 1
    (d ≠ 0 →
      (ledgerStep r d j).2 = sa * sd * (min 9 (r.natAbs / (d.natAbs * 10 ^ j)) : Nat) * 10 ^ j ∧
        (ledgerStep r d j).1 + d * (ledgerStep r d j).2 = r ∧
        0 ≤ (ledgerStep r d j).1 * r ∧ (ledgerStep r d j).1.natAbs ≤ r.natAbs) ∧
    (d = 0 → ledgerStep r d j = (r, sa * 9 * 10 ^ j))

/-! ## Instructions: memory -/

/-- Table INS.3: a load from local store words that the context may read pushes what they hold (R210, R211). No memory
changes. In native mode the next instruction still reads what the loaded cells held (R171). A load from the log deck or the service
ROM waits for its data at the instruction, and its job holds the granules that it reads (R139, R304). -/
def Obligations.LoadInstructions : Prop :=
  (∀ (c : Instr) (i : Issue) (l : LoadRow) (s : State), loadRow c (s.at' i) = some (i, l) → s.Quiet i 1 →
    (∀ a ∈ l.addrs, s.Readable i a) → (s.at' i).astack.length ≤ 8 →
      (l.pushes (s.localWord i)).length + ((s.at' i).depth - l.pops) ≤ 16 → s.Loads c i l) ∧
  ∀ (c : Instr) (i : Issue) (l : LoadRow) (s : State), loadRow c (s.at' i) = some (i, l) → s.Quiet i 1 →
    (∀ a ∈ l.addrs, s.accessBar i.isl.val i.ctx.val false a = none ∧ slow a = true ∧ s.eccBar i.isl.val a = none ∧
      ∀ e ∈ (s.engOf i).sbuf, e.addr ≠ a) → (s.at' i).astack.length ≤ 8 →
      (l.pushes (s.localWord i)).length + ((s.at' i).depth - l.pops) ≤ 16 →
      exec c s = .next ((l.addrs.foldl (fun t a => t.touch i.isl.val i.ctx.val a) s).retire i
        { s.at' i with memWait := some c, memAt := l.addrs, memGot := [] })

/-- Table INS.3: a store to words that the context may write, in the local store, the log deck or the engine's I/O words, enters the
store buffer with the bytes of its row (R212), where the buffer has room (R308); its job holds the granules that it names (R139). No
memory word changes until the buffer drains. -/
def Obligations.StoreInstructions : Prop :=
  ∀ (c : Instr) (i : Issue) (l : StoreRow) (s : State), storeRow c (s.at' i) = some (i, l) → s.Quiet i 1 →
    (∀ q ∈ l.parts, s.accessBar i.isl.val i.ctx.val true q.1 = none) → (s.engOf i).sbuf.length + l.parts.length ≤ 4 → (s.at' i).astack.length ≤ 8 →
      (s.at' i).depth - l.pops ≤ 16 →
      ∃ y : Ctx,
        y.Holds { s.at' i with
          pc := s.nextPc i 1
          astack := if l.bump then WAddr.plus (s.at' i).atop 1 :: (s.at' i).astack.tail else (s.at' i).astack }
          ((s.at' i).stack.drop l.pops) ∧
        exec c s = .next ((l.parts.foldl (fun t q => t.touch i.isl.val i.ctx.val q.1) (s.buffered i (l.entries i.ctx.val))).retire i y)

/-- STORE_BUFFER_DRAIN: the oldest entry leaves the buffer and its bytes are written; every other byte of local store and of the
log deck, and every other engine, reads as before; a write to a log deck line breaks the reservations of others on it (R141, R212,
R308). Two entries of one instruction drain together in local store (R183). LOAD_DATA_RETURN: a waiting load from words of one log
deck line takes them, and the context goes on; the next instruction receives the loaded value in both modes (R304). A waiting LOCK
reserves the line and opens its sequence (R141, R213). A waiting LOCKEND writes its word and pushes 1 where the reservation still
stands, and else pushes 0 and writes nothing; either way the sequence closes (R214). -/
def Obligations.MemoryEvents : Prop :=
  (∀ (p : Fin 272) (s : State) (e : StoreEntry) (r : List StoreEntry) (k : Nat), (s.eng p).sbuf = e :: r → e.bytes.length = 4 →
    (placeOf e.addr = .store k →
      (e.pair = false →
        ∃ t, exec (.storeBufferDrain ⟨p, .clean⟩) s = .next t ∧ (t.eng p).sbuf = r ∧
          (t.eng p).word k = mergeBytes e.bytes e.data ((s.eng p).word k) ∧ (∀ a, a ≠ k → (t.eng p).word a = (s.eng p).word a) ∧
          (∀ c, (t.eng p).ctx c = (s.eng p).ctx c) ∧ (∀ q, q ≠ p.val → t.eng q = s.eng q) ∧
          { t with engines := s.engines } = s.quietOut) ∧
      ∀ e' r' k', e.pair = true → r = e' :: r' → e'.bytes.length = 4 → placeOf e'.addr = .store k' → k ≠ k' →
        ∃ t, exec (.storeBufferDrain ⟨p, .clean⟩) s = .next t ∧ (t.eng p).sbuf = r' ∧
          (t.eng p).word k = mergeBytes e.bytes e.data ((s.eng p).word k) ∧
          (t.eng p).word k' = mergeBytes e'.bytes e'.data ((s.eng p).word k') ∧
          (∀ a, a ≠ k → a ≠ k' → (t.eng p).word a = (s.eng p).word a) ∧ { t with engines := s.engines } = s.quietOut) ∧
    (placeOf e.addr = .deck k → e.pair = false →
      ∃ t, exec (.storeBufferDrain ⟨p, .clean⟩) s = .next t ∧ (t.eng p).sbuf = r ∧
        t.deck k = mergeBytes e.bytes e.data (s.deck k) ∧ (∀ a, a ≠ k → t.deck a = s.deck a) ∧
        (∀ x, x ∈ t.ldk.resv ↔ x ∈ s.ldk.resv ∧ (x.1 = k / 8 → x.2 = (p.val, e.ctx))) ∧
        (∀ q, (t.eng q).lstore = (s.eng q).lstore ∧ (∀ c, (t.eng q).ctx c = (s.eng q).ctx c)) ∧
        { t with engines := s.engines, ldk := s.ldk } = s.quietOut)) ∧
  ∀ (a : At) (s : State) (i : Issue),
    let p := a.isl.val
    let c := a.ctx.val
    let x := s.ctx p c
    let x' := { x with memWait := none, memAt := [], memGot := [], pc := SAddr.plus x.pc 1 }
    (s.eng p).running = true → x.memGot = [] → x.shadow = [] → x.depth ≤ 16 →
    (s.Resumes p c 1 →
      (∀ (f : Instr) (l : LoadRow) (n : Nat), loadRow f x = some (i, l) → x.memWait = some f → x.memAt = l.addrs →
        (∀ v ∈ l.addrs, ∃ w, placeOf v = .deck w ∧ w / 8 = n ∧ w ∉ s.ldk.bad) →
        ∃ y : Ctx,
          y.Holds { x' with astack := if l.bump then WAddr.plus x.atop 1 :: x.astack.tail else x.astack }
            (l.pushes (s.wordAt p) ++ x.stack.drop l.pops) ∧
          exec (.loadDataReturn a .clean) s = .next (s.quietOut.putCtx p c y)) ∧
      ∀ (n : BitVec 4) (v : WAddr) (r : List WAddr) (w : Nat), x.memWait = some (.lock i n) → x.astack = v :: r → x.memAt = [v] →
        placeOf v = .deck w → w ∉ s.ldk.bad →
        ∃ y : Ctx, y.Holds { x' with lock := some { inDeck := true, line := w / 8, left := n.toNat } } (s.deck w :: x.stack) ∧
          exec (.loadDataReturn a .clean) s = .next ((s.quietOut.reserve p c (w / 8)).putCtx p c y) ∧
          (w / 8, p, c) ∈ (s.reserve p c (w / 8)).ldk.resv) ∧
    ∀ (v : WAddr) (r : List WAddr) (w : Nat) (u : Word) (d : List Word) (n : Nat), (s.eng p).Calm → x.modePend = [] → x.rep = none →
      x.ending = none → (s.jobAt p c).any (fun j => j.squashDue) = false → (∀ l ∈ x.loops, l.passedBy x.pc 1 = false) →
      x.memWait = some (.lockend i) → x.astack = v :: r → x.memAt = [v] → placeOf v = .deck w → w ∉ s.ldk.bad → x.stack = u :: d →
      x.lock = some { inDeck := true, line := w / 8, left := n } →
      let holds : Bool := s.ldk.resv.contains (w / 8, p, c)
      Completes (.loadDataReturn a .clean) s fun t =>
        (t.ctx p c).Holds { x' with lock := none } ((if holds then 1 else 0) :: d) ∧
          (∀ k, t.deck k = if holds = true ∧ k = w then u else s.deck k) ∧ (∀ q ∈ t.ldk.resv, q.2 ≠ (p, c)) ∧
          (∀ q, q ≠ p → t.eng q = s.eng q) ∧ { t with engines := s.engines, ldk := s.ldk } = s.quietOut

/-- LOCK n from local store (R213): the word is pushed, interlocked in both modes, and a sequence of n instructions opens over
the aligned 8 words that hold it; from the log deck it waits for its data. LOCKEND inside an unbroken sequence over the line of a (R214), with the store buffer empty: in local
store the word is written, 1 is pushed and the sequence closes, and no other word changes; in the log deck it waits for the slice.
Where no sequence is open, or it is broken, or a lies in another line, 0 is pushed, nothing is written, and the sequence closes. -/
def Obligations.LockedSequences : Prop :=
  (∀ (i : Issue) (n : BitVec 4) (s : State) (a : WAddr) (r : List WAddr), (Instr.lock i n).WF = true → s.Quiet i 1 →
    (s.at' i).astack = a :: r → (s.at' i).astack.length ≤ 8 → s.Readable i a → (s.at' i).depth < 16 →
      s.Leaves (.lock i n) i 1 (s.localWord i a :: (s.at' i).stack) fun y =>
        { y with lock := some { inDeck := false, line := (a.extractLsb' 0 16).toNat / 8, left := n.toNat } }) ∧
  (∀ (i : Issue) (n : BitVec 4) (s : State) (a : WAddr) (r : List WAddr), (Instr.lock i n).WF = true → s.Quiet i 1 →
    (s.at' i).astack = a :: r → (s.at' i).astack.length ≤ 8 → (s.at' i).depth < 16 → slow a = true →
    s.accessBar i.isl.val i.ctx.val false a = none → s.eccBar i.isl.val a = none → (∀ e ∈ (s.engOf i).sbuf, e.addr ≠ a) →
      exec (.lock i n) s = .next ((s.touch i.isl.val i.ctx.val a).retire i
        { s.at' i with memWait := some (.lock i n), memAt := [a], memGot := [] })) ∧
  (∀ (i : Issue) (s : State) (a : WAddr) (r : List WAddr) (v : Word) (d : List Word), s.Boundary i 1 →
    (∀ r ∈ s.ldk.resv, r.2 ≠ (i.isl.val, i.ctx.val)) → (s.at' i).astack = a :: r → (s.at' i).astack.length ≤ 8 →
    (s.at' i).stack = v :: d → (s.at' i).depth ≤ 16 → s.Plain i true a →
    (∀ n, (s.at' i).lock = some ⟨false, (a.extractLsb' 0 16).toNat / 8, n, false⟩ → (s.engOf i).sbuf = [] →
      (a.extractLsb' 0 16).toNat ∉ (s.engOf i).bad →
      ∃ y : Ctx, y.Holds { s.at' i with pc := s.nextPc i 1, lock := none } (1 :: d) ∧
        exec (.lockend i) s = .next ((s.modEng i.isl.val fun e => e.putWord (a.extractLsb' 0 16).toNat v).retire i y)) ∧
    ((∀ l, (s.at' i).lock = some l → l.inDeck = true ∨ l.broken = true ∨ l.line ≠ (a.extractLsb' 0 16).toNat / 8) →
      ∃ y : Ctx, y.Holds { s.at' i with pc := s.nextPc i 1, lock := none } (0 :: d) ∧ exec (.lockend i) s = .next (s.retire i y))) ∧
  ∀ (i : Issue) (s : State) (a : WAddr) (r : List WAddr) (w n : Nat), s.Boundary i 1 →
    (s.at' i).astack = a :: r → (s.at' i).astack.length ≤ 8 → 1 ≤ (s.at' i).depth → (s.at' i).depth ≤ 16 → placeOf a = .deck w →
    s.accessBar i.isl.val i.ctx.val true a = none → (s.at' i).lock = some ⟨true, w / 8, n, false⟩ →
    s.ldk.resv.contains (w / 8, i.isl.val, i.ctx.val) = true → (s.engOf i).sbuf = [] → w ∉ s.ldk.bad →
      exec (.lockend i) s = .next ((s.touch i.isl.val i.ctx.val a).retire i
        { s.at' i with memWait := some (.lockend i), memAt := [a], memGot := [] })

/-! ## Instructions: control -/

/-- Table INS.6: a transfer that is taken goes to the target of its row, with its pops, its return address and the loop
levels it leaves (R173, R193, R196, R204, R218, R219). BR, BZ, BNZ and CALL do so where MODE.FR is 0, the others in both modes. -/
def Obligations.TransfersTaken : Prop :=
  ∀ (c : Instr) (i : Issue) (target : SAddr) (closes : Bool) (d : List Word) (g : Ctx → Ctx) (s : State),
    hopRow c (s.at' i) = some (i, target, closes, d, g) → s.Quiet i (hopLen c) → s.dbg.trcEn = false →
      (slotted c = true → (s.at' i).mode.getLsbD 0 = false) → d.length ≤ 16 → (s.at' i).astack.length ≤ 8 →
      s.Jumps c i d g target closes

/-- R172 and R204: in forerunner mode a taken BR, BZ, BNZ or CALL leaves its pops and, for CALL, the return address behind its slot, and
its target waits while the slot after it runs. R172: a short stack, address stack or integer instruction in the slot of a taken branch
retires with the branch: it has its effect, and the context goes on at the branch's target, with the loop levels that the branch leaves
closed. A trap in the slot, here of a DROP without a cell, undoes the branch and names it. -/
def Obligations.DelaySlots : Prop :=
  (∀ (c : Instr) (i : Issue) (target : SAddr) (closes : Bool) (d : List Word) (g : Ctx → Ctx) (s : State), slotted c = true →
    hopRow c (s.at' i) = some (i, target, closes, d, g) → s.Quiet i (hopLen c) → (s.at' i).mode.getLsbD 0 = true →
      d.length ≤ 16 → (s.at' i).astack.length ≤ 8 →
      ∃ y : Ctx, y.Holds { g (s.at' i) with pc := s.nextPc i (hopLen c) } d ∧
        exec c s = .next (s.quietOut.putEng i.isl.val
          { (s.engOf i).putCtx i.ctx.val y with
            lastIssued := i.ctx.val
            slot := some { ctx := i.ctx.val, saved := s.at' i, target := target, leaves := closes } })) ∧
  (∀ (c : Instr) (i : Issue) (f : Effect) (s : State) (q : DelaySlot) (d : List Word) (g : Ctx → Ctx), c.WF = true →
    stackRow c = some (i, 1, f) ∨ addressRow c = some (i, 1, f) ∨ integerRow c = some (i, 1, f) → s.InSlot i q →
    f (s.at' i) = some (d, g) → d.length ≤ 16 → (s.at' i).astack.length ≤ 8 → (g (s.at' i)).astack.length ≤ 8 →
      let x := s.at' i
      ∃ y : Ctx,
        y.Holds { g x with
          pc := q.target, loops := if q.leaves then closeLeft q.saved.pc q.target x.loops else x.loops } d ∧
        exec c s = .next (s.quietOut.putEng i.isl.val
          { (s.engOf i).putCtx i.ctx.val y with lastIssued := i.ctx.val, slot := none })) ∧
  ∀ (i : Issue) (s : State) (q : DelaySlot), s.InSlot i q → s.ownStore i.isl.val → (s.at' i).depth = 0 → q.saved.trapReady →
    q.saved.Plain → q.saved.shadow = [] → q.saved.haltPend = false → q.saved.ending = none → q.saved.job = (s.at' i).job →
    (∀ r ∈ s.ldk.resv, r.2 ≠ (i.isl.val, i.ctx.val)) →
      ∃ w : Window, w.list = [trapCell 3 0 i.ctx.val false, q.saved.pc.setWidth 36] ∧
        exec (.drop i) s = .next (s.quietOut.putEng i.isl.val
          { (s.engOf i).putCtx i.ctx.val (q.saved.inTrap 3 q.saved.pc w) with lastIssued := i.ctx.val, slot := none })

/-- Table INS.6, SETRC, REP, LOOP with a count above 0, YIELD and MODE: what does not transfer goes on at the next syllable
with the effect of its row (R169, R173, R174, R218, R219, R223). The instruction behind REP runs once for each count, and not at all for
the count 0 (R174). An instruction that passes the end of the innermost loop level counts it: the body repeats, or the level closes
(R173); a branch there goes to its target (R220). The instruction behind a load in native mode reads the cells as they were (R171), but
once another context has issued it reads the loaded data. Each instruction within a locked sequence counts it, and its last one ends it
with its reservation (R215). -/
def Obligations.ControlGoesOn : Prop :=
  (∀ (c : Instr) (i : Issue) (len : Nat) (f : Effect) (s : State) (d : List Word) (g : Ctx → Ctx),
    controlRow c = some (i, len, f) → s.Quiet i len → f (s.at' i) = some (d, g) → d.length ≤ 16 →
      (s.at' i).astack.length ≤ 8 → s.Leaves c i len d g) ∧
  (∀ (c : Instr) (i : Issue) (f : Effect) (s : State) (d : List Word) (g : Ctx → Ctx) (r : BitVec 8),
    let x := s.at' i
    repeated c = true → stackRow c = some (i, 1, f) ∨ integerRow c = some (i, 1, f) → s.Turn i 1 → x.shadow = [] → x.lock = none →
    (∀ l ∈ x.loops, l.passedBy x.pc 1 = false) → x.rep = some r → f x = some (d, g) → d.length ≤ 16 → x.astack.length ≤ 8 →
      (r = 0 → exec c s = .next (s.retire i { x with rep := none, pc := s.nextPc i 1 })) ∧
      (r ≠ 0 → ∃ y : Ctx,
        y.Holds { g x with rep := if r = 1 then none else some (r - 1), pc := if r = 1 then s.nextPc i 1 else x.pc } d ∧
        exec c s = .next (s.retire i y))) ∧
  (∀ (c : Instr) (i : Issue) (len : Nat) (f : Effect) (s : State) (d : List Word) (g : Ctx → Ctx) (ls : List LoopLevel) (l : LoopLevel),
    let x := s.at' i
    stackRow c = some (i, len, f) ∨ integerRow c = some (i, len, f) → s.Turn i len → x.shadow = [] → x.lock = none → x.rep = none →
    x.loops = ls ++ [l] → l.passedBy x.pc len = true → (∀ k ∈ ls, k.passedBy x.pc len = false) →
    f x = some (d, g) → d.length ≤ 16 → x.astack.length ≤ 8 →
      ∃ y : Ctx,
        y.Holds { g x with
          pc := if 1 < l.count.toNat then l.start else s.nextPc i len
          loops := if 1 < l.count.toNat then ls ++ [{ l with count := l.count - 1 }] else ls } d ∧
        exec c s = .next (s.retire i y)) ∧
  (∀ (i : Issue) (o : BitVec 4) (s : State) (l : LoopLevel),
    let x := s.at' i
    let target := SAddr.offset x.pc (shortReach o)
    s.Turn i 1 → x.shadow = [] → x.lock = none → (∀ r ∈ s.ldk.resv, r.2 ≠ (i.isl.val, i.ctx.val)) → x.rep = none →
    x.mode.getLsbD 0 = false → s.dbg.trcEn = false → x.depth ≤ 16 → x.astack.length ≤ 8 → x.loops = [l] → l.passedBy x.pc 1 = true →
    l.body x.pc = true →
      exec (.br i o) s = .next (s.retire i { x with
        pc := target
        loops := if l.body target = true ∧ 1 < l.count.toNat then [{ l with count := l.count - 1 }] else [] })) ∧
  (∀ (i : Issue) (s : State),
    let x := s.at' i
    s.Turn i 1 → (s.engOf i).lastIssued = i.ctx.val → x.lock = none → x.rep = none → (∀ l ∈ x.loops, l.passedBy x.pc 1 = false) →
    2 ≤ x.depth → x.depth ≤ 16 → x.astack.length ≤ 8 →
      let q := exactFlags ((x.top 1).toNat + (x.top 0).toNat) ((x.top 1).toInt + (x.top 0).toInt)
      ∃ y : Ctx, y.Holds { x.setFlags q.2 with shadow := [], pc := s.nextPc i 1 } (q.1 :: x.stack.drop 2) ∧
        exec (.add i) s = .next (s.retire i y)) ∧
  (∀ (c : Instr) (i : Issue) (len : Nat) (f : Effect) (s : State),
    stackRow c = some (i, len, f) ∨ integerRow c = some (i, len, f) → s.Turn i len → (s.engOf i).lastIssued ≠ i.ctx.val →
      exec c s = exec c (s.putCtx i.isl.val i.ctx.val { s.at' i with shadow := [] })) ∧
  ∀ (c : Instr) (i : Issue) (len : Nat) (f : Effect) (s : State) (d : List Word) (g : Ctx → Ctx) (l : LockSeq),
    let x := s.at' i
    stackRow c = some (i, len, f) ∨ integerRow c = some (i, len, f) → s.Boundary i len → x.lock = some l →
    f x = some (d, g) → d.length ≤ 16 → x.astack.length ≤ 8 →
      ∃ y : Ctx,
        y.Holds { g x with pc := s.nextPc i len, lock := if 1 < l.left then some { l with left := l.left - 1 } else none } d ∧
        exec c s = .next ((if 1 < l.left then s else
          { s with ldk := { s.ldk with resv := s.ldk.resv.filter fun r => r.2 != (i.isl.val, i.ctx.val) } }).retire i y)

/-- CALLW and CALLWT open a window that holds their k cells, over the caller's window without them (R162, R164). RETW appends
the callee's cells to its caller's window, which becomes the current one (R163). -/
def Obligations.WindowedCalls : Prop :=
  (∀ (c : Instr) (i : Issue) (target : SAddr) (len : Nat) (new old : List Word) (s : State), c.WF = true →
    windowRow c (s.at' i) = some (i, target, len, new, old) → s.Quiet i len → s.dbg.trcEn = false → (s.at' i).tw = false →
      (s.at' i).windows.length < 8 → (s.at' i).callRoom = true → old.length ≤ 16 →
      (s.at' i).astack.length ≤ 8 →
      ∃ w v : Window, w.list = new ∧ v.list = old ∧
        exec c s = .next (s.retire i
          { pushed (SAddr.plus (s.at' i).pc len) (s.at' i) with
            pc := target, windows := w :: v :: (s.at' i).windows.tail })) ∧
  ∀ (i : Issue) (s : State) (u v : Window) (ws : List Window) (ra : SAddr) (rs : List SAddr), s.Quiet i 1 →
    s.dbg.trcEn = false → (s.at' i).tw = false → (s.at' i).windows = u :: v :: ws → (s.at' i).rstack = ra :: rs →
    u.depth + v.depth ≤ 16 → (s.at' i).astack.length ≤ 8 →
      ∃ w : Window, w.list = u.list ++ v.list ∧
        exec (.retw i) s = .next (s.retire i
          { s.at' i with
            pc := ra, rstack := rs, windows := w :: ws, loops := closeLeft (s.at' i).pc ra (s.at' i).loops })

/-- RETI (R178): C, V, Z, N, TW and the REP state come from the flags entry, the resume address is popped, and a trap window
that closes is discarded. TRAP n takes trap 16 + n with sub-code n after it: N holds its address, and the context resumes behind
it (R177). The entry's micro-routine is here the ROM's own (R319, log entry 53). -/
def Obligations.TrapsAndReturns : Prop :=
  (∀ (i : Issue) (s : State) (e ra : SAddr) (rs : List SAddr), s.Quiet i 1 → s.dbg.trcEn = false →
    (s.at' i).rstack = e :: ra :: rs → (s.at' i).depth ≤ 16 → (s.at' i).astack.length ≤ 8 →
      let closes := (s.at' i).tw && !e.getLsbD 4
      exec (.reti i) s = .next (s.retire i
        { s.at' i with
          pc := ra, rstack := rs, loops := closeLeft (s.at' i).pc ra (s.at' i).loops
          c := e.getLsbD 0, v := e.getLsbD 1, z := e.getLsbD 2, n := e.getLsbD 3, tw := e.getLsbD 4
          rep := if e.getLsbD 5 then some (e.extractLsb' 6 8) else none
          trapWin := if closes then Window.empty else (s.at' i).trapWin })) ∧
  ∀ (i : Issue) (n : BitVec 4) (s : State), s.Quiet i 1 → s.dbg.trcEn = false → (s.at' i).trapReady → (s.at' i).depth ≤ 16 →
    (s.at' i).astack.length ≤ 8 → s.ownStore i.isl.val →
    s.Traps (.trap i n) i (16 + n.toNat) n.toNat (s.at' i).pc (s.nextPc i 1)

/-- Too few cells for a stack, integer or ledger operand raise STACK_UNDER with sub-code 0 before any effect: N and the resume
address name the instruction (R161, R175, R206); that the data stack comes first where the address stack fails too is log entry 21, the
model's choice. R200: a keeper-only instruction in a job context raises ILLEGAL with sub-code
0x05, and a job-only one in the keeper ILLEGAL with sub-code 0x06, before any effect. Syllables at the PC that Tables ENC.1 to ENC.3
do not list raise ILLEGAL with the lowest sub-code of 0x01 to 0x04 that applies (R192, R194, R199). Too few addresses, too many cells and
too many addresses, a forbidden or an uncorrectable word, a ninth window, no window to return to, no room for a return address and none
to return to, and an extension that is absent raise STACK_UNDER, STACK_OVER, ACCESS, ECC_UNCORR, WINDOW_OVER, WINDOW_UNDER,
RSTACK_OVER, RSTACK_UNDER and EXT_ABSENT (R176, Table ENG.11). UNIT_ERROR and LEDGER follow their instruction (R175, R228, R252): a
decimal operand that fails its check raises LEDGER with its sub-code, and an overflow raises it where its enable bit is set. With TW 1
a trap of a job context is a DOUBLE_FAULT: the context is FROZEN, and the trap is delivered to the keeper (R179). In each case the
entry's micro-routine is the ROM's own (R319, log entry 53). -/
def Obligations.TrapsBeforeEffect : Prop :=
  (∀ (c : Instr) (i : Issue) (need : Nat) (s : State),
    (match c with
      | .drop j => (i, need) = (j, 1)
      | .dup j => (i, need) = (j, 1)
      | .swap j => (i, need) = (j, 2)
      | .rot j => (i, need) = (j, 3)
      | .swap2 j => (i, need) = (j, 4)
      | .pick j n => (i, need) = (j, n.toNat + 1)
      | .add j => (i, need) = (j, 2)
      | .neg j => (i, need) = (j, 1)
      | .mul j => (i, need) = (j, 2)
      | .dstep j => (i, need) = (j, 3)
      | .toa j => (i, need) = (j, 1)
      | .st j => (i, need) = (j, 1)
      | .fadd j => (i, need) = (j, 4)
      | .fma j => (i, need) = (j, 6)
      | .lflags j => (i, need) = (j, 2)
      | _ => False) →
    s.Quiet i 1 → s.ownStore i.isl.val → s.dbg.trcEn = false → (s.at' i).trapReady → (s.at' i).depth < need →
      s.Traps c i 3 0 (s.at' i).pc (s.at' i).pc) ∧
  (∀ (c : Instr) (i : Issue) (len : Nat) (job : Bool) (s : State),
    (match c with
      | .eoi j => (i, len, job) = (j, 1, false)
      | .claim j => (i, len, job) = (j, 1, false)
      | .pendq j => (i, len, job) = (j, 1, false)
      | .setpend j => (i, len, job) = (j, 1, false)
      | .mboxSend j => (i, len, job) = (j, 2, false)
      | .mboxReceive j => (i, len, job) = (j, 2, false)
      | .mboxQuery j => (i, len, job) = (j, 2, false)
      | .ldesc j _ space keeper => (i, len, job) = (j, 2, !keeper) ∧ space ≠ 3
      | .xfer j .. => (i, len, job) = (j, 2, true)
      | .creq j mode _ => (i, len, job) = (j, 2, true) ∧ mode.toNat < 8
      | .zreq j .. => (i, len, job) = (j, 2, true)
      | .waitu j _ => (i, len, job) = (j, 2, true)
      | _ => False) →
    s.Quiet i len → s.ownStore i.isl.val → s.dbg.trcEn = false → (s.at' i).trapReady → (if job then i.ctx = 0 else i.ctx ≠ 0) →
      s.Traps c i 0 (if job then 6 else 5) (s.at' i).pc (s.at' i).pc) ∧
  (∀ (c : Instr) (i : Issue) (s : State),
    (match c with
      | .commit j => i = j
      | .abort j detail trapf => i = j ∧ (trapf = true → detail = 0)
      | _ => False) →
    s.Quiet i 2 → s.ownStore i.isl.val → s.dbg.trcEn = false → (s.at' i).trapReady → (s.at' i).wait = .nothing → i.ctx = 0 →
      ∃ w : Window, w.list = [trapCell 0 6 0 false, (s.at' i).pc.setWidth 36] ∧
        exec c s = .next (s.retire i ((s.at' i).inTrap 0 (s.at' i).pc w)).settle) ∧
  (∀ (i : Issue) (a b : BitVec 9) (k : Nat) (s : State), s.Quiet i 1 → s.ownStore i.isl.val → s.dbg.trcEn = false →
    (s.at' i).trapReady → syllableFault i a b ((s.at' i).pc.getLsbD 0) = some k →
    let j := { i with bad := some (a, b) }
    s.Traps (.nop j) j 0 k (s.at' i).pc (s.at' i).pc) ∧
  (∀ (c : Instr) (i : Issue) (len code sub : Nat) (s : State),
    let x := s.at' i
    let bar := s.accessBar i.isl.val i.ctx.val
    (match c with
      | .dup j => (i, len, code, sub) = (j, 1, 4, 0) ∧ x.depth = 16
      | .over j => (i, len, code, sub) = (j, 1, 4, 0) ∧ x.depth = 16
      | .pick j _ => (i, len, code, sub) = (j, 1, 4, 0) ∧ x.depth = 16
      | .lit j _ => (i, len, code, sub) = (j, 1, 4, 0) ∧ x.depth = 16
      | .toa j => (i, len, code, sub) = (j, 1, 4, 1) ∧ 1 ≤ x.depth ∧ x.depth ≤ 16 ∧ x.astack.length = 8
      | .adup j => (i, len, code, sub) = (j, 1, 4, 1) ∧ x.depth ≤ 16 ∧ x.astack.length = 8
      | .adrop j => (i, len, code, sub) = (j, 1, 3, 1) ∧ x.depth ≤ 16 ∧ x.astack = []
      | .ld j =>
        (i, len) = (j, 1) ∧ ((code, sub) = (3, 1) ∧ x.astack = [] ∨
          x.depth < 16 ∧ x.astack ≠ [] ∧ x.astack.length ≤ 8 ∧
            ((bar false x.atop = some sub ∧ code = 2) ∨
              (bar false x.atop = none ∧ s.eccBar i.isl.val x.atop = some sub ∧ code = 14 ∧
                ∀ e ∈ (s.engOf i).sbuf, e.addr ≠ x.atop)))
      | .st j => (i, len) = (j, 1) ∧ 1 ≤ x.depth ∧ x.depth ≤ 16 ∧ x.astack ≠ [] ∧ x.astack.length ≤ 8 ∧ bar true x.atop = some sub ∧
          code = 2
      | .callw j k _ => (i, len, code, sub) = (j, 2, 5, 0) ∧ k.toNat ≤ 4 ∧ k.toNat ≤ x.depth ∧ x.depth ≤ 16 ∧ x.astack.length ≤ 8 ∧
          x.windows.length = 8
      | .retw j => (i, len, code, sub) = (j, 1, 6, 0) ∧ x.depth ≤ 16 ∧ x.astack.length ≤ 8 ∧ x.windows.length = 1 ∧ 0 < x.spilled
      | .callt j => (i, len, code, sub) = (j, 1, 7, 0) ∧ 1 ≤ x.depth ∧ x.depth ≤ 16 ∧ x.astack.length ≤ 8 ∧ x.callRoom = false
      | .ret j => (i, len, code, sub) = (j, 1, 8, 0) ∧ x.depth ≤ 16 ∧ x.astack.length ≤ 8 ∧ x.rstack = []
      | .extensionInstruction j leader _ => (i, len, code, sub) = (j, 2, 1, leader.toNat) ∧
          (s.glb.present.getD (i.isl.val / 17) 0).getLsbD leader.toNat = false
      | _ => False) →
    s.Quiet i len → s.ownStore i.isl.val → s.dbg.trcEn = false → x.trapReady → s.Traps c i code sub x.pc x.pc) ∧
  (∀ (i : Issue) (s : State) (test : Bool) (u : Word) (d : List Word) (t : UnitTag), i.ctx ≠ 0 → s.Quiet i 2 →
    s.ownStore i.isl.val → s.dbg.trcEn = false → (s.at' i).trapReady → (s.at' i).stack = u :: d → (s.at' i).depth ≤ 16 →
    (s.at' i).astack.length ≤ 8 → Assoc.lookup (s.at' i).unitTags (u.toNat % 16) = some t → t.done.isSome = true →
    t.unitError = true →
      s.TrapsAfter (.waitu i test) i d (fun y => { y with unitTags := Assoc.erase y.unitTags (u.toNat % 16) }) 15 0
        (s.at' i).pc (s.nextPc i 2)) ∧
  (∀ (i : Issue) (a : BitVec 2) (s : State) (w : Word) (d : List Word), s.Quiet i 1 → s.ownStore i.isl.val → s.dbg.trcEn = false →
    (∀ k < 11, (s.at' i).ledger.sound k = true) → (s.at' i).stack = w :: d → (s.at' i).depth ≤ 16 → (s.at' i).astack.length ≤ 8 →
      let l := (s.at' i).ledger
      let flagged := fun (f : Word) (y : Ctx) => { y with ledger := { l.seal l with status := l.status ||| f } }
      (∀ k, (s.at' i).trapReady → cellDecimal w = .bad k →
        s.TrapsAfter (.ladd i a false) i d (flagged 0x20) 9 k (s.at' i).pc (s.nextPc i 1)) ∧
      ∀ v, cellDecimal w = .value v → (l.acc a).addAt v (operandScale l a) = none →
        (l.status.getLsbD 8 = true → (s.at' i).trapReady →
          s.TrapsAfter (.ladd i a false) i d (flagged 0x01) 9 7 (s.at' i).pc (s.nextPc i 1)) ∧
        (l.status.getLsbD 8 = false → s.Leaves (.ladd i a false) i 1 d (flagged 0x01))) ∧
  ∀ (i : Issue) (s : State), i.ctx ≠ 0 → s.Quiet i 1 → (s.at' i).tw = true → (s.at' i).depth = 0 →
    Completes (.drop i) s fun t =>
      (t.at' i).state = .frozen ∧ (t.at' i).stack = (s.at' i).stack ∧ (t.at' i).pc = (s.at' i).pc ∧
        (t.engOf i).delivered = deliverInto (s.engOf i).delivered
          ⟨i.ctx.val, trapCell 12 0 i.ctx.val false + BitVec.ofNat 36 (131072 * 3), (s.at' i).pc⟩ ∧
        t.ctx i.isl.val 0 = (s.ctx i.isl.val 0).awaken

/-! ## Instructions: system -/

/-- FEAT, TBR, CTXQ, PENDQ and MBOX query push what the machine holds (R185, R188, R201, R224, R370) and change nothing
else. -/
def Obligations.QueryInstructions : Prop :=
  ∀ (c : Instr) (i : Issue) (len : Nat) (f : Effect) (s : State) (d : List Word) (g : Ctx → Ctx),
    queryRow s c = some (i, len, f) → s.Quiet i len → (microCoded c = true → s.ownStore i.isl.val) → f (s.at' i) = some (d, g) → d.length ≤ 16 → (s.at' i).astack.length ≤ 8 →
      s.Leaves c i len d g

/-- SLEEP in a job context: for t ticks above 0 it sleeps until t ticks from now, and t = 0 acts as YIELD (R187). EOI drops the
top of the keeper's priority stack (R372); CLAIM returns a source's arrival count and clears the source (R369); SETPEND is an
arrival at a source (R363): where the source is signalled already or disabled it stays so, else the first awake enabled target in the
order of R367 receives it, and with none awake and WAKE 1 the first sleeping one, whose keeper wakes. SLEEP in the keeper goes on where
an interrupt, an event or a delivered trap is pending; else the keeper sleeps, without a limit for t = 0 (R187). -/
def Obligations.SleepAndEvents : Prop :=
  (∀ (i : Issue) (s : State) (t : Word) (d : List Word), i.ctx ≠ 0 → s.Quiet i 1 → (s.at' i).stack = t :: d → d.length ≤ 16 →
    (s.at' i).astack.length ≤ 8 →
    s.Leaves (.sleep i) i 1 d fun y => if t = 0 then y else { y with state := .sleeping, wake := some (s.now + t.toNat) }) ∧
  ∀ (i : Issue) (s : State), i.ctx = 0 → s.Quiet i 1 → s.ownStore i.isl.val → (s.at' i).depth ≤ 16 → (s.at' i).astack.length ≤ 8 →
    (∃ y : Ctx, y.Holds { s.at' i with pc := s.nextPc i 1 } (s.at' i).stack ∧
      exec (.eoi i) s = .next ((s.modEng i.isl.val fun e => { e with pstack := e.pstack.tail }).retire i y)) ∧
    (∀ v d, (s.at' i).stack = v :: d →
      let n := v.toNat % 1024
      let c := s.src n
      ∃ y : Ctx, y.Holds { s.at' i with pc := s.nextPc i 1 } ((if c.pend then BitVec.ofNat 36 c.count.toNat else 0) :: d) ∧
        exec (.claim i) s = .next ((if c.pend then s.putSrc n { c with count := 0, pend := false, sig := false } else s).retire i y)) ∧
    (∀ v d, (s.at' i).stack = v :: d →
      let n := v.toNat % 1024
      let c := s.src n
      c.sig = true ∨ c.prio = 0 → c.count.toNat < 255 →
      ∃ y : Ctx, y.Holds { s.at' i with pc := s.nextPc i 1 } d ∧
        exec (.setpend i) s = .next ((s.putSrc n { c with count := c.count + 1, pend := true }).retire i y)) ∧
    (∀ v d e, (s.at' i).stack = v :: d →
      let n := v.toNat % 1024
      let c := s.src n
      let order := searchOrder c.engine.toNat
      c.sig = false → c.prio ≠ 0 → c.count.toNat < 255 →
      (order.find? (fun k => s.enabledTarget n k && s.awake (s.physOf k)) = some e →
        ∃ y : Ctx, y.Holds { s.at' i with pc := s.nextPc i 1 } d ∧
          exec (.setpend i) s = .next ((s.putSrc n { c with
            count := c.count + 1, pend := true, sig := true, engine := BitVec.ofNat 8 e }).retire i y)) ∧
      (order.find? (fun k => s.enabledTarget n k && s.awake (s.physOf k)) = none → c.wakeEn = true → s.noneWaits →
        order.find? (fun k => s.enabledTarget n k && (s.ctx (s.physOf k) 0).state == .sleeping) = some e →
        Completes (.setpend i) s fun t =>
          t.src n = { c with count := c.count + 1, pend := true, sig := true, engine := BitVec.ofNat 8 e } ∧
            (∀ k, k ≠ n → t.src k = s.src k) ∧ (t.ctx (s.physOf e) 0).state = .ready ∧ (t.ctx (s.physOf e) 0).wake = none ∧
            (t.at' i).Holds { s.at' i with pc := s.nextPc i 1 } d)) ∧
    (∀ v d, (s.at' i).stack = v :: d → (∀ n ∈ s.signalled i.isl.val, (s.engOf i).level < (s.src n).prio.toNat) → s.noneWaits →
      (s.keeperPending i.isl.val = true → s.Leaves (.sleep i) i 1 d id) ∧
      (s.keeperPending i.isl.val = false →
        s.Leaves (.sleep i) i 1 d fun y => { y with state := .sleeping, wake := if v = 0 then none else some (s.now + v.toNat) }))

/-- MBOX send and receive (R224, Table INS.9): a word enters the mailbox of an engine in service that has room, and 1 is
pushed; a send to an engine that is not in service, or whose mailbox holds 8 words, pushes 0 and sends nothing (the latter is counted,
Table EVC.3); receive takes the oldest word and pushes it with 1 above it, or two zeros from an empty mailbox. -/
def Obligations.MailboxInstructions : Prop :=
  ∀ (i : Issue) (s : State), i.ctx = 0 → s.Quiet i 2 → s.ownStore i.isl.val → (s.at' i).astack.length ≤ 8 →
    (∀ e v d, (s.at' i).stack = e :: v :: d → (s.at' i).depth ≤ 16 → s.inService (e.toNat % 256) = true →
      let q := s.physOf (e.toNat % 256)
      let c := s.src (256 + q)
      (s.eng q).mbox.length < 8 → (c.sig = true ∨ c.prio = 0) → c.count.toNat < 255 →
      ∃ y : Ctx, y.Holds { s.at' i with pc := s.nextPc i 2 } (1 :: d) ∧
        exec (.mboxSend i) s =
          .next (((s.modEng q fun x => { x with mbox := x.mbox ++ [v] }).putSrc (256 + q)
            { c with count := c.count + 1, pend := true }).retire i y)) ∧
    (∀ e v d, (s.at' i).stack = e :: v :: d → (s.at' i).depth ≤ 16 →
      let q := s.physOf (e.toNat % 256)
      (s.inService (e.toNat % 256) = false →
        ∃ y : Ctx, y.Holds { s.at' i with pc := s.nextPc i 2 } (0 :: d) ∧ exec (.mboxSend i) s = .next (s.retire i y)) ∧
      (s.inService (e.toNat % 256) = true → 8 ≤ (s.eng q).mbox.length →
        ∃ y : Ctx, y.Holds { s.at' i with pc := s.nextPc i 2 } (0 :: d) ∧
          exec (.mboxSend i) s = .next ((s.modEng q fun x => { x with mbRefused := satInc x.mbRefused }).retire i y))) ∧
    ((s.at' i).depth ≤ 14 →
      ∃ y : Ctx,
        y.Holds { s.at' i with pc := s.nextPc i 2 }
          ((if (s.engOf i).mbox = [] then 0 else 1) :: (s.engOf i).mbox.headD 0 :: (s.at' i).stack) ∧
        exec (.mboxReceive i) s = .next ((s.modEng i.isl.val fun x => { x with mbox := x.mbox.tail }).retire i y))

/-- SPILLW in a WINDOW_OVER handler: with room between WSP and WSL the oldest of several resident windows goes to its frame in local
store, and 1 is pushed (R160, R165, Table ENG.8). FILLW in a WINDOW_UNDER handler brings back the newest spilled window from its
frame, and 1 is pushed. -/
def Obligations.WindowSpills : Prop :=
  ∀ (i : Issue) (s : State), s.Quiet i 1 → s.ownStore i.isl.val → (s.at' i).tw = true → (s.at' i).depth < 16 → (s.at' i).astack.length ≤ 8 →
    (s.engOf i).sbuf = [] →
    (∀ w ws, (s.at' i).windows = ws ++ [w] → ws ≠ [] → (s.at' i).twCause = 5 → (s.at' i).wsp.toNat + 17 ≤ (s.at' i).wsl.toNat →
      (∀ k < 17, s.Plain i true (frameAddr (s.at' i).wsp k)) →
      ∃ y : Ctx,
        y.Holds { s.at' i with
          pc := s.nextPc i 1, windows := ws, spilled := (s.at' i).spilled + 1, wsp := (s.at' i).wsp + 17 }
          (1 :: (s.at' i).stack) ∧
        exec (.spillw i) s =
          .next ((w.frame.foldl (fun t q => t.putWord i.isl.val i.ctx.val (frameAddr (s.at' i).wsp q.1) q.2) s).retire i y)) ∧
    (∀ w : Window, (s.at' i).twCause = 6 → 0 < (s.at' i).spilled → (s.at' i).windows.length < 8 → 17 ≤ (s.at' i).wsp.toNat →
      (∀ k < 17, s.Plain i false (frameAddr ((s.at' i).wsp - 17) k)) →
      (∀ k < 17, (s.at' i).wsp.toNat - 17 + k ∉ (s.engOf i).bad) → w.depth ≤ 16 →
      (s.engOf i).word ((s.at' i).wsp.toNat - 17) = BitVec.ofNat 36 (w.depth + 32 * w.dirty.toNat) →
      (∀ k < 16, w.cell k = if w.dirty.getLsbD (k / 4) then (s.engOf i).word ((s.at' i).wsp.toNat - 16 + k) else 0) →
      ∃ (y : Ctx) (v : Window), v.depth = w.depth ∧ v.dirty = w.dirty ∧ (∀ k < 16, v.cell k = w.cell k) ∧
        y.Holds { s.at' i with
          pc := s.nextPc i 1, windows := (s.at' i).windows ++ [v], spilled := (s.at' i).spilled - 1, wsp := (s.at' i).wsp - 17 }
          (1 :: (s.at' i).stack) ∧
        exec (.fillw i) s = .next (s.retire i y))

/-! ## Instructions: jobs and units -/

/-- LDESC of the descriptor and the snapshot (R225), and WAITU of a tag (R228): the status word of a complete tag, all ones
for TEST on an incomplete one, else the context is BLOCKED. Nothing else changes. -/
def Obligations.JobReadsAndWaits : Prop :=
  ∀ (c : Instr) (i : Issue) (len : Nat) (f : Effect) (s : State) (d : List Word) (g : Ctx → Ctx),
    jobRow s c = some (i, len, f) → s.Quiet i len → f (s.at' i) = some (d, g) → d.length ≤ 16 → (s.at' i).astack.length ≤ 8 →
      s.Leaves c i len d g

/-- CREQ, ZREQ, and LDESC of the period table leave their operands and wait for their answer (R225, R229, R336); the job of a CREQ or
a ZREQ holds the granules that its request block names from here on (R139). The
extension instruction of a present extension forms its request under the context's next generation and waits (R34, R198).
Nothing else changes. -/
def Obligations.RequestsWait : Prop :=
  (∀ (i : Issue) (s : State) (mode : BitVec 4) (slot : Bool) (id : Nat) (j : Job), i.ctx ≠ 0 → s.Quiet i 2 → s.ownStore i.isl.val →
    mode.toNat < 8 → (s.at' i).job = some id → s.job id = some j →
    1 ≤ (s.at' i).depth → (s.at' i).depth ≤ 16 → (s.at' i).astack.length ≤ 8 →
      let r : UnitReq := { unit := .cipher, inst := j.inst, job := id, tag := 0, block := ((s.at' i).top 0).setWidth 24 }
      exec (.creq i mode slot) s = .next ((s.putJob id { j with asked := s.grantsOf r }).retire i
        ((s.at' i).asks (.admission (.creq i mode slot))))) ∧
  (∀ (i : Issue) (s : State) (dir opts : Bool) (id : Nat) (j : Job), i.ctx ≠ 0 → s.Quiet i 2 → s.ownStore i.isl.val →
    (s.at' i).job = some id → s.job id = some j → 1 + bit opts ≤ (s.at' i).depth →
    (s.at' i).depth - (1 + bit opts) < 16 → (s.at' i).astack.length ≤ 8 →
      let r : UnitReq := { unit := .compression, inst := j.inst, job := id, tag := 0, block := ((s.at' i).top (bit opts)).setWidth 24 }
      exec (.zreq i dir opts) s = .next ((s.putJob id { j with asked := s.grantsOf r }).retire i
        ((s.at' i).asks (.admission (.zreq i dir opts))))) ∧
  (∀ (i : Issue) (s : State) (idx : BitVec 4) (e : Word) (d : List Word) (j : Job), i.ctx ≠ 0 → s.Quiet i 2 →
    s.jobAt i.isl.val i.ctx.val = some j → (s.at' i).stack = e :: d → d.length < 16 → (s.at' i).astack.length ≤ 8 →
    let w := periodWord j.inst.toNat j.snap.ptSel (e.toNat % 256)
    w ∉ s.ldk.bad → (∀ q ∈ (s.engOf i).sbuf, q.addr ≠ deckAddr w) →
      exec (.ldesc i idx 2 false) s =
        .next (s.retire i { s.at' i with memWait := some (.ldesc i idx 2 false), memAt := [deckAddr w], memGot := [] })) ∧
  (∀ (i : Issue) (s : State) (leader : BitVec 4) (op : BitVec 9) (a b : Word) (d : List Word) (g : BitVec 4), s.Quiet i 2 →
    (s.glb.present.getD (i.isl.val / 17) 0).getLsbD leader.toNat = true → (s.at' i).stack = b :: a :: d →
    (s.at' i).depth ≤ 16 → (s.at' i).astack.length ≤ 8 → s.nextGen i.isl.val i.ctx.val (s.at' i).extGen = some g →
      let k := 8 * (i.isl.val % 17) + i.ctx.val
      let e := s.ext (i.isl.val / 17)
      exec (.extensionInstruction i leader op) s =
        .next ((s.putExt (i.isl.val / 17)
          { e with live := Assoc.insert e.live k { gen := g, op := leader ++ op, a := a, b := b } }).retire i
            { (s.at' i).asks .extension with extGen := g }))

/-- XFER (R230, R231): with operands that pass the checks of Table INS.12, the blocking form starts the transfer and the
context is BLOCKED; the job holds the granules of the engine words from here on (R139, R232). For a host-to-engine transfer one
whole-line READ in SPACE JOB, with RELAXED set, falls due for each covered host line, in rising order (R49, R52, R232). -/
def Obligations.XferStarts : Prop :=
  ∀ (i : Issue) (s : State) (dir pack : Bool) (id : Nat) (j : Job) (n o h : Word) (d : List Word) (a : WAddr) (r : List WAddr)
    (base : HAddr) (len : Nat), i.ctx ≠ 0 → s.Quiet i 2 → s.ownStore i.isl.val → (s.at' i).job = some id → s.job id = some j →
    (s.at' i).stack = n :: o :: h :: d → d.length < 16 → (s.at' i).astack = a :: r → (s.at' i).astack.length ≤ 8 →
    0 < n.toNat → n.toNat ≤ 1048576 → (pack = true → n.toNat % 9 = 0) → a.toNat % 65536 + wordsFor pack n.toNat ≤ 65536 →
    (∀ w ∈ xferWords a pack n.toNat, s.accessBar i.isl.val i.ctx.val (!dir) w = none) →
    j.region h.toNat = some (base, len) → (dir = true → 16 ≤ h.toNat) → o.toNat + n.toNat ≤ len →
      let host := base + BitVec.ofNat 64 o.toNat
      let first := host.toNat / 64
      let lines := if dir then 0 else (host.toNat + n.toNat - 1) / 64 + 1 - first
      let reqs : List HostReq := (List.range lines).map fun k =>
        { typ := .read, addr := BitVec.ofNat 64 (64 * (first + k)), inst := j.inst, space := 0, relaxed := true
          oen := BitVec.allOnes 64, data := 0, purpose := .xfer id 16 (first + k), mgr := false }
      let f : Xfer := { toHost := dir, packed := pack, host := host, len := n.toNat, word := a, linesDue := lines
                        order := (s.at' i).xferCount }
      ∃ hs : List Nat,
        (∀ g, g ∈ hs ↔ g ∈ j.holds ∨ ∃ w ∈ xferWords a pack n.toNat, ∃ k, placeOf w = .deck k ∧ granuleOf k = g) ∧
        exec (.xfer i dir pack false) s = .next ((reqs.foldl State.send (s.quietOut.putJob id { j with holds := hs })).turn i
          { (s.at' i).drop 3 with
            xfers := Assoc.insert (s.at' i).xfers 16 f, xferCount := (s.at' i).xferCount + 1
            state := .blocked, wait := .xfer, waitPc := (s.at' i).pc, pc := s.nextPc i 2 })

/-- COMMIT (R235): the job timer stops and the context is BLOCKED; while a transfer or a unit request of it is in progress nothing
seals, and what `State.settle` names follows. With none in progress the commit goes on at once (R104): a failed balance check ends the
job ABORT_UNBALANCED; under policy 0 a staged set ends it ABORT_PROGRAM 0x83, and an empty one OK with READONLY; else the set seals
under the user's next commit sequence number (R105). The context is released in each case. ABORT d ends the job ABORT_PROGRAM with
detail d, and its trap form with 0xC0 + t[4:0] (R236): the staged set is discarded, the completion's ledger summary is that of the
context, and the context is cleared (R154). -/
def Obligations.JobsEnd : Prop :=
  (∀ (i : Issue) (s : State) (id : Nat), i.ctx ≠ 0 → s.Quiet i 2 → s.ownStore i.isl.val → (s.at' i).depth ≤ 16 → (s.at' i).astack.length ≤ 8 →
    (s.at' i).job = some id → ((s.at' i).xfers ≠ [] ∨ s.unitsBusy id = true) →
      exec (.commit i) s = .next (s.retire i
        { (s.at' i).asks .seal with
          pc := s.nextPc i 2, jobTimer := .off
          unitTags := (s.at' i).unitTags.filter fun q => q.2.done.isNone }).settle) ∧
  (∀ (i : Issue) (s : State) (id : Nat) (j : Job), i.ctx ≠ 0 → s.Quiet i 2 → s.ownStore i.isl.val → (s.at' i).depth ≤ 16 →
    (s.at' i).astack.length ≤ 8 → (s.at' i).job = some id → s.job id = some j → j.place = some (i.isl.val, i.ctx.val) →
    (s.at' i).xfers = [] → s.unitsBusy id = false →
      let bal := (s.at' i).ledger.bal
      let n := if (s.inst j.inst.toNat).csn = 0 then 1 else (s.inst j.inst.toNat).csn
      let ends := fun (status detail : BitVec 8) (t : State) =>
        (t.job id).map (fun k => (k.st, k.status, k.detail, k.csn)) = some (.posting, status, detail, 0)
      Completes (.commit i) s fun t =>
        t.ctx i.isl.val i.ctx.val = { extGen := (s.at' i).extGen } ∧ (t.job id).map (·.place) = some none ∧
        (j.policy = 1 → bal ≠ 0 → ends 1 0 t) ∧
        (j.policy = 0 → ends (if j.staged = [] then 0 else 2) (if j.staged = [] then 2 else 0x83) t) ∧
        (j.policy ≠ 0 → (j.policy = 1 → bal = 0) →
          (t.job id).map (fun k => (k.csn, k.staged, k.ledger)) = some (n, j.staged, (s.at' i).ledger.summary) ∧
            (t.inst j.inst.toNat).csn = csnNext n ∧ (t.inst j.inst.toNat).csnLast = n)) ∧
  ∀ (i : Issue) (s : State) (detail : BitVec 7) (trapf : Bool) (id : Nat) (j : Job), i.ctx ≠ 0 → s.Quiet i 2 →
    (s.at' i).depth ≤ 16 → (s.at' i).astack.length ≤ 8 → (s.at' i).job = some id → s.job id = some j →
    j.place = some (i.isl.val, i.ctx.val) → (trapf = true → detail = 0 ∧ (s.at' i).tw = true ∧ 1 ≤ (s.at' i).depth) →
      let d := if trapf then 0xC0 + ((s.at' i).top 0).toNat % 32 else detail.toNat
      Completes (.abort i detail trapf) s fun t =>
        (t.job id).map (fun k => (k.st, k.status, k.detail.toNat, k.place)) = some (.posting, 2, d, none) ∧
          (t.job id).map (fun k => (k.staged, k.ledger)) = some ([], (s.at' i).ledger.summary) ∧
          t.ctx i.isl.val i.ctx.val = { extGen := (s.at' i).extGen }

/-! ## Instructions: ledger -/

/-- Table LDG.7: a ledger instruction that meets no condition of Table LDG.6 leaves the accumulators, BAL, status, share state
and data stack of its row, and each value that it wrote carries its new residue (R272); nothing else changes but the program counter.
The string formats (R264, R265): the octets written are the digits and the sign of the value, right-aligned with leading zeros, and read
back as that value; a value with more digits than the field writes nothing. LCONV into from a string in local store takes its value as an
operand of the cleared accumulator; LCONV out to one writes the bytes of the string and no other byte. The binary64 forms of a value that
is exact in both (R268): into takes it as the coefficient, and out pushes its double cell. -/
def Obligations.LedgerInstructions : Prop :=
  (∀ (c : Instr) (i : Issue) (len : Nat) (f : Effect) (s : State) (d : List Word) (g : Ctx → Ctx),
    ledgerRow c = some (i, len, f) → s.Quiet i len → (microCoded c = true → s.ownStore i.isl.val) →
      (∀ k < 11, (s.at' i).ledger.sound k = true) → f (s.at' i) = some (d, g) → d.length ≤ 16 →
      (s.at' i).astack.length ≤ 8 →
      s.Leaves c i len d fun y => { g y with ledger := (g y).ledger.seal y.ledger }) ∧
  (∀ (fmt n : Nat) (v : Int), fmt < 3 → stringLength fmt true n = true →
    let size := if fmt = 0 then 2 * n - 1 else if fmt = 1 then n else n - 1
    let digit := fun k => v.natAbs / 10 ^ (size - 1 - k) % 10
    let sign := if v < 0 then 0xD else 0xC
    (10 ^ size ≤ v.natAbs → writeString fmt n (some v) = .inr 7) ∧
    (v.natAbs < 10 ^ size →
      ∃ b : List NineBit, writeString fmt n (some v) = .inl b ∧ b.length = n ∧ readString fmt (b.map (·.toNat)) = .value v ∧
        ∀ k < n, (b.getD k 0).toNat =
          if fmt = 0 then 16 * digit (2 * k) + (if k + 1 = n then sign else digit (2 * k + 1))
          else if fmt = 1 then 16 * (if k + 1 = n then sign else 0xF) + digit k
          else if k = 0 then (if v < 0 then 0x2D else 0x2B) else 0x30 + digit (k - 1))) ∧
  (∀ (i : Issue) (a : BitVec 2) (fmt : BitVec 4) (s : State) (n o : Word) (d : List Word) (w : WAddr) (r : List WAddr),
    let l := (s.at' i).ledger
    let at0 := (o.extractLsb' 0 18).toNat
    let parts := stringParts w at0 n.toNat
    fmt.toNat < 3 → s.Quiet i 2 → s.ownStore i.isl.val → (s.at' i).stack = n :: o :: d → (s.at' i).depth ≤ 16 →
    (s.at' i).astack = w :: r → (s.at' i).astack.length ≤ 8 →
    (∀ (v : Int) (u : Accum), stringLength fmt.toNat false n.toNat = true → (∀ q ∈ parts, s.Readable i q.1) →
      readString fmt.toNat (stringBytes at0 n.toNat (parts.map fun q => s.localWord i q.1)) = .value v →
      ({ l.acc a with coef := 0, kerf := 0 } : Accum).addAt v (operandScale l a) = some (u, false) →
      s.Leaves (.lconv i a false fmt) i 2 d fun y => { y with ledger := (accTo a (fun _ => u) y.ledger).seal y.ledger }) ∧
    (∀ (v : Int) (b : List NineBit), stringLength fmt.toNat true n.toNat = true → (∀ k < 11, l.sound k = true) →
      (s.engOf i).sbuf = [] → (∀ q ∈ parts, s.Plain i true q.1 ∧ (q.1.extractLsb' 0 16).toNat ∉ (s.engOf i).bad) →
      (l.acc a).coef * 10 ^ operandScale l a = v * 10 ^ (l.acc a).scale → writeString fmt.toNat n.toNat (some v) = .inl b →
      let word := fun k => WAddr.plus w ((at0 + k) / 4)
      Completes (.lconv i a true fmt) s fun t =>
        (t.at' i).Holds { s.at' i with pc := s.nextPc i 2, ledger := l.seal l } d ∧
        (∀ k < n.toNat, wordByte (t.localWord i (word k)) ((at0 + k) % 4) = b.getD k 0) ∧
        (∀ x j, j < 4 → (∀ k < n.toNat, ¬(x = ((word k).extractLsb' 0 16).toNat ∧ j = (at0 + k) % 4)) →
          wordByte ((t.engOf i).word x) j = wordByte ((s.engOf i).word x) j) ∧
        (∀ q, q ≠ i.isl.val → t.eng q = s.eng q) ∧ { t with engines := s.engines } = s.quietOut)) ∧
  ∀ (i : Issue) (a : BitVec 2) (s : State) (b : BitVec 64) (neg : Bool) (m : Nat) (e : Int),
    let l := (s.at' i).ledger
    let v := l.acc a
    s.Quiet i 2 → s.ownStore i.isl.val → Fval.of b = .fin neg m e →
    (∀ (h w : Word) (d : List Word) (c : Int), (s.at' i).stack = h :: w :: d → (s.at' i).depth ≤ 16 → (s.at' i).astack.length ≤ 8 →
      h.extractLsb' 0 28 ++ w = b → c.natAbs < 10 ^ 98 → c % v.grid = 0 →
      c * 2 ^ (-e).toNat = (if neg then -(m : Int) else m) * 2 ^ e.toNat * 10 ^ v.scale →
      s.Leaves (.lconv i a false 7) i 2 d fun y =>
        { y with ledger := (accTo a (fun u => { u with coef := c, kerf := 0 }) y.ledger).seal y.ledger }) ∧
    ((∀ k < 11, l.sound k = true) → (s.at' i).depth ≤ 14 → (s.at' i).astack.length ≤ 8 → m = 0 ∨ expField b ≠ 0 →
      neg = decide (v.coef < 0) →
      v.coef * 2 ^ (-e).toNat = (if neg then -(m : Int) else m) * 2 ^ e.toNat * 10 ^ v.scale →
      s.Leaves (.lconv i a true 7) i 2 ((b.extractLsb' 36 28).setWidth 36 :: b.extractLsb' 0 36 :: (s.at' i).stack) fun y =>
        { y with ledger := y.ledger.seal y.ledger })

/-- LLOAD (R257): an image whose 98 digits and sign pass R239 becomes La's coefficient; Ka and every other part stay. LSTORE and
LSTORE BAL (R257): with an empty store buffer the image of the coefficient is written to its 11 words; the context changes in
its program counter alone. -/
def Obligations.LedgerImages : Prop :=
  (∀ (i : Issue) (a : BitVec 2) (s : State) (w : WAddr) (r : List WAddr) (v : Int), s.Quiet i 1 → s.ownStore i.isl.val → (s.at' i).astack = w :: r →
    (s.at' i).astack.length ≤ 8 → (s.at' i).depth ≤ 16 → (∀ k < 11, s.Readable i (WAddr.plus w k)) →
    let n := (List.range 11).flatMap fun k => wordNibbles (s.localWord i (WAddr.plus w k))
    checkDecimal (n.take 98) (n.getD 98 0) = .value v →
      s.Leaves (.lload i a) i 1 (s.at' i).stack fun y =>
        { y with ledger := (accTo a (fun u => { u with coef := v }) y.ledger).seal y.ledger }) ∧
  ∀ (i : Issue) (a : BitVec 2) (s : State) (w : WAddr) (r : List WAddr), s.Quiet i 1 → s.ownStore i.isl.val →
    (∀ k < 11, (s.at' i).ledger.sound k = true) → (s.at' i).astack = w :: r →
    (s.at' i).astack.length ≤ 8 → (s.at' i).depth ≤ 16 → (∀ k < 11, s.Plain i true (WAddr.plus w k)) → (s.engOf i).sbuf = [] →
    let put := fun (v : Int) => (s.putWords i.isl.val i.ctx.val w (imageOf v)).retire i { s.at' i with pc := s.nextPc i 1 }
    exec (.lstore i a) s = .next (put ((s.at' i).ledger.acc a).coef) ∧
      exec (.lstoreBal i) s = .next (put (s.at' i).ledger.bal)

/-- R240 and R257: an image of a coefficient of at most 98 digits reads back as that coefficient, and zero is written with
the plus sign 0xC. -/
def Obligations.ImageReadsBack : Prop :=
  (∀ v : Int, v.natAbs < 10 ^ 98 →
    let n := (imageOf v).flatMap wordNibbles
    (imageOf v).length = 11 ∧ checkDecimal (n.take 98) (n.getD 98 0) = .value v) ∧
    ((imageOf 0).getD 10 0).toNat % 16 = 0xC

/-- R247: rounding x to a grid g leaves x where it is a multiple of g. Otherwise modes 0 to 2 choose a nearest multiple, with a
tie to the even multiple, to the larger and to the smaller magnitude; mode 3 chooses k0, mode 4 the next multiple away from
zero, modes 5 and 6 the smallest multiple at or above x and the largest at or below it, and mode 7 chooses k0, or as mode 4 does
where k0 mod 5 is 0. -/
def Obligations.RoundingModes : Prop :=
  ∀ (x : Int) (g : Nat), 0 < g →
    let k0 := x.tdiv g
    let away := if 0 < x then k0 + 1 else k0 - 1
    let r := fun mode => roundMode mode x g
    (x % g = 0 → ∀ mode, r mode * g = x) ∧
    (x % g ≠ 0 →
      (∀ mode < 3, 2 * (r mode * g - x).natAbs ≤ g) ∧
      (2 * (r 0 * g - x).natAbs = g → r 0 % 2 = 0) ∧
      (2 * (r 1 * g - x).natAbs = g → x.natAbs < (r 1 * g).natAbs) ∧
      (2 * (r 2 * g - x).natAbs = g → (r 2 * g).natAbs < x.natAbs) ∧
      r 3 = k0 ∧ r 4 = away ∧
      (x ≤ r 5 * g ∧ ∀ k : Int, x ≤ k * g → r 5 ≤ k) ∧
      (r 6 * g ≤ x ∧ ∀ k : Int, k * g ≤ x → k ≤ r 6) ∧
      r 7 = if k0 % 5 = 0 then away else k0)

/-- Table LDG.2: an operand x at scale t that enters without a condition changes the exact value by exactly x; KTAKE and LSCALE
leave it unchanged; LMUL multiplies the coefficient's part and adds the old kerf. Scale, mode and cash step stay, but for
the scale that LSCALE sets. -/
def Obligations.ExactValueKept : Prop :=
  (∀ (a b : Accum) (x : Int) (t : Nat), t ≤ a.scale + 40 → a.addAt x t = some (b, false) →
    b.exact = a.exact + x * 10 ^ (a.scale + 40 - t) ∧ (b.scale, b.mode, b.cash) = (a.scale, a.mode, a.cash)) ∧
  (∀ a b : Accum, a.take = some b → b.exact = a.exact ∧ (b.scale, b.mode, b.cash) = (a.scale, a.mode, a.cash)) ∧
  (∀ (a b : Accum) (s : Nat), a.rescale s = .ok b →
    b.exact * 10 ^ a.scale = a.exact * 10 ^ s ∧ (b.scale, b.mode, b.cash) = (s, a.mode, a.cash)) ∧
  (∀ (a b : Accum) (m : Int) (t : Nat), t ≤ 40 → a.times m t = some (b, false) →
    b.exact * 10 ^ t = a.coef * m * 10 ^ 40 + a.kerf * 10 ^ t ∧ (b.scale, b.mode, b.cash) = (a.scale, a.mode, a.cash))

/-! ## Instructions: floating point -/

/-- Table BIN.4: an operation enters the floating-point section with its operands, and its result cells await their value;
nothing else changes but the program counter (R283, R284). FNEG, FABS, FFLAGS and FBAR end at once with the effect of their row
(R285, R293, R294). -/
def Obligations.FloatIssues : Prop :=
  (∀ (c : Instr) (i : Issue) (len : Nat) (kind : FpKind) (dIn size : Nat) (ops : List (BitVec 72)) (s : State),
    floatRow c (s.at' i) = some (i, len, kind, dIn, size, ops) → s.Quiet i len →
      (s.at' i).depth - dIn + size ≤ 16 → (s.at' i).astack.length ≤ 8 →
      exec c s = .next (s.retire i
        { (s.at' i).setDepth ((s.at' i).depth - dIn + size) with
          pc := s.nextPc i len
          fpu := { (s.at' i).fpu with inflight := [(s.at' i).opOf kind dIn size ops] } })) ∧
  ∀ (c : Instr) (i : Issue) (len : Nat) (f : Effect) (s : State) (d : List Word) (g : Ctx → Ctx),
    floatNowRow c = some (i, len, f) → s.Quiet i len → f (s.at' i) = some (d, g) → d.length ≤ 16 →
      (s.at' i).astack.length ≤ 8 → s.Leaves c i len d g

/-- FP_RESULT: the oldest operation of a context completes. Under TRAP a subnormal operand or a tiny result writes a zero with the sign
of the exact result, sets no flag and makes FP_SUBNORMAL pending; else its cells take its value, its flags join the status word, and a
flag whose enable bit is 1 makes FP pending, with the record of Table BIN.7; an earlier pending cause stays (R284, R290, R292). The
counter of free values advances (log entry 7). A pending trap is taken at the next boundary of its context, FP_SUBNORMAL first: N is the
address of the faulting operation, the context resumes at the boundary, and the exception record is written (R176, R292, R293).
What the operations compute on operands as FLUSH reads them: FADD, FMUL and FMA round the exact value once, FSUB and FSTEP are FADD and
FMA with an operand's sign changed, NaNs, infinities and exact zeros follow R285, FCMP gives the relation (R286), FRECIP and FRSQRT the
estimates of R287, and FCVT the conversions of R288. -/
def Obligations.FloatCompletes : Prop :=
  (∀ (a : At) (s : State) (o : FpOp) (r : List FpOp), (s.eng a.isl.val).running = true → (s.eng a.isl.val).slot = none →
    (s.ctx a.isl.val a.ctx.val).fpu.inflight = o :: r →
    let x := s.ctx a.isl.val a.ctx.val
    let v := o.raw o.flush
    let old := if o.inTrap then x.trapWin else x.windows.headD Window.empty
    let lands := fun (w : Window) (u : BitVec 72) => w.depth = old.depth ∧
      (if o.size = 1 then w.cell o.pos = loWord u ∧ ∀ k, k ≠ o.pos → w.cell k = old.cell k
        else w.cell o.pos = hiWord u ∧ (0 < o.pos → w.cell (o.pos - 1) = loWord u) ∧
          ∀ k, k ≠ o.pos → k ≠ o.pos - 1 → w.cell k = old.cell k)
    let next := fun (w : Window) (f : Fpu) =>
      exec (.fpResult a .pass) s = .next ({ s.quietOut with draws := s.draws + 1 }.putCtx a.isl.val a.ctx.val
        { x with
          windows := if o.inTrap then x.windows else w :: x.windows.tail
          trapWin := if o.inTrap then w else x.trapWin
          fpu := f })
    let traps := o.flush = false ∧ (v.subn = true ∨ ∃ q ∈ o.operands, subnormal (bits64 q) = true)
    (traps → ∃ (w : Window) (u : BitVec 72), lands w u ∧
      (o.floats = true → ∃ neg, u = cells64 (zero64 neg) ∧ ∀ b, v.sign = some b → neg = b) ∧
      next w { x.fpu with
        inflight := r, pendSub := if x.fpu.pendSub.isSome then x.fpu.pendSub else some (o.record true 0) }) ∧
    (¬traps → ∃ w : Window, lands w v.val ∧
      let e := x.fpu.enabled v.flags
      next w { x.fpu with
        inflight := r
        status := x.fpu.status ||| v.flags.setWidth 36
        pendFp := if e = 0 ∨ x.fpu.pendFp.isSome = true then x.fpu.pendFp else some (o.record false e) })) ∧
  (∀ (o : FpOp) (sub : Bool) (raised : BitVec 5), o.pos < 16 →
    let q := o.record sub raised
    q.addr = o.addr ∧ (q.a, q.b, q.c) = (o.a, o.b, o.c) ∧ q.info.toNat % 16 = o.kind.code ∧ q.info.getLsbD 4 = sub ∧
      q.info.extractLsb' 5 5 = raised ∧ (q.info.extractLsb' 10 5).toNat = o.pos ∧ q.info.getLsbD 15 = true) ∧
  (∀ (c : Instr) (i : Issue) (s : State) (code : Nat) (r : FpRecord), issueOf c = some i →
    (match c with
      | .commit .. => False
      | .abort .. => False
      | _ => True) → code = 10 ∨ code = 11 → s.FpDue i code r → s.ownStore i.isl.val → s.dbg.trcEn = false →
    (s.at' i).trapReady →
      ∃ w : Window, w.list = [trapCell code 0 i.ctx.val false, r.addr.setWidth 36] ∧
        exec c s = .next (s.quietOut.putCtx i.isl.val i.ctx.val { (s.at' i).inTrap code (s.at' i).pc w with
          fpu := { (s.at' i).fpu with
            record := r
            pendSub := if code = 11 then none else (s.at' i).fpu.pendSub
            pendFp := if code = 10 then none else (s.at' i).fpu.pendFp } })) ∧
  (∀ (o : FpOp) (flush : Bool),
    let a := bits64 (flushed flush o.a)
    let b := bits64 (flushed flush o.b)
    let c := bits64 (flushed flush o.c)
    let at' := fun k => ({ o with kind := k } : FpOp).raw flush
    (∀ sa m e sb n f, Fval.of a = .fin sa m e → Fval.of b = .fin sb n f →
      let x := (Fval.of a).value + (Fval.of b).value
      let y := (Fval.of a).value * (Fval.of b).value
      (x ≠ 0 → (at' .add).Delivers flush x) ∧
      (x = 0 → (at' .add).val = cells64 (zero64 (sa && sb)) ∧ (at' .add).flags = 0 ∧ (at' .add).subn = false) ∧
      (y ≠ 0 → (at' .mul).Delivers flush y) ∧
      (y = 0 → (at' .mul).val = cells64 (zero64 (sa != sb)) ∧ (at' .mul).flags = 0 ∧ (at' .mul).subn = false) ∧
      (∀ sc k g, Fval.of c = .fin sc k g →
        let z := y + (Fval.of c).value
        (z ≠ 0 → (at' .fma).Delivers flush z) ∧
        (z = 0 → (at' .fma).val = cells64 (zero64 ((sa != sb) && sc)) ∧ (at' .fma).flags = 0 ∧ (at' .fma).subn = false)) ∧
      (∀ sc, Fval.of c = .inf sc → (at' .fma).val = cells64 (inf64 sc) ∧ (at' .fma).flags = 0) ∧
      ((at' .cmp).val = (if (Fval.of a).value = (Fval.of b).value then 1 else if (Fval.of a).value < (Fval.of b).value then 2 else 4) ∧
        (at' .cmp).flags = 0)) ∧
    (isNan b = false → at' .sub = ({ o with kind := .add, b := signed true o.b } : FpOp).raw flush) ∧
    (isNan a = false → at' .step = ({ o with kind := .fma, a := signed true o.a } : FpOp).raw flush) ∧
    (∀ k ∈ [FpKind.add, .sub, .mul], ∀ n, [a, b].find? isNan = some n → (at' k).val = cells64 (quiet n) ∧
      (at' k).flags = if [a, b].any signalling then 1 else 0) ∧
    (∀ k ∈ [FpKind.fma, .step], ∀ n, [a, b, c].find? isNan = some n → (at' k).val = cells64 (quiet n) ∧
      (at' k).flags = if [a, b, c].any signalling = true ∨
        ((a = inf64 false ∨ a = inf64 true) ∧ (b = zero64 false ∨ b = zero64 true)) ∨
        ((b = inf64 false ∨ b = inf64 true) ∧ (a = zero64 false ∨ a = zero64 true)) then 1 else 0) ∧
    (∀ s t, Fval.of a = .inf s → Fval.of b = .inf t →
      (at' .add).val = cells64 (if s = t then inf64 s else defaultNan) ∧ (at' .add).flags = (if s = t then 0 else 1) ∧
        (at' .mul).val = cells64 (inf64 (s != t)) ∧ (at' .mul).flags = 0) ∧
    (∀ s t n f, Fval.of a = .inf s → Fval.of b = .fin t n f →
      (at' .add).val = cells64 (inf64 s) ∧ (at' .add).flags = 0 ∧
        (at' .mul).val = cells64 (if n = 0 then defaultNan else inf64 (s != t)) ∧ (at' .mul).flags = (if n = 0 then 1 else 0) ∧
        (at' .cmp).val = (if s then 2 else 4) ∧ (at' .cmp).flags = 0 ∧
        (isNan c = false →
          let bad := n = 0 ∨ Fval.of c = .inf (s == t)
          (at' .fma).val = cells64 (if bad then defaultNan else inf64 (s != t)) ∧ (at' .fma).flags = if bad then 1 else 0)) ∧
    (∀ s m e t, Fval.of a = .fin s m e → Fval.of b = .inf t →
      (at' .add).val = cells64 (inf64 t) ∧ (at' .add).flags = 0 ∧ (at' .cmp).val = (if t then 4 else 2) ∧
        (at' .mul).val = cells64 (if m = 0 then defaultNan else inf64 (s != t)) ∧ (at' .mul).flags = if m = 0 then 1 else 0) ∧
    ((isNan a = true ∨ isNan b = true) → (at' .cmp).val = 8 ∧ (at' .cmp).flags = if signalling a || signalling b then 1 else 0) ∧
    (∀ s m e, Fval.of a = .fin s m e → 2 ^ 52 ≤ m →
      let mu := 2 ^ 15 + 2 * ((m - 2 ^ 52) / 2 ^ 38) + 1
      let x := e + 52
      (∃ k : Nat, 2 ^ 14 ≤ k ∧ (2 * k - 1) * mu ≤ 2 ^ 31 ∧ 2 ^ 31 ≤ (2 * k + 1) * mu ∧
        ((2 * k - 1) * mu = 2 ^ 31 ∨ 2 ^ 31 = (2 * k + 1) * mu → k % 2 = 0) ∧ (at' .recip).Estimates flush s k (-15 - x)) ∧
      (s = false → ∃ k : Nat, 2 ^ 14 ≤ k ∧
        (2 * k - 1) ^ 2 * mu ≤ (if x % 2 = 0 then 2 ^ 47 else 2 ^ 46) ∧ (if x % 2 = 0 then 2 ^ 47 else 2 ^ 46) ≤ (2 * k + 1) ^ 2 * mu ∧
        (at' .rsqrt).Estimates flush false k (-15 - x / 2)) ∧
      (s = true → (at' .rsqrt).val = cells64 defaultNan ∧ (at' .rsqrt).flags = 1)) ∧
    (∀ s e, Fval.of a = .fin s 0 e → ∀ k ∈ [FpKind.recip, .rsqrt], (at' k).val = cells64 (inf64 s) ∧ (at' k).flags = 2) ∧
    (∀ s, Fval.of a = .inf s → (at' .recip).val = cells64 (zero64 s) ∧ (at' .recip).flags = 0 ∧
      (at' .rsqrt).val = cells64 (if s then defaultNan else 0) ∧ (at' .rsqrt).flags = if s then 1 else 0) ∧
    (isNan a = true → ∀ k ∈ [FpKind.recip, .rsqrt], (at' k).val = cells64 (quiet a) ∧ (at' k).flags = if signalling a then 1 else 0) ∧
    (∀ (kind : BitVec 4) (r : BitVec 2) (lo hi : Int),
      (kind, lo, hi) = (0, -(2 ^ 35), 2 ^ 35 - 1) ∨ (kind, lo, hi) = (1, 0, 2 ^ 36 - 1) ∨ (kind, lo, hi) = (4, -(2 ^ 71), 2 ^ 71 - 1) →
      let v := at' (.cvt kind r)
      (∀ s m e, Fval.of a = .fin s m e → ∃ q : Int, RoundsInt r.toNat (Fval.of a).value q ∧
        v.val = BitVec.ofInt 72 (max lo (min hi q)) ∧
        v.flags = if q < lo ∨ hi < q then 1 else if (q : Rat) = (Fval.of a).value then 0 else 0x10) ∧
      (∀ s, Fval.of a = .inf s → v.val = BitVec.ofInt 72 (if s then lo else hi) ∧ v.flags = 1) ∧
      (isNan a = true → v.val = 0 ∧ v.flags = 1)) ∧
    ∀ (kind : BitVec 4) (r : BitVec 2) (n : Int),
      (kind = 2 ∧ n = (hiWord o.a).toInt) ∨ (kind = 3 ∧ n = (hiWord o.a).toNat) ∨ (kind = 5 ∧ n = o.a.toInt) →
      let v := at' (.cvt kind r)
      ∃ b neg m e, v.val = cells64 b ∧ Fval.of b = .fin neg m e ∧ Rounds53 r.toNat n neg m e ∧
        v.flags = if (Fval.of b).value = n then 0 else 0x10)

/-! ## Engine events -/

/-- XFER_COMPLETE of a blocking transfer whose lines have arrived (R232, R233): what came from the host stands in its engine words by
then, octets to the host join the job's staged set where they fit its capacity, and the status word is pushed. -/
def Obligations.TransferCompletes : Prop :=
  ∀ (a : At) (s : State) (f : Xfer) (id : Nat) (j : Job),
    let p := a.isl.val
    let c := a.ctx.val
    let x := s.ctx p c
    Assoc.lookup x.xfers 16 = some f → f.linesDue = 0 → x.xferHeld f = false → x.job = some id → s.job id = some j →
      x.state = .blocked → x.shadow = [] → x.depth < 16 →
      ∃ y : Ctx,
        y.Holds { x with state := .ready, wait := .nothing, xfers := Assoc.erase x.xfers 16 }
          (unitStatus 0 0 (BitVec.ofNat 24 f.len) :: x.stack) ∧
        (f.toHost = false → ∀ e, exec (.xferComplete a 16 e) s = .next (s.quietOut.putCtx p c y).settle) ∧
        (f.toHost = true → ∀ o, s.eccBars p (xferWords f.word f.packed f.len) = none →
          unpackOctets f.packed f.len ((xferWords f.word f.packed f.len).map fun w => s.wordAt p w) = some o →
          let set := (o.zipIdx).foldl (fun m q => Assoc.insert m (f.host + BitVec.ofNat 64 q.2).toNat q.1) j.staged
          set.length ≤ j.capacity →
          exec (.xferComplete a 16 .clean) s = .next ((s.quietOut.putJob id { j with staged := set }).putCtx p c y).settle)

/-- SLEEP_EXPIRY wakes its context (R187); for a keeper that wakes, the sources that waited are delivered again (R367). JOB_TIMER
freezes its context, abandons what it waits for, its XFERs and its reads among it, and delivers JOB_TIMER to the keeper, which wakes
(R37, R97, R180): here no source waits for an awake target. KEEPER_WATCHDOG starts the keeper again, with the ROM's own restart (R319):
each job of the engine goes back to ACCEPTED for a restart, here below the restart limit, and its context is cleared (R112, R154, R182).
That the restart loads the watchdog anew is log entry 130, the model's choice. -/
def Obligations.TimersExpire : Prop :=
  (∀ (a : At) (s : State) (t : Nat),
    let x := s.ctx a.isl.val a.ctx.val
    x.wake = some t → t ≤ s.now → x.state = .sleeping →
      exec (.sleepExpiry a) s =
        let t := s.quietOut.putCtx a.isl.val a.ctx.val { x with state := .ready, wake := none }
        .next (if a.ctx = 0 then t.redeliver else t)) ∧
  (∀ (a : At) (s : State) (d : Nat),
    let p := a.isl.val
    let c := a.ctx.val
    let x := s.ctx p c
    c ≠ 0 → x.state = .ready ∨ x.state = .blocked ∨ x.state = .sleeping → x.jobTimer = .until d → d ≤ s.now →
      x.memWait = none → (s.eng p).Calm → x.lock = none → (∀ r ∈ s.ldk.resv, r.2 ≠ (p, c)) → s.noneWaits →
      Completes (.jobTimer a) s fun t =>
        let u := (s.quietOut.killExt p c).dropReads (fun q => match q with
          | .xfer j _ _ => x.job == some j
          | _ => false) false
        t = { u with engines := t.engines, units := { s.units with waiting := s.units.waiting.filter (· != (p, c)) } } ∧
        (∀ q, q ≠ p → t.eng q = s.eng q) ∧
        t.ctx p c = { x with
          state := .frozen, wait := .nothing, waitDone := false, memAt := [], memGot := [], xfers := []
          jobTimer := .off, shadow := [], haltedFrom := .free } ∧
        (t.eng p).delivered = deliverInto (s.eng p).delivered ⟨c, trapCell 13 0 c false, x.pc⟩ ∧
        t.ctx p 0 = (s.ctx p 0).awaken ∧ ∀ k, k ≠ c → k ≠ 0 → t.ctx p k = s.ctx p k) ∧
  (∀ (isl : Fin 272) (s : State) (l d : Nat),
    let p := isl.val
    (s.eng p).running = true → (s.eng p).halted = false → (s.eng p).Calm → (s.eng p).wdt = .until d → d ≤ s.now →
      (s.eng p).wdtLoad ≠ 0 → s.logicalOf p = some l → (inHour s.now (s.log l).mcAt).length < 3 →
      Assoc.rising s.jobs = true → s.ownStore p → s.life.shut = .none →
      (∀ q ∈ s.jobs, ∀ c, q.2.place = some (p, c) → 0 < c ∧ c < 8 ∧ q.2.restarts < 2 ∧ q.2.squashDue = false) →
      Completes (.keeperWatchdog isl) s fun t =>
        t.ctx p 0 = { extGen := (s.ctx p 0).extGen, state := .ready, pc := Config.keeperEntry } ∧
        (t.eng p).wdt = .until (s.now + (s.eng p).wdtLoad.toNat) ∧ (t.eng p).ie = false ∧ (t.eng p).pstack = [] ∧
        (t.eng p).delivered = [] ∧ (t.log l).mcAt = inHour s.now (s.log l).mcAt ++ [s.now] ∧ s.Arrived t (528 + p / 17) ∧
        ∀ id j c, s.job id = some j → j.place = some (p, c) →
          (t.job id).map (fun k => (k.st, k.place, k.queued, k.staged, k.restarts)) =
            some (.accepted, none, true, [], j.restarts + 1) ∧
          t.ctx p c = { extGen := (s.ctx p c).extGen })

/-- INTERRUPT_ENTRY: the keeper goes to the vector of the highest signalled priority L, which joins its priority stack; the
resume address and the flags entry are pushed, and TW stays (R167, R371). DELIVERED_TRAP_ENTRY: the keeper enters a trap window
with the frozen context's PC and trap word, and that context's job ends with INTERNAL 0x01, or JOB_TIMEOUT for JOB_TIMER (R180,
R181, Table CHP.8; that the entry ends the job is log entry 31). Both entries run from the ROM's own microwords here (R319). GO makes an ASSIGNED context READY with its start block, and
starts its job timer; a GO to any other context is counted in GO_ERR (R153). WDT_KICK reloads the watchdog (R186). -/
def Obligations.KeeperEntries : Prop :=
  ((∀ (isl : Fin 272) (s : State),
    let p := isl.val
    let x := s.ctx p 0
    let l := s.irqLevel p
    s.entryDue p = true → s.irqDue p = true → (s.eng p).delivered = [] ∨ x.tw = true → s.dbg.trcEn = false → s.ownStore p →
      (s.eng p).micro.busy = none → (∀ c < 8, (s.ctx p c).lock = none) → x.modePend = [] → (x.mode.getLsbD 2 = true ∨ x.rstack.length ≤ 30) → x.rep = none →
      exec (.interruptEntry ⟨isl, .pass⟩) s = .next (s.quietOut.putEng p
        { (s.eng p).putCtx 0 { x with
            rstack := (flagsCell x :: x.pc :: x.rstack).take 32, shadow := [], lock := none
            pc := syl0 (WAddr.plus (s.eng p).ivec (4 * l)) } with
          pstack := l :: (s.eng p).pstack, lastIssued := 0 })) ∧
  (∀ (isl : Fin 272) (s : State) (d : Delivered) (r : List Delivered) (id : Nat) (j : Job),
    let p := isl.val
    let x := s.ctx p 0
    let code := d.word.toNat % 32
    (s.eng p).delivered = d :: r → s.entryDue p = true → x.tw = false → s.dbg.trcEn = false → s.ownStore p →
      (s.eng p).micro.busy = none → s.life.shut = .none → j.squashDue = false → (s.eng p).stepping = none → (∀ c < 8, (s.ctx p c).lock = none) → x.modePend = [] →
      (x.mode.getLsbD 2 = true ∨ x.rstack.length ≤ 30) → x.rep = none → d.ctx ≠ 0 → (s.ctx p d.ctx).job = some id →
      s.job id = some j → j.place = some (p, d.ctx) →
      Completes (.deliveredTrapEntry ⟨isl, .pass⟩) s fun t =>
        (∃ w : Window, w.list = [d.word, d.pc.setWidth 36] ∧ t.ctx p 0 = { x with
          tw := true, twCause := code, trapWin := w, rstack := (flagsCell x :: x.pc :: x.rstack).take 32, shadow := [], lock := none
          pc := syl0 (WAddr.plus x.tvb (4 * code)) }) ∧
        (t.job id).map (fun k => (k.st, k.status, k.detail, k.place)) =
          some (.posting, if code = 13 then 7 else 0x0A, if code = 13 then 0 else 1, none) ∧
        t.ctx p d.ctx = { extGen := (s.ctx p d.ctx).extGen })) ∧
  (∀ (a : At) (s : State) (id : Nat) (j : Job),
    let p := a.isl.val
    let c := a.ctx.val
    let x := s.ctx p c
    let b := (s.eng p).block c
    c ≠ 0 → (s.eng p).running = true → x.state = .assigned → x.job = some id → s.job id = some j →
      exec (.go a) s = .next ((s.quietOut.putCtx p c { x with
        pc := b.start, tvb := b.tvb, wsp := b.wsp, wsl := b.wsl, mode := b.mode, cb := b.cb, state := .ready
        jobTimer := if j.snap.limit = 0 then .off else .until (s.now + j.snap.limit.toNat) }).putJob id
        { j with lastEng := BitVec.ofNat 8 (s.logicalNum p), lastCtx := BitVec.ofNat 3 c })) ∧
  (∀ (a : At) (s : State), a.ctx ≠ 0 → (s.eng a.isl.val).running = true → (s.ctx a.isl.val a.ctx.val).state ≠ .assigned →
    exec (.go a) s = .next (s.quietOut.putEng a.isl.val { s.eng a.isl.val with goErr := satInc (s.eng a.isl.val).goErr })) ∧
  (∀ (isl : Fin 272) (s : State), (s.eng isl.val).running = true → (s.eng isl.val).halted = false →
    exec (.wdtKick isl) s = .next (s.quietOut.putEng isl.val { s.eng isl.val with
      wdt := if (s.eng isl.val).wdtLoad = 0 then .off else .until (s.now + (s.eng isl.val).wdtLoad.toNat) }))

/-- Table CHK.3: COPPICE_SUBSTITUTION stops the engine, claims the spare and fires source 544 + s; COPPICE_HANDOVER gives its
logical engine to the coppice engine with everything it holds, and the tracker entries follow (R430 to R432); a context that waits at an
extension instruction issues it again (R37). A replacement that is asked for waits for that boundary, or, without a spare and with nothing
to wait for, removes the engine (R434). A removed engine runs no more, and its jobs that have not sealed go back (R112, R134). -/
def Obligations.CoppiceTakesOver : Prop :=
  (∀ (isl : Fin 272) (s : State) (trigger l : Nat),
    let p := isl.val
    let d := p / 17
    (s.eng p).substPend = some trigger → (s.eng p).held = false → (s.spare d).st = 0 → (s.spare d).copying = none →
      s.logicalOf p = some l → (s.eng p).sbuf = [] →
      Completes (.coppiceSubstitution isl) s fun t =>
        (t.eng p).running = false ∧ (t.eng p).substPend = none ∧ (t.eng p).lstore = (s.eng p).lstore ∧
          (t.spare d).copying = some (l, trigger) ∧ s.Arrived t (544 + d)) ∧
  (∀ (stand : Fin 16) (s : State) (l trigger : Nat),
    let d := stand.val
    let p := s.physOf l
    let q := 17 * d + 16
    (s.spare d).copying = some (l, trigger) → l / 16 = d → (s.log l).phys < 16 → (s.eng p).bad = [] → (s.eng p).haltPend = false →
      (∀ c < 8, (s.ctx p c).haltPend = false) → s.life.shut = .none →
      Completes (.coppiceHandover stand ⟨[], []⟩ false) s fun t =>
        t.physOf l = q ∧ (t.log l).state = 1 ∧ (t.spare d).st = 1 ∧ (t.spare d).engaged.toNat = l % 256 ∧
          (t.eng q).running = true ∧ (t.eng q).lstore = (s.eng p).lstore ∧ (t.eng q).sbuf = (s.eng p).sbuf ∧
          (∀ c, 0 < c → c < 8 → t.ctx q c = { (s.ctx p c).reissue with shadow := [] }) ∧
          ∀ id j, s.job id = some j → (t.job id).map (·.place) =
            some (j.place.map fun r => if r.1 = p then (q, r.2) else r)) ∧
  ∀ (s : State) (p trigger : Nat),
    ((s.eng p).held = true ∨ s.spareReady (standOf p) = true →
      s.replaceEngine p trigger = s.putEng p { s.eng p with substPend := some ((s.eng p).trigger trigger) }) ∧
    ((s.eng p).held = false → s.spareReady (standOf p) = false → s.replaceEngine p trigger = s.removeEngine p trigger) ∧
    ∀ l, s.logicalOf p = some l →
      let t := s.removeEngine p trigger
      (t.eng p).running = false ∧ (t.eng p).ctxs = [] ∧ (t.log l).state = 2 ∧ s.Arrived t (528 + standOf p)

/-! ## Dispatch, cruise and power -/

/-- DISPATCH: the stand's pick takes a free context of the stand: its entry runs under the settings of now, the context is
ASSIGNED, and the keeper's event shows it (R126, R131, R132, R374); where the engine holds its image, the start block follows from the
image's header (R89, R92). That a job returned from RUNNING gets a new snapshot is the model's choice (log entry 100), and so is what the start
block takes from the header and that images which wait for overlay room are placed first (log entry 29). R131: what a stand picks is an eligible job of its own
queue; with no user below its minimum, no eligible job of the stand has a higher priority. What an engine search gives is a free
job context of an engine in service of that stand (R132). -/
def Obligations.DispatchPlaces : Prop :=
  (∀ (stand : Fin 16) (s : State) (id p c : Nat) (j : Job),
    let u := s.quietOut.placePump
    s.works = true → u.hasRoom stand.val = true → u.pickJob stand.val = some (id, j) →
    u.pickEngine stand.val j.progKey = some (p, c) → j.reserve ≤ u.gransApplied j.inst → u.job id = some j →
    (∀ o ∈ (u.eng p).overlays, u.unsigned j o.signed = false) → (∀ e ∈ u.dsp.cache, u.unsigned j e.signed = false) →
    Completes (.dispatch stand) s fun t =>
      (t.ctx p c).state = .assigned ∧ (t.ctx p c).job = some id ∧ (t.eng p).disp = (u.eng p).disp ||| ((1 : BitVec 8) <<< c) ∧
        (t.job id).map (fun k => (k.st, k.place, k.snap, k.queued)) = some (.running, some (p, c), u.snapshotOf j, false) ∧
        ∀ o, ((u.eng p).overlays.find? fun o => o.key == j.progKey && !o.stale) = some o →
          (t.eng p).block c = (u.eng p).startBlock c o ∧ (t.job id).map (·.load) = some .present) ∧
  (∀ (s : State) (d id : Nat) (j : Job), s.pickJob d = some (id, j) →
    (id, j) ∈ s.jobs ∧ j.stand = d ∧ s.eligible j = true ∧
      ((∀ q ∈ s.jobs, s.minCtx q.2.inst ≤ s.contextsOf q.2.inst) → ∀ q ∈ s.jobs, q.2.stand = d → s.eligible q.2 = true →
        (s.inst q.2.inst.toNat).prio.cur.toNat ≤ (s.inst j.inst.toNat).prio.cur.toNat)) ∧
  ∀ (s : State) (d : Nat) (k : ProgKey) (p c : Nat), s.pickEngine d k = some (p, c) →
    (∃ l, l / 16 = d ∧ s.inService l = true ∧ s.physOf l = p) ∧ 0 < c ∧ c < 8 ∧ (s.eng p).running = true ∧
      (s.ctx p c).state = .free

/-- CRUISE_SAMPLE: an island whose delay keeps 8 % at step 0 keeps 8 % at the step it gets, and its sample is recorded (R437,
R438), the margin truncated to tenths of a percent and held at 1023, which is the model's choice (log entry 28); a unit island below 8 % sets the attention cause 6 and fires source 691 (R439). POWER_BUDGET_CHECK: an estimate above the
budget brings every island to step 20 or below and fires source 692; any other estimate is kept, and nothing else changes (R47,
R438). -/
def Obligations.CruiseAndPower : Prop :=
  ((∀ (isl : Fin 272) (d : Nat) (s : State), s.works = true → s.life.shut ≠ .squash → s.sampled isl.val = true → d * 2000 ≤ 1840000000 →
    Completes (.cruiseSample (some isl) d) s fun t =>
      let e := s.eng isl.val
      let e' := t.eng isl.val
      d * (2000 + 25 * e'.step) ≤ 1840000000 ∧ e'.step ≤ e.step + 1 ∧
        e'.margin = min 1023 ((2000000000 - d * (2000 + 25 * e.step)) / 2000000) ∧ e'.firstDelay = some (e.firstDelay.getD d)) ∧
  (∀ (d : Nat) (s : State), s.works = true → s.life.shut ≠ .squash → 1840000000 < d * 2000 →
    exec (.cruiseSample none d) s = .next ((s.quietOut.attn 6).arrive 691))) ∧
  ∀ (n : BitVec 16) (s : State), s.works = true → s.life.shut ≠ .squash →
    (n.toNat ≤ min 26000 s.chk.budget.toNat →
      exec (.powerBudgetCheck n) s = .next { s.quietOut with chk := { s.chk with pest := n } }) ∧
    (min 26000 s.chk.budget.toNat < n.toNat → (∀ p < 272, (s.eng p).step ≤ 32) →
      Completes (.powerBudgetCheck n) s fun t =>
        (∀ p < 272, (t.eng p).step = min 20 (s.eng p).step) ∧ t.chk.pest = n ∧ s.Arrived t 692)

/-! ## Epochs -/

/-- EPOCH_BOUNDARY: the epoch counts, and the next boundary falls one period later (R119, R120). With HOLD 0 for 2 ticks every
value of Table DSP.1 that was written at least 2 ticks before applies; else none does (R121, R122, R125). Channel enables follow
the refreshes that have been read, and a channel that its user does not own or that is not served here is disabled (R73, R75). A key
beyond its user's share waits with reason 4 (R343, Table CIZ.3). A rebuilt affinity table becomes the front copy 2 ticks after its rebuild, whatever HOLD is
(R128). In RETAIN a boundary only sets when the next one falls (R46, log entry 14: the model's reading). AFFINITY_REBUILD_DONE
completes the back copy of the affinity table (R128). GRANULE_ZEROING_DONE clears a DRAINING granule and hands it over, once no job
holds it (R139). -/
def Obligations.EpochsApply : Prop :=
  (∀ (s : State) (b : Nat), s.ready = true → s.dsp.due = some b → b ≤ s.now → s.life.power = .retain →
    exec .epochBoundary s = .next { s.quietOut with dsp := { s.dsp with due := some (b + s.dsp.periodNow) } }) ∧
  (∀ (s : State) (b : Nat), s.ready = true → s.dsp.due = some b → s.now < b → exec .epochBoundary s = .next s.quietOut) ∧
  (∀ (s : State) (b : Nat), s.ready = true → s.dsp.due = some b → b ≤ s.now → s.life.power = .run →
    s.life.shut = .none ∨ s.dbg.attached = false →
    Completes .epochBoundary s fun t =>
      t.dsp.epoch = s.dsp.epoch + 1 ∧ t.dsp.due = some (b + min 100000 (max 1000 t.dsp.period.cur.toNat)) ∧
        (t.dsp.period = s.dsp.period.settled s b ∧ t.dsp.steal = s.dsp.steal.settled s b ∧
          t.ldk.mirRes = s.ldk.mirRes.settled s b) ∧
        (∀ i, (t.inst i).prio = (s.inst i).prio.settled s b ∧ (t.inst i).durable = (s.inst i).durable.settled s b ∧
          (t.inst i).period.swap = (s.inst i).period.swap.settled s b ∧
          ∀ k, (t.inst i).share k = ((s.inst i).share k).settled s b) ∧
        (∀ n, (t.slot n).limit = (s.slot n).limit.settled s b) ∧
        (∀ g, let x := if s.applies b then (s.gran g).apply b else s.gran g
          ((t.gran g).curKind, (t.gran g).curOwner, (t.gran g).wrote) = (x.curKind, x.curOwner, x.wrote)) ∧
        (∀ c, (s.applies b = false → (t.chan c).enabled = (s.chan c).enabled) ∧
          ∀ a take e, s.applies b = true → (s.chan c).refresh = .got a take true e → a + 2 ≤ b → s.servedHere e.inst.toNat = true →
            s.ownsChan e.inst.toNat c = true → s.life.lc ≠ .blank → (t.chan c).enabled = true ∧ (t.chan c).entry = some e) ∧
        (∀ c a take en e, s.applies b = true → (s.chan c).refresh = .got a take en e → a + 2 ≤ b →
          s.servedHere e.inst.toNat = false ∨ s.ownsChan e.inst.toNat c = false ∨ en = false ∨ s.life.lc = .blank →
          (t.chan c).enabled = false) ∧
        ∀ m r, s.dsp.affBack = some m → s.dsp.affReady = some r → r + 2 ≤ b → t.dsp.affFront = m ∧ t.dsp.affBack = none) ∧
  (∀ (α : Type) (g : Gov α) (w b : Nat), g.wrote = some w →
    g.apply b = if w + 2 ≤ b then { g with cur := g.next, wrote := none } else g) ∧
  (∀ (s : State) (b n : Nat) (k : KeyCopy), (s.slot n).back = some k → (s.slot n).backAt + 2 ≤ b → k.kind ≠ 0 →
    s.keyShare k.owner ≤ s.otherSlots n k.owner → (s.slot n).reason ≠ 4 →
    let t := s.applySlot b n
    (t.slot n).front = (s.slot n).front ∧ (t.slot n).back = some k ∧ (t.slot n).reason = 4 ∧ s.Arrived t 626) ∧
  (∀ s : State, s.up = true → s.dsp.affBack ≠ none → s.dsp.affReady = none →
    exec .affinityRebuildDone s = .next { s.quietOut with dsp := { s.dsp with affReady := some s.now } }) ∧
  (∀ (g : BitVec 10) (s : State), s.works = false ∨ (s.gran g.toNat).draining = none ∨ s.granHeld g.toNat = true →
    exec (.granuleZeroingDone g) s = .next s.quietOut) ∧
  ∀ (g : BitVec 10) (s : State), s.works = true → (s.gran g.toNat).draining ≠ none → s.granHeld g.toNat = false →
    Completes (.granuleZeroingDone g) s fun t =>
      (∀ w, t.deck w = if w / 4096 = g.toNat then 0 else s.deck w) ∧ (t.gran g.toNat).draining = none ∧
        (t.gran g.toNat).applied = (s.gran g.toNat).applied ∧ ∀ k, k ≠ g.toNat → t.gran k = s.gran k

/-! ## Host ports and rings -/

/-- DOORBELL_POLL of an enabled channel, and NOTIFY of a line that enabled channels of one user wait on, while no read of that user
covers the line yet: the line is read for the user (R53, R64, R65, R82); the NOTIFY credit returns. That one read of a user serves all
its channels of the line is log entry 34, the model's choice. A NOTIFY for a line whose only user does not fetch is counted in NTCOAL
(R388), one for a line without a channel in NTBAD with its record, and a disabled port drops it (R55, R64). DESCRIPTOR_FETCH: the channel
whose turn it is reads the descriptor of its next position (R76, R80, R384). -/
def Obligations.ChannelsFetch : Prop :=
  (∀ (chan : BitVec 13) (s : State) (e : ChanEntry),
    let x := s.chan chan.toNat
    let line : BitVec 58 := e.dbell.extractLsb' 6 58
    x.entry = some e → x.enabled = true → s.fetchOk = true → s.instRuns e.inst.toNat = true → s.bellWaits e.inst line = false →
      s.bellOut e.inst line = false → s.pollDue chan.toNat = true →
      exec (.doorbellPoll chan) s =
        .next ((s.quietOut.send (readReq (line ++ (0 : BitVec 6)) e.inst 1 (.doorbell e.inst line))).modChan chan.toNat
          fun q => { q with pollAt := some s.now })) ∧
  (∀ (port : Bool) (line : BitVec 58) (s : State) (i : BitVec 8),
    let q := s.quietOut.emit (.ntCredit port)
    s.up = true → s.life.power = .run → s.life.noClock = [] → (s.port (bit port)).ntCredits ≠ 0 →
      ((s.port (bit port)).en = false → exec (.notify port line) s = .next q) ∧
      ((s.port (bit port)).en = true → s.bellChans line = [] →
        exec (.notify port line) s = .next (q.violationAt (bit port) 7 (64 * line.toNat)).settle) ∧
      ((s.port (bit port)).en = true → s.fetchOk = true → s.bellUsers line = [i] → s.bellChans line ≠ [] →
        (s.instRuns i.toNat = true → s.bellWaits i line = false → s.bellOut i line = false →
          exec (.notify port line) s = .next (q.send (readReq (line ++ (0 : BitVec 6)) i 1 (.doorbell i line)))) ∧
        (s.instRuns i.toNat = false → exec (.notify port line) s = .next (q.hostCount (bit port) 12)))) ∧
  (∀ (chan : BitVec 13) (s : State) (e : ChanEntry) (pos : BitVec 32),
    let c := chan.toNat
    let i := e.inst.toNat
    (s.chan c).entry = some e → s.nextPos c = some pos → s.fetchOk = true → s.instRuns i = true →
      s.acceptUse i < s.acceptShare i → s.acceptTotal < 16384 → s.fetchTurn i = some c →
      exec (.descriptorFetch chan) s =
        .next (((s.quietOut.putChan c { s.chan c with fetching := true, fetchEntry := some e }).putInst i { s.inst i with lastChan := c }).send
          (readReq (e.sub + BitVec.ofNat 64 (64 * (pos.toNat % 2 ^ e.l))) e.inst 1 (.descriptor c pos))))

/-- RESPONSE_BEAT: an OK answer to an outstanding tag returns the response credit, quarantines the tag and reaches its
purpose; a RETRY below the sixteenth makes the request wait, and the sixteenth ends it as an access error (R54, R59 to R61). DECODE_ERR
and ACCESS_ERR, and DATA_POISON of a write, are recorded and end the request as an access error, DATA_POISON of a READ as poison, and a
malformed code is a violation (Tables HST.4, HST.6, R63). By their purpose: a MSG is done, an ATOMIC_OR that fails sets BROKEN, a failed
descriptor read stops its channel with the user's event, a failed doorbell read each of the user's channels on the line, and a failed
table read fails check 7 (Table HST.5, R75). HOST_REQUEST_TIMEOUT keeps the tag out of its
pool and ends the request as an access error (R62). RETRY_REISSUE sends the request again on its port with its tag (R57,
R61); that it starts the limit of R62 anew, as HPI_Hn_TMO then stands, is log entry 92, the model's choice, as is the credit that
returns within the step (log entry 80). TAG_QUARANTINE_END returns the tag to its pool (R59). -/
def Obligations.HostRequestsEnd : Prop :=
  ∀ (port : Bool) (tag : BitVec 13) (s : State) (u : TagUse),
    let n := bit port
    let p := s.port n
    let q := s.quietOut.portBack n
    Assoc.lookup p.tags tag.toNat = some u → s.up = true → s.life.power = .run →
    (∀ d : Line, u.st = .outstanding → p.rsCredits ≠ 0 →
      exec (.responseBeat port tag 0 d) s = .next
        (((q.emit (.rsCredit port)).putPort n { p with tags := Assoc.insert p.tags tag.toNat { u with st := .quarantined } }).answered
          n u.req (.ok d)).afterAnswer) ∧
    (∀ d : Line, u.st = .outstanding → p.rsCredits ≠ 0 → u.retries < 15 →
      exec (.responseBeat port tag 4 d) s = .next ((q.emit (.rsCredit port)).putPort n
        { p with
          tags := Assoc.insert p.tags tag.toNat
              { u with st := .retryWait (min 4096 (64 * 2 ^ u.retries)), retries := u.retries + 1 } })) ∧
    (∀ (d : Line) (c : BitVec 3),
      let back := q.emit (.rsCredit port)
      let ends := fun (t : State) (a : Answer) =>
        ((t.putPort n { t.port n with tags := Assoc.insert (t.port n).tags tag.toNat { u with st := .quarantined } }).answered
          n u.req a).afterAnswer
      u.st = .outstanding → p.rsCredits ≠ 0 →
      (c = 1 ∨ c = 2 ∨ c = 3 → exec (.responseBeat port tag c d) s =
        .next (ends (back.recordHost n 0xFF c.toNat tag.toNat (some u.req)) (if c = 3 ∧ u.req.typ = .read then .poison else .refused))) ∧
      (5 ≤ c.toNat → exec (.responseBeat port tag c d) s =
        .next (ends (back.violation n 4 c.toNat tag.toNat (some u.req)) .refused)) ∧
      (c = 4 → 15 ≤ u.retries → exec (.responseBeat port tag c d) s =
        .next (ends ((back.violation n 10 4 tag.toNat (some u.req)).arrive (564 + 16 * n)) .refused))) ∧
    (∀ (r : HostReq) (a : Answer),
      (∀ v i, r.purpose = .message v i → s.answered n r a = s) ∧
      (∀ i, r.purpose = .dirty i none none →
        s.answered n r .refused = (s.modInst i fun x => { x with dl := { x.dl with broken := true } }).arrive (565 + 16 * n)) ∧
      (∀ c pos e, r.purpose = .descriptor c pos → (s.chan c).fetching = true → (s.chan c).fetchEntry = some e →
        s.answered n r .refused = (s.putChan c { s.chan c with fetching := false, stopped := true }).arrive e.inst.toNat) ∧
      (∀ i line c, r.purpose = .doorbell i line → s.mir.takeover = false → (i, line) ∉ s.dsp.bellAgain →
        Assoc.rising s.chans = true → (c, s.chan c) ∈ s.bellsOf i line →
        ((s.answered n r .refused).chan c).stopped = true ∧ s.Arrived (s.answered n r .refused) i.toNat) ∧
      (∀ c asked take, r.purpose = .chanTable c → s.mir.takeover = false → (s.chan c).refresh = .reading asked take →
        s.answered n r .refused = s.modChan c fun x => { x with refresh := .failed asked (some r.inst) 7 })) ∧
    (u.st = .outstanding → u.due ≤ s.now → s.portStill n = false →
      exec (.hostRequestTimeout port tag) s = .next
        ((((s.quietOut.putPort n { p with tags := Assoc.insert p.tags tag.toNat { u with st := .lost } }).violation n 9 0 tag.toNat
          (some u.req)).arrive (563 + 16 * n)).answered n u.req .refused).afterAnswer) ∧
    (∀ w, u.st = .retryWait w → p.credits ≠ 0 → s.portStill n = false → (u.req.purpose.fenced = true → s.fenceWanted = false) →
      exec (.retryReissue port tag) s = .next ((s.quietOut.putPort n
        { p with
          credits := p.credits - 1
          tags := Assoc.insert p.tags tag.toNat { u with st := .outstanding, due := s.now + max 1000 p.tmo.toNat } }).emit
        (.host port tag.toNat u.req.typ.code u.req.addr u.req.inst u.req.attr u.req.oen u.req.data))) ∧
    (u.st = .quarantined →
      exec (.tagQuarantineEnd port tag) s =
        .next ((s.quietOut.putPort n { p with tags := Assoc.erase p.tags tag.toNat }).pump).settle)

/-- REQUEST_CREDIT_RETURN adds a credit, and brings an enabled DOWN port UP after phase 6 (R54, R55). CLOCK_MISSING sets the
attention cause CLOCK; what waits on the ports of that clock stays (R25; their open state: log entry 39). RING_CONTROL_POLL reads
the control line of a full ring, at most once per µs, and RING_REWRITE writes a completion record again at its position, its
dirty bit first where one is due (R68, R440, R441). -/
def Obligations.PortsAndRings : Prop :=
  (∀ (port : Bool) (s : State),
    let n := bit port
    let p := s.port n
    let q := s.quietOut.portBack n
    s.up = true → s.portsOn = true → p.credits < 255 →
      (p.up = true ∨ p.en = false ∨ s.life.phase < 6 →
        exec (.requestCreditReturn port) s = .next (q.putPort n { p with credits := p.credits + 1 }).pump.settle) ∧
      (p.up = false → p.en = true → 6 < s.life.phase →
        exec (.requestCreditReturn port) s = .next
          ((((q.putPort n { p with credits := p.credits + 1, up := true }).arrive (560 + 16 * n)).pump).afterAnswer))) ∧
  (∀ (clk : ClockId) (s : State), s.alive = true → s.mustRun clk = true → clk ≠ .refclk →
    Completes (.clockMissing clk) s fun t =>
      t = { s.quietOut.attn 1 with
        ports := t.ports, exts := t.exts, mir := { s.mir with lanes := t.mir.lanes }, draws := s.draws + 20
        life := { s.life with noClock := clk :: s.life.noClock.filter (· != clk) } } ∧
        (∀ n, (t.port n).tags = (s.port n).tags) ∧ (∀ k, (t.lane k).replay = (s.lane k).replay) ∧
        (∀ d, (t.ext d).live = (s.ext d).live ∧ (t.ext d).unanswered = (s.ext d).unanswered) ∧
        (clk ≠ .hclk0 → t.port 0 = s.port 0 ∧ t.exts = s.exts) ∧ (clk ≠ .hclk1 → t.port 1 = s.port 1) ∧
        (clk ≠ .mclk → t.mir.lanes = s.mir.lanes)) ∧
  (∀ s : State, s.alive = true →
    Completes (.clockMissing .refclk) s fun t =>
      t = { s.quietOut.attn 1 with
        draws := s.draws + 20, life := { s.life with key := t.life.key }, units := { s.units with entropy := t.units.entropy } } ∧
        t.units.entropy.length = s.units.entropy.length) ∧
  (∀ (r : RingId) (s : State),
    let x := s.ring r
    s.up = true → x.en = true → x.starting = false → x.starved = true → x.ctlOut = false →
      (∀ t, x.ctlAt = some t → t + 100 ≤ s.now) →
      exec (.ringControlPoll r) s = .next ((s.quietOut.putRing r { x with ctlOut := true, ctlAt := some s.now }).send
        { readReq x.cline (ringInst r) (ringSpace r) (.ringLine r .full) with mgr := ringSpace r == 2 })) ∧
  (∀ (r : RingId) (s : State) (q : RingRec) (p : BitVec 32),
    let x := s.ring r
    let stage := fun (g : RecStage) => { x with
      wait := x.wait.map fun w => if w.stage == .failed && w.pos == some p then { w with stage := g } else w }
    s.up = true → x.en = true → (x.wait.find? fun w => w.stage == .failed && decide (w.due ≤ s.now)) = some q → q.pos = some p →
      ((∀ i, r = .inst i → (s.inst i.toNat).dl.en = false) →
        exec (.ringRewrite r) s = .next ((s.quietOut.send (x.writeOf r q p)).putRing r (stage .writing))) ∧
      ∀ i h, r = .inst i → (s.inst i.toNat).dl.en = true → (s.inst i.toNat).dl.bit (x.slotAddr p) = some h →
        exec (.ringRewrite r) s = .next ((s.quietOut.send
          (orReq i.toNat h.1 [(h.2.1, h.2.2)] (.dirty i.toNat none (some (r, p))))).putRing r (stage .dirty)))

/-! ## Units and extensions -/

/-- ADMISSION_ANSWER to a ZREQ without CHAIN: the request joins its unit's queue with the granules that its job held for it, and its
tag is pushed (R139, R226, R336, R354). To a CREQ and to a chained ZREQ: the key checks of Table CIZ.4 decide; a refusal completes the tag
at once, a spent key ends the job of a CREQ and completes the tag of a ZREQ, and an admitted request takes the counter, which rises by 1,
and the refreshed shares (R344); while the DRBG is STARVED the admission waits (R352). A GCM encryption writes ciphertext and tag, a decryption the plaintext once the tag matches, and no
plaintext is ever written with AUTH_FAIL (R346 to R348, R358); a second pass of GCM or CTR gives the text back. What a raw stream was
compressed to decompresses to it, and no compression exceeds the bound of R357 (R354, R355). LANE_GRANT: a free lane takes the request
whose turn it is and holds its granules (R139, R337); that it reads the block then is the model's choice (log entry 105). A free cipher
lane first serves a chain that waits for one (R358). CIPHER_REQUEST_DONE and COMPRESSION_REQUEST_DONE: the request leaves its lane with
its outcome, and the lane counts it (R338, R339); that a chain counts on both its lanes is the model's choice (log entry 91).
SHADE_REKEY: the generator takes 256 bits of a generate call, the first ones by the model's choice (log entry 35), and while the DRBG is
STARVED the lane stops (R350, R352). DERIVE_COMPLETE: the back copy holds the derived key in two shares (R341; the mask is a free value,
log entry 90). -/
def Obligations.UnitsServe : Prop :=
  (∀ (a : At) (s : State) (i : Issue) (dir : Bool) (id t : Nat) (j : Job) (d : Word) (r : List Word),
    let o := BitVec.ofNat 16 (lineNum j.desc 48 2)
    let u := s.asked id j
    let q : UnitReq := { unit := .compression, inst := j.inst, job := id, tag := t, block := d.setWidth 24, decompress := dir, opts := o
                         grans := j.asked }
    s.Admits a.isl.val a.ctx.val id t j (.zreq i dir false) → (s.ctx a.isl.val a.ctx.val).stack = d :: r →
      (o.getLsbD 4 = false → s.Admitted a (u.queueUnit q) t { kind := 2 } r) ∧
      (o.getLsbD 4 = true →
        let w := s.wordAt a.isl.val (d.setWidth 24)
        let k := u.keyCheck j (w.getLsbD 8) (w.extractLsb' 5 3).toNat
        (∀ code, k = .refused code → s.Admitted a u t { kind := 2, done := some (BitVec.ofNat 8 code, 0) } r) ∧
        (k = .spent → s.Admitted a u t { kind := 2, done := some (0x18, 0) } r) ∧
        (k = .starved → exec (.admissionAnswer a) s = .next { s.quietOut with
          units := { s.units with waiting := s.units.waiting ++ [(a.isl.val, a.ctx.val)] } }) ∧
        ∀ n kind s0 s1 counter v, k = .ok n kind s0 s1 counter v →
          s.Admitted a (v.queueUnit { q with slot := BitVec.ofNat 10 n, kind := kind, share0 := s0, share1 := s1, counter := counter })
            t { kind := 2 } r)) ∧
  (∀ (a : At) (s : State) (i : Issue) (mode : BitVec 4) (slotB : Bool) (id t : Nat) (j : Job) (d : Word) (r : List Word),
    let u := s.asked id j
    let k := u.keyCheck j slotB mode.toNat
    s.Admits a.isl.val a.ctx.val id t j (.creq i mode slotB) → (s.ctx a.isl.val a.ctx.val).stack = d :: r →
      (∀ code, k = .refused code → s.Admitted a u t { kind := 1, done := some (BitVec.ofNat 8 code, 0) } r) ∧
      (k = .spent → exec (.admissionAnswer a) s = .next (u.endJob id 6 0).settle) ∧
      (k = .starved → exec (.admissionAnswer a) s = .next { s.quietOut with
        units := { s.units with waiting := s.units.waiting ++ [(a.isl.val, a.ctx.val)] } }) ∧
      ∀ n kind s0 s1 counter v, k = .ok n kind s0 s1 counter v →
        s.Admitted a (v.queueUnit { unit := .cipher, inst := j.inst, job := id, tag := t, block := d.setWidth 24, mode := mode
                                    grans := j.asked, slot := BitVec.ofNat 10 n, kind := kind, share0 := s0, share1 := s1
                                    counter := counter }) t { kind := 1 } r) ∧
  (∀ (s : State) (j : Job) (slotB : Bool) (m : Nat),
    let sel := lineNum j.desc (if slotB then 42 else 40) 2
    let n := sel % 1024
    let k := s.slot n
    let limit := if slotB then j.snap.keyB else j.snap.keyA
    (sel < 32768 ∨ k.front.kind = 0 → s.keyCheck j slotB m = .refused 0x10) ∧
    (32768 ≤ sel → k.front.kind ≠ 0 →
      (k.front.owner ≠ j.inst → s.keyCheck j slotB m = .refused 0x11) ∧
      (k.front.owner = j.inst → k.front.perm.getLsbD m = false → s.keyCheck j slotB m = .refused 0x12) ∧
      (k.front.owner = j.inst → k.front.perm.getLsbD m = true →
        (limit ≤ k.counter → s.keyCheck j slotB m = .spent) ∧
        ∀ o t, k.counter < limit → s.drbg = some (o, t) →
          let mask := BitVec.ofNat 512 (beNat o)
          ∃ v, s.keyCheck j slotB m = .ok n k.front.kind (k.front.share0 ^^^ mask) (k.front.share1 ^^^ mask) k.counter v ∧
            (v.slot n).counter = k.counter + 1 ∧ (v.slot n).front.key = k.front.key))) ∧
  (∀ (s : State) (r : UnitReq),
    let e := s.cipherEnd r
    let x := cipherPart (r.blk.drop 5)
    let spk := (r.word 0).getLsbD 0
    let dpk := (r.word 0).getLsbD 1
    let src := s.octetsAt spk (r.word 2).toNat ((r.word 1).setWidth 24)
    let aad := s.octetsAt false x.aadLen x.aad
    let dst : WAddr := (r.word 3).setWidth 24
    e.unitError = false →
    (e.code = 0 → r.mode = 0 → ∃ t ad, src = some t ∧ aad = some ad ∧
      let iv := x.iv ((r.word 0).getLsbD 12) r.counter
      let ct := gcmText r.key iv t
      e.detail = (r.word 2).toNat ∧ (dst, packOctets dpk ct) ∈ e.writes ∧
        (WAddr.plus r.block 13, tagWords x.tlen (gcmTag r.key iv ad ct)) ∈ e.writes) ∧
    (e.code = 0 → r.mode = 1 → ∃ t ad, src = some t ∧ aad = some ad ∧
      (gcmTag r.key (x.iv false 0) ad t).take x.tlen = x.tag.take x.tlen ∧
        e.writes = [(dst, packOctets dpk (gcmText r.key (x.iv false 0) t))]) ∧
    (e.code = 0 → r.mode = 4 → ∃ t, src = some t ∧ e.writes = [(dst, packOctets dpk (ctrCrypt r.key (beNat x.params) t))]) ∧
    (e.code = 0x17 → ∀ q ∈ e.writes, ∃ n, q.2 = packOctets dpk (List.replicate n 0))) ∧
  (∀ (key : List Octet), key.length = 16 ∨ key.length = 32 → ∀ iv n t,
    gcmText key iv (gcmText key iv t) = t ∧ ctrCrypt key n (ctrCrypt key n t) = t) ∧
  (∀ (s : State) (r : UnitReq), (s.compressEnd r).code = 0x17 → (s.compressEnd r).writes = []) ∧
  (∀ (level : Nat) (src : List Octet), ∃ out h h',
    compressStream { level := level } true true src = .ok out src.length h ∧
      expandStream { decompress := true, level := level } true out = .ok src out.length h') ∧
  (∀ (h : Hist) (first last : Bool) (src out : List Octet) (n : Nat) (h' : Hist), h.wrap ≤ 2 →
    compressStream h first last src = .ok out n h' →
      out.length ≤ src.length + 5 * ((max src.length 1 + 65534) / 65535) + (if last then 0 else 5) +
        (if h.wrap = 1 then 6 else if h.wrap = 2 then 18 else 0)) ∧
  (∀ (u : UnitKind) (lane : Fin 16) (s : State) (k : Nat) (r : UnitReq), s.laneBarred u lane.val = false →
    ((u = .cipher → ∀ q ∈ s.units.reqs, q.2.wantsLane = false) → s.laneTurn u = some (k, r) →
      r.unit = u ∧ r.lane = none ∧ s.histHeld r = false ∧ (r.opts.getLsbD 4 = true → s.units.drbgState ≠ 3) ∧
      ∃ g, (∀ x ∈ r.grans, x ∈ g) ∧
        exec (.laneGrant u lane) s = .next { s.quietOut with units := { s.units with
          reqs := s.units.reqs.map fun q => if q.1 = k then (k, { r with
            lane := some lane.val, blk := s.deckWords r.block r.blkLen, blkBad := s.spanBad r.blkSpan, grans := g }) else q
          rrCipher := if u = .cipher then r.inst.toNat else s.units.rrCipher
          rrCompress := if u = .cipher then s.units.rrCompress else r.inst.toNat } }) ∧
    (u = .cipher → (s.units.reqs.find? fun q => q.2.wantsLane) = some (k, r) →
      exec (.laneGrant u lane) s = .next (s.quietOut.putReq k { r with lane2 := some lane.val }))) ∧
  (∀ (lane : Fin 8) (s : State) (k : Nat) (r : UnitReq), s.onLane .cipher lane.val = some (k, r) → r.unit = .cipher →
    r.keyLost = false → s.units.stalled.contains lane.val = false → (s.cipherEnd r).unitError = false →
    exec (.cipherRequestDone lane .clean) s = .next (({ s.quietOut with units := { s.units with
      cipherStat := laneCount s.units.cipherStat lane.val ((s.cipherEnd r).code == 0x17) } }).endLane k r (s.cipherEnd r))) ∧
  (∀ (lane : Fin 16) (s : State) (k : Nat) (r : UnitReq), s.onLane .compression lane.val = some (k, r) →
    r.keyLost = false → s.chainRuns r = true → (s.compressEnd r).unitError = false → (s.compressEnd r).historyBad = false →
    exec (.compressionRequestDone lane .clean) s = .next ((({ s.quietOut with units := { s.units with
      compStat := laneCount s.units.compStat lane.val ((s.compressEnd r).code == 0x21 || (s.compressEnd r).code == 0x22) } }).countChain
        r (s.compressEnd r)).endLane k r (s.compressEnd r))) ∧
  (∀ (lane : Fin 8) (s : State),
    (∀ (t : State) (o : List Octet), s.quietOut.drbg = some (o, t) →
      exec (.shadeRekey lane) s = .next { t with units := { t.units with
        shades := Assoc.insert t.units.shades lane.val (BitVec.ofNat 256 (beNat (o.take 32)))
        stalled := t.units.stalled.filter (· != lane.val) } }) ∧
    (s.units.drbgState = 3 → s.units.stalled.contains lane.val = false →
      exec (.shadeRekey lane) s = .next { s.quietOut with units := { s.units with stalled := s.units.stalled ++ [lane.val] } })) ∧
  ∀ (slot : BitVec 10) (s : State) (label : List Octet) (ctl : BitVec 20) (gen : BitVec 32),
    let kind : BitVec 3 := ctl.extractLsb' 8 3
    let owner : BitVec 8 := ctl.extractLsb' 0 8
    let key := kdf s.rootKey label owner.toNat gen.toNat (8 * keyOctets kind)
    (s.slot slot.toNat).work = some (ctl, gen, label) → kind.toNat < 3 →
      ∃ c : KeyCopy, c.key = BitVec.ofNat 512 (beNat key) ∧ (c.kind, c.owner, c.perm, c.gen) = (kind, owner, ctl.extractLsb' 11 8, gen) ∧
        c.exportable = ctl.getLsbD 19 ∧
        exec (.deriveComplete slot) s = .next (s.quietOut.drawMask.2.putSlot slot.toNat
          { s.slot slot.toNat with back := some c, backAt := s.now, work := none, reason := 0 })

/-- EXTENSION_REQUEST sends a waiting request once (R34). EXTENSION_RESPONSE_BEAT: a last single beat with status 0 replaces the two
operands by its data; a first beat of a double answer waits for the second, and the second brings the low cell under the high one (R35).
Status 1 or 3 and a malformed beat take UNIT_ERROR with sub-code 1, status 2 takes ILLEGAL with sub-code 0x0B (R36, Table PRT.6). A beat
without a live request is dropped and counted (R37). That a request counts as live from the moment it is formed, sent or not, and that a
second beat ends its response whatever its Xs_S_LAST, is the model's choice (log entry 97). -/
def Obligations.ExtensionsAnswer : Prop :=
  (∀ (stand : Fin 16) (ctx : BitVec 8) (s : State) (r : ExtReq),
    let e := s.ext stand.val
    Assoc.lookup e.live ctx.toNat = some r → r.sent = false → s.portStill 0 = false →
      exec (.extensionRequest stand ctx) s =
        .next { s.putExt stand.val { e with live := Assoc.insert e.live ctx.toNat { r with sent := true } } with
          out := [.ext stand.val ctx r.gen r.op r.a r.b false] }) ∧
  (∀ (stand : Fin 16) (ctx : BitVec 8) (s : State) (r : ExtReq) (v : Word),
    let e := s.ext stand.val
    let k := ctx.toNat
    let p := 17 * stand.val + k / 8
    let c := k % 8
    let x := s.ctx p c
    let q := s.quietOut.portBack 0
    let gone := q.putExt stand.val { e with live := Assoc.erase e.live k }
    let goes : Ctx := { x with wait := .nothing, state := .ready }
    k < 136 → Assoc.lookup e.live k = some r →
    (r.first = none → ∀ st : BitVec 2, exec (.extensionResponseBeat stand ctx r.gen v true false st) s =
      .next (q.putExt stand.val { e with live := Assoc.insert e.live k { r with first := some (v, st) } })) ∧
    (s.Resumes p c 2 → x.wait = .extension → x.state = .blocked → x.shadow = [] → 2 ≤ x.depth → x.depth ≤ 16 →
      (r.first = none → ∃ y : Ctx, y.Holds { goes with pc := SAddr.plus x.pc 2 } (v :: x.stack.drop 2) ∧
        exec (.extensionResponseBeat stand ctx r.gen v false true 0) s = .next ((gone.putCtx p c y).settle)) ∧
      (∀ (hi : Word) (last : Bool), r.first = some (hi, 0) →
        ∃ y : Ctx, y.Holds { goes with pc := SAddr.plus x.pc 2 } (hi :: v :: x.stack.drop 2) ∧
          exec (.extensionResponseBeat stand ctx r.gen v true last 0) s = .next ((gone.putCtx p c y).settle)) ∧
      (s.ownStore p → s.dbg.trcEn = false → x.trapReady → (∀ z ∈ s.ldk.resv, z.2 ≠ (p, c)) →
        (r.first = none →
          ∃ w : Window, w.list = [trapCell 0 0x0B c false, x.pc.setWidth 36] ∧
            exec (.extensionResponseBeat stand ctx r.gen v false true 2) s =
              .next ((gone.putCtx p c (goes.inTrap 0 x.pc w)).settle)) ∧
        ∀ (dbl last : Bool) (st : BitVec 2) (code : Nat),
          (match r.first with
            | none => dbl = last ∧ code = 1 ∨ dbl = false ∧ last = true ∧ (st = 1 ∧ code = 0 ∨ st = 3 ∧ code = 3)
            | some f => (dbl = false ∨ st ≠ f.2) ∧ code = 1) →
          let t := if code = 0 then gone else gone.recordExt stand.val k r.gen code
          ∃ (y : Ctx) (w : Window), y.Holds goes (x.stack.drop 2) ∧ w.list = [trapCell 15 1 c false, x.pc.setWidth 36] ∧
            exec (.extensionResponseBeat stand ctx r.gen v dbl last st) s =
              .next ((t.putCtx p c (y.inTrap 15 (SAddr.plus x.pc 2) w)).settle)))) ∧
  ∀ (stand : Fin 16) (ctx : BitVec 8) (gen : BitVec 4) (v : Word) (dbl last : Bool) (st : BitVec 2) (s : State),
    let e := s.ext stand.val
    let k := ctx.toNat
    (∀ r, Assoc.lookup e.live k = some r → r.gen ≠ gen) →
    let ends := last || !dbl
    let t := ((s.quietOut.portBack 0).putExt stand.val { e with
      dropped := e.dropped + 1, unanswered := if ends then e.unanswered.filter (· ≠ (k, gen)) else e.unanswered }).recordExt
        stand.val k gen 2
    exec (.extensionResponseBeat stand ctx gen v dbl last st) s =
      .next (if ends = true ∧ k < 136 then t.extResume (17 * stand.val + k / 8) (k % 8) else t)

/-! ## Scrubbing and event timers -/

/-- LOG_DECK_SCRUB moves every slice to its next row, and a pass ends after row 8,191 (R144). LOCAL_STORE_SCRUB marks an
uncorrectable word once, and counts a corrected one (R429, Table CHK.2). MICROCODE_SCRUB counts a corrected microword (R327). A scrub pass
that overruns its period by more than 100 % is recorded once and goes on (R429; what a pass and its record are is log entry 135). STATE_SCRUB drops the oldest trace record
with a parity error, and empties both copies of a key slot with an uncorrectable word (Table CHK.2). EVENT_TIMER makes an
arrival at 736 + t; a periodic timer reloads, a one-shot timer clears EN (R376). DRAIN_TIMEOUT squashes: a user with nothing in
the tracker is in RESET (R389, R391, R392). -/
def Obligations.UpkeepRuns : Prop :=
  (∀ s : State, s.scrubs = true →
    exec (.logDeckScrub []) s = .next { s.quietOut.scrubStep 0 800000000 (s.ldk.row + 1 == 8192) with ldk := { s.ldk with
      row := if s.ldk.row + 1 < 8192 then s.ldk.row + 1 else 0
      passes := if s.ldk.row + 1 < 8192 then s.ldk.passes else s.ldk.passes + 1 } }) ∧
  (∀ (isl : Fin 272) (addr : BitVec 14) (s : State), s.scrubs = true → addr.toNat ∉ (s.eng isl.val).bad →
    Completes (.localStoreScrub isl addr .uncorrectable) s fun t =>
      (t.eng isl.val).bad = addr.toNat :: (s.eng isl.val).bad ∧ (t.eng isl.val).lstore = (s.eng isl.val).lstore ∧
        t.chk.attn.getLsbD 4 = true ∧ ∀ q, q ≠ isl.val → t.eng q = s.eng q) ∧
  (∀ (isl : Fin 272) (addr : BitVec 14) (s : State), s.scrubs = true →
    let t := s.quietOut.scrubStep (1 + isl.val) 100000000 (addr == BitVec.allOnes 14)
    exec (.localStoreScrub isl addr .clean) s = .next t ∧
      exec (.localStoreScrub isl addr .corrected) s = .next { t with
        chk := { t.chk with corrected := Assoc.insert s.chk.corrected 1 ((Assoc.lookup s.chk.corrected 1).getD 0 + 1) } }) ∧
  (∀ (stand : Fin 16) (addr : BitVec 12) (s : State), s.scrubs = true →
    exec (.microcodeScrub stand addr .corrected) s = .next
      { s.quietOut.scrubStep (1000 + stand.val) 1600000 (addr == BitVec.allOnes 12) with mcs := { s.mcs with ce := satInc s.mcs.ce } }) ∧
  (∀ (s : State) (k period : Nat) (last : Bool),
    let q := (Assoc.lookup s.chk.passes k).getD (s.now, false)
    let t := s.scrubStep k period last
    t = { s with chk := { s.chk with passes := t.chk.passes, overruns := t.chk.overruns } } ∧
      (∀ i, Assoc.lookup t.chk.passes i = if i = k then
        some (if last then (s.now, false) else (q.1, q.2 || decide (q.1 + 2 * period < s.now))) else Assoc.lookup s.chk.passes i) ∧
      t.chk.overruns = s.chk.overruns + if q.2 = false ∧ q.1 + 2 * period < s.now then 1 else 0) ∧
  (∀ s : State, s.scrubs = true →
    exec (.stateScrub .trace .uncorrectable) s = .next { s.quietOut with dbg := { s.dbg with
      trace := s.dbg.trace.tail, trcDrop := if s.dbg.trace = [] then s.dbg.trcDrop else satInc s.dbg.trcDrop } }) ∧
  (∀ (k : BitVec 10) (s : State), s.scrubs = true →
    Completes (.stateScrub (.keySlot k) .uncorrectable) s fun t =>
      (t.slot k.toNat).front = {} ∧ (t.slot k.toNat).back = none ∧ ∀ n, n ≠ k.toNat → t.slot n = s.slot n) ∧
  (∀ (n : BitVec 5) (s : State) (d : Nat),
    let x : EvTimer := Tab.get (fun _ => {}) s.evc.timers n.toNat
    s.up = true → x.en = true → x.timer = .until d → d ≤ s.now →
      let y := if x.periodic = true ∧ x.period ≠ 0 then { x with timer := .until (d + x.period.toNat) } else { x with en := false, timer := .off }
      exec (.eventTimer n) s =
        .next ({ s.quietOut with evc := { s.evc with timers := Tab.put s.evc.timers n.toNat y } }.arrive (736 + n.toNat))) ∧
  ∀ (i : BitVec 8) (s : State) (d : Nat), s.up = true → (s.inst i.toNat).rstate = .draining →
    (s.inst i.toNat).rstDue = some d → d ≤ s.now → s.trackerEmpty i.toNat = true →
    Completes (.drainTimeout i) s fun t =>
      (t.inst i.toNat).rstate = .reset ∧ (t.inst i.toNat).rstDue = none ∧ s.Arrived t i.toNat

/-! ## The mirror link -/

/-- R401, R402: the header of a frame that the complex forms reads back, and its CRC is right. -/
def Obligations.FramesReadBack : Prop :=
  ∀ (typ : BitVec 4) (seq rseq : BitVec 24) (body : BitVec 172),
    let f := mkFrame typ seq rseq body
    frameType f = typ.toNat ∧ frameSeq f = seq ∧ frameRseq f = rseq ∧ f.extractLsb' 32 172 = body ∧
      f.extractLsb' 0 32 = frameCrc f

/-- Table MIR.3: what each frame does when it arrives in its turn. HELLO opens a session where no lane is up (R408). ATTEST is
checked against the expected digest (R409). COMMIT_REC opens a record, and PAYLOAD fills it; a record whose last frame came is
held and acknowledged where it fits (R411). ACK ends step 3 of its commit, and RETIRE discards the held record (R411, R412).
HEARTBEAT carries PEERFENCED, on a lane that is down too (R413). STATE_SYNC is acted on in SYNC (R418); that it is kept in BRINGUP and
REPLACED is the model's choice (log entry 133). NACK replays (R405); that it counts only where its SEQ is the expected one, and that
its RSEQ then acknowledges, is the model's choice (log entry 41). A frame of an unknown type is counted (R421). The last parts say what
a session's begin, STATE_SYNC, the end of step 3 and a replay change (R405, R408, R412, R418, R420, Table MIR.7). -/
def Obligations.MirrorFrames : Prop :=
  ∀ (lane : Bool) (f : BitVec 256) (s : State),
    let k := bit lane
    let h := s.heard k
    let u := s.seen k
    (s.Sees 0 f → fget f 200 4 = 3 → clearBits f 96 32 = true → s.anyLane = false →
      let v := (u.setPeerFenced (f.getLsbD 198)).beginSession (helloBody f)
      exec (.hello lane f) s =
        .next (v.putLane k { up := true, lastRx := s.now, lastNack := (v.lane k).lastNack }).afterLink) ∧
    (s.Hears k 1 f → clearBits f 91 32 = true → f.extractLsb' 92 48 = s.mir.nonce → s.mir.link = .bringup →
      let d : BitVec 64 := f.extractLsb' 140 64
      let t := { h with mir := { h.mir with seen := d } }
      exec (.attest lane f) s =
        .next (if s.aon.peerv = true ∧ s.aon.peerId = d then t.enterSync else (t.leaveLink .replaced).arrive 594).afterLink) ∧
    (s.Hears k 2 f → s.takesRecords = true → (s.lane k).building = none → clearBits f 68 32 = true →
      (f.getLsbD 69 = true ∨ fget f 70 20 = 0) →
      exec (.commitRec lane f) s = .next (h.putLane k { h.lane k with building := some (partialOf f) }).afterLink) ∧
    (∀ b b' : Partial, s.Hears k 3 f → s.takesRecords = true → (s.lane k).building = some b → b.rid = fget f 191 13 →
      b.bad = false → b.takes f = some b' →
      ((b'.info && b'.extents == 0 && b'.lines == 0) = false →
        exec (.payload lane f) s = .next (h.putLane k { h.lane k with building := some b' }).afterLink) ∧
      (b'.info = true → b'.extents = 0 → b'.lines = 0 → Assoc.lookup s.mir.held (heldKey b'.rid b'.body.csn) = none →
        s.mir.heldUnits + b'.units ≤ s.reserveUnits → s.mir.held.length < 8192 →
        let t := h.putLane k { h.lane k with building := none }
        exec (.payload lane f) s = .next (({ t with mir := { t.mir with
          held := Assoc.insert s.mir.held (heldKey b'.rid b'.body.csn)
            { b'.body with units := b'.units, start := s.mir.helloStart }
          heldUnits := s.mir.heldUnits + b'.units } }).sendAck b'.rid b'.body.csn 0).afterLink)) ∧
    (∀ o : OwnRec, s.Hears k 4 f → clearBits f 140 32 = true → fget f 141 2 ≤ 1 → s.own (fget f 191 13) = some o →
      o.body.csn = f.extractLsb' 143 48 →
      let stored := decide (fget f 141 2 = 0)
      let t := h.putOwn (fget f 191 13) { o with acked := true }
      let v := if stored then t else t.mirCount 12
      exec (.ack lane f) s = .next (match o.job with
        | some id => v.endMirror id stored
        | none => v).afterLink) ∧
    (∀ r : Record, s.Hears k 5 f → clearBits f 142 32 = true →
      Assoc.lookup s.mir.held (heldKey (fget f 191 13) (f.extractLsb' 143 48)) = some r →
      exec (.retire lane f) s = .next ({ h with mir := { h.mir with
        held := Assoc.erase s.mir.held (heldKey (fget f 191 13) (f.extractLsb' 143 48))
        heldUnits := s.mir.heldUnits - r.units } }).afterLink) ∧
    (s.Sees 6 f → clearBits f 167 32 = true →
      (s.lane k).up = false ∨ frameRseq f = (s.lane k).oldest ∧ frameSeq f = (s.lane k).rxSeq →
      exec (.heartbeat lane f) s = .next (u.setPeerFenced (f.getLsbD 203)).afterLink) ∧
    (s.Hears k 7 f → clearBits f 155 32 = true →
      (s.mir.link = .bringup ∨ s.mir.link = .replaced →
        exec (.stateSync lane f) s =
          .next ({ h with mir := { h.mir with waitSync := some (f.extractLsb' 172 32, f.getLsbD 156) } }).afterLink) ∧
      (s.mir.link = .sync →
        let t := if s.mir.gotSync then h else h.actSync (f.extractLsb' 172 32) (f.getLsbD 156)
        exec (.stateSync lane f) s =
          .next ({ t with mir := { t.mir with gotDone := t.mir.gotDone || f.getLsbD 157 } }).afterLink)) ∧
    (s.Sees 8 f → (s.lane k).up = true → clearBits f 203 32 = true → frameSeq f = (s.lane k).rxSeq →
      (frameRseq f - (s.lane k).oldest).toNat ≤ (s.lane k).replay.length →
      exec (.nack lane f) s = .next
        ((u.replayLane k (frameRseq f - (s.lane k).oldest).toNat).passed k (frameRseq f)).afterLink) ∧
    (s.linkOn = true → f.extractLsb' 0 32 = frameCrc f → 9 ≤ frameType f → s.linkStill = false →
      exec (.unknownFrame lane f) s = .next (u.linkFault k 3 f).afterLink) ∧
    (∀ b : HelloBody,
      let t := s.beginSession b
      t.mir.link = .bringup ∧ t.mir.peerNonce = b.nonce ∧ t.mir.helloStart = b.start ∧ t.mir.credit = b.units ∧
        t.mir.announced = b.units ∧ t.mir.sentDone = false ∧ t.mir.gotDone = false ∧ t.mir.gotSync = false ∧
        t.mir.waitSync = none ∧ t.units.attest = true ∧
        ∀ j, (t.lane j).up = false ∧ (t.lane j).txSeq = 0 ∧ (t.lane j).rxSeq = 0 ∧ (t.lane j).replay = [] ∧ (t.lane j).queue = []) ∧
    (∀ start,
      let t := s.actSync start false
      t.mir.gotSync = true ∧ t.mir.waitSync = none ∧ t.mir.retire = []) ∧
    (∀ i < 256,
      let t := s.lend i
      (t.inst i).home = 3 ∧ (t.inst i).rstate = .reset ∧ ∀ q ∈ t.mir.own, q.2.body.inst ≠ BitVec.ofNat 8 i) ∧
    (∀ rid o, s.own rid = some o →
      (o.posted = true → s.resyncOwn true rid = s.sendOwnRetire rid o ∧ s.resyncOwn false rid = s.dropOwn rid) ∧
      (o.posted = false → o.acked = true → s.resyncOwn true rid = s) ∧
      (o.posted = false → s.resyncOwn false rid = s.resend rid ∧ (o.acked = false → s.resyncOwn true rid = s.resend rid))) ∧
    (∀ (id : Nat) (j : Job) (stored : Bool), s.job id = some j → j.st = .sealed → j.releasing = false → j.mirroring = .waiting →
      s.endMirror id stored = (s.putJob id { j with
        mirroring := if stored then .acked else .unmirrored, detail := if stored then j.detail else j.detail ||| 1 }).beginRelease id) ∧
    ∀ n, (s.replayLane k n).out = s.out ++ ((s.lane k).replay.drop n).map fun g =>
      .frame lane (mkFrame (g.extractLsb' 252 4) (frameSeq g) (s.lane k).rxSeq (g.extractLsb' 32 172))

/-- HELLO and HEARTBEAT go out in their periods (R406, R408, R413). Silence takes a lane down, and silence on both lanes, or a
bring-up that stalls after a pairing, enters LOST (R406, R413). LOST without the takeover condition fences this side (R415).
A PAIR_ARB grant outside LOST is counted, and in LOST it lets the takeover begin: every PEER user becomes TAKEN (R39, R414, R416); its
level is kept at all times. That a lane which is down sends HELLO in any state, and so does one whose partner's lane is down, is the
model's choice (log entries 43 and 134). The recomputed digest is sent, or disables the link where it differs from MIR_SELF_ID, once cipher lane 0 is free (R409, Table CHK.7). -/
def Obligations.MirrorTimers : Prop :=
  (∀ (lane : Bool) (s : State),
    let k := bit lane
    let l := s.lane k
    s.linkOn = true → s.linkStill = false →
    (s.mir.link = .bringup ∨ s.mir.link = .lost ∨ l.up = false ∨ l.hail = true →
      exec (.helloPeriod lane) s = .next ((s.quietOut.putLane k { l with accepted := 0 }).emit (.frame lane
        (mkFrame 0 l.txSeq l.rxSeq (bodyOf [(200, 4, 3), (199, 1, k), (198, 1, bit s.aon.fenced), (195, 3, s.mir.link.code),
          (147, 48, s.mir.nonce.toNat), (115, 32, s.mir.start.toNat), (97, 18, s.reserveUnits - s.mir.heldUnits)]))))) ∧
    (l.up = true →
      exec (.heartbeatPeriod lane) s = .next ((s.quietOut.putLane k { l with accepted := 0 }).emit (.frame lane
        (mkFrame 6 l.txSeq l.rxSeq (bodyOf [(203, 1, bit s.aon.fenced), (200, 3, s.mir.link.code),
          (168, 32, s.mir.start.toNat)]))))) ∧
    (l.up = true → (s.lane (1 - k)).up = true → l.lastRx + 16000 ≤ s.now → s.now < (s.lane (1 - k)).lastRx + 16000 →
      Completes (.laneDownTimeout lane) s fun t => (t.lane k).up = false ∧ s.Arrived t 595)) ∧
  (∀ s : State, s.hasPartner = true → s.mir.lostAt + 16000 ≤ s.now → (∀ k < 2, (s.lane k).lastRx + 16000 ≤ s.now) →
    Completes .partnerLossTimeout s fun t => t.mir.link = .lost ∧ (∀ k, (t.lane k).up = false) ∧ s.Arrived t 593) ∧
  (∀ s : State, s.linkOn = true → s.mir.link = .bringup ∨ s.mir.link = .sync → s.mir.everPaired = true →
    s.mir.stallAt + 100000 ≤ s.now →
    Completes .bringupStallTimeout s fun t => t.mir.link = .lost ∧ (∀ k, (t.lane k).up = false) ∧ s.Arrived t 593) ∧
  (∀ s : State, s.linkOn = true → s.mir.link = .lost → s.mayTake = false → s.mir.takeover = false → s.mir.tookNow = false →
    s.mir.selfFenced = false → s.mir.arbWait ≠ 0 → s.mir.lostAt + s.mir.arbWait.toNat ≤ s.now →
    exec .selfFence s = .next (({ s.quietOut with mir := { s.mir with selfFenced := true } }).arrive 599).settle) ∧
  (∀ s : State, s.alive = true → s.mir.arb = false → s.mir.link ≠ .lost →
    exec (.pairArb true) s = .next (({ s.quietOut with mir := { s.mir with arb := true } }.mirCount 13).arrive 600)) ∧
  (∀ s : State, s.up = true → s.life.power = .run →
    (s.mir.link = .lost → s.mir.autotake = true → s.mir.takeover = false → s.mir.tookNow = false →
      exec (.pairArb true) s = .next ({ s.quietOut with mir := { s.mir with arb := true } }.beginTakeover).afterLink) ∧
    (s.mir.peerFenced = false →
      exec (.pairArb false) s = .next ({ s.quietOut with mir := { s.mir with arb := false } }).afterLink)) ∧
  (∀ (s : State) (b : Bool), s.alive = false ∨ s.mir.link = .lost ∧ (s.up = false ∨ s.life.power ≠ .run) →
    exec (.pairArb b) s = .next { s.quietOut with mir := { s.mir with arb := b } }) ∧
  (∀ s : State,
    let t := s.beginTakeover
    t.mir.takeover = true ∧ t.mir.takeRead = true ∧ t.mir.tookOver = true ∧ t.mir.selfFenced = false ∧ s.Arrived t 597 ∧
      ∀ i, (t.inst i).home = if (s.inst i).home = 1 then 2 else (s.inst i).home) ∧
  ∀ (d : BitVec 64) (s : State), s.linkOn = true → s.units.attest = true → s.onLane .cipher 0 = none →
    let t := { s.quietOut with units := { s.units with attest := false } }
    exec (.attestComputationDone d) s = .next
      (if d = s.mir.selfId then t.sendAttest d else ((t.attn 7).leaveLink .disabled).dropLanes).afterLink

/-! ## Resets, start-up and power -/

/-- Reset as the complex leaves it at power-on: memory and every local store list nothing, no user, channel or job is there, and the
settings hold the values that the manual gives (Tables ENG.2, ENG.6, HST.8, EVC.5, MIR.9, CHK.8, PTN.2, LCB.7). What the manual does not
print is the model's choice: the stacks (log entry 2), and which log engine is on which stand (log entry 3). -/
def Obligations.ResetValues : Prop :=
  let s := State.reset
  s.ldk.mem = [] ∧ s.chans = [] ∧ s.insts = [] ∧ (∀ p, (s.eng p).lstore = []) ∧ s.jobs = [] ∧ s.pending = [] ∧ s.hostWait = [] ∧ s.pairFenced = true ∧
    (∀ p < 272, (s.eng p).step = 20 ∧ (s.eng p).lsKeepEnd = 0x1000 ∧ (s.eng p).lsOvlEnd = 0x3000 ∧
      (s.eng p).lsCtxBase = 0x3000 ∧ (s.eng p).wdtLoad = 100000 ∧ (s.eng p).running = false) ∧
    (∀ p c, (s.ctx p c).state = .free ∧ (s.ctx p c).stack = [] ∧ (s.ctx p c).astack = [] ∧ (s.ctx p c).rstack = []) ∧
    (∀ e < 256, s.physOf e = 17 * (e / 16) + e % 16) ∧
    (∀ n < 2, (s.port n).en = true ∧ (s.port n).tmo = 100000 ∧ (s.port n).rsCredits = 64 ∧ (s.port n).ntCredits = 32) ∧
    (∀ n, (s.src n).prio = if 528 ≤ n ∧ n ≤ 559 then 15 else if 256 ≤ n ∧ n ≤ 527 then 1 else 0) ∧
    s.mir.en = false ∧ s.mir.autotake = true ∧ s.mir.arbWait = 10000 ∧ s.chk.budget = 26000 ∧ s.life.shutTmo = 10000000 ∧
    (∀ i, (s.inst i).prio.cur = 0 ∧ (s.inst i).rstate = .run)

/-- R31: LC_STATE decodes as Table PRT.5 has it. Every pair of code words differs in at least 3 bits, no value is corrected,
and every value that the table does not hold, 0x00 and 0x3F among them, decodes as SCRAPPED. -/
def Obligations.LifeCycleCodes : Prop :=
  let codes : List (BitVec 6 × Lc) :=
    [(0x26, .blank), (0x15, .test), (0x0B, .manufacture), (0x33, .field), (0x2D, .recovery), (0x1E, .scrapped)]
  (∀ q ∈ codes, decodeLc q.1 = q.2) ∧ (∀ v, (∀ q ∈ codes, q.1 ≠ v) → decodeLc v = .scrapped) ∧
    decodeLc 0x00 = .scrapped ∧ decodeLc 0x3F = .scrapped ∧
    ∀ q ∈ codes, ∀ r ∈ codes, q ≠ r → 3 ≤ ((List.range 6).filter fun k => (q.1 ^^^ r.1).getLsbD k).length

/-- Table PRT.7: PORST_N clears everything but the always-on domain, and its release starts the time base (R41, R185).
SYSRST_N clears everything but the time base, the always-on domain, the life cycle, the engines in service and the clock plan, and
detaches a debugger in FIELD. The levels of PWR_REQ and PAIR_ARB stand through both (R39, R46). Either reset cuts a self-test short: COMPLETE
is 0 and what had been written stays (R472, R476). The release of SYSRST_N latches the life-cycle state and classifies the signature
store (R32, R42, R473). A stable change of LC_STATE scraps the complex and zeroes its secrets (R32). The always-on domain has its own
power-on (R42). The model's choices: an unstable LC_STATE is counted (log entry 19), SYSRST_N in OFF changes only the reset level (log
entry 106), SYSRST_N stays asserted inside after PORST_N until its own release (log entry 56), a debugger outside TEST, MANUFACTURE,
RECOVERY and FIELD stays attached (log entry 121), and how far a cut self-test had written is open (log entry 113). -/
def Obligations.ResetsAndLifeCycle : Prop :=
  (∀ s : State,
    let left := fun (a : Aon) (d : Nat) => { State.reset with
      pending := s.pending, draws := d, aon := { a with fenced := true }
      mir := { State.reset.mir with arb := s.mir.arb }, life := { State.reset.life with request := s.life.request } }
    (s.selfTesting = false → exec .porstAssert s = .next (left s.aon s.draws)) ∧
    (s.selfTesting = true → ∃ a, s.aon.CutTo a ∧ exec .porstAssert s = .next (left a (s.draws + 3)))) ∧
  (∀ s : State, s.life.porst = true →
    exec .porstRelease s = .next { s.quietOut with now := 0, life := { s.life with porst := false } }) ∧
  (∀ s : State, s.life.porst = false → s.life.power ≠ .off →
    Completes .sysrstAssert s fun t =>
      t.life.sysrst = true ∧ t.life.lc = s.life.lc ∧ t.life.changed = s.life.changed ∧ t.now = s.now ∧
        (s.selfTesting = false → t.aon = { s.aon with fenced := true }) ∧
        (s.selfTesting = true → ∃ a, s.aon.CutTo a ∧ t.aon = { a with fenced := true }) ∧
        t.jobs = [] ∧ t.hostWait = [] ∧ t.ldk = State.reset.ldk ∧
        t.units = State.reset.units ∧ t.mir = { State.reset.mir with arb := s.mir.arb } ∧ t.insts = [] ∧ t.chans = [] ∧
        t.life.request = s.life.request ∧ t.life.requestAt = s.life.requestAt ∧ t.dsp.affFront = s.standMask ∧
        t.dbg.attached = (s.dbg.attached && s.life.lc != .field) ∧
        (∀ p, (t.eng p).step = (s.eng p).step ∧ (t.eng p).margin = (s.eng p).margin ∧ (t.eng p).drift = (s.eng p).drift ∧
          (t.eng p).ctxs = [] ∧ (t.eng p).lstore = [] ∧ (t.eng p).running = false) ∧
        ∀ l, t.physOf l = s.physOf l ∧ t.inService l = s.inService l) ∧
  (∀ s : State, s.life.porst = false → s.life.power = .off →
    exec .sysrstAssert s = .next { s.quietOut with life := { s.life with sysrst := true } }) ∧
  (∀ (lc : BitVec 6) (present : List (BitVec 16)) (s : State), s.life.porst = false → s.life.sysrst = true →
    s.life.power ≠ .off →
    Completes (.sysrstRelease lc present) s fun t =>
      t.life.sysrst = false ∧ t.life.phase = 1 ∧ t.life.lc = (if s.life.changed then .scrapped else decodeLc lc) ∧
        t.life.latched = true ∧ t.life.sigClass = s.aon.sigClass ∧ t.aon = { s.aon with complete := false } ∧
        (∀ d < 16, t.glb.present.getD d 0 = present.getD d 0) ∧
        (s.aon.sigClass = 1 ∨ s.aon.sigClass = 2 ∨ s.aon.sigClass = 3 → s.Arrived t 721)) ∧
  (∀ (lc : BitVec 6) (s : State), s.life.porst = false → s.life.latched = true → s.life.changed = false → s.life.power ≠ .off →
    decodeLc lc ≠ s.life.lc →
    (Completes (.lcStateChange lc true) s fun t =>
      t.life.lc = .scrapped ∧ t.life.changed = true ∧ t.chk.fatal.getLsbD 0 = true ∧ t.units.rootKey0 = 0 ∧ t.units.rootKey1 = 0 ∧
        t.units.drbgKey = 0 ∧ t.units.patchKey = 0 ∧ ∀ n, (t.slot n).front = {} ∧ (t.slot n).back = none) ∧
    exec (.lcStateChange lc false) s = .next { s.quietOut with life := { s.life with glitches := s.life.glitches + 1 } }) ∧
  ∀ s : State, exec .vaonPowerOn s = .next ({ s.quietOut with aon := {} }).settleFence

/-- Table LCB.4, phases 1 to 3: the clearing passes into a quick start's phase 2 or into the self-test, which loses what the SRAMs
hold (that they then read as after a reset is the model's choice, log entry 120). A start in SCRAPPED ends there (R465), and a compare that
fails is made once more and then stops the start with CLEARFAIL (R469). The signature is the scan's, folded with the memory outcome, the
failing count, the pattern count and the end token (R471; the widths are the model's choice, log entry 123); it is kept and decides (R472 to
R474). The test of a shutdown ends it in OFF, that of a direct BIST fires source 722 (R475, R477). Eight key beats, or four healthy entropy words where the key is ephemeral, give the root key and
end phase 2 (R28, R466, R467). An unhealthy word is counted; the limits of phases 2 and 3 are fatal (R29, R30, R352). -/
def Obligations.StartUpBegins : Prop :=
  (∀ s : State, s.up = true → s.life.phase = 1 → s.life.cleared = false → s.life.lc ≠ .scrapped →
    Completes (.clearingCompareDone true) s fun t =>
      t.life.cleared = true ∧ t.units.rootKey0 = 0 ∧
        if s.life.quick then t.life.phase = 2 ∧ t.life.phaseAt = s.now ∧ t.aon = s.aon
        else t.life.phase = 1 ∧ t.aon = { s.aon with complete := false, sig := 0, count := 0, slog2 := s.aon.log2, lost := false } ∧
          t.ldk.mem = [] ∧ t.dbg.trace = [] ∧ t.units.slots = [] ∧ t.mcs.ram = [] ∧ ∀ p, (t.eng p).lstore = []) ∧
  (∀ s : State, s.alive = true → s.life.phase = 1 → s.life.cleared = false → s.life.stopped = false → s.life.shut = .none →
    (s.life.lc = .scrapped →
      Completes (.clearingCompareDone true) s fun t => t.life.cleared = true ∧ t.life.stopped = true ∧ t.life.phase = 1) ∧
    (s.life.compareFails = 0 →
      Completes (.clearingCompareDone false) s fun t =>
        t.life.compareFails = 1 ∧ t.life.cleared = false ∧ t.life.stopped = false ∧ t.units.rootKey0 = 0 ∧ t.units.rootKey1 = 0) ∧
    (s.life.compareFails = 1 →
      Completes (.clearingCompareDone false) s fun t => t.life.stopped = true ∧ t.chk.fatal.getLsbD 2 = true)) ∧
  (∀ (scan : BitVec 64) (n : BitVec 25) (m : BitVec 10) (s : State),
    let sig := Config.misr (Config.misr (Config.misr (Config.misr scan 1 (if m = 0 then 1 else 0)) 10 m.toNat) 25 n.toNat) 64
      Config.endToken.toNat
    let good := decide (sig = Config.expectedSignature s.aon.slog2.toNat)
    let kept := fun (t : State) => t.aon.sig = sig ∧ t.aon.count = n ∧ t.aon.result = (if good then 1 else 2) ∧ t.life.lpass = good ∧
      t.life.mpass = decide (m = 0) ∧ t.life.mfail = m
    (s.up = true → s.life.phase = 1 → s.life.cleared = true → s.life.shut = .none →
      Completes (.selfTestDone scan n m) s fun t => kept t ∧ t.aon.complete = false ∧
        if good then t.life.phase = 2 else t.life.stopped = true ∧ t.chk.fatal.getLsbD 3 = true) ∧
    (s.alive = true → s.life.shut = .selfTest →
      Completes (.selfTestDone scan n m) s fun t => kept t ∧ t.aon.complete = true ∧ t.life.shut = .done ∧
        if s.life.direct then t.life.directDone = true ∧ t.life.power = s.life.power ∧ s.Arrived t 722
        else t.life.power = .off ∧ t.life.ack = .off)) ∧
  (∀ (d : BitVec 32) (s : State), s.up = true → s.life.phase = 2 → s.life.lc.portKey = true →
    (s.life.keyBeats.toNat < 7 →
      exec (.keyBeat d) s = .next { s with
        out := [.keyAck]
        life := { s.life with key := s.life.key <<< 32 ||| d.setWidth 256, keyBeats := s.life.keyBeats + 1 } }) ∧
    (s.life.keyBeats = 7 →
      Completes (.keyBeat d) s fun t =>
        t.out = [.keyAck] ∧ t.life.phase = 3 ∧ t.life.keyHeld = true ∧ t.life.ephemeral = false ∧
          t.units.rootKey0 ^^^ t.units.rootKey1 = s.life.key <<< 32 ||| d.setWidth 256)) ∧
  (∀ s : State, s.alive = true → s.life.keyBeats = 8 ∨ s.life.lc.ephemeral = true →
    exec .keyValidIgnored s =
      .next ({ s.quietOut with life := { s.life with keyLate := satInc s.life.keyLate } }.arrive 724)) ∧
  (∀ (d : BitVec 64) (s : State), s.wantsEntropy = true →
    exec (.entropyWord d false) s =
      .next { s with out := [.entAck], units := { s.units with entDrop := satInc s.units.entDrop } } ∧
    (s.units.entropy.length + 1 ≠ (if s.life.phase = 2 then 4 else 8) →
      exec (.entropyWord d true) s = .next { s with out := [.entAck], units := { s.units with entropy := s.units.entropy ++ [d] } }) ∧
    (s.life.phase = 2 → s.units.entropy.length = 3 →
      Completes (.entropyWord d true) s fun t =>
        t.life.phase = 3 ∧ t.life.ephemeral = true ∧
          t.units.rootKey0 ^^^ t.units.rootKey1 = BitVec.ofNat 256 (beNat (entropyOctets (s.units.entropy ++ [d])))) ∧
    (s.life.phase ≠ 2 → s.life.phase ≠ 3 → s.units.entropy.length = 7 → s.units.stalled = [] →
      Completes (.entropyWord d true) s fun t => t.units.drbgState = 1 ∧ t.units.calls = 0)) ∧
  (∀ s : State, s.up = true → s.life.phase = 2 → s.life.phaseAt + 100000 ≤ s.now →
    Completes .keyTimeout s fun t => t.life.stopped = true ∧ t.life.keyTimeout = true ∧ t.chk.fatal.getLsbD 1 = true) ∧
  ∀ s : State, s.up = true → s.life.phase = 3 → s.life.phaseAt + 100000 ≤ s.now →
    Completes .entropyTimeout s fun t => t.life.stopped = true ∧ t.chk.fatal.getLsbD 6 = true

/-- Table LCB.4, phases 4 to 8: a patch that does not come, or fails a check, is refused with its reason, and one that passes is
loaded; either way the patch key is gone and the keepers boot (R330 to R334). No concrete patch can be shown to pass, for its image is
checked against opaque words of the ROM release (log entry 4). Phases 5, 6 and 7 end with their events, and
phase 8 begins epoch 0 (R55, R119, R479); that an engine whose keeper did not boot is removed with trigger code 0 is the model's choice
(log entry 17). The staging buffer opens once its test is done (R331). -/
def Obligations.StartUpEnds : Prop :=
  (∀ s : State, s.up = true → s.life.phase = 4 → s.mcs.state = 0 → s.life.phaseAt + s.mcs.wait.toNat ≤ s.now →
    Completes .patchWaitTimeout s fun t =>
      t.life.phase = 5 ∧ t.mcs.state = 3 ∧ t.mcs.reason = 1 ∧ t.units.patchKey = 0 ∧ s.Arrived t 723) ∧
  (∀ s : State, s.up = true → s.life.phase = 4 → s.mcs.state = 1 →
    Completes .patchCheckDone s fun t => t.life.phase = 5 ∧ t.units.patchKey = 0 ∧
      (∀ k, s.derivePatchKey.checkPatch = .inl k → t.mcs.state = 3 ∧ t.mcs.reason = BitVec.ofNat 4 k ∧ t.mcs.ram = s.mcs.ram) ∧
      ∀ ws es, s.derivePatchKey.checkPatch = .inr (ws, es) →
        t.mcs.state = 2 ∧ t.mcs.remap = es.map (fun e => (BitVec.ofNat 12 (remapFrom e), BitVec.ofNat 12 (remapTo e))) ∧
          s.aon.high.toNat ≤ t.aon.high.toNat) ∧
  (∀ s : State, s.up = true → s.life.phase = 5 →
    (∀ l, exec (.keeperBootDone l) s = .next (l.foldl (fun t p => t.removeEngine p.val 0) s.quietOut).beginPhase6) ∧
    ((s.port 0).en = true ∨ (s.port 1).en = true →
      exec (.keeperBootDone []) s = .next { s.quietOut with life := { s.life with phase := 6, phaseAt := s.now } })) ∧
  (∀ s : State, s.up = true → s.life.phase = 6 → s.life.phaseAt + 100000 ≤ s.now → s.mir.en = true → s.mir.link ≠ .paired →
    s.life.lc ≠ .blank →
    Completes .hostBringupTimeout s fun t => t.life.phase = 7 ∧ t.life.phaseAt = s.now ∧
      (∀ n < 2, (s.port n).en = true → (s.port n).up = false → t.chk.attn.getLsbD 0 = true)) ∧
  (∀ s : State, s.up = true → s.life.phase = 7 → s.life.phaseAt + 15000 ≤ s.now →
    Completes .mirrorLinkupTimeout s fun t => t.life.phase = 8 ∧ t.dsp.epoch = 0 ∧
      t.dsp.due = some (s.now + min 100000 (max 1000 s.dsp.period.cur.toNat)) ∧ s.Arrived t 720) ∧
  ∀ s : State, s.up = true → exec .stagingBufferTestDone s = .next { s.quietOut with mcs := { s.mcs with isOpen := true } }

/-- Table PRT.9: a request for RETAIN is kept, and its entry reports RETAIN with the watchdogs standing still until the exit (that they
stand still is the model's choice, log entry 18); a debugger with full scope holds it (R452). A request for RUN begins the exit: the ports and the link
come up anew (R54), and RUN is reported after that. A request for RUN withdraws a shutdown that has not passed step 2 (R476), one for
OFF begins it, and its limit squashes every user and detaches the debugger (Table LCB.3). With an empty tracker steps 1 and 2 end at
once: the debugger is detached, the complex is fenced and its secrets are zero. 0b11 is recorded (R44). -/
def Obligations.PowerStates : Prop :=
  (∀ s : State, exec .pwrReqRetain s = .next { s.quietOut with life := { s.life with request := .retain } }) ∧
  (∀ s : State, s.noPower = false →
    (s.life.shut = .none → s.life.entryFenced = false →
      exec .pwrReqRun s = .next (({ s.quietOut with life := { s.life with request := .run } }).beginLeave).settleFence) ∧
    (s.life.shut = .none → s.life.power = .retain → s.life.leaving = false →
      Completes .pwrReqRun s fun t => t.life.leaving = true ∧ t.life.power = .retain ∧ t.life.request = .run ∧
        ∀ n < 2, (t.port n).up = false ∧ (t.port n).credits = 0 ∧ (t.port n).rsCredits = 64 ∧ (t.port n).ntCredits = 32) ∧
    (s.life.shut = .drain ∨ s.life.shut = .squash → s.life.direct = false →
      Completes .pwrReqRun s fun t => t.life.shut = .none ∧ t.life.shutDue = none ∧ t.life.request = .run)) ∧
  (∀ s : State, s.ready = true → s.life.power = .run → s.life.shut = .none → s.trackerIdle = false →
    (∀ x ∈ s.mir.own, x.2.msgWait = false) →
    Completes .pwrReqOff s fun t => t.life.request = .off ∧ t.life.shut = .drain ∧
      t.life.shutDue = if s.life.shutTmo = 0 then none
        else some ((if s.life.request = .off then s.life.requestAt else s.now) + s.life.shutTmo.toNat)) ∧
  (∀ s : State, s.ready = true → s.life.power = .run → s.life.shut = .none → s.trackerIdle = true → s.hostWait = [] →
    (∀ i, (s.inst i).period.held = false) →
    Completes .pwrReqOff s fun t => t.life.shut = .clear ∧ t.life.shutDue = none ∧ t.dbg.attached = false ∧
      (s.dbg.attached = false → t.pairFenced = true) ∧ t.units.rootKey0 = 0 ∧ t.units.rootKey1 = 0 ∧ t.units.drbgKey = 0 ∧ ∀ n, (t.slot n).front = {} ∧ (t.slot n).back = none) ∧
  (∀ s : State, s.noPower = false → exec .pwrReqInvalid s = .next (s.quietOut.arrive 725)) ∧
  (∀ s : State, s.retaining = true → s.trackerIdle = true →
    (s.dbg.attached = false →
      Completes .retainEntryDone s fun t => t.life.power = .retain ∧ t.life.ack = .retain ∧ t.life.entryFenced = false ∧
        ∀ p, (t.eng p).wdt = (s.eng p).wdt.pause s.now) ∧
    (s.dbg.attached = true → s.dbg.scope = 1 → s.life.entryFenced = true → exec .retainEntryDone s = .next s.quietOut)) ∧
  (∀ s : State, s.life.power = .retain → s.life.leaving = true → s.life.shut = .none →
    (s.life.request ≠ .off →
      Completes .retainExitDone s fun t => t.life.power = .run ∧ t.life.ack = .run ∧ t.life.leaving = false ∧
        ∀ p, (t.eng p).wdt = if (s.eng p).running = true ∧ ((s.eng p).halted = false ∨ s.dbg.wdtRun = true) then
          (s.eng p).wdt.resume s.now else (s.eng p).wdt) ∧
    (s.life.request = .off → s.ready = true →
      Completes .retainExitDone s fun t => t.life.power = .run ∧ t.life.ack = .retain ∧ t.life.leaving = false ∧
        (t.life.shut = .drain ∨ t.life.shut = .clear))) ∧
  ∀ (s : State) (d : Nat), s.ready = true → s.life.shut = .drain → s.life.shutDue = some d → d ≤ s.now →
    Completes .shutdownTimeout s fun t => t.life.shut ≠ .drain ∧ t.life.shutDue = none ∧ t.dbg.attached = false ∧
      ∀ i < 256, (s.inst i).rstate ≠ .reset → (t.inst i).rstate = .squashing ∨ (t.inst i).rstate = .reset

/-! ## The register port -/

/-- R484 to R487: the port answers ADDR_ERR at an unaligned address and ACCESS_ERR to an unprivileged access outside the
instance halves, and nothing else changes; an unprivileged write inside them acts (here INST_MSG_PCLR). In reset it answers nothing. An
access to an address without a register reads 0 and is kept in GLB_RSVADDR while RSVACC is 0. A write acts on the octets that its strobes
select (R486): CHM_JOB_TMO of the user that its index register names (R488), which is written itself, and W1C bits (CHK_ATTN). Where
start-up has stopped, accesses outside GLB and LCB answer OK with 0 and do nothing, and once it has ended no write acts at all (R465, R477,
R492). A read clears an RC register, here LDK_CE; a read of a _LO register latches its _HI register, here those of
MIR_SELF_ID. A write to an epoch-governed register goes to its pending copy, here CHM_EPOCH_PERIOD (R121); strobes on reserved octets alone
write nothing (R6). That C_RDATA is 0 on errors and writes is the model's choice (log entry 68). -/
def Obligations.RegisterPort : Prop :=
  (∀ (a : BitVec 20) (x : RegXfer) (s : State), s.portOn = true →
    (a.toNat % 4 ≠ 0 → exec (.registerWrite a x) s = .next { s with out := [.reg 2 0] }) ∧
    (a.toNat % 4 = 0 → x.priv = false → inInstHalf a.toNat = false →
      exec (.registerWrite a x) s = .next { s with out := [.reg 1 0] })) ∧
  (∀ (a : BitVec 20) (x : RegXfer) (s : State), s.portOn = false → exec (.registerWrite a x) s = .next s.quietOut) ∧
  (∀ (a : BitVec 20) (x : RegXfer) (s : State), s.portOn = true → a.toNat % 4 = 0 → x.priv = true →
    (s.muted = true → inGlbLcb a.toNat = false →
      exec (.registerWrite a x) s = .next (s.okData 0) ∧ exec (.readClear a true) s = .next (s.okData 0)) ∧
    (s.ended = true → exec (.registerWrite a x) s = .next (s.okData 0))) ∧
  (∀ (x : RegXfer) (s : State), s.takesWrites → x.priv = true →
    let n := s.idx.chmInst.toNat
    Completes (.registerWrite 0x04024 x) s fun t =>
      t = { (s.okData 0) with insts := t.insts } ∧ (∀ i, i ≠ n → t.inst i = s.inst i) ∧
        t.inst n = { s.inst n with jobTmo := (t.inst n).jobTmo } ∧
        ∀ k < 4, (t.inst n).jobTmo.extractLsb' (8 * k) 8 =
          if x.strb.getLsbD k then x.data.extractLsb' (8 * k) 8 else (s.inst n).jobTmo.extractLsb' (8 * k) 8) ∧
  (∀ (d : Reg32) (s : State), s.takesWrites →
    exec (.registerWrite 0x04010 (whole d)) s = .next { s.okData 0 with idx := { s.idx with chmInst := d.setWidth 8 } } ∧
    exec (.registerWrite 0x04100 { data := d, strb := 8, priv := true }) s = .next (s.okData 0) ∧
    exec (.registerWrite 0x0B000 (whole d)) s =
      .next { s.okData 0 with chk := { s.chk with attn := s.chk.attn &&& ~~~(d.setWidth 8) } }) ∧
  (∀ (i : BitVec 8) (d : Reg32) (s : State), s.takesWrites →
    exec (.instMsgPclr i { data := d, strb := 0xF, priv := false }) s =
      .next ((s.okData 0).putInst i.toNat { s.inst i.toNat with pend := (s.inst i.toNat).pend &&& ~~~(d.setWidth 8) })) ∧
  (∀ (d : Reg32) (s : State), s.takesWrites →
    exec (.registerWrite 0x04100 (whole d)) s = .next { s.okData 0 with dsp := { s.dsp with
      period := { s.dsp.period with next := d.setWidth 17, wrote := some s.now } } }) ∧
  (∀ (a : BitVec 20) (w : Bool) (s : State), s.portOn = true → s.muted = false → a.toNat % 4 = 0 → s.regValue false a.toNat = none →
    exec (.reservedAccess a w true) s = .next { s.okData 0 with
      glb := if s.glb.rsvacc then s.glb else { s.glb with rsvacc := true, rsvaddr := a, rsvwrite := w } }) ∧
  (∀ s : State, s.takesWrites → Assoc.lookup s.idx.latched 0x0601C = none →
    exec (.readClear 0x0601C true) s = .next { s.okData s.ldk.ce with ldk := { s.ldk with ce := 0 } }) ∧
  (∀ s : State, s.takesWrites → Assoc.lookup s.idx.latched 0x0A008 = none →
    exec (.loReadLatch 0x0A008 true) s = .next { s.okData (s.mir.selfId.setWidth 32) with
      idx := { s.idx with latched := Assoc.insert s.idx.latched 0x0A00C (s.mir.selfId.extractLsb' 32 32) } }) ∧
  ∀ (s : State) (h : Reg32), s.takesWrites → Assoc.lookup s.idx.latched 0x0A00C = some h →
    exec (.loReadLatch 0x0A00C true) s =
      .next { s.okData h with idx := { s.idx with latched := Assoc.erase s.idx.latched 0x0A00C } }

/-- Register writes that act on one user, channel or queue, written whole by the manager. CHM_CHREF reads the channel table entry of the
channel's owner, and fails with REASON 6 where it has none (R72, R73, Table CHP.2). INST_PGM_FLUSH makes every image of the user stale
(R91). DSP_PT_CTL.LOAD reads the 18 lines of the period table, or is held while a running job reads the back copy (R129; that only running
jobs read it is the model's choice, log entry 129). A vector that INST_MSG_MASK frees with PEND set sends its message, or is counted without
VALID (R378, R379). DRAIN and SQUASH clear SQ, and a user whose tracker is empty reaches RESET at once (R388, R391, R392); SQUASH ends its jobs
that have not sealed with status SQUASHED, or marks them for their next boundary (R389, R390; when a context is at a boundary is the model's
reading, log entry 110). RELEASE starts each enabled channel of the user anew (R393). MIR_INST_HOME is written in RESET (R400). A reset command
that the user's state does not take sets IGN. That a channel in several ranges belongs to the lowest user is log entry 16. -/
def Obligations.UserRegisters : Prop :=
  (∀ (d : Reg32) (s : State), s.takesWrites →
    let n := s.idx.dspInst.toNat
    let m := s.idx.mirInst.toNat
    let c := d.toNat % 8192
    let asked := (s.okData 0).dropReads (fun p => p == .chanTable c) false
    exec (.chmChref (whole d)) s = .next (match s.ownerOf c with
      | none => asked.modChan c fun x => { x with refresh := .failed s.now none 6 }
      | some i => (asked.modChan c fun x => { x with refresh := .reading s.now false }).send
          (readReq ((s.inst i).ctBase + BitVec.ofNat 64 (64 * (c - (s.inst i).first))) (BitVec.ofNat 8 i) 2 (.chanTable c))) ∧
    (d.getLsbD 0 = true →
      let cleared := (s.okData 0).modInst n fun y => { y with period := { y.period with err := y.period.err && !d.getLsbD 3 } }
      let u := (cleared.dropReads (fun p => match p with
          | .periodLine k _ => k == n
          | _ => false) false).modInst n fun y =>
        { y with period := { y.period with held := true, loading := [], got := [], ready := false } }
      exec (.ptLoad (whole d)) s = .next (if s.backRead n then u else
        (List.range 18).foldl (fun t k => t.send
          (readReq ((s.inst n).period.host + BitVec.ofNat 64 (64 * k)) (BitVec.ofNat 8 n) 2 (.periodLine n k)))
          (u.modInst n fun y => { y with period := { y.period with held := false, loading := List.range 18 } }))) ∧
    exec (.mirInstHome (whole d)) s = .next ((s.okData 0).modInst m fun y =>
      if y.rstate = .reset ∧ d.toNat % 4 < 2 then { y with home := d.setWidth 2 } else { y with ign := true })) ∧
  ∀ (i : BitVec 8) (d : Reg32) (s : State), s.takesWrites →
    let n := i.toNat
    let q := s.okData 0
    let y := s.inst n
    (d.getLsbD 0 = false → exec (.instPgmFlush i (whole d)) s = .next q) ∧
    (d.getLsbD 0 = true →
      Completes (.instPgmFlush i (whole d)) s fun t =>
        t = { q with dsp := { s.dsp with cache := t.dsp.cache }, engines := t.engines, jobs := t.jobs } ∧
          (∀ e ∈ t.dsp.cache, e.key.inst = n → e.stale = true) ∧
          (∀ p, ∀ o ∈ (t.eng p).overlays, o.key.inst = n → o.stale = true) ∧ ∀ j ∈ t.jobs, j.2.inst = i → j.2.flushed = true) ∧
    (let freed := y.mask &&& ~~~(d.setWidth 8) &&& y.pend;
      (freed = 0 → exec (.instMsgMask i (whole d)) s = .next (q.putInst n { y with mask := d.setWidth 8 })) ∧
      ∀ v < 8, freed = (1 : BitVec 8) <<< v →
        let u := q.putInst n { y with mask := d.setWidth 8, pend := y.pend &&& ~~~freed }
        exec (.instMsgMask i (whole d)) s = .next (if (y.vec v).valid then
          u.send { typ := .msg, addr := (y.vec v).addr &&& ~~~3#64, inst := i, space := 1, oen := 0xF,
                   data := putNum 0 4 (y.vec v).data.toNat, purpose := .message (8 * n + v) none }
          else { u with evc := { s.evc with msgDrop := satInc s.evc.msgDrop } })) ∧
    exec (.instMsgPclr i (whole d)) s = .next (q.putInst n { y with pend := y.pend &&& ~~~(d.setWidth 8) }) ∧
    (d.toNat % 4 = 1 →
      exec (.drain i (whole d)) s = .next (if y.rstate = .run then
        (q.putInst n { y with
          rstate := .draining, rstDue := if y.rstTmo = 0 then none else some (s.now + y.rstTmo.toNat), sq := 0 }).settle
        else q.putInst n { y with ign := true }) ∧
      (y.rstate = .run → s.trackerEmpty n = true →
        Completes (.drain i (whole d)) s fun t => (t.inst n).rstate = .reset ∧ (t.inst n).rstDue = none)) ∧
    (d.toNat % 4 = 2 →
      exec (.squash i (whole d)) s = .next (match y.rstate with
        | .run => ((q.putInst n { y with sq := 0 }).squashInst n).settle
        | .draining => (q.squashInst n).settle
        | _ => q.putInst n { y with ign := true }) ∧
      (y.rstate = .run ∨ y.rstate = .draining →
        Completes (.squash i (whole d)) s fun t =>
          ((t.inst n).rstate = .squashing ∨ (t.inst n).rstate = .reset) ∧ (t.inst n).rstDue = none ∧
            (∀ id k, t.job id = some k → k.inst = i → k.st = .accepted ∨ k.st = .running → k.squashDue = true) ∧
            ∀ id j, s.job id = some j → j.inst = i → j.st = .accepted → j.place = none → j.squashDue = false →
              ∃ k, t.job id = some k ∧ k.st = .posting ∧ k.status = 8 ∧ k.detail = if j.dispatched then 2 else 1)) ∧
    (d.toNat % 4 = 3 →
      (y.rstate ≠ .reset → exec (.release i (whole d)) s = .next (q.putInst n { y with ign := true })) ∧
      (y.rstate = .reset → (∀ c ∈ s.chans, c.2.enabled = false) →
        exec (.release i (whole d)) s = .next (q.putInst n { y with rstate := .run }).settle) ∧
      (y.rstate = .reset →
        Completes (.release i (whole d)) s fun t => (t.inst n).rstate = .run ∧
          ∀ c, (s.chan c).enabled = true → (s.chan c).instNum = n →
            (t.chan c).fresh = true ∧ (t.chan c).stopped = false ∧ (t.chan c).scan = none))

/-- Register writes that act on the whole complex: HOLD (R122), key slot commands (R341 to R343), event sources and timers (R363,
R368, R376), host port enables (R56), ring enables (R440), the link's commands (R408, R409, R414), a planned substitution
(R430), a direct BIST (R477), the patch supply, staging buffer and floor (R331, R332, R335), and patch units (R459). Setting EN of a ring
reads its control line, in place of a read that is still out. Enabling the link, or LRESET, begins bring-up with both lanes down; clearing
EN makes it DISABLED and ends a wait of phase 7 for it. The model's choices: that the command of a user's ring leaves CHK_IER_INDEX (log entry
48), that a link reset keeps own records without an ACK (log entry 67), when DERIVE samples its registers (log entry 59), and the generate
call behind a nonce (log entry 35). -/
def Obligations.ComplexRegisters : Prop :=
  ∀ (d : Reg32) (s : State), s.takesWrites →
    let q := s.okData 0
    let n := s.idx.slot.toNat
    let k := s.slot n
    let e := s.idx.src.toNat
    let x : EvTimer := Tab.get (fun _ => {}) s.evc.timers s.idx.tmr.toNat
    let l := d.toNat % 256
    exec (.epochHoldClear (whole d)) s = .next { q with dsp := { s.dsp with
      hold := d.getLsbD 0, holdCleared := if s.dsp.hold = true ∧ d.getLsbD 0 = false then s.now else s.dsp.holdCleared } } ∧
    (d.toNat % 4 = 1 →
      exec (.derive (whole d)) s = .next (match k.refusal with
        | some r => (q.putSlot n { k with reason := BitVec.ofNat 3 r }).arrive 626
        | none => q.putSlot n { k with work := some (k.ctl, k.gen, k.label), reason := 0 })) ∧
    (d.toNat % 4 = 2 →
      exec (.clear (whole d)) s = .next (q.putSlot n { k with back := some {}, backAt := s.now, work := none })) ∧
    exec (.evcSwset (whole d)) s = .next (q.arrive (d.toNat % 1024)) ∧
    exec (.evcSrcCfg (whole d)) s = .next ((q.putSrc e { s.src e with
      prio := d.extractLsb' 0 4, tset := d.extractLsb' 4 6, wakeEn := d.getLsbD 10, own := d.getLsbD 11 }).reroute [e]) ∧
    (let y : EvTimer :=
        if d.getLsbD 0 = false then { x with en := false, periodic := d.getLsbD 1, timer := x.timer.pause s.now }
        else if x.period = 0 then { x with en := false, periodic := d.getLsbD 1, timer := .off }
        else { x with en := true, periodic := d.getLsbD 1, timer := .until (s.now + x.period.toNat) };
      exec (.evcTmrCtl (whole d)) s =
        .next { q with evc := { s.evc with timers := Tab.put s.evc.timers s.idx.tmr.toNat y } }) ∧
    (∀ port : Bool, d.getLsbD 0 = false → s.life.phase ≠ 6 →
      exec (.hostPortEnable port (whole d)) s =
        .next (q.putPort (bit port) { s.port (bit port) with en := false }).pump.settle) ∧
    (∀ r : RingId, (s.ring r).en = false → d.getLsbD 8 = true →
      Completes (.ringEnable r (whole d)) s fun t => t.idx = s.idx ∧
        (t.ring r).en = true ∧ (t.ring r).l = d.setWidth 5 ∧ (t.ring r).starting = true ∧ (t.ring r).ctlOut = true ∧
          (t.ring r).ctlAt = some s.now ∧
          ((∃ x ∈ t.hostWait, x.purpose = .ringLine r .enable ∧ x.addr = (s.ring r).cline &&& ~~~0x3F#64) ∨
            ∃ p < 2, ∃ u ∈ (t.port p).tags, u.2.req.purpose = .ringLine r .enable ∧ u.2.req.addr = (s.ring r).cline &&& ~~~0x3F#64)) ∧
    (let u := { q with mir := { s.mir with autotake := d.getLsbD 1 }, aon := { s.aon with peerv := d.getLsbD 2 } };
      (d.getLsbD 0 = s.mir.en → exec (.mirCtlEn (whole d)) s = .next u.checkTake) ∧
      (d.getLsbD 0 = true → s.mir.en = false → s.life.lc = .blank → s.mir.link = .disabled →
        exec (.mirCtlEn (whole d)) s = .next { u with mir := { u.mir with en := true } }) ∧
      (d.getLsbD 0 = true → s.mir.en = false → s.life.lc ≠ .blank →
        Completes (.mirCtlEn (whole d)) s fun t => t.mir.en = true ∧ t.mir.link = .bringup ∧ (∀ k, (t.lane k).up = false) ∧
          t.mir.sentDone = false ∧ t.mir.gotDone = false ∧ t.mir.own = s.mir.own ∧ t.mir.held = s.mir.held) ∧
      (d.getLsbD 0 = false → s.mir.en = true →
        Completes (.mirCtlEn (whole d)) s fun t => t.mir.en = false ∧ t.mir.link = .disabled ∧ (∀ k, (t.lane k).up = false) ∧
          if s.life.phase = 7 then t.life.phase = 8 else t.life.waitLink = false)) ∧
    (d = 1 →
      exec (.accept (whole d)) s = .next (if s.mir.link = .replaced then ({ q with
        aon := { s.aon with peerId := s.mir.seen, peerv := true }
        mir := { s.mir with stallAt := s.now } }).enterSync.afterLink else q) ∧
      (s.mir.link = .replaced → Completes (.accept (whole d)) s fun t =>
        t.aon.peerId = s.mir.seen ∧ t.aon.peerv = true ∧ (t.mir.link = .sync ∨ t.mir.link = .paired))) ∧
    (d = 2 →
      exec (.take (whole d)) s = .next (if s.mayTake = true ∧ s.mir.autotake = false ∧ s.mir.takeover = false then
        q.beginTakeover.afterLink else q)) ∧
    (d = 4 →
      (s.mir.link = .disabled → exec (.lreset (whole d)) s = .next q) ∧
      (s.mir.link ≠ .disabled →
        Completes (.lreset (whole d)) s fun t => t.mir.link = .bringup ∧ (∀ k, (t.lane k).up = false) ∧ t.mir.lostAt = s.now ∧
          t.mir.sentDone = false ∧ t.mir.gotDone = false ∧ t.mir.gotSync = false ∧ t.mir.waitSync = none ∧
            t.units.attest = false ∧ t.mir.own = s.mir.own ∧ t.mir.held = s.mir.held)) ∧
    (d.getLsbD 8 = true →
      exec (.chkSubst (whole d)) s = .next (if s.inService l = true ∧ s.spareReady (standOf (s.physOf l)) = true then
        q.replaceEngine (s.physOf l) 6 else q)) ∧
    (d.getLsbD 0 = true →
      (s.life.lc = .blank ∨ s.life.lc = .field →
        exec (.bistRun (whole d)) s = .next { q with glb := { s.glb with rsvacc := true } }) ∧
      (s.life.lc.directBist = true → s.ready = true → s.life.power = .run → s.life.shut = .none →
        exec (.bistRun (whole d)) s = .next (q.beginShut true) ∧
        (s.trackerIdle = false → (∀ x ∈ s.mir.own, x.2.msgWait = false) →
          Completes (.bistRun (whole d)) s fun t => t.life.shut = .drain ∧ t.life.direct = true ∧ t.life.power = .run ∧
            t.life.shutDue = if s.life.shutTmo = 0 then none else some (s.now + s.life.shutTmo.toNat)))) ∧
    (d.toNat % 4 = 1 →
      (s.life.phase < 4 → exec (.supplyImage (whole d)) s = .next { q with mcs := { s.mcs with supply := 1 } }) ∧
      (s.life.phase = 4 → s.mcs.state = 0 →
        exec (.supplyImage (whole d)) s = .next { q with mcs := { s.mcs with supply := 1, state := 1 } })) ∧
    (d.toNat % 4 = 2 →
      (s.life.phase < 4 → exec (.supplyNone (whole d)) s = .next { q with mcs := { s.mcs with supply := 2 } }) ∧
      (s.life.phase = 4 → s.mcs.state = 0 →
        exec (.supplyNone (whole d)) s = .next { q with mcs := { s.mcs with supply := 2 } }.noPatch)) ∧
    (s.mcs.isOpen = true →
      exec (.mcsPstageData true (whole d)) s = .next { q with
        mcs := { s.mcs with
          stage := Tab.set countDflt s.mcs.stage s.idx.widx.toNat d, staged := max s.mcs.staged (s.idx.widx.toNat + 1) }
        idx := { s.idx with widx := s.idx.widx + 1 } }) ∧
    exec (.mcsPfloor (whole d)) s = .next (if s.life.phase < 4 ∧ s.mcs.floor.toNat < d.toNat % 65536 then
      { q with mcs := { s.mcs with floor := d.setWidth 16 } } else q) ∧
    (let v := s.idx.pu.toNat;
      let w : PatchUnit := { Tab.get unitDflt s.dbg.units v with addr := d.setWidth 16, en := d.getLsbD 16 };
      exec (.patchUnitWrite 0 (whole d)) s = .next (if s.standHalted (v / 16) = true then
        { q with dbg := { s.dbg with units := Tab.set unitDflt s.dbg.units v w } }
        else { q with dbg := { s.dbg with puign := true } }))

/-! ## Debug -/

/-- Tables DBG.2 and DBG.3: READ and WRITE of a word of a halted engine's local store, PEEK of DSTAT, and CONSUME of CHAL, which
draws a new challenge (R448, R450). A challenge that the DRBG cannot give yet is answered WAIT and stays pending; meanwhile any other
packet is answered WAIT and ignored (R352, R447). BAD_OP and a packet of a debugger that is not attached answer FAULT with their
cause, and change nothing else (R447, R449); so does a packet whose data parity is wrong (R445; that WRITE, TRIG_CFG and ATTACH are then not
performed is the model's reading, log entry 52). After a direct BIST no packet is answered (R477). A parser reset changes nothing (R445). The
monitor answers a PEEK of DSTAT in its response ring (R461, Table DBG.8). The model's readings: the octets behind a challenge (log entry
35), that only a challenge that cannot be drawn is answered WAIT (log entries 73, 74), the order of the gates (log entry 71), and that the
monitor reads its entry and answers within one step (log entry 94). -/
def Obligations.DebugAccesses : Prop :=
  (∀ (s : State) (a : BitVec 24) (k : Nat) (w : Word),
    let p := s.physOf s.dbg.esel.toNat
    s.Debugs → s.inService s.dbg.esel.toNat = true → (s.eng p).halted = true → placeOf a = .store k → k ∉ (s.eng p).bad →
      exec (.read (wireAt 1 a)) s = .next (s.quietOut.acked (some ((s.eng p).word k))) ∧
      exec (.write (wireAt 1 a) w true) s = .next ((s.quietOut.modEng p fun e => e.putWord k w).acked none)) ∧
  (∀ s : State, s.portOn = true → s.life.directDone = false → s.dbg.pending = none →
    exec (.peek (wireAt 3 0)) s = .next (s.quietOut.acked (some s.dstat))) ∧
  (∀ s : State, s.portOn = true → s.life.directDone = false → s.scrapped = false → s.dbg.pending = none →
    (∀ (t : State) (o : List Octet), s.quietOut.drbg = some (o, t) →
      let c : BitVec 64 := BitVec.ofNat 64 (beNat (o.take 8))
      exec (.consume (wireAt 3 2)) s =
        .next (({ t with dbg := { t.dbg with chal := c, chalFresh := true } }).acked (some ((c >>> 32).setWidth 36)))) ∧
    (s.quietOut.drbg = none →
      exec (.consume (wireAt 3 2)) s =
        .next (({ s.quietOut with dbg := { s.dbg with pending := some 2 } }).emit (.dbg 2 none)).settle)) ∧
  (∀ (s : State) (k : Nat) (a : DbgAddr), s.portOn = true → s.life.directDone = false → s.dbg.pending = some k → a.path = .wire → a.parityOk = true →
    exec (.peek a) s = .next (s.quietOut.emit (.dbg 2 none)).settle ∧
      exec (.attach a 0) s = .next (s.quietOut.emit (.dbg 2 none)).settle) ∧
  (∀ (s : State) (op : BitVec 4), s.portOn = true → s.life.directDone = false → s.dbg.pending = none → 10 ≤ op.toNat →
    exec (.badOp .wire op true) s = .next (s.denied 2)) ∧
  (∀ (s : State) (a : DbgAddr), s.portOn = true → s.life.directDone = false → s.scrapped = false → s.life.lc ≠ .blank →
    s.dbg.attached = false → s.dbg.pending = none → a.path = .wire → a.parityOk = true →
    exec (.halt a) s = .next (s.denied 8) ∧ exec (.resume a) s = .next (s.denied 8) ∧ exec (.step a) s = .next (s.denied 8) ∧
      exec (.detach a) s = .next (s.denied 8) ∧ (a.cls ≠ 3 → exec (.read a) s = .next (s.denied 8))) ∧
  (∀ (s : State) (c : BitVec 2) (a : BitVec 24) (d : Word),
    (s.Debugs → exec (.write (wireAt c a) d false) s = .next (s.denied 1) ∧
      exec (.trigCfg { wireAt c a with dataOk := false } d) s = .next (s.denied 1)) ∧
    (s.portOn = true → s.life.directDone = false → s.scrapped = false → s.dbg.attached = false → s.dbg.fails.toNat < 8 →
      s.dbg.pending = none → exec (.attach { wireAt c a with dataOk := false } d) s = .next (s.denied 1))) ∧
  (∀ (s : State) (a : DbgAddr), s.life.directDone = true →
    exec (.peek a) s = .next s.quietOut ∧ exec (.attach a 0) s = .next s.quietOut) ∧
  (∀ s : State, exec .parserReset s = .next s.quietOut) ∧
  ∀ (s t : State) (e : BitVec 128), s.portOn = true → s.monitorUp = true → s.dbg.suyPhase s.dbg.suyReq = e.getLsbD 127 →
    s.dbg.suyRoom = true → s.quietOut.suyFetch = some t →
    (e.extractLsb' 0 4).toNat = 2 → (e.extractLsb' 4 2).toNat = 3 → (e.extractLsb' 8 24).toNat % 8 = 0 →
      exec (.suyciaRequest e) s = .next (t.suyAnswer t.dbg.suyPos (t.dbg.suyPhase t.dbg.suyPos)
        (t.dbg.suyAddr t.dbg.suyPos) (1, 0, some t.dstat)).settle

/-- R450 to R457: ATTACH outside FIELD gives full scope; in FIELD it takes the answer to a fresh challenge, and a wrong one is
denied, counted, and fires source 709. DETACH resumes what is halted. HALT halts a running engine outside locked sequences, and waits
inside them (R454); HALT of CLASS 3 fires a group, whose halt-in members halt (R457). RESUME lets an engine run on, and STEP runs a READY
context alone. TRIG_CFG sets group membership. A HALT that waits 512 cycles breaks the reservations of its engine; that it breaks those of
every open sequence of the engine is the model's reading (log entry 69), as are scope 1 of a debugger in BLANK (log entry 70) and the timers that
a STEP lifts (log entry 81). -/
def Obligations.DebugRunControl : Prop :=
  (∀ (s : State) (a : BitVec 24), s.portOn = true → s.life.directDone = false → s.scrapped = false → s.dbg.attached = false →
    s.dbg.fails.toNat < 8 → s.life.shut = .none → s.dbg.pending = none →
    (s.life.lc ≠ .field →
      Completes (.attach (wireAt 3 a) 0) s fun t =>
        t.dbg.attached = true ∧ t.dbg.path = .wire ∧ t.dbg.scope = 1 ∧ s.Arrived t 704) ∧
    (∀ d : Word, s.life.lc = .field → s.dbg.chalFresh = true →
      (s.dbg.resp = s.expectedResp (d.setWidth 8) →
        Completes (.attach (wireAt 3 a) d) s fun t =>
          t.dbg.attached = true ∧ t.dbg.scope = 2 ∧ t.dbg.inst = d.setWidth 8 ∧ t.dbg.chalFresh = false ∧ s.Arrived t 704) ∧
      (s.dbg.resp ≠ s.expectedResp (d.setWidth 8) →
        Completes (.attach (wireAt 3 a) d) s fun t =>
          t.dbg.attached = false ∧ t.dbg.fails = s.dbg.fails + 1 ∧ t.dbg.chalFresh = false ∧ t.dbg.cause = 3 ∧ s.Arrived t 709))) ∧
  (∀ (s : State) (a : BitVec 24), s.Debugs →
    Completes (.detach (wireAt 0 a)) s fun t => t.dbg.attached = false ∧ t.dbg.groups = [] ∧ s.Arrived t 705 ∧
      ∀ p, (t.eng p).halted = false ∧ (t.eng p).haltPend = false) ∧
  (∀ (s : State) (a : BitVec 24),
    let p := s.physOf (a.toNat % 256)
    s.Debugs → s.inService (a.toNat % 256) = true →
    ((s.eng p).running = true → (s.eng p).halted = false → (s.eng p).slot = none → (s.eng p).micro.busy = none →
      (∀ c < 8, (s.ctx p c).lock = none ∧ (s.ctx p c).memWait = none) →
      Completes (.halt (wireAt 0 a)) s fun t =>
        (t.eng p).halted = true ∧ (∀ c < 8, (t.ctx p c).state = .halted) ∧ (t.eng p).lstore = (s.eng p).lstore) ∧
    ((s.eng p).running = true → (s.eng p).halted = false → (∃ c < 8, s.inLock p c = true) →
      Completes (.halt (wireAt 0 a)) s fun t => (t.eng p).halted = false ∧ (t.eng p).haltPend = true) ∧
    ((s.eng p).halted = true →
      Completes (.resume (wireAt 0 a)) s fun t =>
        (t.eng p).halted = false ∧ (t.eng p).haltPend = false ∧ (t.eng p).lstore = (s.eng p).lstore) ∧
    (∀ c, c = a.toNat / 256 % 8 → (s.eng p).halted = true → (s.eng p).substPend = none → (s.ctx p c).state = .halted →
      (s.ctx p c).haltedFrom = .ready →
      Completes (.step (wireAt 0 a)) s fun t =>
        (t.eng p).stepping = some c ∧ (t.eng p).halted = true ∧ (t.ctx p c).state = .ready ∧
          ∀ k < 8, k ≠ c → (t.ctx p k).state = (s.ctx p k).state)) ∧
  (∀ (s : State) (a : BitVec 24), s.Debugs →
    let g := a.toNat % 8
    Completes (.halt (wireAt 3 a)) s fun t => t.dbg.fired.getLsbD g = true ∧
      ∀ l < 256, ∀ o : Bool, (256 * g + l, true, o) ∈ s.dbg.groups → s.inService l = true → (s.eng (s.physOf l)).running = true →
        (s.eng (s.physOf l)).slot = none → (s.eng (s.physOf l)).micro.busy = none → s.locked (s.physOf l) = false →
          (t.eng (s.physOf l)).halted = true) ∧
  (∀ (s : State) (a : BitVec 24) (d : Word), s.Debugs → d.getLsbD 3 = false →
    let m := d.getLsbD 0
    exec (.trigCfg (wireAt 0 a) d) s = .next (({ s.quietOut with dbg := { s.dbg with
      groups := Tab.set groupDflt s.dbg.groups (256 * (a.toNat % 8) + a.toNat / 8 % 256)
        (m && d.getLsbD 1, m && d.getLsbD 2) } }).acked none)) ∧
  ∀ (isl : Fin 272) (s : State) (c : Nat) (l : LockSeq), c < 8 → (s.eng isl.val).haltPend = true →
    s.lockOpen isl.val c = true → (s.ctx isl.val c).lock = some l →
    Completes (.haltDeferralExpiry isl) s fun t =>
      (t.ctx isl.val c).lock = some { l with broken := true } ∧ (∀ r ∈ t.ldk.resv, r.2 ≠ (isl.val, c)) ∧ t.ldk.mem = s.ldk.mem
end

