-- ==== Sys2Proof/Laws/Assoc.lean ====
section
/-!
SUPPORT. Laws of the finite maps: a read after a write, and that every write keeps the canonical form.
-/

namespace Sys2Proof.Assoc

variable {α : Type}

@[simp] theorem lookup_insert_self (m : List (Nat × α)) (k : Nat) (v : α) : lookup (insert m k v) k = some v := by
  induction m with
  | nil => simp [insert, lookup]
  | cons e t ih =>
    obtain ⟨j, w⟩ := e
    simp only [insert]
    split
    · simp [lookup]
    · split
      · simp [lookup]
      · rw [lookup, if_neg (by omega), ih]

theorem lookup_insert_ne (m : List (Nat × α)) {k j : Nat} (v : α) (h : j ≠ k) :
    lookup (insert m k v) j = lookup m j := by
  induction m with
  | nil => simp [insert, lookup, Ne.symm h]
  | cons e t ih =>
    obtain ⟨i, w⟩ := e
    simp only [insert]
    split
    · simp [lookup, Ne.symm h]
    · split
      · rename_i h1 h2
        simp [lookup, h2 ▸ Ne.symm h, Ne.symm h]
      · simp [lookup, ih]

theorem lookup_erase (m : List (Nat × α)) (k j : Nat) :
    lookup (erase m k) j = if j = k then none else lookup m j := by
  induction m with
  | nil => simp [erase, lookup]
  | cons e t ih =>
    obtain ⟨i, w⟩ := e
    simp only [erase]
    split
    · rename_i h
      subst h
      by_cases hj : j = i
      · simpa [hj] using ih
      · simp [ih, hj, lookup, Ne.symm hj]
    · rename_i h
      by_cases hi : i = j
      · subst hi; simp [lookup, h]
      · simp [lookup, hi, ih]

/-- A write after a write to the same key is the later one. -/
@[simp] theorem insert_insert (m : List (Nat × α)) (k : Nat) (v w : α) : insert (insert m k v) k w = insert m k w := by
  induction m with
  | nil => simp [insert]
  | cons e t ih =>
    obtain ⟨i, u⟩ := e
    simp only [insert]
    split
    · simp [insert]
    · split
      · simp [insert]
      · rename_i h1 h2
        simp [insert, h1, h2, ih]

/-- Every key of `m` is above `k`. -/
def above (k : Nat) (m : List (Nat × α)) : Prop := ∀ e ∈ m, k < e.1

theorem rising_cons (e : Nat × α) (t : List (Nat × α)) : rising (e :: t) = true ↔ above e.1 t ∧ rising t = true := by
  induction t generalizing e with
  | nil => simp [rising, above]
  | cons f t ih =>
    simp only [rising, Bool.and_eq_true, decide_eq_true_eq]
    rw [ih f]
    constructor
    · rintro ⟨h, h1, h2⟩
      refine ⟨?_, h1, h2⟩
      intro g hg
      rcases List.mem_cons.1 hg with rfl | hg
      · exact h
      · exact Nat.lt_trans h (h1 g hg)
    · rintro ⟨h, h1, h2⟩
      exact ⟨h f (by simp), h1, h2⟩

theorem mem_insert (m : List (Nat × α)) (k : Nat) (v : α) (e : Nat × α) (h : e ∈ insert m k v) : e = (k, v) ∨ e ∈ m := by
  induction m with
  | nil => simpa [insert] using h
  | cons f t ih =>
    obtain ⟨j, w⟩ := f
    simp only [insert] at h
    split at h
    · simpa using h
    · split at h
      · rcases List.mem_cons.1 h with h | h
        · exact .inl h
        · exact .inr (by simp [h])
      · rcases List.mem_cons.1 h with h | h
        · exact .inr (by simp [h])
        · rcases ih h with h | h
          · exact .inl h
          · exact .inr (by simp [h])

theorem mem_erase (m : List (Nat × α)) (k : Nat) (e : Nat × α) (h : e ∈ erase m k) : e ∈ m := by
  induction m with
  | nil => simp [erase] at h
  | cons f t ih =>
    obtain ⟨j, w⟩ := f
    simp only [erase] at h
    split at h
    · simp [ih h]
    · rcases List.mem_cons.1 h with h | h
      · simp [h]
      · simp [ih h]

theorem rising_insert (m : List (Nat × α)) (k : Nat) (v : α) (h : rising m = true) : rising (insert m k v) = true := by
  induction m with
  | nil => simp [insert, rising]
  | cons f t ih =>
    obtain ⟨j, w⟩ := f
    obtain ⟨h1, h2⟩ := (rising_cons _ _).1 h
    simp only [insert]
    split
    · rename_i hk
      refine (rising_cons _ _).2 ⟨?_, h⟩
      intro e he
      rcases List.mem_cons.1 he with rfl | he
      · exact hk
      · exact Nat.lt_trans hk (h1 e he)
    · split
      · rename_i hk
        subst hk
        exact (rising_cons _ _).2 ⟨h1, h2⟩
      · rename_i hk1 hk2
        refine (rising_cons _ _).2 ⟨?_, ih h2⟩
        intro e he
        rcases mem_insert _ _ _ _ he with rfl | he
        · show j < k; omega
        · exact h1 e he

theorem rising_erase (m : List (Nat × α)) (k : Nat) (h : rising m = true) : rising (erase m k) = true := by
  induction m with
  | nil => simp [erase, rising]
  | cons f t ih =>
    obtain ⟨j, w⟩ := f
    obtain ⟨h1, h2⟩ := (rising_cons _ _).1 h
    simp only [erase]
    split
    · exact ih h2
    · exact (rising_cons _ _).2 ⟨fun e he => h1 e (mem_erase _ _ _ he), ih h2⟩

end Sys2Proof.Assoc

namespace Sys2Proof.Tab

variable {α : Type}

@[simp] theorem get_put_self (d : Nat → α) (m : List (Nat × α)) (k : Nat) (v : α) : get d (put m k v) k = v := by
  simp [get, put]

theorem get_put_ne (d : Nat → α) (m : List (Nat × α)) {k j : Nat} (v : α) (h : j ≠ k) : get d (put m k v) j = get d m j := by
  simp [get, put, Assoc.lookup_insert_ne _ _ h]

theorem get_put (d : Nat → α) (m : List (Nat × α)) (k j : Nat) (v : α) :
    get d (put m k v) j = if j = k then v else get d m j := by
  split
  · rename_i h; subst h; simp
  · rename_i h; exact get_put_ne _ _ _ h

@[simp] theorem put_put (m : List (Nat × α)) (k : Nat) (v w : α) : put (put m k v) k w = put m k w := by
  simp [put]

/-- A read after a write gives the value written, and every other key reads as before. -/
theorem get_set [DecidableEq α] (d : Nat → α) (m : List (Nat × α)) (k j : Nat) (v : α) :
    get d (set d m k v) j = if j = k then v else get d m j := by
  unfold set
  split
  · rename_i h
    by_cases hj : j = k
    · subst hj; simp [get, Assoc.lookup_erase, h]
    · simp [get, Assoc.lookup_erase, hj]
  · by_cases hj : j = k
    · subst hj; simp [get]
    · simp [get, Assoc.lookup_insert_ne _ _ hj, hj]

@[simp] theorem get_set_self [DecidableEq α] (d : Nat → α) (m : List (Nat × α)) (k : Nat) (v : α) :
    get d (set d m k v) k = v := by
  simp [get_set]

/-- A write keeps the canonical form. -/
theorem canonical_set [DecidableEq α] (d : Nat → α) (m : List (Nat × α)) (k : Nat) (v : α) (h : canonical d m = true) :
    canonical d (set d m k v) = true := by
  simp only [canonical, Bool.and_eq_true, List.all_eq_true, decide_eq_true_eq] at h ⊢
  obtain ⟨h1, h2⟩ := h
  unfold set
  split
  · exact ⟨Assoc.rising_erase _ _ h1, fun e he => h2 e (Assoc.mem_erase _ _ _ he)⟩
  · rename_i hv
    refine ⟨Assoc.rising_insert _ _ _ h1, fun e he => ?_⟩
    rcases Assoc.mem_insert _ _ _ _ he with rfl | he
    · exact hv
    · exact h2 e he

/-- A table without entries is canonical. -/
@[simp] theorem canonical_nil [DecidableEq α] (d : Nat → α) : canonical d ([] : List (Nat × α)) = true := rfl

end Sys2Proof.Tab
end

