-- ==== Sys2Proof/Laws/State.lean ====
section
/-!
SUPPORT. What each update of State leaves: one lemma for each field and each named part that it does not write, and what a
part reads as after its own update.
-/

namespace Sys2Proof.Machine

/-! ## putEng -/

@[simp] theorem State.putEng_now (s : State) (p : Nat) (e : Engine) : (s.putEng p e).now = s.now := rfl
@[simp] theorem State.putEng_pending (s : State) (p : Nat) (e : Engine) : (s.putEng p e).pending = s.pending := rfl
@[simp] theorem State.putEng_out (s : State) (p : Nat) (e : Engine) : (s.putEng p e).out = s.out := rfl
@[simp] theorem State.putEng_logs (s : State) (p : Nat) (e : Engine) : (s.putEng p e).logs = s.logs := rfl
@[simp] theorem State.putEng_glb (s : State) (p : Nat) (e : Engine) : (s.putEng p e).glb = s.glb := rfl
@[simp] theorem State.putEng_idx (s : State) (p : Nat) (e : Engine) : (s.putEng p e).idx = s.idx := rfl
@[simp] theorem State.putEng_dbgIdx (s : State) (p : Nat) (e : Engine) : (s.putEng p e).dbgIdx = s.dbgIdx := rfl
@[simp] theorem State.putEng_ports (s : State) (p : Nat) (e : Engine) : (s.putEng p e).ports = s.ports := rfl
@[simp] theorem State.putEng_steer (s : State) (p : Nat) (e : Engine) : (s.putEng p e).steer = s.steer := rfl
@[simp] theorem State.putEng_hostWait (s : State) (p : Nat) (e : Engine) : (s.putEng p e).hostWait = s.hostWait := rfl
@[simp] theorem State.putEng_chans (s : State) (p : Nat) (e : Engine) : (s.putEng p e).chans = s.chans := rfl
@[simp] theorem State.putEng_insts (s : State) (p : Nat) (e : Engine) : (s.putEng p e).insts = s.insts := rfl
@[simp] theorem State.putEng_jobs (s : State) (p : Nat) (e : Engine) : (s.putEng p e).jobs = s.jobs := rfl
@[simp] theorem State.putEng_dsp (s : State) (p : Nat) (e : Engine) : (s.putEng p e).dsp = s.dsp := rfl
@[simp] theorem State.putEng_ldk (s : State) (p : Nat) (e : Engine) : (s.putEng p e).ldk = s.ldk := rfl
@[simp] theorem State.putEng_units (s : State) (p : Nat) (e : Engine) : (s.putEng p e).units = s.units := rfl
@[simp] theorem State.putEng_evc (s : State) (p : Nat) (e : Engine) : (s.putEng p e).evc = s.evc := rfl
@[simp] theorem State.putEng_mir (s : State) (p : Nat) (e : Engine) : (s.putEng p e).mir = s.mir := rfl
@[simp] theorem State.putEng_chk (s : State) (p : Nat) (e : Engine) : (s.putEng p e).chk = s.chk := rfl
@[simp] theorem State.putEng_spares (s : State) (p : Nat) (e : Engine) : (s.putEng p e).spares = s.spares := rfl
@[simp] theorem State.putEng_exts (s : State) (p : Nat) (e : Engine) : (s.putEng p e).exts = s.exts := rfl
@[simp] theorem State.putEng_dbg (s : State) (p : Nat) (e : Engine) : (s.putEng p e).dbg = s.dbg := rfl
@[simp] theorem State.putEng_mcs (s : State) (p : Nat) (e : Engine) : (s.putEng p e).mcs = s.mcs := rfl
@[simp] theorem State.putEng_life (s : State) (p : Nat) (e : Engine) : (s.putEng p e).life = s.life := rfl
@[simp] theorem State.putEng_aon (s : State) (p : Nat) (e : Engine) : (s.putEng p e).aon = s.aon := rfl
@[simp] theorem State.putEng_draws (s : State) (p : Nat) (e : Engine) : (s.putEng p e).draws = s.draws := rfl
@[simp] theorem State.putEng_log (s : State) (p : Nat) (e : Engine) (q : Nat) : (s.putEng p e).log q = s.log q := rfl
@[simp] theorem State.putEng_inst (s : State) (p : Nat) (e : Engine) (q : Nat) : (s.putEng p e).inst q = s.inst q := rfl
@[simp] theorem State.putEng_chan (s : State) (p : Nat) (e : Engine) (q : Nat) : (s.putEng p e).chan q = s.chan q := rfl
@[simp] theorem State.putEng_job (s : State) (p : Nat) (e : Engine) (q : Nat) : (s.putEng p e).job q = s.job q := rfl
@[simp] theorem State.putEng_port (s : State) (p : Nat) (e : Engine) (q : Nat) : (s.putEng p e).port q = s.port q := rfl
@[simp] theorem State.putEng_slot (s : State) (p : Nat) (e : Engine) (q : Nat) : (s.putEng p e).slot q = s.slot q := rfl
@[simp] theorem State.putEng_src (s : State) (p : Nat) (e : Engine) (q : Nat) : (s.putEng p e).src q = s.src q := rfl
@[simp] theorem State.putEng_spare (s : State) (p : Nat) (e : Engine) (q : Nat) : (s.putEng p e).spare q = s.spare q := rfl
@[simp] theorem State.putEng_ext (s : State) (p : Nat) (e : Engine) (q : Nat) : (s.putEng p e).ext q = s.ext q := rfl
@[simp] theorem State.putEng_stand (s : State) (p : Nat) (e : Engine) (q : Nat) : (s.putEng p e).stand q = s.stand q := rfl
@[simp] theorem State.putEng_lane (s : State) (p : Nat) (e : Engine) (q : Nat) : (s.putEng p e).lane q = s.lane q := rfl
@[simp] theorem State.putEng_gran (s : State) (p : Nat) (e : Engine) (q : Nat) : (s.putEng p e).gran q = s.gran q := rfl
@[simp] theorem State.putEng_deck (s : State) (p : Nat) (e : Engine) (q : Nat) : (s.putEng p e).deck q = s.deck q := rfl

/-! ## putCtx -/

@[simp] theorem State.putCtx_now (s : State) (p k : Nat) (x : Ctx) : (s.putCtx p k x).now = s.now := rfl
@[simp] theorem State.putCtx_pending (s : State) (p k : Nat) (x : Ctx) : (s.putCtx p k x).pending = s.pending := rfl
@[simp] theorem State.putCtx_out (s : State) (p k : Nat) (x : Ctx) : (s.putCtx p k x).out = s.out := rfl
@[simp] theorem State.putCtx_logs (s : State) (p k : Nat) (x : Ctx) : (s.putCtx p k x).logs = s.logs := rfl
@[simp] theorem State.putCtx_glb (s : State) (p k : Nat) (x : Ctx) : (s.putCtx p k x).glb = s.glb := rfl
@[simp] theorem State.putCtx_idx (s : State) (p k : Nat) (x : Ctx) : (s.putCtx p k x).idx = s.idx := rfl
@[simp] theorem State.putCtx_dbgIdx (s : State) (p k : Nat) (x : Ctx) : (s.putCtx p k x).dbgIdx = s.dbgIdx := rfl
@[simp] theorem State.putCtx_ports (s : State) (p k : Nat) (x : Ctx) : (s.putCtx p k x).ports = s.ports := rfl
@[simp] theorem State.putCtx_steer (s : State) (p k : Nat) (x : Ctx) : (s.putCtx p k x).steer = s.steer := rfl
@[simp] theorem State.putCtx_hostWait (s : State) (p k : Nat) (x : Ctx) : (s.putCtx p k x).hostWait = s.hostWait := rfl
@[simp] theorem State.putCtx_chans (s : State) (p k : Nat) (x : Ctx) : (s.putCtx p k x).chans = s.chans := rfl
@[simp] theorem State.putCtx_insts (s : State) (p k : Nat) (x : Ctx) : (s.putCtx p k x).insts = s.insts := rfl
@[simp] theorem State.putCtx_jobs (s : State) (p k : Nat) (x : Ctx) : (s.putCtx p k x).jobs = s.jobs := rfl
@[simp] theorem State.putCtx_dsp (s : State) (p k : Nat) (x : Ctx) : (s.putCtx p k x).dsp = s.dsp := rfl
@[simp] theorem State.putCtx_ldk (s : State) (p k : Nat) (x : Ctx) : (s.putCtx p k x).ldk = s.ldk := rfl
@[simp] theorem State.putCtx_units (s : State) (p k : Nat) (x : Ctx) : (s.putCtx p k x).units = s.units := rfl
@[simp] theorem State.putCtx_evc (s : State) (p k : Nat) (x : Ctx) : (s.putCtx p k x).evc = s.evc := rfl
@[simp] theorem State.putCtx_mir (s : State) (p k : Nat) (x : Ctx) : (s.putCtx p k x).mir = s.mir := rfl
@[simp] theorem State.putCtx_chk (s : State) (p k : Nat) (x : Ctx) : (s.putCtx p k x).chk = s.chk := rfl
@[simp] theorem State.putCtx_spares (s : State) (p k : Nat) (x : Ctx) : (s.putCtx p k x).spares = s.spares := rfl
@[simp] theorem State.putCtx_exts (s : State) (p k : Nat) (x : Ctx) : (s.putCtx p k x).exts = s.exts := rfl
@[simp] theorem State.putCtx_dbg (s : State) (p k : Nat) (x : Ctx) : (s.putCtx p k x).dbg = s.dbg := rfl
@[simp] theorem State.putCtx_mcs (s : State) (p k : Nat) (x : Ctx) : (s.putCtx p k x).mcs = s.mcs := rfl
@[simp] theorem State.putCtx_life (s : State) (p k : Nat) (x : Ctx) : (s.putCtx p k x).life = s.life := rfl
@[simp] theorem State.putCtx_aon (s : State) (p k : Nat) (x : Ctx) : (s.putCtx p k x).aon = s.aon := rfl
@[simp] theorem State.putCtx_draws (s : State) (p k : Nat) (x : Ctx) : (s.putCtx p k x).draws = s.draws := rfl
@[simp] theorem State.putCtx_log (s : State) (p k : Nat) (x : Ctx) (q : Nat) : (s.putCtx p k x).log q = s.log q := rfl
@[simp] theorem State.putCtx_inst (s : State) (p k : Nat) (x : Ctx) (q : Nat) : (s.putCtx p k x).inst q = s.inst q := rfl
@[simp] theorem State.putCtx_chan (s : State) (p k : Nat) (x : Ctx) (q : Nat) : (s.putCtx p k x).chan q = s.chan q := rfl
@[simp] theorem State.putCtx_job (s : State) (p k : Nat) (x : Ctx) (q : Nat) : (s.putCtx p k x).job q = s.job q := rfl
@[simp] theorem State.putCtx_port (s : State) (p k : Nat) (x : Ctx) (q : Nat) : (s.putCtx p k x).port q = s.port q := rfl
@[simp] theorem State.putCtx_slot (s : State) (p k : Nat) (x : Ctx) (q : Nat) : (s.putCtx p k x).slot q = s.slot q := rfl
@[simp] theorem State.putCtx_src (s : State) (p k : Nat) (x : Ctx) (q : Nat) : (s.putCtx p k x).src q = s.src q := rfl
@[simp] theorem State.putCtx_spare (s : State) (p k : Nat) (x : Ctx) (q : Nat) : (s.putCtx p k x).spare q = s.spare q := rfl
@[simp] theorem State.putCtx_ext (s : State) (p k : Nat) (x : Ctx) (q : Nat) : (s.putCtx p k x).ext q = s.ext q := rfl
@[simp] theorem State.putCtx_stand (s : State) (p k : Nat) (x : Ctx) (q : Nat) : (s.putCtx p k x).stand q = s.stand q := rfl
@[simp] theorem State.putCtx_lane (s : State) (p k : Nat) (x : Ctx) (q : Nat) : (s.putCtx p k x).lane q = s.lane q := rfl
@[simp] theorem State.putCtx_gran (s : State) (p k : Nat) (x : Ctx) (q : Nat) : (s.putCtx p k x).gran q = s.gran q := rfl
@[simp] theorem State.putCtx_deck (s : State) (p k : Nat) (x : Ctx) (q : Nat) : (s.putCtx p k x).deck q = s.deck q := rfl

/-! ## putLog -/

@[simp] theorem State.putLog_now (s : State) (n : Nat) (x : LogEngine) : (s.putLog n x).now = s.now := rfl
@[simp] theorem State.putLog_pending (s : State) (n : Nat) (x : LogEngine) : (s.putLog n x).pending = s.pending := rfl
@[simp] theorem State.putLog_out (s : State) (n : Nat) (x : LogEngine) : (s.putLog n x).out = s.out := rfl
@[simp] theorem State.putLog_engines (s : State) (n : Nat) (x : LogEngine) : (s.putLog n x).engines = s.engines := rfl
@[simp] theorem State.putLog_glb (s : State) (n : Nat) (x : LogEngine) : (s.putLog n x).glb = s.glb := rfl
@[simp] theorem State.putLog_idx (s : State) (n : Nat) (x : LogEngine) : (s.putLog n x).idx = s.idx := rfl
@[simp] theorem State.putLog_dbgIdx (s : State) (n : Nat) (x : LogEngine) : (s.putLog n x).dbgIdx = s.dbgIdx := rfl
@[simp] theorem State.putLog_ports (s : State) (n : Nat) (x : LogEngine) : (s.putLog n x).ports = s.ports := rfl
@[simp] theorem State.putLog_steer (s : State) (n : Nat) (x : LogEngine) : (s.putLog n x).steer = s.steer := rfl
@[simp] theorem State.putLog_hostWait (s : State) (n : Nat) (x : LogEngine) : (s.putLog n x).hostWait = s.hostWait := rfl
@[simp] theorem State.putLog_chans (s : State) (n : Nat) (x : LogEngine) : (s.putLog n x).chans = s.chans := rfl
@[simp] theorem State.putLog_insts (s : State) (n : Nat) (x : LogEngine) : (s.putLog n x).insts = s.insts := rfl
@[simp] theorem State.putLog_jobs (s : State) (n : Nat) (x : LogEngine) : (s.putLog n x).jobs = s.jobs := rfl
@[simp] theorem State.putLog_dsp (s : State) (n : Nat) (x : LogEngine) : (s.putLog n x).dsp = s.dsp := rfl
@[simp] theorem State.putLog_ldk (s : State) (n : Nat) (x : LogEngine) : (s.putLog n x).ldk = s.ldk := rfl
@[simp] theorem State.putLog_units (s : State) (n : Nat) (x : LogEngine) : (s.putLog n x).units = s.units := rfl
@[simp] theorem State.putLog_evc (s : State) (n : Nat) (x : LogEngine) : (s.putLog n x).evc = s.evc := rfl
@[simp] theorem State.putLog_mir (s : State) (n : Nat) (x : LogEngine) : (s.putLog n x).mir = s.mir := rfl
@[simp] theorem State.putLog_chk (s : State) (n : Nat) (x : LogEngine) : (s.putLog n x).chk = s.chk := rfl
@[simp] theorem State.putLog_spares (s : State) (n : Nat) (x : LogEngine) : (s.putLog n x).spares = s.spares := rfl
@[simp] theorem State.putLog_exts (s : State) (n : Nat) (x : LogEngine) : (s.putLog n x).exts = s.exts := rfl
@[simp] theorem State.putLog_dbg (s : State) (n : Nat) (x : LogEngine) : (s.putLog n x).dbg = s.dbg := rfl
@[simp] theorem State.putLog_mcs (s : State) (n : Nat) (x : LogEngine) : (s.putLog n x).mcs = s.mcs := rfl
@[simp] theorem State.putLog_life (s : State) (n : Nat) (x : LogEngine) : (s.putLog n x).life = s.life := rfl
@[simp] theorem State.putLog_aon (s : State) (n : Nat) (x : LogEngine) : (s.putLog n x).aon = s.aon := rfl
@[simp] theorem State.putLog_draws (s : State) (n : Nat) (x : LogEngine) : (s.putLog n x).draws = s.draws := rfl
@[simp] theorem State.putLog_eng (s : State) (n : Nat) (x : LogEngine) (q : Nat) : (s.putLog n x).eng q = s.eng q := rfl
@[simp] theorem State.putLog_ctx (s : State) (n : Nat) (x : LogEngine) (q j : Nat) : (s.putLog n x).ctx q j = s.ctx q j := rfl
@[simp] theorem State.putLog_inst (s : State) (n : Nat) (x : LogEngine) (q : Nat) : (s.putLog n x).inst q = s.inst q := rfl
@[simp] theorem State.putLog_chan (s : State) (n : Nat) (x : LogEngine) (q : Nat) : (s.putLog n x).chan q = s.chan q := rfl
@[simp] theorem State.putLog_job (s : State) (n : Nat) (x : LogEngine) (q : Nat) : (s.putLog n x).job q = s.job q := rfl
@[simp] theorem State.putLog_port (s : State) (n : Nat) (x : LogEngine) (q : Nat) : (s.putLog n x).port q = s.port q := rfl
@[simp] theorem State.putLog_slot (s : State) (n : Nat) (x : LogEngine) (q : Nat) : (s.putLog n x).slot q = s.slot q := rfl
@[simp] theorem State.putLog_src (s : State) (n : Nat) (x : LogEngine) (q : Nat) : (s.putLog n x).src q = s.src q := rfl
@[simp] theorem State.putLog_spare (s : State) (n : Nat) (x : LogEngine) (q : Nat) : (s.putLog n x).spare q = s.spare q := rfl
@[simp] theorem State.putLog_ext (s : State) (n : Nat) (x : LogEngine) (q : Nat) : (s.putLog n x).ext q = s.ext q := rfl
@[simp] theorem State.putLog_stand (s : State) (n : Nat) (x : LogEngine) (q : Nat) : (s.putLog n x).stand q = s.stand q := rfl
@[simp] theorem State.putLog_lane (s : State) (n : Nat) (x : LogEngine) (q : Nat) : (s.putLog n x).lane q = s.lane q := rfl
@[simp] theorem State.putLog_gran (s : State) (n : Nat) (x : LogEngine) (q : Nat) : (s.putLog n x).gran q = s.gran q := rfl
@[simp] theorem State.putLog_deck (s : State) (n : Nat) (x : LogEngine) (q : Nat) : (s.putLog n x).deck q = s.deck q := rfl
@[simp] theorem State.putLog_log_self (s : State) (n : Nat) (x : LogEngine) : (s.putLog n x).log n = x := by simp [State.log, State.putLog]
theorem State.putLog_log_ne (s : State) (n : Nat) (x : LogEngine) {m : Nat} (h : m ≠ n) : (s.putLog n x).log m = s.log m := Tab.get_put_ne _ _ x h

/-! ## putInst -/

@[simp] theorem State.putInst_now (s : State) (n : Nat) (x : Inst) : (s.putInst n x).now = s.now := rfl
@[simp] theorem State.putInst_pending (s : State) (n : Nat) (x : Inst) : (s.putInst n x).pending = s.pending := rfl
@[simp] theorem State.putInst_out (s : State) (n : Nat) (x : Inst) : (s.putInst n x).out = s.out := rfl
@[simp] theorem State.putInst_engines (s : State) (n : Nat) (x : Inst) : (s.putInst n x).engines = s.engines := rfl
@[simp] theorem State.putInst_logs (s : State) (n : Nat) (x : Inst) : (s.putInst n x).logs = s.logs := rfl
@[simp] theorem State.putInst_glb (s : State) (n : Nat) (x : Inst) : (s.putInst n x).glb = s.glb := rfl
@[simp] theorem State.putInst_idx (s : State) (n : Nat) (x : Inst) : (s.putInst n x).idx = s.idx := rfl
@[simp] theorem State.putInst_dbgIdx (s : State) (n : Nat) (x : Inst) : (s.putInst n x).dbgIdx = s.dbgIdx := rfl
@[simp] theorem State.putInst_ports (s : State) (n : Nat) (x : Inst) : (s.putInst n x).ports = s.ports := rfl
@[simp] theorem State.putInst_steer (s : State) (n : Nat) (x : Inst) : (s.putInst n x).steer = s.steer := rfl
@[simp] theorem State.putInst_hostWait (s : State) (n : Nat) (x : Inst) : (s.putInst n x).hostWait = s.hostWait := rfl
@[simp] theorem State.putInst_chans (s : State) (n : Nat) (x : Inst) : (s.putInst n x).chans = s.chans := rfl
@[simp] theorem State.putInst_jobs (s : State) (n : Nat) (x : Inst) : (s.putInst n x).jobs = s.jobs := rfl
@[simp] theorem State.putInst_dsp (s : State) (n : Nat) (x : Inst) : (s.putInst n x).dsp = s.dsp := rfl
@[simp] theorem State.putInst_ldk (s : State) (n : Nat) (x : Inst) : (s.putInst n x).ldk = s.ldk := rfl
@[simp] theorem State.putInst_units (s : State) (n : Nat) (x : Inst) : (s.putInst n x).units = s.units := rfl
@[simp] theorem State.putInst_evc (s : State) (n : Nat) (x : Inst) : (s.putInst n x).evc = s.evc := rfl
@[simp] theorem State.putInst_mir (s : State) (n : Nat) (x : Inst) : (s.putInst n x).mir = s.mir := rfl
@[simp] theorem State.putInst_chk (s : State) (n : Nat) (x : Inst) : (s.putInst n x).chk = s.chk := rfl
@[simp] theorem State.putInst_spares (s : State) (n : Nat) (x : Inst) : (s.putInst n x).spares = s.spares := rfl
@[simp] theorem State.putInst_exts (s : State) (n : Nat) (x : Inst) : (s.putInst n x).exts = s.exts := rfl
@[simp] theorem State.putInst_dbg (s : State) (n : Nat) (x : Inst) : (s.putInst n x).dbg = s.dbg := rfl
@[simp] theorem State.putInst_mcs (s : State) (n : Nat) (x : Inst) : (s.putInst n x).mcs = s.mcs := rfl
@[simp] theorem State.putInst_life (s : State) (n : Nat) (x : Inst) : (s.putInst n x).life = s.life := rfl
@[simp] theorem State.putInst_aon (s : State) (n : Nat) (x : Inst) : (s.putInst n x).aon = s.aon := rfl
@[simp] theorem State.putInst_draws (s : State) (n : Nat) (x : Inst) : (s.putInst n x).draws = s.draws := rfl
@[simp] theorem State.putInst_eng (s : State) (n : Nat) (x : Inst) (q : Nat) : (s.putInst n x).eng q = s.eng q := rfl
@[simp] theorem State.putInst_ctx (s : State) (n : Nat) (x : Inst) (q j : Nat) : (s.putInst n x).ctx q j = s.ctx q j := rfl
@[simp] theorem State.putInst_log (s : State) (n : Nat) (x : Inst) (q : Nat) : (s.putInst n x).log q = s.log q := rfl
@[simp] theorem State.putInst_chan (s : State) (n : Nat) (x : Inst) (q : Nat) : (s.putInst n x).chan q = s.chan q := rfl
@[simp] theorem State.putInst_job (s : State) (n : Nat) (x : Inst) (q : Nat) : (s.putInst n x).job q = s.job q := rfl
@[simp] theorem State.putInst_port (s : State) (n : Nat) (x : Inst) (q : Nat) : (s.putInst n x).port q = s.port q := rfl
@[simp] theorem State.putInst_slot (s : State) (n : Nat) (x : Inst) (q : Nat) : (s.putInst n x).slot q = s.slot q := rfl
@[simp] theorem State.putInst_src (s : State) (n : Nat) (x : Inst) (q : Nat) : (s.putInst n x).src q = s.src q := rfl
@[simp] theorem State.putInst_spare (s : State) (n : Nat) (x : Inst) (q : Nat) : (s.putInst n x).spare q = s.spare q := rfl
@[simp] theorem State.putInst_ext (s : State) (n : Nat) (x : Inst) (q : Nat) : (s.putInst n x).ext q = s.ext q := rfl
@[simp] theorem State.putInst_stand (s : State) (n : Nat) (x : Inst) (q : Nat) : (s.putInst n x).stand q = s.stand q := rfl
@[simp] theorem State.putInst_lane (s : State) (n : Nat) (x : Inst) (q : Nat) : (s.putInst n x).lane q = s.lane q := rfl
@[simp] theorem State.putInst_gran (s : State) (n : Nat) (x : Inst) (q : Nat) : (s.putInst n x).gran q = s.gran q := rfl
@[simp] theorem State.putInst_deck (s : State) (n : Nat) (x : Inst) (q : Nat) : (s.putInst n x).deck q = s.deck q := rfl
@[simp] theorem State.putInst_inst_self (s : State) (n : Nat) (x : Inst) : (s.putInst n x).inst n = x := by simp [State.inst, State.putInst]
theorem State.putInst_inst_ne (s : State) (n : Nat) (x : Inst) {m : Nat} (h : m ≠ n) : (s.putInst n x).inst m = s.inst m := Tab.get_put_ne _ _ x h

/-! ## putChan -/

@[simp] theorem State.putChan_now (s : State) (n : Nat) (x : Chan) : (s.putChan n x).now = s.now := rfl
@[simp] theorem State.putChan_pending (s : State) (n : Nat) (x : Chan) : (s.putChan n x).pending = s.pending := rfl
@[simp] theorem State.putChan_out (s : State) (n : Nat) (x : Chan) : (s.putChan n x).out = s.out := rfl
@[simp] theorem State.putChan_engines (s : State) (n : Nat) (x : Chan) : (s.putChan n x).engines = s.engines := rfl
@[simp] theorem State.putChan_logs (s : State) (n : Nat) (x : Chan) : (s.putChan n x).logs = s.logs := rfl
@[simp] theorem State.putChan_glb (s : State) (n : Nat) (x : Chan) : (s.putChan n x).glb = s.glb := rfl
@[simp] theorem State.putChan_idx (s : State) (n : Nat) (x : Chan) : (s.putChan n x).idx = s.idx := rfl
@[simp] theorem State.putChan_dbgIdx (s : State) (n : Nat) (x : Chan) : (s.putChan n x).dbgIdx = s.dbgIdx := rfl
@[simp] theorem State.putChan_ports (s : State) (n : Nat) (x : Chan) : (s.putChan n x).ports = s.ports := rfl
@[simp] theorem State.putChan_steer (s : State) (n : Nat) (x : Chan) : (s.putChan n x).steer = s.steer := rfl
@[simp] theorem State.putChan_hostWait (s : State) (n : Nat) (x : Chan) : (s.putChan n x).hostWait = s.hostWait := rfl
@[simp] theorem State.putChan_insts (s : State) (n : Nat) (x : Chan) : (s.putChan n x).insts = s.insts := rfl
@[simp] theorem State.putChan_jobs (s : State) (n : Nat) (x : Chan) : (s.putChan n x).jobs = s.jobs := rfl
@[simp] theorem State.putChan_dsp (s : State) (n : Nat) (x : Chan) : (s.putChan n x).dsp = s.dsp := rfl
@[simp] theorem State.putChan_ldk (s : State) (n : Nat) (x : Chan) : (s.putChan n x).ldk = s.ldk := rfl
@[simp] theorem State.putChan_units (s : State) (n : Nat) (x : Chan) : (s.putChan n x).units = s.units := rfl
@[simp] theorem State.putChan_evc (s : State) (n : Nat) (x : Chan) : (s.putChan n x).evc = s.evc := rfl
@[simp] theorem State.putChan_mir (s : State) (n : Nat) (x : Chan) : (s.putChan n x).mir = s.mir := rfl
@[simp] theorem State.putChan_chk (s : State) (n : Nat) (x : Chan) : (s.putChan n x).chk = s.chk := rfl
@[simp] theorem State.putChan_spares (s : State) (n : Nat) (x : Chan) : (s.putChan n x).spares = s.spares := rfl
@[simp] theorem State.putChan_exts (s : State) (n : Nat) (x : Chan) : (s.putChan n x).exts = s.exts := rfl
@[simp] theorem State.putChan_dbg (s : State) (n : Nat) (x : Chan) : (s.putChan n x).dbg = s.dbg := rfl
@[simp] theorem State.putChan_mcs (s : State) (n : Nat) (x : Chan) : (s.putChan n x).mcs = s.mcs := rfl
@[simp] theorem State.putChan_life (s : State) (n : Nat) (x : Chan) : (s.putChan n x).life = s.life := rfl
@[simp] theorem State.putChan_aon (s : State) (n : Nat) (x : Chan) : (s.putChan n x).aon = s.aon := rfl
@[simp] theorem State.putChan_draws (s : State) (n : Nat) (x : Chan) : (s.putChan n x).draws = s.draws := rfl
@[simp] theorem State.putChan_eng (s : State) (n : Nat) (x : Chan) (q : Nat) : (s.putChan n x).eng q = s.eng q := rfl
@[simp] theorem State.putChan_ctx (s : State) (n : Nat) (x : Chan) (q j : Nat) : (s.putChan n x).ctx q j = s.ctx q j := rfl
@[simp] theorem State.putChan_log (s : State) (n : Nat) (x : Chan) (q : Nat) : (s.putChan n x).log q = s.log q := rfl
@[simp] theorem State.putChan_inst (s : State) (n : Nat) (x : Chan) (q : Nat) : (s.putChan n x).inst q = s.inst q := rfl
@[simp] theorem State.putChan_job (s : State) (n : Nat) (x : Chan) (q : Nat) : (s.putChan n x).job q = s.job q := rfl
@[simp] theorem State.putChan_port (s : State) (n : Nat) (x : Chan) (q : Nat) : (s.putChan n x).port q = s.port q := rfl
@[simp] theorem State.putChan_slot (s : State) (n : Nat) (x : Chan) (q : Nat) : (s.putChan n x).slot q = s.slot q := rfl
@[simp] theorem State.putChan_src (s : State) (n : Nat) (x : Chan) (q : Nat) : (s.putChan n x).src q = s.src q := rfl
@[simp] theorem State.putChan_spare (s : State) (n : Nat) (x : Chan) (q : Nat) : (s.putChan n x).spare q = s.spare q := rfl
@[simp] theorem State.putChan_ext (s : State) (n : Nat) (x : Chan) (q : Nat) : (s.putChan n x).ext q = s.ext q := rfl
@[simp] theorem State.putChan_stand (s : State) (n : Nat) (x : Chan) (q : Nat) : (s.putChan n x).stand q = s.stand q := rfl
@[simp] theorem State.putChan_lane (s : State) (n : Nat) (x : Chan) (q : Nat) : (s.putChan n x).lane q = s.lane q := rfl
@[simp] theorem State.putChan_gran (s : State) (n : Nat) (x : Chan) (q : Nat) : (s.putChan n x).gran q = s.gran q := rfl
@[simp] theorem State.putChan_deck (s : State) (n : Nat) (x : Chan) (q : Nat) : (s.putChan n x).deck q = s.deck q := rfl
@[simp] theorem State.putChan_chan_self (s : State) (n : Nat) (x : Chan) : (s.putChan n x).chan n = x := by simp [State.chan, State.putChan]
theorem State.putChan_chan_ne (s : State) (n : Nat) (x : Chan) {m : Nat} (h : m ≠ n) : (s.putChan n x).chan m = s.chan m := Tab.get_put_ne _ _ x h

/-! ## putJob -/

@[simp] theorem State.putJob_now (s : State) (n : Nat) (x : Job) : (s.putJob n x).now = s.now := rfl
@[simp] theorem State.putJob_pending (s : State) (n : Nat) (x : Job) : (s.putJob n x).pending = s.pending := rfl
@[simp] theorem State.putJob_out (s : State) (n : Nat) (x : Job) : (s.putJob n x).out = s.out := rfl
@[simp] theorem State.putJob_engines (s : State) (n : Nat) (x : Job) : (s.putJob n x).engines = s.engines := rfl
@[simp] theorem State.putJob_logs (s : State) (n : Nat) (x : Job) : (s.putJob n x).logs = s.logs := rfl
@[simp] theorem State.putJob_glb (s : State) (n : Nat) (x : Job) : (s.putJob n x).glb = s.glb := rfl
@[simp] theorem State.putJob_idx (s : State) (n : Nat) (x : Job) : (s.putJob n x).idx = s.idx := rfl
@[simp] theorem State.putJob_dbgIdx (s : State) (n : Nat) (x : Job) : (s.putJob n x).dbgIdx = s.dbgIdx := rfl
@[simp] theorem State.putJob_ports (s : State) (n : Nat) (x : Job) : (s.putJob n x).ports = s.ports := rfl
@[simp] theorem State.putJob_steer (s : State) (n : Nat) (x : Job) : (s.putJob n x).steer = s.steer := rfl
@[simp] theorem State.putJob_hostWait (s : State) (n : Nat) (x : Job) : (s.putJob n x).hostWait = s.hostWait := rfl
@[simp] theorem State.putJob_chans (s : State) (n : Nat) (x : Job) : (s.putJob n x).chans = s.chans := rfl
@[simp] theorem State.putJob_insts (s : State) (n : Nat) (x : Job) : (s.putJob n x).insts = s.insts := rfl
@[simp] theorem State.putJob_dsp (s : State) (n : Nat) (x : Job) : (s.putJob n x).dsp = s.dsp := rfl
@[simp] theorem State.putJob_ldk (s : State) (n : Nat) (x : Job) : (s.putJob n x).ldk = s.ldk := rfl
@[simp] theorem State.putJob_units (s : State) (n : Nat) (x : Job) : (s.putJob n x).units = s.units := rfl
@[simp] theorem State.putJob_evc (s : State) (n : Nat) (x : Job) : (s.putJob n x).evc = s.evc := rfl
@[simp] theorem State.putJob_mir (s : State) (n : Nat) (x : Job) : (s.putJob n x).mir = s.mir := rfl
@[simp] theorem State.putJob_chk (s : State) (n : Nat) (x : Job) : (s.putJob n x).chk = s.chk := rfl
@[simp] theorem State.putJob_spares (s : State) (n : Nat) (x : Job) : (s.putJob n x).spares = s.spares := rfl
@[simp] theorem State.putJob_exts (s : State) (n : Nat) (x : Job) : (s.putJob n x).exts = s.exts := rfl
@[simp] theorem State.putJob_dbg (s : State) (n : Nat) (x : Job) : (s.putJob n x).dbg = s.dbg := rfl
@[simp] theorem State.putJob_mcs (s : State) (n : Nat) (x : Job) : (s.putJob n x).mcs = s.mcs := rfl
@[simp] theorem State.putJob_life (s : State) (n : Nat) (x : Job) : (s.putJob n x).life = s.life := rfl
@[simp] theorem State.putJob_aon (s : State) (n : Nat) (x : Job) : (s.putJob n x).aon = s.aon := rfl
@[simp] theorem State.putJob_draws (s : State) (n : Nat) (x : Job) : (s.putJob n x).draws = s.draws := rfl
@[simp] theorem State.putJob_eng (s : State) (n : Nat) (x : Job) (q : Nat) : (s.putJob n x).eng q = s.eng q := rfl
@[simp] theorem State.putJob_ctx (s : State) (n : Nat) (x : Job) (q j : Nat) : (s.putJob n x).ctx q j = s.ctx q j := rfl
@[simp] theorem State.putJob_log (s : State) (n : Nat) (x : Job) (q : Nat) : (s.putJob n x).log q = s.log q := rfl
@[simp] theorem State.putJob_inst (s : State) (n : Nat) (x : Job) (q : Nat) : (s.putJob n x).inst q = s.inst q := rfl
@[simp] theorem State.putJob_chan (s : State) (n : Nat) (x : Job) (q : Nat) : (s.putJob n x).chan q = s.chan q := rfl
@[simp] theorem State.putJob_port (s : State) (n : Nat) (x : Job) (q : Nat) : (s.putJob n x).port q = s.port q := rfl
@[simp] theorem State.putJob_slot (s : State) (n : Nat) (x : Job) (q : Nat) : (s.putJob n x).slot q = s.slot q := rfl
@[simp] theorem State.putJob_src (s : State) (n : Nat) (x : Job) (q : Nat) : (s.putJob n x).src q = s.src q := rfl
@[simp] theorem State.putJob_spare (s : State) (n : Nat) (x : Job) (q : Nat) : (s.putJob n x).spare q = s.spare q := rfl
@[simp] theorem State.putJob_ext (s : State) (n : Nat) (x : Job) (q : Nat) : (s.putJob n x).ext q = s.ext q := rfl
@[simp] theorem State.putJob_stand (s : State) (n : Nat) (x : Job) (q : Nat) : (s.putJob n x).stand q = s.stand q := rfl
@[simp] theorem State.putJob_lane (s : State) (n : Nat) (x : Job) (q : Nat) : (s.putJob n x).lane q = s.lane q := rfl
@[simp] theorem State.putJob_gran (s : State) (n : Nat) (x : Job) (q : Nat) : (s.putJob n x).gran q = s.gran q := rfl
@[simp] theorem State.putJob_deck (s : State) (n : Nat) (x : Job) (q : Nat) : (s.putJob n x).deck q = s.deck q := rfl
@[simp] theorem State.putJob_job_self (s : State) (n : Nat) (x : Job) : (s.putJob n x).job n = some x := by simp [State.job, State.putJob]
theorem State.putJob_job_ne (s : State) (n : Nat) (x : Job) {m : Nat} (h : m ≠ n) : (s.putJob n x).job m = s.job m := Assoc.lookup_insert_ne _ x h

/-! ## putPort -/

@[simp] theorem State.putPort_now (s : State) (n : Nat) (x : Port) : (s.putPort n x).now = s.now := rfl
@[simp] theorem State.putPort_pending (s : State) (n : Nat) (x : Port) : (s.putPort n x).pending = s.pending := rfl
@[simp] theorem State.putPort_out (s : State) (n : Nat) (x : Port) : (s.putPort n x).out = s.out := rfl
@[simp] theorem State.putPort_engines (s : State) (n : Nat) (x : Port) : (s.putPort n x).engines = s.engines := rfl
@[simp] theorem State.putPort_logs (s : State) (n : Nat) (x : Port) : (s.putPort n x).logs = s.logs := rfl
@[simp] theorem State.putPort_glb (s : State) (n : Nat) (x : Port) : (s.putPort n x).glb = s.glb := rfl
@[simp] theorem State.putPort_idx (s : State) (n : Nat) (x : Port) : (s.putPort n x).idx = s.idx := rfl
@[simp] theorem State.putPort_dbgIdx (s : State) (n : Nat) (x : Port) : (s.putPort n x).dbgIdx = s.dbgIdx := rfl
@[simp] theorem State.putPort_steer (s : State) (n : Nat) (x : Port) : (s.putPort n x).steer = s.steer := rfl
@[simp] theorem State.putPort_hostWait (s : State) (n : Nat) (x : Port) : (s.putPort n x).hostWait = s.hostWait := rfl
@[simp] theorem State.putPort_chans (s : State) (n : Nat) (x : Port) : (s.putPort n x).chans = s.chans := rfl
@[simp] theorem State.putPort_insts (s : State) (n : Nat) (x : Port) : (s.putPort n x).insts = s.insts := rfl
@[simp] theorem State.putPort_jobs (s : State) (n : Nat) (x : Port) : (s.putPort n x).jobs = s.jobs := rfl
@[simp] theorem State.putPort_dsp (s : State) (n : Nat) (x : Port) : (s.putPort n x).dsp = s.dsp := rfl
@[simp] theorem State.putPort_ldk (s : State) (n : Nat) (x : Port) : (s.putPort n x).ldk = s.ldk := rfl
@[simp] theorem State.putPort_units (s : State) (n : Nat) (x : Port) : (s.putPort n x).units = s.units := rfl
@[simp] theorem State.putPort_evc (s : State) (n : Nat) (x : Port) : (s.putPort n x).evc = s.evc := rfl
@[simp] theorem State.putPort_mir (s : State) (n : Nat) (x : Port) : (s.putPort n x).mir = s.mir := rfl
@[simp] theorem State.putPort_chk (s : State) (n : Nat) (x : Port) : (s.putPort n x).chk = s.chk := rfl
@[simp] theorem State.putPort_spares (s : State) (n : Nat) (x : Port) : (s.putPort n x).spares = s.spares := rfl
@[simp] theorem State.putPort_exts (s : State) (n : Nat) (x : Port) : (s.putPort n x).exts = s.exts := rfl
@[simp] theorem State.putPort_dbg (s : State) (n : Nat) (x : Port) : (s.putPort n x).dbg = s.dbg := rfl
@[simp] theorem State.putPort_mcs (s : State) (n : Nat) (x : Port) : (s.putPort n x).mcs = s.mcs := rfl
@[simp] theorem State.putPort_life (s : State) (n : Nat) (x : Port) : (s.putPort n x).life = s.life := rfl
@[simp] theorem State.putPort_aon (s : State) (n : Nat) (x : Port) : (s.putPort n x).aon = s.aon := rfl
@[simp] theorem State.putPort_draws (s : State) (n : Nat) (x : Port) : (s.putPort n x).draws = s.draws := rfl
@[simp] theorem State.putPort_eng (s : State) (n : Nat) (x : Port) (q : Nat) : (s.putPort n x).eng q = s.eng q := rfl
@[simp] theorem State.putPort_ctx (s : State) (n : Nat) (x : Port) (q j : Nat) : (s.putPort n x).ctx q j = s.ctx q j := rfl
@[simp] theorem State.putPort_log (s : State) (n : Nat) (x : Port) (q : Nat) : (s.putPort n x).log q = s.log q := rfl
@[simp] theorem State.putPort_inst (s : State) (n : Nat) (x : Port) (q : Nat) : (s.putPort n x).inst q = s.inst q := rfl
@[simp] theorem State.putPort_chan (s : State) (n : Nat) (x : Port) (q : Nat) : (s.putPort n x).chan q = s.chan q := rfl
@[simp] theorem State.putPort_job (s : State) (n : Nat) (x : Port) (q : Nat) : (s.putPort n x).job q = s.job q := rfl
@[simp] theorem State.putPort_slot (s : State) (n : Nat) (x : Port) (q : Nat) : (s.putPort n x).slot q = s.slot q := rfl
@[simp] theorem State.putPort_src (s : State) (n : Nat) (x : Port) (q : Nat) : (s.putPort n x).src q = s.src q := rfl
@[simp] theorem State.putPort_spare (s : State) (n : Nat) (x : Port) (q : Nat) : (s.putPort n x).spare q = s.spare q := rfl
@[simp] theorem State.putPort_ext (s : State) (n : Nat) (x : Port) (q : Nat) : (s.putPort n x).ext q = s.ext q := rfl
@[simp] theorem State.putPort_stand (s : State) (n : Nat) (x : Port) (q : Nat) : (s.putPort n x).stand q = s.stand q := rfl
@[simp] theorem State.putPort_lane (s : State) (n : Nat) (x : Port) (q : Nat) : (s.putPort n x).lane q = s.lane q := rfl
@[simp] theorem State.putPort_gran (s : State) (n : Nat) (x : Port) (q : Nat) : (s.putPort n x).gran q = s.gran q := rfl
@[simp] theorem State.putPort_deck (s : State) (n : Nat) (x : Port) (q : Nat) : (s.putPort n x).deck q = s.deck q := rfl
@[simp] theorem State.putPort_port_self (s : State) (n : Nat) (x : Port) : (s.putPort n x).port n = x := by simp [State.port, State.putPort]
theorem State.putPort_port_ne (s : State) (n : Nat) (x : Port) {m : Nat} (h : m ≠ n) : (s.putPort n x).port m = s.port m := Tab.get_put_ne _ _ x h

/-! ## putSlot -/

@[simp] theorem State.putSlot_now (s : State) (n : Nat) (x : KeySlot) : (s.putSlot n x).now = s.now := rfl
@[simp] theorem State.putSlot_pending (s : State) (n : Nat) (x : KeySlot) : (s.putSlot n x).pending = s.pending := rfl
@[simp] theorem State.putSlot_out (s : State) (n : Nat) (x : KeySlot) : (s.putSlot n x).out = s.out := rfl
@[simp] theorem State.putSlot_engines (s : State) (n : Nat) (x : KeySlot) : (s.putSlot n x).engines = s.engines := rfl
@[simp] theorem State.putSlot_logs (s : State) (n : Nat) (x : KeySlot) : (s.putSlot n x).logs = s.logs := rfl
@[simp] theorem State.putSlot_glb (s : State) (n : Nat) (x : KeySlot) : (s.putSlot n x).glb = s.glb := rfl
@[simp] theorem State.putSlot_idx (s : State) (n : Nat) (x : KeySlot) : (s.putSlot n x).idx = s.idx := rfl
@[simp] theorem State.putSlot_dbgIdx (s : State) (n : Nat) (x : KeySlot) : (s.putSlot n x).dbgIdx = s.dbgIdx := rfl
@[simp] theorem State.putSlot_ports (s : State) (n : Nat) (x : KeySlot) : (s.putSlot n x).ports = s.ports := rfl
@[simp] theorem State.putSlot_steer (s : State) (n : Nat) (x : KeySlot) : (s.putSlot n x).steer = s.steer := rfl
@[simp] theorem State.putSlot_hostWait (s : State) (n : Nat) (x : KeySlot) : (s.putSlot n x).hostWait = s.hostWait := rfl
@[simp] theorem State.putSlot_chans (s : State) (n : Nat) (x : KeySlot) : (s.putSlot n x).chans = s.chans := rfl
@[simp] theorem State.putSlot_insts (s : State) (n : Nat) (x : KeySlot) : (s.putSlot n x).insts = s.insts := rfl
@[simp] theorem State.putSlot_jobs (s : State) (n : Nat) (x : KeySlot) : (s.putSlot n x).jobs = s.jobs := rfl
@[simp] theorem State.putSlot_dsp (s : State) (n : Nat) (x : KeySlot) : (s.putSlot n x).dsp = s.dsp := rfl
@[simp] theorem State.putSlot_ldk (s : State) (n : Nat) (x : KeySlot) : (s.putSlot n x).ldk = s.ldk := rfl
@[simp] theorem State.putSlot_evc (s : State) (n : Nat) (x : KeySlot) : (s.putSlot n x).evc = s.evc := rfl
@[simp] theorem State.putSlot_mir (s : State) (n : Nat) (x : KeySlot) : (s.putSlot n x).mir = s.mir := rfl
@[simp] theorem State.putSlot_chk (s : State) (n : Nat) (x : KeySlot) : (s.putSlot n x).chk = s.chk := rfl
@[simp] theorem State.putSlot_spares (s : State) (n : Nat) (x : KeySlot) : (s.putSlot n x).spares = s.spares := rfl
@[simp] theorem State.putSlot_exts (s : State) (n : Nat) (x : KeySlot) : (s.putSlot n x).exts = s.exts := rfl
@[simp] theorem State.putSlot_dbg (s : State) (n : Nat) (x : KeySlot) : (s.putSlot n x).dbg = s.dbg := rfl
@[simp] theorem State.putSlot_mcs (s : State) (n : Nat) (x : KeySlot) : (s.putSlot n x).mcs = s.mcs := rfl
@[simp] theorem State.putSlot_life (s : State) (n : Nat) (x : KeySlot) : (s.putSlot n x).life = s.life := rfl
@[simp] theorem State.putSlot_aon (s : State) (n : Nat) (x : KeySlot) : (s.putSlot n x).aon = s.aon := rfl
@[simp] theorem State.putSlot_draws (s : State) (n : Nat) (x : KeySlot) : (s.putSlot n x).draws = s.draws := rfl
@[simp] theorem State.putSlot_eng (s : State) (n : Nat) (x : KeySlot) (q : Nat) : (s.putSlot n x).eng q = s.eng q := rfl
@[simp] theorem State.putSlot_ctx (s : State) (n : Nat) (x : KeySlot) (q j : Nat) : (s.putSlot n x).ctx q j = s.ctx q j := rfl
@[simp] theorem State.putSlot_log (s : State) (n : Nat) (x : KeySlot) (q : Nat) : (s.putSlot n x).log q = s.log q := rfl
@[simp] theorem State.putSlot_inst (s : State) (n : Nat) (x : KeySlot) (q : Nat) : (s.putSlot n x).inst q = s.inst q := rfl
@[simp] theorem State.putSlot_chan (s : State) (n : Nat) (x : KeySlot) (q : Nat) : (s.putSlot n x).chan q = s.chan q := rfl
@[simp] theorem State.putSlot_job (s : State) (n : Nat) (x : KeySlot) (q : Nat) : (s.putSlot n x).job q = s.job q := rfl
@[simp] theorem State.putSlot_port (s : State) (n : Nat) (x : KeySlot) (q : Nat) : (s.putSlot n x).port q = s.port q := rfl
@[simp] theorem State.putSlot_src (s : State) (n : Nat) (x : KeySlot) (q : Nat) : (s.putSlot n x).src q = s.src q := rfl
@[simp] theorem State.putSlot_spare (s : State) (n : Nat) (x : KeySlot) (q : Nat) : (s.putSlot n x).spare q = s.spare q := rfl
@[simp] theorem State.putSlot_ext (s : State) (n : Nat) (x : KeySlot) (q : Nat) : (s.putSlot n x).ext q = s.ext q := rfl
@[simp] theorem State.putSlot_stand (s : State) (n : Nat) (x : KeySlot) (q : Nat) : (s.putSlot n x).stand q = s.stand q := rfl
@[simp] theorem State.putSlot_lane (s : State) (n : Nat) (x : KeySlot) (q : Nat) : (s.putSlot n x).lane q = s.lane q := rfl
@[simp] theorem State.putSlot_gran (s : State) (n : Nat) (x : KeySlot) (q : Nat) : (s.putSlot n x).gran q = s.gran q := rfl
@[simp] theorem State.putSlot_deck (s : State) (n : Nat) (x : KeySlot) (q : Nat) : (s.putSlot n x).deck q = s.deck q := rfl
@[simp] theorem State.putSlot_slot_self (s : State) (n : Nat) (x : KeySlot) : (s.putSlot n x).slot n = x := by simp [State.slot, State.putSlot]
theorem State.putSlot_slot_ne (s : State) (n : Nat) (x : KeySlot) {m : Nat} (h : m ≠ n) : (s.putSlot n x).slot m = s.slot m := Tab.get_put_ne _ _ x h

/-! ## putSrc -/

@[simp] theorem State.putSrc_now (s : State) (n : Nat) (x : Src) : (s.putSrc n x).now = s.now := rfl
@[simp] theorem State.putSrc_pending (s : State) (n : Nat) (x : Src) : (s.putSrc n x).pending = s.pending := rfl
@[simp] theorem State.putSrc_out (s : State) (n : Nat) (x : Src) : (s.putSrc n x).out = s.out := rfl
@[simp] theorem State.putSrc_engines (s : State) (n : Nat) (x : Src) : (s.putSrc n x).engines = s.engines := rfl
@[simp] theorem State.putSrc_logs (s : State) (n : Nat) (x : Src) : (s.putSrc n x).logs = s.logs := rfl
@[simp] theorem State.putSrc_glb (s : State) (n : Nat) (x : Src) : (s.putSrc n x).glb = s.glb := rfl
@[simp] theorem State.putSrc_idx (s : State) (n : Nat) (x : Src) : (s.putSrc n x).idx = s.idx := rfl
@[simp] theorem State.putSrc_dbgIdx (s : State) (n : Nat) (x : Src) : (s.putSrc n x).dbgIdx = s.dbgIdx := rfl
@[simp] theorem State.putSrc_ports (s : State) (n : Nat) (x : Src) : (s.putSrc n x).ports = s.ports := rfl
@[simp] theorem State.putSrc_steer (s : State) (n : Nat) (x : Src) : (s.putSrc n x).steer = s.steer := rfl
@[simp] theorem State.putSrc_hostWait (s : State) (n : Nat) (x : Src) : (s.putSrc n x).hostWait = s.hostWait := rfl
@[simp] theorem State.putSrc_chans (s : State) (n : Nat) (x : Src) : (s.putSrc n x).chans = s.chans := rfl
@[simp] theorem State.putSrc_insts (s : State) (n : Nat) (x : Src) : (s.putSrc n x).insts = s.insts := rfl
@[simp] theorem State.putSrc_jobs (s : State) (n : Nat) (x : Src) : (s.putSrc n x).jobs = s.jobs := rfl
@[simp] theorem State.putSrc_dsp (s : State) (n : Nat) (x : Src) : (s.putSrc n x).dsp = s.dsp := rfl
@[simp] theorem State.putSrc_ldk (s : State) (n : Nat) (x : Src) : (s.putSrc n x).ldk = s.ldk := rfl
@[simp] theorem State.putSrc_units (s : State) (n : Nat) (x : Src) : (s.putSrc n x).units = s.units := rfl
@[simp] theorem State.putSrc_mir (s : State) (n : Nat) (x : Src) : (s.putSrc n x).mir = s.mir := rfl
@[simp] theorem State.putSrc_chk (s : State) (n : Nat) (x : Src) : (s.putSrc n x).chk = s.chk := rfl
@[simp] theorem State.putSrc_spares (s : State) (n : Nat) (x : Src) : (s.putSrc n x).spares = s.spares := rfl
@[simp] theorem State.putSrc_exts (s : State) (n : Nat) (x : Src) : (s.putSrc n x).exts = s.exts := rfl
@[simp] theorem State.putSrc_dbg (s : State) (n : Nat) (x : Src) : (s.putSrc n x).dbg = s.dbg := rfl
@[simp] theorem State.putSrc_mcs (s : State) (n : Nat) (x : Src) : (s.putSrc n x).mcs = s.mcs := rfl
@[simp] theorem State.putSrc_life (s : State) (n : Nat) (x : Src) : (s.putSrc n x).life = s.life := rfl
@[simp] theorem State.putSrc_aon (s : State) (n : Nat) (x : Src) : (s.putSrc n x).aon = s.aon := rfl
@[simp] theorem State.putSrc_draws (s : State) (n : Nat) (x : Src) : (s.putSrc n x).draws = s.draws := rfl
@[simp] theorem State.putSrc_eng (s : State) (n : Nat) (x : Src) (q : Nat) : (s.putSrc n x).eng q = s.eng q := rfl
@[simp] theorem State.putSrc_ctx (s : State) (n : Nat) (x : Src) (q j : Nat) : (s.putSrc n x).ctx q j = s.ctx q j := rfl
@[simp] theorem State.putSrc_log (s : State) (n : Nat) (x : Src) (q : Nat) : (s.putSrc n x).log q = s.log q := rfl
@[simp] theorem State.putSrc_inst (s : State) (n : Nat) (x : Src) (q : Nat) : (s.putSrc n x).inst q = s.inst q := rfl
@[simp] theorem State.putSrc_chan (s : State) (n : Nat) (x : Src) (q : Nat) : (s.putSrc n x).chan q = s.chan q := rfl
@[simp] theorem State.putSrc_job (s : State) (n : Nat) (x : Src) (q : Nat) : (s.putSrc n x).job q = s.job q := rfl
@[simp] theorem State.putSrc_port (s : State) (n : Nat) (x : Src) (q : Nat) : (s.putSrc n x).port q = s.port q := rfl
@[simp] theorem State.putSrc_slot (s : State) (n : Nat) (x : Src) (q : Nat) : (s.putSrc n x).slot q = s.slot q := rfl
@[simp] theorem State.putSrc_spare (s : State) (n : Nat) (x : Src) (q : Nat) : (s.putSrc n x).spare q = s.spare q := rfl
@[simp] theorem State.putSrc_ext (s : State) (n : Nat) (x : Src) (q : Nat) : (s.putSrc n x).ext q = s.ext q := rfl
@[simp] theorem State.putSrc_stand (s : State) (n : Nat) (x : Src) (q : Nat) : (s.putSrc n x).stand q = s.stand q := rfl
@[simp] theorem State.putSrc_lane (s : State) (n : Nat) (x : Src) (q : Nat) : (s.putSrc n x).lane q = s.lane q := rfl
@[simp] theorem State.putSrc_gran (s : State) (n : Nat) (x : Src) (q : Nat) : (s.putSrc n x).gran q = s.gran q := rfl
@[simp] theorem State.putSrc_deck (s : State) (n : Nat) (x : Src) (q : Nat) : (s.putSrc n x).deck q = s.deck q := rfl
@[simp] theorem State.putSrc_src_self (s : State) (n : Nat) (x : Src) : (s.putSrc n x).src n = x := by simp [State.src, State.putSrc]
theorem State.putSrc_src_ne (s : State) (n : Nat) (x : Src) {m : Nat} (h : m ≠ n) : (s.putSrc n x).src m = s.src m := Tab.get_put_ne _ _ x h

/-! ## putSpare -/

@[simp] theorem State.putSpare_now (s : State) (n : Nat) (x : Spare) : (s.putSpare n x).now = s.now := rfl
@[simp] theorem State.putSpare_pending (s : State) (n : Nat) (x : Spare) : (s.putSpare n x).pending = s.pending := rfl
@[simp] theorem State.putSpare_out (s : State) (n : Nat) (x : Spare) : (s.putSpare n x).out = s.out := rfl
@[simp] theorem State.putSpare_engines (s : State) (n : Nat) (x : Spare) : (s.putSpare n x).engines = s.engines := rfl
@[simp] theorem State.putSpare_logs (s : State) (n : Nat) (x : Spare) : (s.putSpare n x).logs = s.logs := rfl
@[simp] theorem State.putSpare_glb (s : State) (n : Nat) (x : Spare) : (s.putSpare n x).glb = s.glb := rfl
@[simp] theorem State.putSpare_idx (s : State) (n : Nat) (x : Spare) : (s.putSpare n x).idx = s.idx := rfl
@[simp] theorem State.putSpare_dbgIdx (s : State) (n : Nat) (x : Spare) : (s.putSpare n x).dbgIdx = s.dbgIdx := rfl
@[simp] theorem State.putSpare_ports (s : State) (n : Nat) (x : Spare) : (s.putSpare n x).ports = s.ports := rfl
@[simp] theorem State.putSpare_steer (s : State) (n : Nat) (x : Spare) : (s.putSpare n x).steer = s.steer := rfl
@[simp] theorem State.putSpare_hostWait (s : State) (n : Nat) (x : Spare) : (s.putSpare n x).hostWait = s.hostWait := rfl
@[simp] theorem State.putSpare_chans (s : State) (n : Nat) (x : Spare) : (s.putSpare n x).chans = s.chans := rfl
@[simp] theorem State.putSpare_insts (s : State) (n : Nat) (x : Spare) : (s.putSpare n x).insts = s.insts := rfl
@[simp] theorem State.putSpare_jobs (s : State) (n : Nat) (x : Spare) : (s.putSpare n x).jobs = s.jobs := rfl
@[simp] theorem State.putSpare_dsp (s : State) (n : Nat) (x : Spare) : (s.putSpare n x).dsp = s.dsp := rfl
@[simp] theorem State.putSpare_ldk (s : State) (n : Nat) (x : Spare) : (s.putSpare n x).ldk = s.ldk := rfl
@[simp] theorem State.putSpare_units (s : State) (n : Nat) (x : Spare) : (s.putSpare n x).units = s.units := rfl
@[simp] theorem State.putSpare_evc (s : State) (n : Nat) (x : Spare) : (s.putSpare n x).evc = s.evc := rfl
@[simp] theorem State.putSpare_mir (s : State) (n : Nat) (x : Spare) : (s.putSpare n x).mir = s.mir := rfl
@[simp] theorem State.putSpare_chk (s : State) (n : Nat) (x : Spare) : (s.putSpare n x).chk = s.chk := rfl
@[simp] theorem State.putSpare_exts (s : State) (n : Nat) (x : Spare) : (s.putSpare n x).exts = s.exts := rfl
@[simp] theorem State.putSpare_dbg (s : State) (n : Nat) (x : Spare) : (s.putSpare n x).dbg = s.dbg := rfl
@[simp] theorem State.putSpare_mcs (s : State) (n : Nat) (x : Spare) : (s.putSpare n x).mcs = s.mcs := rfl
@[simp] theorem State.putSpare_life (s : State) (n : Nat) (x : Spare) : (s.putSpare n x).life = s.life := rfl
@[simp] theorem State.putSpare_aon (s : State) (n : Nat) (x : Spare) : (s.putSpare n x).aon = s.aon := rfl
@[simp] theorem State.putSpare_draws (s : State) (n : Nat) (x : Spare) : (s.putSpare n x).draws = s.draws := rfl
@[simp] theorem State.putSpare_eng (s : State) (n : Nat) (x : Spare) (q : Nat) : (s.putSpare n x).eng q = s.eng q := rfl
@[simp] theorem State.putSpare_ctx (s : State) (n : Nat) (x : Spare) (q j : Nat) : (s.putSpare n x).ctx q j = s.ctx q j := rfl
@[simp] theorem State.putSpare_log (s : State) (n : Nat) (x : Spare) (q : Nat) : (s.putSpare n x).log q = s.log q := rfl
@[simp] theorem State.putSpare_inst (s : State) (n : Nat) (x : Spare) (q : Nat) : (s.putSpare n x).inst q = s.inst q := rfl
@[simp] theorem State.putSpare_chan (s : State) (n : Nat) (x : Spare) (q : Nat) : (s.putSpare n x).chan q = s.chan q := rfl
@[simp] theorem State.putSpare_job (s : State) (n : Nat) (x : Spare) (q : Nat) : (s.putSpare n x).job q = s.job q := rfl
@[simp] theorem State.putSpare_port (s : State) (n : Nat) (x : Spare) (q : Nat) : (s.putSpare n x).port q = s.port q := rfl
@[simp] theorem State.putSpare_slot (s : State) (n : Nat) (x : Spare) (q : Nat) : (s.putSpare n x).slot q = s.slot q := rfl
@[simp] theorem State.putSpare_src (s : State) (n : Nat) (x : Spare) (q : Nat) : (s.putSpare n x).src q = s.src q := rfl
@[simp] theorem State.putSpare_ext (s : State) (n : Nat) (x : Spare) (q : Nat) : (s.putSpare n x).ext q = s.ext q := rfl
@[simp] theorem State.putSpare_stand (s : State) (n : Nat) (x : Spare) (q : Nat) : (s.putSpare n x).stand q = s.stand q := rfl
@[simp] theorem State.putSpare_lane (s : State) (n : Nat) (x : Spare) (q : Nat) : (s.putSpare n x).lane q = s.lane q := rfl
@[simp] theorem State.putSpare_gran (s : State) (n : Nat) (x : Spare) (q : Nat) : (s.putSpare n x).gran q = s.gran q := rfl
@[simp] theorem State.putSpare_deck (s : State) (n : Nat) (x : Spare) (q : Nat) : (s.putSpare n x).deck q = s.deck q := rfl
@[simp] theorem State.putSpare_spare_self (s : State) (n : Nat) (x : Spare) : (s.putSpare n x).spare n = x := by simp [State.spare, State.putSpare]
theorem State.putSpare_spare_ne (s : State) (n : Nat) (x : Spare) {m : Nat} (h : m ≠ n) : (s.putSpare n x).spare m = s.spare m := Tab.get_put_ne _ _ x h

/-! ## putExt -/

@[simp] theorem State.putExt_now (s : State) (n : Nat) (x : ExtPort) : (s.putExt n x).now = s.now := rfl
@[simp] theorem State.putExt_pending (s : State) (n : Nat) (x : ExtPort) : (s.putExt n x).pending = s.pending := rfl
@[simp] theorem State.putExt_out (s : State) (n : Nat) (x : ExtPort) : (s.putExt n x).out = s.out := rfl
@[simp] theorem State.putExt_engines (s : State) (n : Nat) (x : ExtPort) : (s.putExt n x).engines = s.engines := rfl
@[simp] theorem State.putExt_logs (s : State) (n : Nat) (x : ExtPort) : (s.putExt n x).logs = s.logs := rfl
@[simp] theorem State.putExt_glb (s : State) (n : Nat) (x : ExtPort) : (s.putExt n x).glb = s.glb := rfl
@[simp] theorem State.putExt_idx (s : State) (n : Nat) (x : ExtPort) : (s.putExt n x).idx = s.idx := rfl
@[simp] theorem State.putExt_dbgIdx (s : State) (n : Nat) (x : ExtPort) : (s.putExt n x).dbgIdx = s.dbgIdx := rfl
@[simp] theorem State.putExt_ports (s : State) (n : Nat) (x : ExtPort) : (s.putExt n x).ports = s.ports := rfl
@[simp] theorem State.putExt_steer (s : State) (n : Nat) (x : ExtPort) : (s.putExt n x).steer = s.steer := rfl
@[simp] theorem State.putExt_hostWait (s : State) (n : Nat) (x : ExtPort) : (s.putExt n x).hostWait = s.hostWait := rfl
@[simp] theorem State.putExt_chans (s : State) (n : Nat) (x : ExtPort) : (s.putExt n x).chans = s.chans := rfl
@[simp] theorem State.putExt_insts (s : State) (n : Nat) (x : ExtPort) : (s.putExt n x).insts = s.insts := rfl
@[simp] theorem State.putExt_jobs (s : State) (n : Nat) (x : ExtPort) : (s.putExt n x).jobs = s.jobs := rfl
@[simp] theorem State.putExt_dsp (s : State) (n : Nat) (x : ExtPort) : (s.putExt n x).dsp = s.dsp := rfl
@[simp] theorem State.putExt_ldk (s : State) (n : Nat) (x : ExtPort) : (s.putExt n x).ldk = s.ldk := rfl
@[simp] theorem State.putExt_units (s : State) (n : Nat) (x : ExtPort) : (s.putExt n x).units = s.units := rfl
@[simp] theorem State.putExt_evc (s : State) (n : Nat) (x : ExtPort) : (s.putExt n x).evc = s.evc := rfl
@[simp] theorem State.putExt_mir (s : State) (n : Nat) (x : ExtPort) : (s.putExt n x).mir = s.mir := rfl
@[simp] theorem State.putExt_chk (s : State) (n : Nat) (x : ExtPort) : (s.putExt n x).chk = s.chk := rfl
@[simp] theorem State.putExt_spares (s : State) (n : Nat) (x : ExtPort) : (s.putExt n x).spares = s.spares := rfl
@[simp] theorem State.putExt_dbg (s : State) (n : Nat) (x : ExtPort) : (s.putExt n x).dbg = s.dbg := rfl
@[simp] theorem State.putExt_mcs (s : State) (n : Nat) (x : ExtPort) : (s.putExt n x).mcs = s.mcs := rfl
@[simp] theorem State.putExt_life (s : State) (n : Nat) (x : ExtPort) : (s.putExt n x).life = s.life := rfl
@[simp] theorem State.putExt_aon (s : State) (n : Nat) (x : ExtPort) : (s.putExt n x).aon = s.aon := rfl
@[simp] theorem State.putExt_draws (s : State) (n : Nat) (x : ExtPort) : (s.putExt n x).draws = s.draws := rfl
@[simp] theorem State.putExt_eng (s : State) (n : Nat) (x : ExtPort) (q : Nat) : (s.putExt n x).eng q = s.eng q := rfl
@[simp] theorem State.putExt_ctx (s : State) (n : Nat) (x : ExtPort) (q j : Nat) : (s.putExt n x).ctx q j = s.ctx q j := rfl
@[simp] theorem State.putExt_log (s : State) (n : Nat) (x : ExtPort) (q : Nat) : (s.putExt n x).log q = s.log q := rfl
@[simp] theorem State.putExt_inst (s : State) (n : Nat) (x : ExtPort) (q : Nat) : (s.putExt n x).inst q = s.inst q := rfl
@[simp] theorem State.putExt_chan (s : State) (n : Nat) (x : ExtPort) (q : Nat) : (s.putExt n x).chan q = s.chan q := rfl
@[simp] theorem State.putExt_job (s : State) (n : Nat) (x : ExtPort) (q : Nat) : (s.putExt n x).job q = s.job q := rfl
@[simp] theorem State.putExt_port (s : State) (n : Nat) (x : ExtPort) (q : Nat) : (s.putExt n x).port q = s.port q := rfl
@[simp] theorem State.putExt_slot (s : State) (n : Nat) (x : ExtPort) (q : Nat) : (s.putExt n x).slot q = s.slot q := rfl
@[simp] theorem State.putExt_src (s : State) (n : Nat) (x : ExtPort) (q : Nat) : (s.putExt n x).src q = s.src q := rfl
@[simp] theorem State.putExt_spare (s : State) (n : Nat) (x : ExtPort) (q : Nat) : (s.putExt n x).spare q = s.spare q := rfl
@[simp] theorem State.putExt_stand (s : State) (n : Nat) (x : ExtPort) (q : Nat) : (s.putExt n x).stand q = s.stand q := rfl
@[simp] theorem State.putExt_lane (s : State) (n : Nat) (x : ExtPort) (q : Nat) : (s.putExt n x).lane q = s.lane q := rfl
@[simp] theorem State.putExt_gran (s : State) (n : Nat) (x : ExtPort) (q : Nat) : (s.putExt n x).gran q = s.gran q := rfl
@[simp] theorem State.putExt_deck (s : State) (n : Nat) (x : ExtPort) (q : Nat) : (s.putExt n x).deck q = s.deck q := rfl
@[simp] theorem State.putExt_ext_self (s : State) (n : Nat) (x : ExtPort) : (s.putExt n x).ext n = x := by simp [State.ext, State.putExt]
theorem State.putExt_ext_ne (s : State) (n : Nat) (x : ExtPort) {m : Nat} (h : m ≠ n) : (s.putExt n x).ext m = s.ext m := Tab.get_put_ne _ _ x h

/-! ## putStand -/

@[simp] theorem State.putStand_now (s : State) (n : Nat) (x : StandQ) : (s.putStand n x).now = s.now := rfl
@[simp] theorem State.putStand_pending (s : State) (n : Nat) (x : StandQ) : (s.putStand n x).pending = s.pending := rfl
@[simp] theorem State.putStand_out (s : State) (n : Nat) (x : StandQ) : (s.putStand n x).out = s.out := rfl
@[simp] theorem State.putStand_engines (s : State) (n : Nat) (x : StandQ) : (s.putStand n x).engines = s.engines := rfl
@[simp] theorem State.putStand_logs (s : State) (n : Nat) (x : StandQ) : (s.putStand n x).logs = s.logs := rfl
@[simp] theorem State.putStand_glb (s : State) (n : Nat) (x : StandQ) : (s.putStand n x).glb = s.glb := rfl
@[simp] theorem State.putStand_idx (s : State) (n : Nat) (x : StandQ) : (s.putStand n x).idx = s.idx := rfl
@[simp] theorem State.putStand_dbgIdx (s : State) (n : Nat) (x : StandQ) : (s.putStand n x).dbgIdx = s.dbgIdx := rfl
@[simp] theorem State.putStand_ports (s : State) (n : Nat) (x : StandQ) : (s.putStand n x).ports = s.ports := rfl
@[simp] theorem State.putStand_steer (s : State) (n : Nat) (x : StandQ) : (s.putStand n x).steer = s.steer := rfl
@[simp] theorem State.putStand_hostWait (s : State) (n : Nat) (x : StandQ) : (s.putStand n x).hostWait = s.hostWait := rfl
@[simp] theorem State.putStand_chans (s : State) (n : Nat) (x : StandQ) : (s.putStand n x).chans = s.chans := rfl
@[simp] theorem State.putStand_insts (s : State) (n : Nat) (x : StandQ) : (s.putStand n x).insts = s.insts := rfl
@[simp] theorem State.putStand_jobs (s : State) (n : Nat) (x : StandQ) : (s.putStand n x).jobs = s.jobs := rfl
@[simp] theorem State.putStand_ldk (s : State) (n : Nat) (x : StandQ) : (s.putStand n x).ldk = s.ldk := rfl
@[simp] theorem State.putStand_units (s : State) (n : Nat) (x : StandQ) : (s.putStand n x).units = s.units := rfl
@[simp] theorem State.putStand_evc (s : State) (n : Nat) (x : StandQ) : (s.putStand n x).evc = s.evc := rfl
@[simp] theorem State.putStand_mir (s : State) (n : Nat) (x : StandQ) : (s.putStand n x).mir = s.mir := rfl
@[simp] theorem State.putStand_chk (s : State) (n : Nat) (x : StandQ) : (s.putStand n x).chk = s.chk := rfl
@[simp] theorem State.putStand_spares (s : State) (n : Nat) (x : StandQ) : (s.putStand n x).spares = s.spares := rfl
@[simp] theorem State.putStand_exts (s : State) (n : Nat) (x : StandQ) : (s.putStand n x).exts = s.exts := rfl
@[simp] theorem State.putStand_dbg (s : State) (n : Nat) (x : StandQ) : (s.putStand n x).dbg = s.dbg := rfl
@[simp] theorem State.putStand_mcs (s : State) (n : Nat) (x : StandQ) : (s.putStand n x).mcs = s.mcs := rfl
@[simp] theorem State.putStand_life (s : State) (n : Nat) (x : StandQ) : (s.putStand n x).life = s.life := rfl
@[simp] theorem State.putStand_aon (s : State) (n : Nat) (x : StandQ) : (s.putStand n x).aon = s.aon := rfl
@[simp] theorem State.putStand_draws (s : State) (n : Nat) (x : StandQ) : (s.putStand n x).draws = s.draws := rfl
@[simp] theorem State.putStand_eng (s : State) (n : Nat) (x : StandQ) (q : Nat) : (s.putStand n x).eng q = s.eng q := rfl
@[simp] theorem State.putStand_ctx (s : State) (n : Nat) (x : StandQ) (q j : Nat) : (s.putStand n x).ctx q j = s.ctx q j := rfl
@[simp] theorem State.putStand_log (s : State) (n : Nat) (x : StandQ) (q : Nat) : (s.putStand n x).log q = s.log q := rfl
@[simp] theorem State.putStand_inst (s : State) (n : Nat) (x : StandQ) (q : Nat) : (s.putStand n x).inst q = s.inst q := rfl
@[simp] theorem State.putStand_chan (s : State) (n : Nat) (x : StandQ) (q : Nat) : (s.putStand n x).chan q = s.chan q := rfl
@[simp] theorem State.putStand_job (s : State) (n : Nat) (x : StandQ) (q : Nat) : (s.putStand n x).job q = s.job q := rfl
@[simp] theorem State.putStand_port (s : State) (n : Nat) (x : StandQ) (q : Nat) : (s.putStand n x).port q = s.port q := rfl
@[simp] theorem State.putStand_slot (s : State) (n : Nat) (x : StandQ) (q : Nat) : (s.putStand n x).slot q = s.slot q := rfl
@[simp] theorem State.putStand_src (s : State) (n : Nat) (x : StandQ) (q : Nat) : (s.putStand n x).src q = s.src q := rfl
@[simp] theorem State.putStand_spare (s : State) (n : Nat) (x : StandQ) (q : Nat) : (s.putStand n x).spare q = s.spare q := rfl
@[simp] theorem State.putStand_ext (s : State) (n : Nat) (x : StandQ) (q : Nat) : (s.putStand n x).ext q = s.ext q := rfl
@[simp] theorem State.putStand_lane (s : State) (n : Nat) (x : StandQ) (q : Nat) : (s.putStand n x).lane q = s.lane q := rfl
@[simp] theorem State.putStand_gran (s : State) (n : Nat) (x : StandQ) (q : Nat) : (s.putStand n x).gran q = s.gran q := rfl
@[simp] theorem State.putStand_deck (s : State) (n : Nat) (x : StandQ) (q : Nat) : (s.putStand n x).deck q = s.deck q := rfl
@[simp] theorem State.putStand_stand_self (s : State) (n : Nat) (x : StandQ) : (s.putStand n x).stand n = x := by simp [State.stand, State.putStand]
theorem State.putStand_stand_ne (s : State) (n : Nat) (x : StandQ) {m : Nat} (h : m ≠ n) : (s.putStand n x).stand m = s.stand m := Tab.get_put_ne _ _ x h

/-! ## putLane -/

@[simp] theorem State.putLane_now (s : State) (n : Nat) (x : Lane) : (s.putLane n x).now = s.now := rfl
@[simp] theorem State.putLane_pending (s : State) (n : Nat) (x : Lane) : (s.putLane n x).pending = s.pending := rfl
@[simp] theorem State.putLane_out (s : State) (n : Nat) (x : Lane) : (s.putLane n x).out = s.out := rfl
@[simp] theorem State.putLane_engines (s : State) (n : Nat) (x : Lane) : (s.putLane n x).engines = s.engines := rfl
@[simp] theorem State.putLane_logs (s : State) (n : Nat) (x : Lane) : (s.putLane n x).logs = s.logs := rfl
@[simp] theorem State.putLane_glb (s : State) (n : Nat) (x : Lane) : (s.putLane n x).glb = s.glb := rfl
@[simp] theorem State.putLane_idx (s : State) (n : Nat) (x : Lane) : (s.putLane n x).idx = s.idx := rfl
@[simp] theorem State.putLane_dbgIdx (s : State) (n : Nat) (x : Lane) : (s.putLane n x).dbgIdx = s.dbgIdx := rfl
@[simp] theorem State.putLane_ports (s : State) (n : Nat) (x : Lane) : (s.putLane n x).ports = s.ports := rfl
@[simp] theorem State.putLane_steer (s : State) (n : Nat) (x : Lane) : (s.putLane n x).steer = s.steer := rfl
@[simp] theorem State.putLane_hostWait (s : State) (n : Nat) (x : Lane) : (s.putLane n x).hostWait = s.hostWait := rfl
@[simp] theorem State.putLane_chans (s : State) (n : Nat) (x : Lane) : (s.putLane n x).chans = s.chans := rfl
@[simp] theorem State.putLane_insts (s : State) (n : Nat) (x : Lane) : (s.putLane n x).insts = s.insts := rfl
@[simp] theorem State.putLane_jobs (s : State) (n : Nat) (x : Lane) : (s.putLane n x).jobs = s.jobs := rfl
@[simp] theorem State.putLane_dsp (s : State) (n : Nat) (x : Lane) : (s.putLane n x).dsp = s.dsp := rfl
@[simp] theorem State.putLane_ldk (s : State) (n : Nat) (x : Lane) : (s.putLane n x).ldk = s.ldk := rfl
@[simp] theorem State.putLane_units (s : State) (n : Nat) (x : Lane) : (s.putLane n x).units = s.units := rfl
@[simp] theorem State.putLane_evc (s : State) (n : Nat) (x : Lane) : (s.putLane n x).evc = s.evc := rfl
@[simp] theorem State.putLane_chk (s : State) (n : Nat) (x : Lane) : (s.putLane n x).chk = s.chk := rfl
@[simp] theorem State.putLane_spares (s : State) (n : Nat) (x : Lane) : (s.putLane n x).spares = s.spares := rfl
@[simp] theorem State.putLane_exts (s : State) (n : Nat) (x : Lane) : (s.putLane n x).exts = s.exts := rfl
@[simp] theorem State.putLane_dbg (s : State) (n : Nat) (x : Lane) : (s.putLane n x).dbg = s.dbg := rfl
@[simp] theorem State.putLane_mcs (s : State) (n : Nat) (x : Lane) : (s.putLane n x).mcs = s.mcs := rfl
@[simp] theorem State.putLane_life (s : State) (n : Nat) (x : Lane) : (s.putLane n x).life = s.life := rfl
@[simp] theorem State.putLane_aon (s : State) (n : Nat) (x : Lane) : (s.putLane n x).aon = s.aon := rfl
@[simp] theorem State.putLane_draws (s : State) (n : Nat) (x : Lane) : (s.putLane n x).draws = s.draws := rfl
@[simp] theorem State.putLane_eng (s : State) (n : Nat) (x : Lane) (q : Nat) : (s.putLane n x).eng q = s.eng q := rfl
@[simp] theorem State.putLane_ctx (s : State) (n : Nat) (x : Lane) (q j : Nat) : (s.putLane n x).ctx q j = s.ctx q j := rfl
@[simp] theorem State.putLane_log (s : State) (n : Nat) (x : Lane) (q : Nat) : (s.putLane n x).log q = s.log q := rfl
@[simp] theorem State.putLane_inst (s : State) (n : Nat) (x : Lane) (q : Nat) : (s.putLane n x).inst q = s.inst q := rfl
@[simp] theorem State.putLane_chan (s : State) (n : Nat) (x : Lane) (q : Nat) : (s.putLane n x).chan q = s.chan q := rfl
@[simp] theorem State.putLane_job (s : State) (n : Nat) (x : Lane) (q : Nat) : (s.putLane n x).job q = s.job q := rfl
@[simp] theorem State.putLane_port (s : State) (n : Nat) (x : Lane) (q : Nat) : (s.putLane n x).port q = s.port q := rfl
@[simp] theorem State.putLane_slot (s : State) (n : Nat) (x : Lane) (q : Nat) : (s.putLane n x).slot q = s.slot q := rfl
@[simp] theorem State.putLane_src (s : State) (n : Nat) (x : Lane) (q : Nat) : (s.putLane n x).src q = s.src q := rfl
@[simp] theorem State.putLane_spare (s : State) (n : Nat) (x : Lane) (q : Nat) : (s.putLane n x).spare q = s.spare q := rfl
@[simp] theorem State.putLane_ext (s : State) (n : Nat) (x : Lane) (q : Nat) : (s.putLane n x).ext q = s.ext q := rfl
@[simp] theorem State.putLane_stand (s : State) (n : Nat) (x : Lane) (q : Nat) : (s.putLane n x).stand q = s.stand q := rfl
@[simp] theorem State.putLane_gran (s : State) (n : Nat) (x : Lane) (q : Nat) : (s.putLane n x).gran q = s.gran q := rfl
@[simp] theorem State.putLane_deck (s : State) (n : Nat) (x : Lane) (q : Nat) : (s.putLane n x).deck q = s.deck q := rfl
@[simp] theorem State.putLane_lane_self (s : State) (n : Nat) (x : Lane) : (s.putLane n x).lane n = x := by simp [State.lane, State.putLane]
theorem State.putLane_lane_ne (s : State) (n : Nat) (x : Lane) {m : Nat} (h : m ≠ n) : (s.putLane n x).lane m = s.lane m := Tab.get_put_ne _ _ x h

/-! ## putGran -/

@[simp] theorem State.putGran_now (s : State) (n : Nat) (x : Gran) : (s.putGran n x).now = s.now := rfl
@[simp] theorem State.putGran_pending (s : State) (n : Nat) (x : Gran) : (s.putGran n x).pending = s.pending := rfl
@[simp] theorem State.putGran_out (s : State) (n : Nat) (x : Gran) : (s.putGran n x).out = s.out := rfl
@[simp] theorem State.putGran_engines (s : State) (n : Nat) (x : Gran) : (s.putGran n x).engines = s.engines := rfl
@[simp] theorem State.putGran_logs (s : State) (n : Nat) (x : Gran) : (s.putGran n x).logs = s.logs := rfl
@[simp] theorem State.putGran_glb (s : State) (n : Nat) (x : Gran) : (s.putGran n x).glb = s.glb := rfl
@[simp] theorem State.putGran_idx (s : State) (n : Nat) (x : Gran) : (s.putGran n x).idx = s.idx := rfl
@[simp] theorem State.putGran_dbgIdx (s : State) (n : Nat) (x : Gran) : (s.putGran n x).dbgIdx = s.dbgIdx := rfl
@[simp] theorem State.putGran_ports (s : State) (n : Nat) (x : Gran) : (s.putGran n x).ports = s.ports := rfl
@[simp] theorem State.putGran_steer (s : State) (n : Nat) (x : Gran) : (s.putGran n x).steer = s.steer := rfl
@[simp] theorem State.putGran_hostWait (s : State) (n : Nat) (x : Gran) : (s.putGran n x).hostWait = s.hostWait := rfl
@[simp] theorem State.putGran_chans (s : State) (n : Nat) (x : Gran) : (s.putGran n x).chans = s.chans := rfl
@[simp] theorem State.putGran_insts (s : State) (n : Nat) (x : Gran) : (s.putGran n x).insts = s.insts := rfl
@[simp] theorem State.putGran_jobs (s : State) (n : Nat) (x : Gran) : (s.putGran n x).jobs = s.jobs := rfl
@[simp] theorem State.putGran_dsp (s : State) (n : Nat) (x : Gran) : (s.putGran n x).dsp = s.dsp := rfl
@[simp] theorem State.putGran_units (s : State) (n : Nat) (x : Gran) : (s.putGran n x).units = s.units := rfl
@[simp] theorem State.putGran_evc (s : State) (n : Nat) (x : Gran) : (s.putGran n x).evc = s.evc := rfl
@[simp] theorem State.putGran_mir (s : State) (n : Nat) (x : Gran) : (s.putGran n x).mir = s.mir := rfl
@[simp] theorem State.putGran_chk (s : State) (n : Nat) (x : Gran) : (s.putGran n x).chk = s.chk := rfl
@[simp] theorem State.putGran_spares (s : State) (n : Nat) (x : Gran) : (s.putGran n x).spares = s.spares := rfl
@[simp] theorem State.putGran_exts (s : State) (n : Nat) (x : Gran) : (s.putGran n x).exts = s.exts := rfl
@[simp] theorem State.putGran_dbg (s : State) (n : Nat) (x : Gran) : (s.putGran n x).dbg = s.dbg := rfl
@[simp] theorem State.putGran_mcs (s : State) (n : Nat) (x : Gran) : (s.putGran n x).mcs = s.mcs := rfl
@[simp] theorem State.putGran_life (s : State) (n : Nat) (x : Gran) : (s.putGran n x).life = s.life := rfl
@[simp] theorem State.putGran_aon (s : State) (n : Nat) (x : Gran) : (s.putGran n x).aon = s.aon := rfl
@[simp] theorem State.putGran_draws (s : State) (n : Nat) (x : Gran) : (s.putGran n x).draws = s.draws := rfl
@[simp] theorem State.putGran_eng (s : State) (n : Nat) (x : Gran) (q : Nat) : (s.putGran n x).eng q = s.eng q := rfl
@[simp] theorem State.putGran_ctx (s : State) (n : Nat) (x : Gran) (q j : Nat) : (s.putGran n x).ctx q j = s.ctx q j := rfl
@[simp] theorem State.putGran_log (s : State) (n : Nat) (x : Gran) (q : Nat) : (s.putGran n x).log q = s.log q := rfl
@[simp] theorem State.putGran_inst (s : State) (n : Nat) (x : Gran) (q : Nat) : (s.putGran n x).inst q = s.inst q := rfl
@[simp] theorem State.putGran_chan (s : State) (n : Nat) (x : Gran) (q : Nat) : (s.putGran n x).chan q = s.chan q := rfl
@[simp] theorem State.putGran_job (s : State) (n : Nat) (x : Gran) (q : Nat) : (s.putGran n x).job q = s.job q := rfl
@[simp] theorem State.putGran_port (s : State) (n : Nat) (x : Gran) (q : Nat) : (s.putGran n x).port q = s.port q := rfl
@[simp] theorem State.putGran_slot (s : State) (n : Nat) (x : Gran) (q : Nat) : (s.putGran n x).slot q = s.slot q := rfl
@[simp] theorem State.putGran_src (s : State) (n : Nat) (x : Gran) (q : Nat) : (s.putGran n x).src q = s.src q := rfl
@[simp] theorem State.putGran_spare (s : State) (n : Nat) (x : Gran) (q : Nat) : (s.putGran n x).spare q = s.spare q := rfl
@[simp] theorem State.putGran_ext (s : State) (n : Nat) (x : Gran) (q : Nat) : (s.putGran n x).ext q = s.ext q := rfl
@[simp] theorem State.putGran_stand (s : State) (n : Nat) (x : Gran) (q : Nat) : (s.putGran n x).stand q = s.stand q := rfl
@[simp] theorem State.putGran_lane (s : State) (n : Nat) (x : Gran) (q : Nat) : (s.putGran n x).lane q = s.lane q := rfl
@[simp] theorem State.putGran_deck (s : State) (n : Nat) (x : Gran) (q : Nat) : (s.putGran n x).deck q = s.deck q := rfl
@[simp] theorem State.putGran_gran_self (s : State) (n : Nat) (x : Gran) : (s.putGran n x).gran n = x := by simp [State.gran, State.putGran]
theorem State.putGran_gran_ne (s : State) (n : Nat) (x : Gran) {m : Nat} (h : m ≠ n) : (s.putGran n x).gran m = s.gran m := Tab.get_put_ne _ _ x h

/-! ## putDeck -/

@[simp] theorem State.putDeck_now (s : State) (a : Option (Nat × Nat)) (w : Nat) (v : Word) : (s.putDeck a w v).now = s.now := rfl
@[simp] theorem State.putDeck_pending (s : State) (a : Option (Nat × Nat)) (w : Nat) (v : Word) : (s.putDeck a w v).pending = s.pending := rfl
@[simp] theorem State.putDeck_out (s : State) (a : Option (Nat × Nat)) (w : Nat) (v : Word) : (s.putDeck a w v).out = s.out := rfl
@[simp] theorem State.putDeck_engines (s : State) (a : Option (Nat × Nat)) (w : Nat) (v : Word) : (s.putDeck a w v).engines = s.engines := rfl
@[simp] theorem State.putDeck_logs (s : State) (a : Option (Nat × Nat)) (w : Nat) (v : Word) : (s.putDeck a w v).logs = s.logs := rfl
@[simp] theorem State.putDeck_glb (s : State) (a : Option (Nat × Nat)) (w : Nat) (v : Word) : (s.putDeck a w v).glb = s.glb := rfl
@[simp] theorem State.putDeck_idx (s : State) (a : Option (Nat × Nat)) (w : Nat) (v : Word) : (s.putDeck a w v).idx = s.idx := rfl
@[simp] theorem State.putDeck_dbgIdx (s : State) (a : Option (Nat × Nat)) (w : Nat) (v : Word) : (s.putDeck a w v).dbgIdx = s.dbgIdx := rfl
@[simp] theorem State.putDeck_ports (s : State) (a : Option (Nat × Nat)) (w : Nat) (v : Word) : (s.putDeck a w v).ports = s.ports := rfl
@[simp] theorem State.putDeck_steer (s : State) (a : Option (Nat × Nat)) (w : Nat) (v : Word) : (s.putDeck a w v).steer = s.steer := rfl
@[simp] theorem State.putDeck_hostWait (s : State) (a : Option (Nat × Nat)) (w : Nat) (v : Word) : (s.putDeck a w v).hostWait = s.hostWait := rfl
@[simp] theorem State.putDeck_chans (s : State) (a : Option (Nat × Nat)) (w : Nat) (v : Word) : (s.putDeck a w v).chans = s.chans := rfl
@[simp] theorem State.putDeck_insts (s : State) (a : Option (Nat × Nat)) (w : Nat) (v : Word) : (s.putDeck a w v).insts = s.insts := rfl
@[simp] theorem State.putDeck_jobs (s : State) (a : Option (Nat × Nat)) (w : Nat) (v : Word) : (s.putDeck a w v).jobs = s.jobs := rfl
@[simp] theorem State.putDeck_dsp (s : State) (a : Option (Nat × Nat)) (w : Nat) (v : Word) : (s.putDeck a w v).dsp = s.dsp := rfl
@[simp] theorem State.putDeck_units (s : State) (a : Option (Nat × Nat)) (w : Nat) (v : Word) : (s.putDeck a w v).units = s.units := rfl
@[simp] theorem State.putDeck_evc (s : State) (a : Option (Nat × Nat)) (w : Nat) (v : Word) : (s.putDeck a w v).evc = s.evc := rfl
@[simp] theorem State.putDeck_mir (s : State) (a : Option (Nat × Nat)) (w : Nat) (v : Word) : (s.putDeck a w v).mir = s.mir := rfl
@[simp] theorem State.putDeck_chk (s : State) (a : Option (Nat × Nat)) (w : Nat) (v : Word) : (s.putDeck a w v).chk = s.chk := rfl
@[simp] theorem State.putDeck_spares (s : State) (a : Option (Nat × Nat)) (w : Nat) (v : Word) : (s.putDeck a w v).spares = s.spares := rfl
@[simp] theorem State.putDeck_exts (s : State) (a : Option (Nat × Nat)) (w : Nat) (v : Word) : (s.putDeck a w v).exts = s.exts := rfl
@[simp] theorem State.putDeck_dbg (s : State) (a : Option (Nat × Nat)) (w : Nat) (v : Word) : (s.putDeck a w v).dbg = s.dbg := rfl
@[simp] theorem State.putDeck_mcs (s : State) (a : Option (Nat × Nat)) (w : Nat) (v : Word) : (s.putDeck a w v).mcs = s.mcs := rfl
@[simp] theorem State.putDeck_life (s : State) (a : Option (Nat × Nat)) (w : Nat) (v : Word) : (s.putDeck a w v).life = s.life := rfl
@[simp] theorem State.putDeck_aon (s : State) (a : Option (Nat × Nat)) (w : Nat) (v : Word) : (s.putDeck a w v).aon = s.aon := rfl
@[simp] theorem State.putDeck_draws (s : State) (a : Option (Nat × Nat)) (w : Nat) (v : Word) : (s.putDeck a w v).draws = s.draws := rfl
@[simp] theorem State.putDeck_eng (s : State) (a : Option (Nat × Nat)) (w : Nat) (v : Word) (q : Nat) : (s.putDeck a w v).eng q = s.eng q := rfl
@[simp] theorem State.putDeck_ctx (s : State) (a : Option (Nat × Nat)) (w : Nat) (v : Word) (q j : Nat) : (s.putDeck a w v).ctx q j = s.ctx q j := rfl
@[simp] theorem State.putDeck_log (s : State) (a : Option (Nat × Nat)) (w : Nat) (v : Word) (q : Nat) : (s.putDeck a w v).log q = s.log q := rfl
@[simp] theorem State.putDeck_inst (s : State) (a : Option (Nat × Nat)) (w : Nat) (v : Word) (q : Nat) : (s.putDeck a w v).inst q = s.inst q := rfl
@[simp] theorem State.putDeck_chan (s : State) (a : Option (Nat × Nat)) (w : Nat) (v : Word) (q : Nat) : (s.putDeck a w v).chan q = s.chan q := rfl
@[simp] theorem State.putDeck_job (s : State) (a : Option (Nat × Nat)) (w : Nat) (v : Word) (q : Nat) : (s.putDeck a w v).job q = s.job q := rfl
@[simp] theorem State.putDeck_port (s : State) (a : Option (Nat × Nat)) (w : Nat) (v : Word) (q : Nat) : (s.putDeck a w v).port q = s.port q := rfl
@[simp] theorem State.putDeck_slot (s : State) (a : Option (Nat × Nat)) (w : Nat) (v : Word) (q : Nat) : (s.putDeck a w v).slot q = s.slot q := rfl
@[simp] theorem State.putDeck_src (s : State) (a : Option (Nat × Nat)) (w : Nat) (v : Word) (q : Nat) : (s.putDeck a w v).src q = s.src q := rfl
@[simp] theorem State.putDeck_spare (s : State) (a : Option (Nat × Nat)) (w : Nat) (v : Word) (q : Nat) : (s.putDeck a w v).spare q = s.spare q := rfl
@[simp] theorem State.putDeck_ext (s : State) (a : Option (Nat × Nat)) (w : Nat) (v : Word) (q : Nat) : (s.putDeck a w v).ext q = s.ext q := rfl
@[simp] theorem State.putDeck_stand (s : State) (a : Option (Nat × Nat)) (w : Nat) (v : Word) (q : Nat) : (s.putDeck a w v).stand q = s.stand q := rfl
@[simp] theorem State.putDeck_lane (s : State) (a : Option (Nat × Nat)) (w : Nat) (v : Word) (q : Nat) : (s.putDeck a w v).lane q = s.lane q := rfl
@[simp] theorem State.putDeck_gran (s : State) (a : Option (Nat × Nat)) (w : Nat) (v : Word) (q : Nat) : (s.putDeck a w v).gran q = s.gran q := rfl
theorem State.putDeck_deck (s : State) (a : Option (Nat × Nat)) (w : Nat) (v : Word) (q : Nat) :
    (s.putDeck a w v).deck q = if q = w then v else s.deck q := Tab.get_set _ _ _ _ _
theorem State.putDeck_canonical (s : State) (a : Option (Nat × Nat)) (w : Nat) (v : Word)
    (h : Tab.canonical wordDflt s.ldk.mem = true) : Tab.canonical wordDflt (s.putDeck a w v).ldk.mem = true := Tab.canonical_set _ _ _ _ h

/-! ## emit -/

@[simp] theorem State.emit_now (s : State) (b : Beat) : (s.emit b).now = s.now := rfl
@[simp] theorem State.emit_pending (s : State) (b : Beat) : (s.emit b).pending = s.pending := rfl
@[simp] theorem State.emit_engines (s : State) (b : Beat) : (s.emit b).engines = s.engines := rfl
@[simp] theorem State.emit_logs (s : State) (b : Beat) : (s.emit b).logs = s.logs := rfl
@[simp] theorem State.emit_glb (s : State) (b : Beat) : (s.emit b).glb = s.glb := rfl
@[simp] theorem State.emit_idx (s : State) (b : Beat) : (s.emit b).idx = s.idx := rfl
@[simp] theorem State.emit_dbgIdx (s : State) (b : Beat) : (s.emit b).dbgIdx = s.dbgIdx := rfl
@[simp] theorem State.emit_ports (s : State) (b : Beat) : (s.emit b).ports = s.ports := rfl
@[simp] theorem State.emit_steer (s : State) (b : Beat) : (s.emit b).steer = s.steer := rfl
@[simp] theorem State.emit_hostWait (s : State) (b : Beat) : (s.emit b).hostWait = s.hostWait := rfl
@[simp] theorem State.emit_chans (s : State) (b : Beat) : (s.emit b).chans = s.chans := rfl
@[simp] theorem State.emit_insts (s : State) (b : Beat) : (s.emit b).insts = s.insts := rfl
@[simp] theorem State.emit_jobs (s : State) (b : Beat) : (s.emit b).jobs = s.jobs := rfl
@[simp] theorem State.emit_dsp (s : State) (b : Beat) : (s.emit b).dsp = s.dsp := rfl
@[simp] theorem State.emit_ldk (s : State) (b : Beat) : (s.emit b).ldk = s.ldk := rfl
@[simp] theorem State.emit_units (s : State) (b : Beat) : (s.emit b).units = s.units := rfl
@[simp] theorem State.emit_evc (s : State) (b : Beat) : (s.emit b).evc = s.evc := rfl
@[simp] theorem State.emit_mir (s : State) (b : Beat) : (s.emit b).mir = s.mir := rfl
@[simp] theorem State.emit_chk (s : State) (b : Beat) : (s.emit b).chk = s.chk := rfl
@[simp] theorem State.emit_spares (s : State) (b : Beat) : (s.emit b).spares = s.spares := rfl
@[simp] theorem State.emit_exts (s : State) (b : Beat) : (s.emit b).exts = s.exts := rfl
@[simp] theorem State.emit_dbg (s : State) (b : Beat) : (s.emit b).dbg = s.dbg := rfl
@[simp] theorem State.emit_mcs (s : State) (b : Beat) : (s.emit b).mcs = s.mcs := rfl
@[simp] theorem State.emit_life (s : State) (b : Beat) : (s.emit b).life = s.life := rfl
@[simp] theorem State.emit_aon (s : State) (b : Beat) : (s.emit b).aon = s.aon := rfl
@[simp] theorem State.emit_draws (s : State) (b : Beat) : (s.emit b).draws = s.draws := rfl
@[simp] theorem State.emit_eng (s : State) (b : Beat) (q : Nat) : (s.emit b).eng q = s.eng q := rfl
@[simp] theorem State.emit_ctx (s : State) (b : Beat) (q j : Nat) : (s.emit b).ctx q j = s.ctx q j := rfl
@[simp] theorem State.emit_log (s : State) (b : Beat) (q : Nat) : (s.emit b).log q = s.log q := rfl
@[simp] theorem State.emit_inst (s : State) (b : Beat) (q : Nat) : (s.emit b).inst q = s.inst q := rfl
@[simp] theorem State.emit_chan (s : State) (b : Beat) (q : Nat) : (s.emit b).chan q = s.chan q := rfl
@[simp] theorem State.emit_job (s : State) (b : Beat) (q : Nat) : (s.emit b).job q = s.job q := rfl
@[simp] theorem State.emit_port (s : State) (b : Beat) (q : Nat) : (s.emit b).port q = s.port q := rfl
@[simp] theorem State.emit_slot (s : State) (b : Beat) (q : Nat) : (s.emit b).slot q = s.slot q := rfl
@[simp] theorem State.emit_src (s : State) (b : Beat) (q : Nat) : (s.emit b).src q = s.src q := rfl
@[simp] theorem State.emit_spare (s : State) (b : Beat) (q : Nat) : (s.emit b).spare q = s.spare q := rfl
@[simp] theorem State.emit_ext (s : State) (b : Beat) (q : Nat) : (s.emit b).ext q = s.ext q := rfl
@[simp] theorem State.emit_stand (s : State) (b : Beat) (q : Nat) : (s.emit b).stand q = s.stand q := rfl
@[simp] theorem State.emit_lane (s : State) (b : Beat) (q : Nat) : (s.emit b).lane q = s.lane q := rfl
@[simp] theorem State.emit_gran (s : State) (b : Beat) (q : Nat) : (s.emit b).gran q = s.gran q := rfl
@[simp] theorem State.emit_deck (s : State) (b : Beat) (q : Nat) : (s.emit b).deck q = s.deck q := rfl

/-! ## quietOut -/

@[simp] theorem State.quietOut_now (s : State) : s.quietOut.now = s.now := rfl
@[simp] theorem State.quietOut_pending (s : State) : s.quietOut.pending = s.pending := rfl
@[simp] theorem State.quietOut_engines (s : State) : s.quietOut.engines = s.engines := rfl
@[simp] theorem State.quietOut_logs (s : State) : s.quietOut.logs = s.logs := rfl
@[simp] theorem State.quietOut_glb (s : State) : s.quietOut.glb = s.glb := rfl
@[simp] theorem State.quietOut_idx (s : State) : s.quietOut.idx = s.idx := rfl
@[simp] theorem State.quietOut_dbgIdx (s : State) : s.quietOut.dbgIdx = s.dbgIdx := rfl
@[simp] theorem State.quietOut_ports (s : State) : s.quietOut.ports = s.ports := rfl
@[simp] theorem State.quietOut_steer (s : State) : s.quietOut.steer = s.steer := rfl
@[simp] theorem State.quietOut_hostWait (s : State) : s.quietOut.hostWait = s.hostWait := rfl
@[simp] theorem State.quietOut_chans (s : State) : s.quietOut.chans = s.chans := rfl
@[simp] theorem State.quietOut_insts (s : State) : s.quietOut.insts = s.insts := rfl
@[simp] theorem State.quietOut_jobs (s : State) : s.quietOut.jobs = s.jobs := rfl
@[simp] theorem State.quietOut_dsp (s : State) : s.quietOut.dsp = s.dsp := rfl
@[simp] theorem State.quietOut_ldk (s : State) : s.quietOut.ldk = s.ldk := rfl
@[simp] theorem State.quietOut_units (s : State) : s.quietOut.units = s.units := rfl
@[simp] theorem State.quietOut_evc (s : State) : s.quietOut.evc = s.evc := rfl
@[simp] theorem State.quietOut_mir (s : State) : s.quietOut.mir = s.mir := rfl
@[simp] theorem State.quietOut_chk (s : State) : s.quietOut.chk = s.chk := rfl
@[simp] theorem State.quietOut_spares (s : State) : s.quietOut.spares = s.spares := rfl
@[simp] theorem State.quietOut_exts (s : State) : s.quietOut.exts = s.exts := rfl
@[simp] theorem State.quietOut_dbg (s : State) : s.quietOut.dbg = s.dbg := rfl
@[simp] theorem State.quietOut_mcs (s : State) : s.quietOut.mcs = s.mcs := rfl
@[simp] theorem State.quietOut_life (s : State) : s.quietOut.life = s.life := rfl
@[simp] theorem State.quietOut_aon (s : State) : s.quietOut.aon = s.aon := rfl
@[simp] theorem State.quietOut_draws (s : State) : s.quietOut.draws = s.draws := rfl
@[simp] theorem State.quietOut_eng (s : State) (q : Nat) : s.quietOut.eng q = s.eng q := rfl
@[simp] theorem State.quietOut_ctx (s : State) (q j : Nat) : s.quietOut.ctx q j = s.ctx q j := rfl
@[simp] theorem State.quietOut_log (s : State) (q : Nat) : s.quietOut.log q = s.log q := rfl
@[simp] theorem State.quietOut_inst (s : State) (q : Nat) : s.quietOut.inst q = s.inst q := rfl
@[simp] theorem State.quietOut_chan (s : State) (q : Nat) : s.quietOut.chan q = s.chan q := rfl
@[simp] theorem State.quietOut_job (s : State) (q : Nat) : s.quietOut.job q = s.job q := rfl
@[simp] theorem State.quietOut_port (s : State) (q : Nat) : s.quietOut.port q = s.port q := rfl
@[simp] theorem State.quietOut_slot (s : State) (q : Nat) : s.quietOut.slot q = s.slot q := rfl
@[simp] theorem State.quietOut_src (s : State) (q : Nat) : s.quietOut.src q = s.src q := rfl
@[simp] theorem State.quietOut_spare (s : State) (q : Nat) : s.quietOut.spare q = s.spare q := rfl
@[simp] theorem State.quietOut_ext (s : State) (q : Nat) : s.quietOut.ext q = s.ext q := rfl
@[simp] theorem State.quietOut_stand (s : State) (q : Nat) : s.quietOut.stand q = s.stand q := rfl
@[simp] theorem State.quietOut_lane (s : State) (q : Nat) : s.quietOut.lane q = s.lane q := rfl
@[simp] theorem State.quietOut_gran (s : State) (q : Nat) : s.quietOut.gran q = s.gran q := rfl
@[simp] theorem State.quietOut_deck (s : State) (q : Nat) : s.quietOut.deck q = s.deck q := rfl

/-! ## attn -/

@[simp] theorem State.attn_now (s : State) (k : Nat) : (s.attn k).now = s.now := rfl
@[simp] theorem State.attn_pending (s : State) (k : Nat) : (s.attn k).pending = s.pending := rfl
@[simp] theorem State.attn_out (s : State) (k : Nat) : (s.attn k).out = s.out := rfl
@[simp] theorem State.attn_engines (s : State) (k : Nat) : (s.attn k).engines = s.engines := rfl
@[simp] theorem State.attn_logs (s : State) (k : Nat) : (s.attn k).logs = s.logs := rfl
@[simp] theorem State.attn_glb (s : State) (k : Nat) : (s.attn k).glb = s.glb := rfl
@[simp] theorem State.attn_idx (s : State) (k : Nat) : (s.attn k).idx = s.idx := rfl
@[simp] theorem State.attn_dbgIdx (s : State) (k : Nat) : (s.attn k).dbgIdx = s.dbgIdx := rfl
@[simp] theorem State.attn_ports (s : State) (k : Nat) : (s.attn k).ports = s.ports := rfl
@[simp] theorem State.attn_steer (s : State) (k : Nat) : (s.attn k).steer = s.steer := rfl
@[simp] theorem State.attn_hostWait (s : State) (k : Nat) : (s.attn k).hostWait = s.hostWait := rfl
@[simp] theorem State.attn_chans (s : State) (k : Nat) : (s.attn k).chans = s.chans := rfl
@[simp] theorem State.attn_insts (s : State) (k : Nat) : (s.attn k).insts = s.insts := rfl
@[simp] theorem State.attn_jobs (s : State) (k : Nat) : (s.attn k).jobs = s.jobs := rfl
@[simp] theorem State.attn_dsp (s : State) (k : Nat) : (s.attn k).dsp = s.dsp := rfl
@[simp] theorem State.attn_ldk (s : State) (k : Nat) : (s.attn k).ldk = s.ldk := rfl
@[simp] theorem State.attn_units (s : State) (k : Nat) : (s.attn k).units = s.units := rfl
@[simp] theorem State.attn_evc (s : State) (k : Nat) : (s.attn k).evc = s.evc := rfl
@[simp] theorem State.attn_mir (s : State) (k : Nat) : (s.attn k).mir = s.mir := rfl
@[simp] theorem State.attn_spares (s : State) (k : Nat) : (s.attn k).spares = s.spares := rfl
@[simp] theorem State.attn_exts (s : State) (k : Nat) : (s.attn k).exts = s.exts := rfl
@[simp] theorem State.attn_dbg (s : State) (k : Nat) : (s.attn k).dbg = s.dbg := rfl
@[simp] theorem State.attn_mcs (s : State) (k : Nat) : (s.attn k).mcs = s.mcs := rfl
@[simp] theorem State.attn_life (s : State) (k : Nat) : (s.attn k).life = s.life := rfl
@[simp] theorem State.attn_aon (s : State) (k : Nat) : (s.attn k).aon = s.aon := rfl
@[simp] theorem State.attn_draws (s : State) (k : Nat) : (s.attn k).draws = s.draws := rfl
@[simp] theorem State.attn_eng (s : State) (k : Nat) (q : Nat) : (s.attn k).eng q = s.eng q := rfl
@[simp] theorem State.attn_ctx (s : State) (k : Nat) (q j : Nat) : (s.attn k).ctx q j = s.ctx q j := rfl
@[simp] theorem State.attn_log (s : State) (k : Nat) (q : Nat) : (s.attn k).log q = s.log q := rfl
@[simp] theorem State.attn_inst (s : State) (k : Nat) (q : Nat) : (s.attn k).inst q = s.inst q := rfl
@[simp] theorem State.attn_chan (s : State) (k : Nat) (q : Nat) : (s.attn k).chan q = s.chan q := rfl
@[simp] theorem State.attn_job (s : State) (k : Nat) (q : Nat) : (s.attn k).job q = s.job q := rfl
@[simp] theorem State.attn_port (s : State) (k : Nat) (q : Nat) : (s.attn k).port q = s.port q := rfl
@[simp] theorem State.attn_slot (s : State) (k : Nat) (q : Nat) : (s.attn k).slot q = s.slot q := rfl
@[simp] theorem State.attn_src (s : State) (k : Nat) (q : Nat) : (s.attn k).src q = s.src q := rfl
@[simp] theorem State.attn_spare (s : State) (k : Nat) (q : Nat) : (s.attn k).spare q = s.spare q := rfl
@[simp] theorem State.attn_ext (s : State) (k : Nat) (q : Nat) : (s.attn k).ext q = s.ext q := rfl
@[simp] theorem State.attn_stand (s : State) (k : Nat) (q : Nat) : (s.attn k).stand q = s.stand q := rfl
@[simp] theorem State.attn_lane (s : State) (k : Nat) (q : Nat) : (s.attn k).lane q = s.lane q := rfl
@[simp] theorem State.attn_gran (s : State) (k : Nat) (q : Nat) : (s.attn k).gran q = s.gran q := rfl
@[simp] theorem State.attn_deck (s : State) (k : Nat) (q : Nat) : (s.attn k).deck q = s.deck q := rfl

/-! ## tick -/

@[simp] theorem State.tick_pending (s : State) : s.tick.pending = s.pending := rfl
@[simp] theorem State.tick_engines (s : State) : s.tick.engines = s.engines := rfl
@[simp] theorem State.tick_logs (s : State) : s.tick.logs = s.logs := rfl
@[simp] theorem State.tick_glb (s : State) : s.tick.glb = s.glb := rfl
@[simp] theorem State.tick_idx (s : State) : s.tick.idx = s.idx := rfl
@[simp] theorem State.tick_dbgIdx (s : State) : s.tick.dbgIdx = s.dbgIdx := rfl
@[simp] theorem State.tick_ports (s : State) : s.tick.ports = s.ports := rfl
@[simp] theorem State.tick_steer (s : State) : s.tick.steer = s.steer := rfl
@[simp] theorem State.tick_hostWait (s : State) : s.tick.hostWait = s.hostWait := rfl
@[simp] theorem State.tick_chans (s : State) : s.tick.chans = s.chans := rfl
@[simp] theorem State.tick_insts (s : State) : s.tick.insts = s.insts := rfl
@[simp] theorem State.tick_jobs (s : State) : s.tick.jobs = s.jobs := rfl
@[simp] theorem State.tick_dsp (s : State) : s.tick.dsp = s.dsp := rfl
@[simp] theorem State.tick_ldk (s : State) : s.tick.ldk = s.ldk := rfl
@[simp] theorem State.tick_units (s : State) : s.tick.units = s.units := rfl
@[simp] theorem State.tick_evc (s : State) : s.tick.evc = s.evc := rfl
@[simp] theorem State.tick_mir (s : State) : s.tick.mir = s.mir := rfl
@[simp] theorem State.tick_chk (s : State) : s.tick.chk = s.chk := rfl
@[simp] theorem State.tick_spares (s : State) : s.tick.spares = s.spares := rfl
@[simp] theorem State.tick_exts (s : State) : s.tick.exts = s.exts := rfl
@[simp] theorem State.tick_dbg (s : State) : s.tick.dbg = s.dbg := rfl
@[simp] theorem State.tick_mcs (s : State) : s.tick.mcs = s.mcs := rfl
@[simp] theorem State.tick_life (s : State) : s.tick.life = s.life := rfl
@[simp] theorem State.tick_aon (s : State) : s.tick.aon = s.aon := rfl
@[simp] theorem State.tick_draws (s : State) : s.tick.draws = s.draws := rfl
@[simp] theorem State.tick_eng (s : State) (q : Nat) : s.tick.eng q = s.eng q := rfl
@[simp] theorem State.tick_ctx (s : State) (q j : Nat) : s.tick.ctx q j = s.ctx q j := rfl
@[simp] theorem State.tick_log (s : State) (q : Nat) : s.tick.log q = s.log q := rfl
@[simp] theorem State.tick_inst (s : State) (q : Nat) : s.tick.inst q = s.inst q := rfl
@[simp] theorem State.tick_chan (s : State) (q : Nat) : s.tick.chan q = s.chan q := rfl
@[simp] theorem State.tick_job (s : State) (q : Nat) : s.tick.job q = s.job q := rfl
@[simp] theorem State.tick_port (s : State) (q : Nat) : s.tick.port q = s.port q := rfl
@[simp] theorem State.tick_slot (s : State) (q : Nat) : s.tick.slot q = s.slot q := rfl
@[simp] theorem State.tick_src (s : State) (q : Nat) : s.tick.src q = s.src q := rfl
@[simp] theorem State.tick_spare (s : State) (q : Nat) : s.tick.spare q = s.spare q := rfl
@[simp] theorem State.tick_ext (s : State) (q : Nat) : s.tick.ext q = s.ext q := rfl
@[simp] theorem State.tick_stand (s : State) (q : Nat) : s.tick.stand q = s.stand q := rfl
@[simp] theorem State.tick_lane (s : State) (q : Nat) : s.tick.lane q = s.lane q := rfl
@[simp] theorem State.tick_gran (s : State) (q : Nat) : s.tick.gran q = s.gran q := rfl
@[simp] theorem State.tick_deck (s : State) (q : Nat) : s.tick.deck q = s.deck q := rfl

/-! ## Updates of one engine -/

@[simp] theorem Engine.putCtx_lstore (e : Engine) (c : Nat) (x : Ctx) : (e.putCtx c x).lstore = e.lstore := rfl
@[simp] theorem Engine.putCtx_bad (e : Engine) (c : Nat) (x : Ctx) : (e.putCtx c x).bad = e.bad := rfl
@[simp] theorem Engine.putCtx_sbuf (e : Engine) (c : Nat) (x : Ctx) : (e.putCtx c x).sbuf = e.sbuf := rfl
@[simp] theorem Engine.putCtx_lsKeepEnd (e : Engine) (c : Nat) (x : Ctx) : (e.putCtx c x).lsKeepEnd = e.lsKeepEnd := rfl
@[simp] theorem Engine.putCtx_lsOvlEnd (e : Engine) (c : Nat) (x : Ctx) : (e.putCtx c x).lsOvlEnd = e.lsOvlEnd := rfl
@[simp] theorem Engine.putCtx_lsCtxBase (e : Engine) (c : Nat) (x : Ctx) : (e.putCtx c x).lsCtxBase = e.lsCtxBase := rfl
@[simp] theorem Engine.putCtx_goErr (e : Engine) (c : Nat) (x : Ctx) : (e.putCtx c x).goErr = e.goErr := rfl
@[simp] theorem Engine.putCtx_wdtLoad (e : Engine) (c : Nat) (x : Ctx) : (e.putCtx c x).wdtLoad = e.wdtLoad := rfl
@[simp] theorem Engine.putCtx_wdt (e : Engine) (c : Nat) (x : Ctx) : (e.putCtx c x).wdt = e.wdt := rfl
@[simp] theorem Engine.putCtx_blocks (e : Engine) (c : Nat) (x : Ctx) : (e.putCtx c x).blocks = e.blocks := rfl
@[simp] theorem Engine.putCtx_ivec (e : Engine) (c : Nat) (x : Ctx) : (e.putCtx c x).ivec = e.ivec := rfl
@[simp] theorem Engine.putCtx_ie (e : Engine) (c : Nat) (x : Ctx) : (e.putCtx c x).ie = e.ie := rfl
@[simp] theorem Engine.putCtx_disp (e : Engine) (c : Nat) (x : Ctx) : (e.putCtx c x).disp = e.disp := rfl
@[simp] theorem Engine.putCtx_pstack (e : Engine) (c : Nat) (x : Ctx) : (e.putCtx c x).pstack = e.pstack := rfl
@[simp] theorem Engine.putCtx_mbox (e : Engine) (c : Nat) (x : Ctx) : (e.putCtx c x).mbox = e.mbox := rfl
@[simp] theorem Engine.putCtx_mbRefused (e : Engine) (c : Nat) (x : Ctx) : (e.putCtx c x).mbRefused = e.mbRefused := rfl
@[simp] theorem Engine.putCtx_delivered (e : Engine) (c : Nat) (x : Ctx) : (e.putCtx c x).delivered = e.delivered := rfl
@[simp] theorem Engine.putCtx_running (e : Engine) (c : Nat) (x : Ctx) : (e.putCtx c x).running = e.running := rfl
@[simp] theorem Engine.putCtx_micro (e : Engine) (c : Nat) (x : Ctx) : (e.putCtx c x).micro = e.micro := rfl
@[simp] theorem Engine.putCtx_step (e : Engine) (c : Nat) (x : Ctx) : (e.putCtx c x).step = e.step := rfl
@[simp] theorem Engine.putCtx_margin (e : Engine) (c : Nat) (x : Ctx) : (e.putCtx c x).margin = e.margin := rfl
@[simp] theorem Engine.putCtx_isState (e : Engine) (c : Nat) (x : Ctx) : (e.putCtx c x).isState = e.isState := rfl
@[simp] theorem Engine.putCtx_firstDelay (e : Engine) (c : Nat) (x : Ctx) : (e.putCtx c x).firstDelay = e.firstDelay := rfl
@[simp] theorem Engine.putCtx_drift (e : Engine) (c : Nat) (x : Ctx) : (e.putCtx c x).drift = e.drift := rfl
@[simp] theorem Engine.putCtx_goodSamples (e : Engine) (c : Nat) (x : Ctx) : (e.putCtx c x).goodSamples = e.goodSamples := rfl
@[simp] theorem Engine.putCtx_overlays (e : Engine) (c : Nat) (x : Ctx) : (e.putCtx c x).overlays = e.overlays := rfl
@[simp] theorem Engine.putCtx_word (e : Engine) (c : Nat) (x : Ctx) (a : Nat) : (e.putCtx c x).word a = e.word a := rfl

@[simp] theorem Engine.putWord_ctxs (e : Engine) (a : Nat) (w : Word) : (e.putWord a w).ctxs = e.ctxs := rfl
@[simp] theorem Engine.putWord_sbuf (e : Engine) (a : Nat) (w : Word) : (e.putWord a w).sbuf = e.sbuf := rfl
@[simp] theorem Engine.putWord_lsKeepEnd (e : Engine) (a : Nat) (w : Word) : (e.putWord a w).lsKeepEnd = e.lsKeepEnd := rfl
@[simp] theorem Engine.putWord_lsOvlEnd (e : Engine) (a : Nat) (w : Word) : (e.putWord a w).lsOvlEnd = e.lsOvlEnd := rfl
@[simp] theorem Engine.putWord_lsCtxBase (e : Engine) (a : Nat) (w : Word) : (e.putWord a w).lsCtxBase = e.lsCtxBase := rfl
@[simp] theorem Engine.putWord_goErr (e : Engine) (a : Nat) (w : Word) : (e.putWord a w).goErr = e.goErr := rfl
@[simp] theorem Engine.putWord_wdtLoad (e : Engine) (a : Nat) (w : Word) : (e.putWord a w).wdtLoad = e.wdtLoad := rfl
@[simp] theorem Engine.putWord_wdt (e : Engine) (a : Nat) (w : Word) : (e.putWord a w).wdt = e.wdt := rfl
@[simp] theorem Engine.putWord_blocks (e : Engine) (a : Nat) (w : Word) : (e.putWord a w).blocks = e.blocks := rfl
@[simp] theorem Engine.putWord_ivec (e : Engine) (a : Nat) (w : Word) : (e.putWord a w).ivec = e.ivec := rfl
@[simp] theorem Engine.putWord_ie (e : Engine) (a : Nat) (w : Word) : (e.putWord a w).ie = e.ie := rfl
@[simp] theorem Engine.putWord_disp (e : Engine) (a : Nat) (w : Word) : (e.putWord a w).disp = e.disp := rfl
@[simp] theorem Engine.putWord_pstack (e : Engine) (a : Nat) (w : Word) : (e.putWord a w).pstack = e.pstack := rfl
@[simp] theorem Engine.putWord_mbox (e : Engine) (a : Nat) (w : Word) : (e.putWord a w).mbox = e.mbox := rfl
@[simp] theorem Engine.putWord_mbRefused (e : Engine) (a : Nat) (w : Word) : (e.putWord a w).mbRefused = e.mbRefused := rfl
@[simp] theorem Engine.putWord_lastIssued (e : Engine) (a : Nat) (w : Word) : (e.putWord a w).lastIssued = e.lastIssued := rfl
@[simp] theorem Engine.putWord_slot (e : Engine) (a : Nat) (w : Word) : (e.putWord a w).slot = e.slot := rfl
@[simp] theorem Engine.putWord_delivered (e : Engine) (a : Nat) (w : Word) : (e.putWord a w).delivered = e.delivered := rfl
@[simp] theorem Engine.putWord_running (e : Engine) (a : Nat) (w : Word) : (e.putWord a w).running = e.running := rfl
@[simp] theorem Engine.putWord_halted (e : Engine) (a : Nat) (w : Word) : (e.putWord a w).halted = e.halted := rfl
@[simp] theorem Engine.putWord_haltPend (e : Engine) (a : Nat) (w : Word) : (e.putWord a w).haltPend = e.haltPend := rfl
@[simp] theorem Engine.putWord_stepping (e : Engine) (a : Nat) (w : Word) : (e.putWord a w).stepping = e.stepping := rfl
@[simp] theorem Engine.putWord_micro (e : Engine) (a : Nat) (w : Word) : (e.putWord a w).micro = e.micro := rfl
@[simp] theorem Engine.putWord_step (e : Engine) (a : Nat) (w : Word) : (e.putWord a w).step = e.step := rfl
@[simp] theorem Engine.putWord_margin (e : Engine) (a : Nat) (w : Word) : (e.putWord a w).margin = e.margin := rfl
@[simp] theorem Engine.putWord_isState (e : Engine) (a : Nat) (w : Word) : (e.putWord a w).isState = e.isState := rfl
@[simp] theorem Engine.putWord_firstDelay (e : Engine) (a : Nat) (w : Word) : (e.putWord a w).firstDelay = e.firstDelay := rfl
@[simp] theorem Engine.putWord_drift (e : Engine) (a : Nat) (w : Word) : (e.putWord a w).drift = e.drift := rfl
@[simp] theorem Engine.putWord_goodSamples (e : Engine) (a : Nat) (w : Word) : (e.putWord a w).goodSamples = e.goodSamples := rfl
@[simp] theorem Engine.putWord_overlays (e : Engine) (a : Nat) (w : Word) : (e.putWord a w).overlays = e.overlays := rfl
@[simp] theorem Engine.putWord_substPend (e : Engine) (a : Nat) (w : Word) : (e.putWord a w).substPend = e.substPend := rfl
@[simp] theorem Engine.putWord_ctx (e : Engine) (a : Nat) (w : Word) (c : Nat) : (e.putWord a w).ctx c = e.ctx c := rfl
theorem Engine.putWord_word (e : Engine) (a : Nat) (w : Word) (b : Nat) :
    (e.putWord a w).word b = if b = a then w else e.word b := Tab.get_set _ _ _ _ _
theorem Engine.putWord_canonical (e : Engine) (a : Nat) (w : Word) (h : Tab.canonical wordDflt e.lstore = true) :
    Tab.canonical wordDflt (e.putWord a w).lstore = true := Tab.canonical_set _ _ _ _ h

end Sys2Proof.Machine
end

