-- ==== Sys2Proof/Laws/Issue.lean ====
section
/-!
SUPPORT. What the issue of an undisturbed instruction does, once for every shape, and the small lemmas about contexts and
engines that it rests on.
-/

namespace Sys2Proof.Machine

/-! ## Engines and contexts -/

@[simp] theorem State.eng_putEng_self (s : State) (p : Nat) (e : Engine) : (s.putEng p e).eng p = e := by
  simp [State.eng, State.putEng]

theorem State.eng_putEng_ne (s : State) {p q : Nat} (e : Engine) (h : q ≠ p) : (s.putEng p e).eng q = s.eng q := by
  simp [State.eng, State.putEng, Tab.get_put_ne _ _ _ h]

@[simp] theorem State.putEng_putEng (s : State) (p : Nat) (e f : Engine) : (s.putEng p e).putEng p f = s.putEng p f := by
  simp [State.putEng]

@[simp] theorem Engine.ctx_putCtx_self (e : Engine) (c : Nat) (x : Ctx) : (e.putCtx c x).ctx c = x := by
  simp [Engine.ctx, Engine.putCtx]

theorem Engine.ctx_putCtx_ne (e : Engine) {c k : Nat} (x : Ctx) (h : k ≠ c) : (e.putCtx c x).ctx k = e.ctx k := by
  simp [Engine.ctx, Engine.putCtx, Tab.get_put_ne _ _ _ h]

@[simp] theorem Engine.putCtx_putCtx (e : Engine) (c : Nat) (x y : Ctx) : (e.putCtx c x).putCtx c y = e.putCtx c y := by
  simp [Engine.putCtx]

@[simp] theorem Engine.putCtx_slot (e : Engine) (c : Nat) (x : Ctx) : (e.putCtx c x).slot = e.slot := rfl
@[simp] theorem Engine.putCtx_lastIssued (e : Engine) (c : Nat) (x : Ctx) : (e.putCtx c x).lastIssued = e.lastIssued := rfl
@[simp] theorem Engine.putCtx_stepping (e : Engine) (c : Nat) (x : Ctx) : (e.putCtx c x).stepping = e.stepping := rfl
@[simp] theorem Engine.putCtx_haltPend (e : Engine) (c : Nat) (x : Ctx) : (e.putCtx c x).haltPend = e.haltPend := rfl
@[simp] theorem Engine.putCtx_substPend (e : Engine) (c : Nat) (x : Ctx) : (e.putCtx c x).substPend = e.substPend := rfl
@[simp] theorem Engine.putCtx_halted (e : Engine) (c : Nat) (x : Ctx) : (e.putCtx c x).halted = e.halted := rfl

theorem Engine.takeTurn_none (e : Engine) (c : Nat) (h : (e.ctx c).shadow = []) : e.takeTurn c = { e with lastIssued := c } := by
  simp [Engine.takeTurn, h]

/-- No level ends in an instruction: the levels and the next address stay. -/
theorem passEnds_none (pc : SAddr) (len : Nat) (next : SAddr) (tr : Bool) (l : List LoopLevel)
    (h : ∀ x ∈ l, x.passedBy pc len = false) : passEnds pc len next tr l = (l, next) := by
  induction l with
  | nil => rfl
  | cons a t ih =>
    have ha := h a (by simp)
    have ht := ih fun x hx => h x (by simp [hx])
    simp [passEnds, ha, ht]

theorem closeLeft_sub (pc t : SAddr) (l : List LoopLevel) : ∀ x ∈ closeLeft pc t l, x ∈ l := by
  induction l with
  | nil => simp [closeLeft]
  | cons a r ih =>
    simp only [closeLeft]
    split
    · simp
    · intro x hx
      rcases List.mem_cons.1 hx with rfl | hx
      · simp
      · simp [ih x hx]

/-- An instruction in which no level ends goes on at `next`. -/
theorem Ctx.advance_none (x : Ctx) (pc : SAddr) (len : Nat) (next : SAddr) (tr closes : Bool)
    (h : ∀ l ∈ x.loops, l.passedBy pc len = false) :
    x.advance pc len next tr closes =
      { x with loops := if closes then closeLeft pc next x.loops else x.loops, pc := next } := by
  have hp : passEnds pc len next tr (if closes then closeLeft pc next x.loops else x.loops).reverse =
      ((if closes then closeLeft pc next x.loops else x.loops).reverse, next) := by
    refine passEnds_none _ _ _ _ _ fun l hl => h l ?_
    split at hl
    · exact closeLeft_sub _ _ _ _ (List.mem_reverse.1 hl)
    · exact List.mem_reverse.1 hl
  simp only [Ctx.advance, hp, List.reverse_reverse]

/-- The boundary of an engine where nothing waits. -/
theorem State.boundaryAfter_calm (s : State) (p c : Nat) (h1 : (s.eng p).slot = none) (h0 : (s.eng p).micro.busy = none) (h2 : (s.ctx p c).ending = none)
    (h7 : (s.jobAt p c).any (fun j => j.squashDue) = false)
    (h3 : (s.eng p).stepping = none) (h4 : (s.eng p).haltPend = false) (h5 : (s.eng p).substPend = none)
    (h6 : ∀ c < 8, ((s.eng p).ctx c).haltPend = false) : s.boundaryAfter p c = s := by
  have hc : s.closeStep p c = s := by simp [State.closeStep, h3]
  have ha : ((List.range 8).any fun c => (s.ctx p c).haltPend) = false := by
    rw [List.any_eq_false]
    intro k hk
    simp [State.ctx, h6 k (List.mem_range.1 hk)]
  have hh : s.settleHalt p = s := by simp [State.settleHalt, ha, h4]
  have hs : s.settleSubst p = s := by simp [State.settleSubst, h5]
  have hj : s.endDue p c = s := by
    unfold State.endDue
    rw [h2]
    cases hx : (s.ctx p c).job with
    | none => rfl
    | some id =>
      have h8 : (s.job id).any (fun j => j.squashDue) = false := by simpa [State.jobAt, hx] using h7
      simp [h8]
  unfold State.boundaryAfter
  simp [h1, h0, hj, hc, hh, hs]

/-! ## The issue of an undisturbed instruction -/

/-- The state in which the work of an undisturbed instruction runs: its engine remembers its turn, and nothing else differs from `s`
but the ports. -/
def State.ready' (s : State) (i : Issue) : State := s.quietOut.putEng i.isl.val { s.engOf i with lastIssued := i.ctx.val }

@[simp] theorem State.ready'_eng (s : State) (i : Issue) : (s.ready' i).eng i.isl.val = { s.engOf i with lastIssued := i.ctx.val } := by
  simp [State.ready']

@[simp] theorem State.ready'_ctx (s : State) (i : Issue) : (s.ready' i).ctx i.isl.val i.ctx.val = s.at' i := by
  simp only [State.ctx, State.ready'_eng]
  rfl

/-- What a fetch meets depends on where the engine's regions lie. -/
theorem State.ready'_fetchBar (s : State) (i : Issue) (c : Nat) (a : WAddr) :
    (s.ready' i).fetchBar i.isl.val c a = s.fetchBar i.isl.val c a := by
  simp only [State.fetchBar, State.ready'_eng]
  rfl

theorem State.ready'_eccBar (s : State) (i : Issue) (a : WAddr) : (s.ready' i).eccBar i.isl.val a = s.eccBar i.isl.val a := by
  simp only [State.eccBar, State.ready'_eng]
  rfl

/-- An instruction of shape `h` may run in context `c`, with the state `x` it has, whatever the stacks hold. -/
structure Shape.Allowed (h : Shape) (x : Ctx) (c : Nat) : Prop where
  reserved : h.reserved = false
  keeper : h.who = .keeper → c = 0
  job : h.who = .job → c ≠ 0
  misuse : h.misuse x = none
  absent : h.absent = none
  unassigned : h.unassigned = none
  first : h.first x = none
  reads : ∀ k ∈ h.reads, x.ledger.sound k = true

theorem Ctx.illegal_none (x : Ctx) (h : Shape) (c : Nat) (ha : h.Allowed x c) (he : h.len = 2 → x.pc.getLsbD 0 = false)
    (hr : x.rep = none) : x.illegal h c false = none := by
  have h1 : ¬ (h.len = 2 ∧ x.pc.getLsbD 0 = true) := fun hh => by rw [he hh.1] at hh; exact absurd hh.2 (by decide)
  have h2 : ¬ (h.len = 2 ∧ h.reserved = true) := fun hh => by rw [ha.reserved] at hh; cases hh.2
  have h3 : ¬ (h.who = .keeper ∧ c ≠ 0) := fun hh => hh.2 (ha.keeper hh.1)
  have h4 : ¬ (h.who = .job ∧ c = 0) := fun hh => ha.job hh.1 hh.2
  unfold Ctx.illegal
  rw [ha.unassigned, if_neg (by simp), if_neg h1, if_neg h2, if_neg h3, if_neg h4]
  simp [ha.misuse, hr]

theorem State.fetchTrap_calm (s : State) (i : Issue) (h : Shape) (q : s.Boundary i h.len)
    (ha : h.Allowed (s.at' i) i.ctx.val) : (s.ready' i).fetchTrap i.isl.val i.ctx.val h none i.check = none := by
  have hf := (s.ready'_fetchBar i i.ctx.val (SAddr.word (s.at' i).pc)).trans q.fetch
  have he := (s.ready'_eccBar i (SAddr.word (s.at' i).pc)).trans q.ecc
  have hill := Ctx.illegal_none (s.at' i) h i.ctx.val ha q.even q.rep
  have hs : (s.engOf i).slot = none := q.slot
  simp only [State.fetchTrap, State.ready'_ctx, hf, he, State.ready'_eng, hs, Option.isSome_none, q.pass, hill]
  simp

theorem Ctx.stackTrap_none (x : Ctx) (h : Shape) (c : Nat) (ha : h.Allowed x c) (hb : x.stackBar h = none) : x.stackTrap h = none := by
  simp [Ctx.stackTrap, ha.absent, ha.first, hb]

theorem State.issue_perform (s : State) (i : Issue) (h : Shape) (w : Work) (q : s.Boundary i h.len) :
    s.issue i h w = s.quietOut.perform i.isl.val i.ctx.val h none i.check w := by
  have hm : s.quietOut.mayIssue i.isl.val i.ctx.val = true := q.may
  have hs : (s.quietOut.eng i.isl.val).slot = none := q.slot
  have hb : (s.quietOut.ctx i.isl.val i.ctx.val).boundary i.ctx.val s.now = .clear := q.bound
  have hbad : (s.quietOut.ctx i.isl.val i.ctx.val).badCode i = none := by simp [Ctx.badCode, q.clean]
  have hck : ∀ g : State → State, s.quietOut.checked i.isl.val i.ctx.val h i.check g = g s.quietOut := by
    intro g
    simp only [State.checked, q.pass, if_true]
  have hy : (s.quietOut.eng i.isl.val).micro.busy = none := q.busy
  unfold State.issue
  change (if (!s.quietOut.mayIssue i.isl.val i.ctx.val || (i.bad.isSome && ((s.quietOut.ctx i.isl.val i.ctx.val).badCode i).isNone)) = true
    then s.quietOut else
    if (s.quietOut.eng i.isl.val).slot.isSome || (s.quietOut.eng i.isl.val).micro.busy.isSome then _ else
    match (s.quietOut.ctx i.isl.val i.ctx.val).boundary i.ctx.val s.now with
    | .timer => _ | .sub r => _ | .fp r => _ | .clear => _) = _
  rw [hm, hs, hy, hb, q.clean]
  simp only [Option.isSome_none, Bool.not_true, Bool.false_eq_true, Bool.false_and, Bool.or_false, if_false]
  refine (hck _).trans ?_
  change s.quietOut.perform _ _ h ((s.quietOut.ctx i.isl.val i.ctx.val).badCode i) _ w = _
  rw [hbad]

/-- The state in which an instruction's work runs, once an open locked sequence that the instruction ends is closed. -/
def State.workState (s : State) (i : Issue) (h : Shape) : State :=
  if h.endsLock then (s.ready' i).endLock i.isl.val i.ctx.val else s.ready' i

@[simp] theorem State.endLock_mcs (s : State) (p c : Nat) : (s.endLock p c).mcs = s.mcs := rfl

theorem State.ownStore.routine {s : State} {p : Nat} (h : s.ownStore p) (hb : (s.eng p).micro.busy = none) (c : Nat) (r : Routine) :
    s.microRoutine p c r = (.ended false, s) := by
  have hm : (standOf p, r.entry.toNat) ∉ s.mcs.bad := fun hc => h.2 _ hc rfl r rfl
  simp [State.microRoutine, h.1, hb, hm]

@[simp] theorem State.endLock_busy (s : State) (p c : Nat) : ((s.endLock p c).eng p).micro = (s.eng p).micro := by
  simp only [State.endLock, State.modCtx, State.putCtx, State.eng_putEng_self]
  rfl

/-- What an undisturbed instruction's work gives is what the instruction leaves; a micro-coded one runs the ROM's own routine. -/
theorem State.issue_conclude (s : State) (i : Issue) (h : Shape) (w : Work) (q : s.Boundary i h.len)
    (ha : h.Allowed (s.at' i) i.ctx.val) (hb : (s.at' i).stackBar h = none) (hm : h.micro.isSome = true → s.ownStore i.isl.val)
    (hw : (w (s.workState i h) i.isl.val i.ctx.val ((s.workState i h).at' i)).waits = false) :
    s.issue i h w =
      (s.workState i h).conclude i.isl.val i.ctx.val h ((s.workState i h).at' i)
        (w (s.workState i h) i.isl.val i.ctx.val ((s.workState i h).at' i)) := by
  rw [State.issue_perform s i h w q]
  have hc : s.quietOut.modEng i.isl.val (fun e => e.takeTurn i.ctx.val) = s.ready' i := by
    simp only [State.modEng, State.ready', State.quietOut_eng]
    rw [Engine.takeTurn_none _ _ (by exact q.shadow)]
    rfl
  have hft := s.fetchTrap_calm i h q ha
  have hst := Ctx.stackTrap_none _ h _ ha hb
  have hrep : ¬ (s.at' i).rep = some 0 := by rw [q.rep]; simp
  have hmark : (s.at' i).marked h = false := by simp [Ctx.marked, q.fp]
  have hread : (h.reads.any fun k => !(s.at' i).ledger.sound k) = false := by
    rw [List.any_eq_false]
    intro k hk
    simp [ha.reads k hk]
  have hown : h.micro.isSome = true → (s.workState i h).ownStore i.isl.val := by
    intro g
    have e : (s.workState i h).mcs = s.mcs := by
      unfold State.workState
      split <;> rfl
    unfold State.ownStore
    rw [e]; exact hm g
  have hbusy : ((s.workState i h).eng i.isl.val).micro.busy = none := by
    have hr : ((s.ready' i).eng i.isl.val).micro.busy = none := by rw [State.ready'_eng]; exact q.busy
    unfold State.workState
    split
    · rw [State.endLock_busy]; exact hr
    · exact hr
  unfold State.perform
  simp only [hc, hft, State.ready'_ctx, hst, hmark, hread, if_neg hrep, Bool.false_eq_true, if_false]
  simp only [State.eccFound, q.pass]
  change (s.workState i h).runWork i.isl.val i.ctx.val h ((s.workState i h).at' i) w _ = _
  unfold State.runWork
  rw [hw, if_neg (by simp)]
  cases hmi : h.micro with
  | none => rfl
  | some r =>
    simp only [State.routine, (hown (by simp [hmi])).routine hbusy]
    rfl

/-! ## The end of an undisturbed instruction -/

theorem State.Quiet.calm {s : State} {i : Issue} {len : Nat} (q : s.Quiet i len) : (s.engOf i).Calm :=
  ⟨q.slot, q.busy, q.step, q.halt, q.halts, q.subst⟩

theorem Engine.Calm.putCtx {e : Engine} (h : e.Calm) (c : Nat) (x : Ctx) (hx : x.haltPend = false) : (e.putCtx c x).Calm where
  slot := h.slot
  busy := h.busy
  step := h.step
  halt := h.halt
  subst := h.subst
  halts k hk := by
    by_cases hc : k = c
    · subst hc; simp [hx]
    · rw [Engine.ctx_putCtx_ne _ _ hc]; exact h.halts k hk

theorem State.boundary_calm (s : State) (p c : Nat) (h : (s.eng p).Calm) (he : (s.ctx p c).ending = none)
    (hs : (s.jobAt p c).any (fun j => j.squashDue) = false) : s.boundaryAfter p c = s :=
  State.boundaryAfter_calm s p c h.slot h.busy he hs h.step h.halt h.subst h.halts

/-- Where an undisturbed instruction goes on, by its flow: the next syllable, or its target with the levels it leaves
closed. -/
def Ctx.goesOn (x : Ctx) (pc : SAddr) (len : Nat) : Flow → Ctx
  | .jump t k => { x with loops := if k then closeLeft pc t x.loops else x.loops, pc := t }
  | _ => { x with pc := SAddr.plus pc len }

theorem Ctx.tickModes_nil (x : Ctx) : x.tickModes [] = x := by
  simp [Ctx.tickModes]

/-- An instruction that goes on without a trap of its own leaves its work's state with its context moved on. -/
theorem State.conclude_calm (t : State) (p c : Nat) (h : Shape) (x0 : Ctx) (d : Done) (hx : x0.Plain)
    (hf : d.flow = .next ∨ ∃ a k, d.flow = .jump a k) (hl : d.late = none) (hc : (d.s.eng p).Calm)
    (hp : d.x.haltPend = false) (he : d.x.ending = none) (hq : (d.x.job.bind d.s.job).any (fun j => j.squashDue) = false)
    (hloop : ∀ l ∈ d.x.loops, l.passedBy x0.pc h.len = false) (htr : d.s.dbg.trcEn = false ∨ d.flow = .next) :
    t.conclude p c h x0 (.ok d) = d.s.putCtx p c ({ d.x with shadow := d.shadow }.goesOn x0.pc h.len d.flow) := by
  obtain ⟨ds, dx, fl, late, sh⟩ := d
  simp only at hl hc hp he hq hloop htr hf
  subst hl
  have hslot := hc.slot
  have hno : ((t.eng p).slot.any (·.ctx == c) && (none : Option (Nat × Nat)).isSome) = false := by simp
  have key : ∀ y : Ctx, y.haltPend = false → y.ending = none → y.job = dx.job →
      (ds.putEng p ((ds.eng p).putCtx c y)).boundaryAfter p c = ds.putEng p ((ds.eng p).putCtx c y) := by
    intro y h1 h2 h3
    refine State.boundary_calm _ _ _ ?_ ?_ ?_
    · rw [State.eng_putEng_self]; exact hc.putCtx c y h1
    · simp only [State.ctx, State.eng_putEng_self, Engine.ctx_putCtx_self]; exact h2
    · simp only [State.jobAt, State.ctx, State.eng_putEng_self, Engine.ctx_putCtx_self, h3]
      exact hq
  have hsl : ∀ y : Ctx, ({ (ds.eng p).putCtx c y with slot := (none : Option DelaySlot) } : Engine) = (ds.eng p).putCtx c y := by
    intro y
    have : ((ds.eng p).putCtx c y).slot = none := hslot
    rw [← this]
  have hlock : ∀ u : State, u.tickLock p c none = u := by
    intro u
    unfold State.tickLock
    cases h : (u.ctx p c).lock <;> simp only [h]
  rcases hf with rfl | ⟨a, k, rfl⟩
  · simp only [State.conclude, hno, State.finish, hslot, Option.filter_none, hx.modes, hx.rep, hx.lock, Ctx.tickModes_nil, hlock]
    simp only [Bool.false_eq_true, if_false]
    rw [Ctx.advance_none _ _ _ _ _ _ (by simpa using hloop), hsl]
    simp only [Bool.false_eq_true, if_false]
    exact key _ (by simpa using hp) (by simpa using he) rfl
  · have htr' : ds.dbg.trcEn = false := by rcases htr with h | h; exact h; cases h
    have hbl : ∀ (u : Engine) (k : Nat) (pc : SAddr) (info : Nat), (ds.putEng p u).blaze p c k pc info = ds.putEng p u := by
      intro u k pc info
      simp [State.blaze, htr']
    simp only [State.conclude, hno, State.finish, hslot, Option.filter_none, hx.modes, hx.rep, hx.lock, Ctx.tickModes_nil, hlock]
    simp only [Bool.false_eq_true, if_false]
    rw [Ctx.advance_none _ _ _ _ _ _ (by simpa using hloop), hsl, hbl]
    exact key _ (by simpa using hp) (by simpa using he) rfl

theorem State.Quiet.plain {s : State} {i : Issue} {len : Nat} (q : s.Quiet i len) : (s.at' i).Plain :=
  ⟨q.modes, q.lock, q.rep⟩

/-- An instruction that works on its context alone. -/
theorem State.issue_onCtx (s : State) (i : Issue) (h : Shape) (f : Ctx → Ctx) (q : s.Quiet i h.len)
    (ha : h.Allowed (s.at' i) i.ctx.val) (hb : (s.at' i).stackBar h = none) (hlk : h.endsLock = false) (hm : h.micro = none)
    (hp : (f (s.at' i)).haltPend = (s.at' i).haltPend) (he : (f (s.at' i)).ending = (s.at' i).ending)
    (hj : (f (s.at' i)).job = (s.at' i).job) (hl : (f (s.at' i)).loops = (s.at' i).loops) :
    Machine.issue i h (onCtx f) s = .next (s.retire i { f (s.at' i) with shadow := [], pc := s.nextPc i h.len }) := by
  have hw : s.workState i h = s.ready' i := by simp [State.workState, hlk]
  have hx : (s.ready' i).at' i = s.at' i := State.ready'_ctx s i
  have hcalm : ((s.ready' i).eng i.isl.val).Calm := by
    rw [State.ready'_eng]
    exact ⟨q.slot, q.busy, q.step, q.halt, q.halts, q.subst⟩
  unfold Machine.issue
  rw [State.issue_conclude s i h _ q.toBoundary ha hb (by simp [hm]) (by rw [hw, hx]; rfl), hw, hx]
  simp only [onCtx]
  rw [State.conclude_calm (s.ready' i) _ _ h (s.at' i) { s := s.ready' i, x := f (s.at' i) } q.plain (.inl rfl) rfl
    hcalm (hp.trans (q.halts _ i.ctx.isLt)) (he.trans q.ending) (by rw [hj]; exact q.squash) (by simpa only [hl] using q.loops)
    (.inr rfl)]
  simp only [State.putCtx, State.retire, State.turn, Ctx.goesOn, State.nextPc, State.ready', State.eng_putEng_self, State.putEng_putEng]
  rfl

end Sys2Proof.Machine
end

