-- ==== Sys2Proof/Laws/Memory.lean ====
section
/-!
SUPPORT. Memory: what changes no word of it, and that every operation that writes it keeps its canonical form.
-/

namespace Sys2Proof.Machine

/-- From `s` to `t` no word of a local store or of the log deck changes. -/
def State.SameMem (s t : State) : Prop := t.ldk.mem = s.ldk.mem ∧ ∀ p, (t.eng p).lstore = (s.eng p).lstore

theorem State.SameMem.rfl {s : State} : s.SameMem s := ⟨Eq.refl _, fun _ => Eq.refl _⟩

theorem State.SameMem.trans {s t u : State} (h : s.SameMem t) (g : t.SameMem u) : s.SameMem u :=
  ⟨g.1.trans h.1, fun p => (g.2 p).trans (h.2 p)⟩

theorem State.SameMem.foldl {α : Type} (f : State → α → State) (h : ∀ (s : State) a, s.SameMem (f s a)) (l : List α) (s : State) :
    s.SameMem (l.foldl f s) := by
  induction l generalizing s with
  | nil => exact .rfl
  | cons a l ih => exact (h s a).trans (ih _)

theorem State.eng_putEng (s : State) (p q : Nat) (e : Engine) : (s.putEng p e).eng q = if q = p then e else s.eng q :=
  Tab.get_put _ _ _ _ _

/-- An engine replaced by one with the same local store. -/
theorem State.sameMem_putEng (s : State) (p : Nat) (e : Engine) (h : e.lstore = (s.eng p).lstore) : s.SameMem (s.putEng p e) := by
  refine ⟨rfl, fun q => ?_⟩
  rw [State.eng_putEng]
  split
  · subst q; exact h
  · rfl

theorem State.sameMem_modEng (s : State) (p : Nat) (f : Engine → Engine) (h : (f (s.eng p)).lstore = (s.eng p).lstore) :
    s.SameMem (s.modEng p f) := s.sameMem_putEng p _ h

theorem State.sameMem_putCtx (s : State) (p c : Nat) (x : Ctx) : s.SameMem (s.putCtx p c x) := s.sameMem_putEng p _ rfl

theorem State.sameMem_modCtx (s : State) (p c : Nat) (f : Ctx → Ctx) : s.SameMem (s.modCtx p c f) := s.sameMem_putCtx p c _

theorem State.sameMem_modJob (s : State) (j : Nat) (f : Job → Job) : s.SameMem (s.modJob j f) := by
  unfold State.modJob
  split
  · exact .rfl
  · exact ⟨rfl, fun _ => rfl⟩

/-! ## Events change no memory -/

theorem State.sameMem_deliver (s : State) (n : Nat) : s.SameMem (s.deliver n) := by
  unfold State.deliver
  simp only
  split
  · exact .rfl
  · split
    · exact ⟨rfl, fun _ => rfl⟩
    · split
      · exact .rfl
      · split
        · exact State.SameMem.trans (t := s.putSrc n _) ⟨rfl, fun _ => rfl⟩ (State.sameMem_modCtx _ _ _ _)
        · exact .rfl

theorem State.sameMem_redeliver (s : State) : s.SameMem s.redeliver :=
  (State.SameMem.foldl _ State.sameMem_deliver _ s).trans (State.SameMem.foldl _ State.sameMem_deliver _ _)

theorem State.sameMem_wakeKeeper (s : State) (p : Nat) : s.SameMem (s.wakeKeeper p) := by
  unfold State.wakeKeeper
  split
  · exact (s.sameMem_modCtx p 0 _).trans (State.sameMem_redeliver _)
  · exact s.sameMem_modCtx p 0 _

theorem State.sameMem_withdraw (s : State) (ns : List Nat) : s.SameMem (s.withdraw ns) :=
  State.SameMem.foldl (fun t n => t.putSrc n { t.src n with sig := false }) (fun _ _ => ⟨rfl, fun _ => rfl⟩) ns s

theorem State.sameMem_reroute (s : State) (ns : List Nat) : s.SameMem (s.reroute ns) :=
  (s.sameMem_withdraw ns).trans (State.sameMem_redeliver _)

theorem State.sameMem_offer (s : State) (n : Nat) : s.SameMem (s.offer n) := by
  unfold State.offer
  simp only
  split
  · exact (s.sameMem_deliver n).trans (State.sameMem_redeliver _)
  · exact s.sameMem_deliver n

theorem State.sameMem_arrive (s : State) (n : Nat) : s.SameMem (s.arrive n) := by
  unfold State.arrive
  simp only
  refine State.SameMem.trans ?_ (State.sameMem_offer _ n)
  split <;> exact ⟨rfl, fun _ => rfl⟩

theorem State.sameMem_setIe (s : State) (p : Nat) (ie : Bool) : s.SameMem (s.setIe p ie) := by
  unfold State.setIe
  simp only
  split
  · exact (s.sameMem_modEng p _ (by rfl)).trans (State.sameMem_redeliver _)
  · exact (s.sameMem_modEng p _ (by rfl)).trans (State.sameMem_reroute _ _)

theorem State.src_putSrc (s : State) (m n : Nat) (v : Src) : (s.putSrc m v).src n = if n = m then v else s.src n :=
  Tab.get_put _ _ _ _ _

/-- A delivery leaves the arrival counter and the pending bit of every source as they were (R367). -/
theorem State.deliver_keeps (t : State) (m n : Nat) :
    ((t.deliver m).src n).count = (t.src n).count ∧ ((t.deliver m).src n).pend = (t.src n).pend := by
  have put : ∀ v : Src, v.count = (t.src m).count → v.pend = (t.src m).pend →
      ((t.putSrc m v).src n).count = (t.src n).count ∧ ((t.putSrc m v).src n).pend = (t.src n).pend := by
    intro v hc hp
    rw [State.src_putSrc]
    split
    · subst n; exact ⟨hc, hp⟩
    · exact ⟨rfl, rfl⟩
  unfold State.deliver
  simp only
  split
  · exact ⟨rfl, rfl⟩
  · split
    · exact put _ rfl rfl
    · split
      · exact ⟨rfl, rfl⟩
      · split
        · exact put _ rfl rfl
        · exact ⟨rfl, rfl⟩

/-- So does delivering every waiting source again. -/
theorem State.redeliver_keeps (t : State) (n : Nat) :
    ((t.redeliver).src n).count = (t.src n).count ∧ ((t.redeliver).src n).pend = (t.src n).pend := by
  have fold : ∀ (l : List Nat) (t : State),
      ((l.foldl State.deliver t).src n).count = (t.src n).count ∧ ((l.foldl State.deliver t).src n).pend = (t.src n).pend := by
    intro l
    induction l with
    | nil => exact fun _ => ⟨rfl, rfl⟩
    | cons a l ih => exact fun t => ⟨(ih _).1.trans (t.deliver_keeps a n).1, (ih _).2.trans (t.deliver_keeps a n).2⟩
  exact ⟨(fold _ _).1.trans (fold _ _).1, (fold _ _).2.trans (fold _ _).2⟩

/-- So does offering a source. -/
theorem State.offer_keeps (t : State) (m n : Nat) :
    ((t.offer m).src n).count = (t.src n).count ∧ ((t.offer m).src n).pend = (t.src n).pend := by
  have d := t.deliver_keeps m n
  have r := (t.deliver m).redeliver_keeps n
  unfold State.offer
  simp only
  split
  · exact ⟨r.1.trans d.1, r.2.trans d.2⟩
  · exact d

/-- An arrival counts once, up to 255, and leaves an event pending (R363). -/
theorem State.arrive_counts (s : State) (n : Nat) : s.Arrived (s.arrive n) n := by
  unfold State.Arrived State.arrive
  simp only
  rw [(State.offer_keeps _ n n).1, (State.offer_keeps _ n n).2]
  split
  · rename_i h
    have h' : (s.src n).count = 255 := by simpa using h
    rw [State.src_putSrc]; simp only [if_true]; rw [h']; decide
  · rename_i h
    have h' : (s.src n).count ≠ 255 := by simpa using h
    rw [State.src_putSrc]
    have hn : (s.src n).count.toNat < 255 := by
      have := (s.src n).count.isLt
      have : (s.src n).count.toNat ≠ 255 := fun e => h' (BitVec.eq_of_toNat_eq e)
      omega
    simp [satInc, hn]

/-! ## Words written through an engine address -/

theorem State.sameMem_go (s : State) (p c : Nat) : s.SameMem (s.go p c) := by
  unfold State.go
  simp only
  split
  · exact s.sameMem_putEng p _ rfl
  · split
    · exact (s.sameMem_putEng p _ (by rfl)).trans (State.sameMem_modJob _ _ _)
    · exact s.sameMem_putEng p _ (by rfl)

theorem State.sameMem_ioWrite (s : State) (p a : Nat) (w : Word) : s.SameMem (s.ioWrite p a w) := by
  unfold State.ioWrite
  repeat' split
  all_goals first
    | exact .rfl
    | exact s.sameMem_go _ _
    | exact s.sameMem_setIe _ _
    | exact s.sameMem_modEng p _ (by rfl)
    | (refine s.sameMem_modEng p _ ?_; simp only; repeat' split
       all_goals rfl)

/-! ## The canonical form -/

theorem Memory.wf_same {s t : State} (h : s.SameMem t) (w : Memory.wf s) : Memory.wf t :=
  ⟨by rw [h.1]; exact w.1, fun p hp => by rw [h.2 p]; exact w.2 p hp⟩

theorem Memory.wf_reset : Memory.wf State.reset := ⟨rfl, fun p _ => by simp [State.eng, State.reset, Tab.get, Assoc.lookup, engineDflt]⟩

theorem Memory.wf_putDeck {s : State} (who : Option (Nat × Nat)) (k : Nat) (w : Word) (h : Memory.wf s) :
    Memory.wf (s.putDeck who k w) := ⟨s.putDeck_canonical who k w h.1, h.2⟩

theorem Memory.wf_putDecks {s : State} (who : Option (Nat × Nat)) (k : Nat) (l : List Word) (h : Memory.wf s) :
    Memory.wf (s.putDecks who k l) := by
  induction l generalizing s k with
  | nil => exact h
  | cons w l ih => exact ih (k + 1) (Memory.wf_putDeck who k w h)

theorem Memory.wf_putStore {s : State} (p k : Nat) (w : Word) (h : Memory.wf s) : Memory.wf (s.modEng p fun e => e.putWord k w) := by
  refine ⟨h.1, fun q hq => ?_⟩
  simp only [State.modEng, State.eng_putEng]
  split
  · subst q; exact Engine.putWord_canonical _ k w (h.2 p hq)
  · exact h.2 q hq

theorem Memory.wf_putWord {s : State} (p c : Nat) (a : WAddr) (w : Word) (h : Memory.wf s) : Memory.wf (s.putWord p c a w) := by
  unfold State.putWord
  split
  · exact Memory.wf_putStore p _ w h
  · exact Memory.wf_same (s.sameMem_ioWrite _ _ _) h
  · exact Memory.wf_putDeck _ _ w h
  · exact h

theorem Memory.wf_putWords {s : State} (p c : Nat) (a : WAddr) (l : List Word) (h : Memory.wf s) :
    Memory.wf (s.putWords p c a l) := by
  induction l generalizing s a with
  | nil => exact h
  | cons w l ih => exact ih _ (Memory.wf_putWord p c a w h)

theorem Memory.wf_putBytes {s : State} (p c : Nat) (a : WAddr) (bytes : List Bool) (w : Word) (h : Memory.wf s) :
    Memory.wf (s.putBytes p c a bytes w) := by
  unfold State.putBytes
  simp only
  split
  · exact Memory.wf_putWord p c a w h
  · have g := fun v => Memory.wf_putWord p c a v h
    split
    · exact g _
    · split
      · exact Memory.wf_same (State.sameMem_modEng _ _ _ (by rfl)) (g _)
      · exact Memory.wf_same ⟨rfl, fun _ => rfl⟩ (g _)
      · exact g _

theorem Memory.wf_drainOne {s : State} (p : Nat) (h : Memory.wf s) : Memory.wf (s.drainOne p) := by
  unfold State.drainOne
  simp only
  split
  · exact h
  · exact Memory.wf_putBytes _ _ _ _ _ (Memory.wf_same (s.sameMem_putEng p _ (by rfl)) h)

theorem Memory.wf_drainAll {s : State} (p : Nat) (h : Memory.wf s) : Memory.wf (s.drainAll p) := by
  unfold State.drainAll
  generalize (s.eng p).sbuf = l
  induction l generalizing s with
  | nil => exact h
  | cons _ l ih => exact ih (Memory.wf_drainOne p h)

theorem Memory.wf_unitWrite {s : State} (ws : List (WAddr × List Word)) (h : Memory.wf s) : Memory.wf (s.unitWrite ws) := by
  unfold State.unitWrite
  induction ws generalizing s with
  | nil => exact h
  | cons q ws ih =>
    refine ih ?_
    dsimp only
    generalize q.2.zipIdx = l
    clear ih
    induction l generalizing s with
    | nil => exact h
    | cons x l ih2 =>
      refine ih2 ?_
      simp only
      split
      · exact Memory.wf_putDeck _ _ _ h
      · exact h

theorem Memory.wf_unitUndef {s : State} (r : UnitReq) (x : Span) (h : Memory.wf s) : Memory.wf (s.unitUndef r x) := by
  unfold State.unitUndef
  generalize x.clip.list.filter (s.reqMay r) = l
  induction l generalizing s with
  | nil => exact h
  | cons a l ih =>
    refine ih ?_
    simp only
    split
    · exact Memory.wf_putDeck _ _ _ (Memory.wf_same ⟨rfl, fun _ => rfl⟩ h)
    · exact h

end Sys2Proof.Machine
end

