-- ==== Sys2Proof/Laws/Stack.lean ====
section
/-!
SUPPORT. The data stack as a list: what pushes, pops and replacements do to it.
-/

namespace Sys2Proof.Machine

@[simp] theorem Ctx.win_setWin (x : Ctx) (w : Window) : (x.setWin w).win = w := by
  unfold Ctx.setWin Ctx.win
  cases x.tw <;> simp

@[simp] theorem Ctx.setWin_setWin (x : Ctx) (w v : Window) : (x.setWin w).setWin v = x.setWin v := by
  unfold Ctx.setWin
  cases x.tw <;> simp

@[simp] theorem Ctx.setWin_shadow (x : Ctx) (w : Window) : (x.setWin w).shadow = x.shadow := by
  unfold Ctx.setWin; split <;> rfl

theorem Ctx.setWin_tw (x : Ctx) (w : Window) : (x.setWin w).tw = x.tw := by
  unfold Ctx.setWin; split <;> rfl

@[simp] theorem Window.list_length (w : Window) : w.list.length = w.depth := by simp [Window.list]

@[simp] theorem Ctx.stack_length (x : Ctx) : x.stack.length = x.depth := by simp [Ctx.stack, Ctx.depth]

theorem Window.list_get (w : Window) (n : Nat) (h : n < w.depth) : w.list[n]? = some (w.cell (w.depth - 1 - n)) := by
  simp [Window.list, h]

/-- Without a visible load delay the cell `n` below T is entry `n` of the stack. -/
theorem Ctx.top_stack (x : Ctx) (n : Nat) (hs : x.shadow = []) (h : n < x.depth) : x.stack[n]? = some (x.top n) := by
  simp only [Ctx.stack]
  rw [Window.list_get _ _ h]
  simp [Ctx.top, Ctx.cell, hs, Ctx.depth, Assoc.lookup]

theorem Ctx.top_of_stack (x : Ctx) (n : Nat) (hs : x.shadow = []) (a : Word) (h : x.stack[n]? = some a) : x.top n = a := by
  have hn : n < x.depth := by
    rw [← Ctx.stack_length]
    exact (List.getElem?_eq_some_iff.1 h).1
  have := x.top_stack n hs hn
  rw [h] at this
  exact (Option.some.inj this).symm

theorem Window.cell_write (w : Window) (k j : Nat) (v : Word) : (w.write k v).cell j = if j = k then v else w.cell j := by
  simp [Window.write, Window.cell, Tab.get_set]

/-- A push puts its word on top. -/
theorem Window.list_push (w : Window) (v : Word) : ({ w.write w.depth v with depth := w.depth + 1 } : Window).list = v :: w.list := by
  apply List.ext_getElem?
  intro n
  have hc : ∀ j, ({ w.write w.depth v with depth := w.depth + 1 } : Window).cell j = if j = w.depth then v else w.cell j :=
    fun j => w.cell_write w.depth j v
  cases n with
  | zero =>
    rw [Window.list_get _ _ (by simp), hc]
    simp
  | succ n =>
    by_cases h : n < w.depth
    · rw [Window.list_get _ _ (by simpa using h), hc]
      rw [List.getElem?_cons_succ, Window.list_get _ _ h]
      have h1 : ¬ w.depth - 1 - n = w.depth := by omega
      have h2 : w.depth + 1 - 1 - (n + 1) = w.depth - 1 - n := by omega
      simp only [h2, if_neg h1]
    · rw [List.getElem?_eq_none, List.getElem?_eq_none]
      · simp; omega
      · simp; omega

/-- Dropping the top cells. -/
theorem Window.list_drop (w : Window) (n : Nat) : ({ w with depth := w.depth - n } : Window).list = w.list.drop n := by
  apply List.ext_getElem?
  intro k
  rw [List.getElem?_drop]
  by_cases h : k < w.depth - n
  · rw [Window.list_get _ _ h, Window.list_get _ _ (by omega)]
    have : w.depth - n - 1 - k = w.depth - 1 - (n + k) := by omega
    simp only [this]
    rfl
  · rw [List.getElem?_eq_none, List.getElem?_eq_none]
    · simp; omega
    · simp; omega

@[simp] theorem Ctx.stack_drop (x : Ctx) (n : Nat) : (x.drop n).stack = x.stack.drop n := by
  simp only [Ctx.stack, Ctx.drop, Ctx.setDepth, Ctx.win_setWin, Ctx.depth]
  exact Window.list_drop _ _

@[simp] theorem Ctx.stack_push (x : Ctx) (v : Word) : (x.push v).stack = v :: x.stack := by
  simp only [Ctx.stack, Ctx.push, Ctx.win_setWin]
  exact Window.list_push _ _

@[simp] theorem Ctx.stack_pushAll (x : Ctx) (vs : List Word) : (x.pushAll vs).stack = vs.reverse ++ x.stack := by
  induction vs generalizing x with
  | nil => rfl
  | cons v t ih => simp [Ctx.pushAll, ih]

/-- The top `n` cells are replaced: the new ones stand in their place, the last one on top. -/
@[simp] theorem Ctx.stack_replace (x : Ctx) (n : Nat) (vs : List Word) :
    (x.replace n vs).stack = vs.reverse ++ x.stack.drop n := by
  simp [Ctx.replace]

/-! ## What else stack work touches -/

/-- `y` differs from `x` in its current window alone. -/
def Ctx.Only (y x : Ctx) : Prop := ∃ w, y = x.setWin w

theorem Ctx.Only.trans {x y z : Ctx} (h : z.Only y) (g : y.Only x) : z.Only x := by
  obtain ⟨w, rfl⟩ := h
  obtain ⟨v, rfl⟩ := g
  exact ⟨w, by simp⟩

theorem Ctx.only_drop (x : Ctx) (n : Nat) : (x.drop n).Only x := ⟨_, rfl⟩

theorem Ctx.only_push (x : Ctx) (v : Word) (hs : x.shadow = []) : (x.push v).Only x := by
  refine ⟨{ x.win.write x.win.depth v with depth := x.win.depth + 1 }, ?_⟩
  have : ({ x with shadow := Assoc.erase x.shadow x.win.depth } : Ctx) = x := by
    rw [hs]; simp only [Assoc.erase]; rw [← hs]
  simp only [Ctx.push, this]

theorem Ctx.Only.shadow {x y : Ctx} (h : y.Only x) : y.shadow = x.shadow := by
  obtain ⟨w, rfl⟩ := h; simp

theorem Ctx.only_pushAll (x : Ctx) (vs : List Word) (hs : x.shadow = []) (h : x.Only x) : (x.pushAll vs).Only x := by
  induction vs generalizing x with
  | nil => exact h
  | cons v t ih =>
    have hp := x.only_push v hs
    have hq : (x.push v).Only (x.push v) := by
      obtain ⟨w, hw⟩ := hp
      exact ⟨w, by rw [hw]; simp⟩
    exact (ih (x.push v) (hp.shadow.trans hs) hq).trans hp

theorem Ctx.only_replace (x : Ctx) (n : Nat) (vs : List Word) (hs : x.shadow = []) : (x.replace n vs).Only x := by
  refine ((x.drop n).only_pushAll vs ((x.only_drop n).shadow.trans hs) ?_).trans (x.only_drop n)
  exact ⟨(x.drop n).win, by unfold Ctx.drop Ctx.setDepth; simp⟩

/-- A context that differs in its current window alone, and in fields that stack work does not touch, holds its stack. -/
theorem Ctx.Only.holds {y z : Ctx} (h : y.Only z) : y.Holds z y.stack := by
  obtain ⟨w, rfl⟩ := h
  refine ⟨rfl, ?_, ?_, ?_⟩ <;> unfold Ctx.setWin <;> cases hz : z.tw <;> simp

end Sys2Proof.Machine
end

