-- ==== Sys2Proof/Tests/Slice0.lean ====
section
/-!
SUPPORT. Tests on small states: the checks of WellFormed, values that the manual gives, and for each statement with
hypotheses a state and operands that meet all of them together.
-/

namespace Sys2Proof.Tests

open Sys2Proof Sys2Proof.Machine

-- The evaluations run one after another: each in a thread of its own would hold a stack for every test at once.
set_option Elab.async false

/-! ## Small states -/

/-- A complex that is ready: resets released, phase 8 reached, 1,000 ticks on. -/
def live : State := { State.reset with now := 1000, life := { porst := false, sysrst := false, phase := 8, latched := true, lc := .test } }

/-- The context at address 0x10 of the keeper area, READY. -/
def Ctx.go (x : Ctx) : Ctx := { x with state := .ready, pc := 0x10 }

/-- Engine 0 runs, and its context `c` holds `x`. -/
def engineWith (c : Nat) (x : Ctx) : Engine := { ctxs := [(c, x)], running := true, lastIssued := c }

/-- A ready complex whose context `c` of engine 0 is about to issue with the state `x`. -/
def host (c : Nat) (x : Ctx) : State := { live with engines := [(0, engineWith c (Ctx.go x))] }

/-- The issue of context `c` of engine 0. -/
def who (c : Fin 8) : Issue := { isl := 0, ctx := c }

/-- Context `c` of engine 0. -/
def here (c : Fin 8) : At := ⟨0, c⟩

/-- A window that holds the cells `l`, top first. -/
def win (l : List Word) : Window := { cells := l.reverse.zipIdx.map fun q => (q.2, q.1), depth := l.length, dirty := 0xF }

/-- A context that holds the cells `l`, top first. -/
def cells (l : List Word) : Ctx := { windows := [win l] }

/-- `State.Turn`, as a check. -/
def turn (s : State) (i : Issue) (len : Nat) : Bool :=
  let x := s.at' i
  let e := s.engOf i
  i.check == .pass && i.bad.isNone && s.mayIssue i.isl.val i.ctx.val && e.slot.isNone && e.micro.busy.isNone && e.stepping.isNone &&
    !e.haltPend && (List.range 8).all (fun c => !(e.ctx c).haltPend) && e.substPend.isNone &&
    decide (x.boundary i.ctx.val s.now = .clear) && (s.fetchBar i.isl.val i.ctx.val (SAddr.word x.pc)).isNone &&
    (s.eccBar i.isl.val (SAddr.word x.pc)).isNone && (len != 2 || !x.pc.getLsbD 0) && x.modePend.isEmpty && x.ending.isNone &&
    !(s.jobAt i.isl.val i.ctx.val).any (fun j => j.squashDue) && x.fpu.inflight.isEmpty

theorem turn_sound {s : State} {i : Issue} {len : Nat} (h : turn s i len = true) : s.Turn i len := by
  simp only [turn, Bool.and_eq_true, List.all_eq_true, List.mem_range, beq_iff_eq, Bool.not_eq_true', Option.isNone_iff_eq_none,
    decide_eq_true_eq, List.isEmpty_iff, Bool.or_eq_true, bne_iff_ne] at h
  obtain ⟨⟨⟨⟨⟨⟨⟨⟨⟨⟨⟨⟨⟨⟨⟨⟨h1, h2⟩, h3⟩, h4⟩, h5⟩, h6⟩, h7⟩, h8⟩, h9⟩, h10⟩, h11⟩, h12⟩, h13⟩, h14⟩, h15⟩, h16⟩, h17⟩ := h
  exact ⟨h1, h2, h3, h4, h5, h6, h7, h8, h9, h10, h11, h12, fun e => h13.resolve_left (by simp [e]), h14, h15, h16, h17⟩

/-- `State.Boundary`, as a check. -/
def boundary (s : State) (i : Issue) (len : Nat) : Bool :=
  turn s i len && (s.at' i).shadow.isEmpty && (s.at' i).rep.isNone && (s.at' i).loops.all (fun l => !l.passedBy (s.at' i).pc len)

theorem boundary_sound {s : State} {i : Issue} {len : Nat} (h : boundary s i len = true) : s.Boundary i len := by
  simp only [boundary, Bool.and_eq_true, List.all_eq_true, Bool.not_eq_true', Option.isNone_iff_eq_none, List.isEmpty_iff] at h
  exact ⟨turn_sound h.1.1.1, h.1.1.2, h.1.2, h.2⟩

/-- `State.Quiet`, as a check. -/
def quiet (s : State) (i : Issue) (len : Nat) : Bool :=
  boundary s i len && (s.at' i).lock.isNone && s.ldk.resv.all (fun r => r.2 != (i.isl.val, i.ctx.val))

theorem quiet_sound {s : State} {i : Issue} {len : Nat} (h : quiet s i len = true) : s.Quiet i len := by
  simp only [quiet, Bool.and_eq_true, List.all_eq_true, Option.isNone_iff_eq_none, bne_iff_ne] at h
  exact ⟨boundary_sound h.1.1, h.1.2, h.2⟩

/-- `Engine.Calm`, as a check. -/
def calm (e : Engine) : Bool :=
  e.slot.isNone && e.micro.busy.isNone && e.stepping.isNone && !e.haltPend && (List.range 8).all (fun c => !(e.ctx c).haltPend) && e.substPend.isNone

theorem calm_sound {e : Engine} (h : calm e = true) : e.Calm := by
  simp only [calm, Bool.and_eq_true, List.all_eq_true, List.mem_range, Bool.not_eq_true', Option.isNone_iff_eq_none] at h
  exact ⟨h.1.1.1.1.1, h.1.1.1.1.2, h.1.1.1.2, h.1.1.2, h.1.2, h.2⟩

/-- A complex without a patch and without a broken microcode word runs the ROM's own routines. -/
theorem own_store {s : State} {p : Nat} (h : s.mcs.remap = [] ∧ s.mcs.bad = []) : s.ownStore p :=
  ⟨h.1, fun a m => by rw [h.2] at m; exact absurd m List.not_mem_nil⟩

/-- `State.Resumes`, as a check. -/
def resumes (s : State) (p c len : Nat) : Bool :=
  let x := s.ctx p c
  calm (s.eng p) && (x.modePend.isEmpty && x.lock.isNone && x.rep.isNone) && x.ending.isNone &&
    !(s.jobAt p c).any (fun j => j.squashDue) && x.loops.all (fun l => !l.passedBy x.pc len)

theorem resumes_sound {s : State} {p c len : Nat} (h : resumes s p c len = true) : s.Resumes p c len := by
  simp only [resumes, Bool.and_eq_true, List.all_eq_true, Bool.not_eq_true', Option.isNone_iff_eq_none, List.isEmpty_iff] at h
  exact ⟨calm_sound h.1.1.1.1, ⟨h.1.1.1.2.1.1, h.1.1.1.2.1.2, h.1.1.1.2.2⟩, h.1.1.2, h.1.2, h.2⟩

/-- The hypotheses of a row statement, as a check. -/
def rowMet (row : Instr → Option Row) (s : State) (c : Instr) : Bool :=
  c.WF && match row c with
  | some (i, len, f) => quiet s i len && match f (s.at' i) with
    | some (d, g) => decide (d.length ≤ 16) && decide ((s.at' i).astack.length ≤ 8) && decide ((g (s.at' i)).astack.length ≤ 8)
    | none => false
  | none => false

theorem rowMet_sound {row : Instr → Option Row} {s : State} {c : Instr} (h : rowMet row s c = true) :
    c.WF = true ∧ ∃ i len f d g, row c = some (i, len, f) ∧ s.Quiet i len ∧ f (s.at' i) = some (d, g) ∧ d.length ≤ 16 ∧
      (s.at' i).astack.length ≤ 8 ∧ (g (s.at' i)).astack.length ≤ 8 := by
  simp only [rowMet, Bool.and_eq_true] at h
  obtain ⟨hw, h⟩ := h
  refine ⟨hw, ?_⟩
  split at h
  · rename_i i len f hr
    simp only [Bool.and_eq_true] at h
    obtain ⟨hq, h⟩ := h
    split at h
    · rename_i d g hf
      simp only [Bool.and_eq_true, decide_eq_true_eq] at h
      exact ⟨i, len, f, d, g, hr, quiet_sound hq, hf, h.1.1, h.1.2, h.2⟩
    · cases h
  · cases h

/-- What `rowMet` shows for every command of a list. -/
theorem rows_met {row : Instr → Option Row} {s : State} {l : List Instr} (h : (l.all fun c => rowMet row s c) = true) :
    ∀ c ∈ l, c.WF = true ∧ ∃ i len f d g, row c = some (i, len, f) ∧ s.Quiet i len ∧ f (s.at' i) = some (d, g) ∧ d.length ≤ 16 ∧
      (s.at' i).astack.length ≤ 8 ∧ (g (s.at' i)).astack.length ≤ 8 :=
  fun c hc => rowMet_sound (List.all_eq_true.1 h c hc)

/-! ## Row statements: each form with operands that meet its hypotheses -/

/-- Fourteen cells, so that DUP2 fills the window. -/
def fourteen : State := host 1 (cells ((List.range 14).map fun k => BitVec.ofNat 36 (k + 3)))

theorem witness_StackInstructions : (List.all [.nop (who 1), .dup (who 1), .drop (who 1), .swap (who 1), .over (who 1), .rot (who 1),
    .nip (who 1), .tuck (who 1), .dup2 (who 1), .drop2 (who 1), .swap2 (who 1), .depth (who 1), .pick (who 1) 13, .lit (who 1) 31,
    .litl (who 1) 0x1000, .litx (who 1) 1, .rdlc (who 1) 3] fun c => rowMet stackRow fourteen c) = true := by decide

/-- Two data cells and seven address cells. -/
def seven : State := host 1 { cells [0x45, 0x123456789] with astack := [0xFFFF, 1, 2, 3, 4, 5, 6], cb := 0x40 }

theorem witness_AddressStackInstructions : (List.all [.toa (who 1), .froma (who 1), .adup (who 1), .adrop (who 1), .aswap (who 1),
    .aadd (who 1), .ainc (who 1) 1, .ainc (who 1) 8, .bank (who 1) 0x80 false, .bank (who 1) 0 true]
    fun c => rowMet addressRow seven c) = true := by decide

/-- Three operand cells in a context with MODE.FLK and C set. -/
def three : State := host 1 { cells [5, 0x800000000, 1] with c := true, mode := 8 }

theorem witness_IntegerInstructions : (List.all [.add (who 1), .adc (who 1), .sub (who 1), .sbb (who 1), .neg (who 1), .and (who 1),
    .or (who 1), .xor (who 1), .not (who 1), .shl (who 1), .shr (who 1), .asr (who 1), .rol (who 1), .ror (who 1), .shli (who 1) 0,
    .shri (who 1) 35, .asri (who 1) 35, .roli (who 1) 35, .rori (who 1) 1, .cmp (who 1), .clz (who 1), .bfx (who 1) 4 31,
    .bfi (who 1) 35 0, .bperm (who 1) 0x1B, .mul (who 1), .mulu (who 1), .dstep (who 1)]
    fun c => rowMet integerRow three c) = true := by decide

theorem witness_ControlGoesOn : (List.all [.bz (who 1) 3, .bzl (who 1) 3, .setrc (who 1), .rep (who 1), .loop (who 1) 4, .yield (who 1),
    .mode (who 1), .breakl (who 1)] fun c => rowMet controlRow three c) = true ∧
    (List.all [.bnz (who 1) 3, .bnzl (who 1) 3] fun c => rowMet controlRow (host 1 (cells [0])) c) = true := by decide

theorem witness_QueryInstructions : (List.all [.feat (who 0) 3, .tbr (who 0), .ctxq (who 0), .pendq (who 0), .mboxQuery (who 0)]
    fun c => rowMet (queryRow (host 0 (cells [5]))) (host 0 (cells [5])) c) = true := by decide

theorem witness_FloatIssues_atOnce : (List.all [.fneg (who 1), .fabs (who 1), .fbar (who 1), .fflags (who 1)]
    fun c => rowMet floatNowRow three c) = true := by decide

/-- A job with an output capacity of nine octets, running on context 1 of engine 0. -/
def oneJob : Job := { inst := 0, chan := 0, pos := 0, entry := {}, desc := putNum 28 4 9, st := .running, place := some (0, 1)
                      inputs := [(0x1000, 64)], outputs := [(0x2000, 64)] }

/-- Context 1 of engine 0 with `x`, running `oneJob`. -/
def working (x : Ctx) : State := { host 1 { x with job := some 0 } with jobs := [(0, oneJob)] }

theorem witness_JobReadsAndWaits :
    (List.all [.ldesc (who 1) 15 0 false, .ldesc (who 1) 7 1 false, .waitu (who 1) false, .waitu (who 1) true] fun c =>
      rowMet (jobRow (working { cells [2] with unitTags := [(2, { kind := 2 })] }))
        (working { cells [2] with unitTags := [(2, { kind := 2 })] }) c) = true ∧
    rowMet (jobRow (working { cells [2] with unitTags := [(2, { kind := 2, done := some (0, 0) })] }))
      (working { cells [2] with unitTags := [(2, { kind := 2, done := some (0, 0) })] }) (.waitu (who 1) false) = true ∧
    (let s : State := { host 0 (cells [1]) with
      engines := [(0, { engineWith 0 (Ctx.go (cells [1])) with ctxs := [(0, Ctx.go (cells [1])), (1, { state := .blocked, job := some 0 })] })]
      jobs := [(0, oneJob)] }
     rowMet (jobRow s) s (.ldesc (who 0) 0 0 true) = true) := by decide

/-- A context with one decimal cell, −12. -/
def decimal : State := host 1 (cells [0x12D])

/-- A context with a decimal in a double cell, 12. -/
def decimals : State := host 1 (cells [0, 0x12C])

theorem witness_LedgerInstructions : (List.all [.lclr (who 1) 0, .lclrBal (who 1), .kclr (who 1) 3, .ktake (who 1) 0,
      .lscale (who 1) 0 40, .lrnd (who 1) 0 7 4, .losc (who 1) 40, .ladd (who 1) 0 false, .lsub (who 1) 3 false,
      .lconv (who 1) 0 false 3, .lconv (who 1) 0 true 3, .lconv (who 1) 0 true 4, .lconv (who 1) 0 true 5, .lconv (who 1) 0 true 6]
      fun c => rowMet ledgerRow decimal c) = true ∧
    (List.all [.ladd (who 1) 0 true, .lsub (who 1) 0 true, .lpostD (who 1) 0, .lpostC (who 1) 0, .lcmp (who 1) 0, .lmul (who 1) 0,
      .lflags (who 1), .lconv (who 1) 0 false 4] fun c => rowMet ledgerRow decimals c) = true ∧
    rowMet ledgerRow (host 1 (cells [97, 0, 0x12C])) (.ldstep (who 1) 0) = true ∧
    rowMet ledgerRow (host 1 (cells [0x2238000, 0x12])) (.lconv (who 1) 0 false 5) = true ∧
    rowMet ledgerRow (host 1 (cells [0x2208000, 0x0, 0x0, 0x12])) (.lconv (who 1) 0 false 6) = true ∧
    rowMet ledgerRow (host 1 (cells [BitVec.ofNat 36 (10 ^ 20 / 2 ^ 36), BitVec.ofNat 36 (10 ^ 20)])) (.lshare (who 1) 0 true) = true ∧
    rowMet ledgerRow (host 1 (cells [0, 0])) (.lshare (who 1) 0 false) = true := by decide

/-- The store is the ROM's own, and every value of the ledger carries its residue (R272, R328). -/
theorem witness_LedgerInstructions_sound : ∀ s ∈ [decimal, decimals], s.mcs.remap = [] ∧ s.mcs.bad = [] ∧
    ∀ k < 11, (s.at' (who 1)).ledger.sound k = true := by decide +kernel

theorem witness_QueryInstructions_store : (host 0 (cells [5])).ownStore 0 := own_store (by decide)

/-- What the row witnesses say, for one of their commands. -/
theorem witness_rows : ∃ i len f d g, stackRow (.dup2 (who 1)) = some (i, len, f) ∧ fourteen.Quiet i len ∧
    f (fourteen.at' i) = some (d, g) ∧ d.length ≤ 16 ∧ (fourteen.at' i).astack.length ≤ 8 ∧ (g (fourteen.at' i)).astack.length ≤ 8 :=
  (rows_met witness_StackInstructions _ (by decide)).2

/-! ## Memory, control, windows, traps -/

/-- `State.Plain`, as a check. -/
def plain (s : State) (i : Issue) (write : Bool) (a : WAddr) : Bool :=
  a.extractLsb' 16 8 == 0 && decide ((a.extractLsb' 0 16).toNat < 0x4000) && (s.accessBar i.isl.val i.ctx.val write a).isNone

theorem plain_sound {s : State} {i : Issue} {w : Bool} {a : WAddr} (h : plain s i w a = true) : s.Plain i w a := by
  simp only [plain, Bool.and_eq_true, beq_iff_eq, decide_eq_true_eq, Option.isNone_iff_eq_none] at h
  exact ⟨h.1.1, h.1.2, h.2⟩

/-- `State.Readable`, as a check. -/
def readable (s : State) (i : Issue) (a : WAddr) : Bool :=
  plain s i false a && decide ((a.extractLsb' 0 16).toNat ∉ (s.engOf i).bad) && (s.engOf i).sbuf.all fun e => e.addr != a

theorem readable_sound {s : State} {i : Issue} {a : WAddr} (h : readable s i a = true) : s.Readable i a := by
  simp only [readable, Bool.and_eq_true, decide_eq_true_eq, List.all_eq_true, bne_iff_ne] at h
  exact ⟨plain_sound h.1.1, h.1.2, h.2⟩

/-- The hypotheses of LoadInstructions, as a check. -/
def loadMet (s : State) (c : Instr) : Bool :=
  match loadRow c (s.at' (who 1)) with
  | some (i, l) => decide (i = who 1) && quiet s i 1 && l.addrs.all (readable s i) && decide ((s.at' i).astack.length ≤ 8) &&
      decide ((l.pushes (s.localWord i)).length + ((s.at' i).depth - l.pops) ≤ 16)
  | none => false

theorem loadMet_sound {s : State} {c : Instr} (h : loadMet s c = true) : ∃ i l, loadRow c (s.at' i) = some (i, l) ∧ s.Quiet i 1 ∧
    (∀ a ∈ l.addrs, s.Readable i a) ∧ (s.at' i).astack.length ≤ 8 ∧
      (l.pushes (s.localWord i)).length + ((s.at' i).depth - l.pops) ≤ 16 := by
  simp only [loadMet] at h
  split at h
  · rename_i i l hr
    simp only [Bool.and_eq_true, decide_eq_true_eq, List.all_eq_true] at h
    obtain ⟨⟨⟨⟨rfl, hq⟩, hl⟩, ha⟩, hd⟩ := h
    exact ⟨_, l, hr, quiet_sound hq, fun a m => readable_sound (hl a m), ha, hd⟩
  · cases h

/-- Context 1 at the first word of its own area, with byte offset 5 above one value, and fourteen cells in all. -/
def atArea : State := host 1 { cells ([5, 7] ++ List.replicate 12 0) with astack := [0x3200] }

theorem witness_LoadInstructions : (List.all [.ld (who 1), .ldp (who 1), .ldb (who 1), .ldh (who 1), .ldd (who 1), .ldu (who 1)]
    (loadMet atArea)) = true := by decide

theorem witness_LoadInstructions_split : ∃ i l, loadRow (.ldu (who 1)) (atArea.at' i) = some (i, l) ∧ atArea.Quiet i 1 ∧
    (∀ a ∈ l.addrs, atArea.Readable i a) ∧ (atArea.at' i).astack.length ≤ 8 ∧
      (l.pushes (atArea.localWord i)).length + ((atArea.at' i).depth - l.pops) ≤ 16 := loadMet_sound (by decide)

/-- The hypotheses of StoreInstructions, as a check. -/
def storeMet (s : State) (c : Instr) : Bool :=
  match storeRow c (s.at' (who 1)) with
  | some (i, l) => decide (i = who 1) && quiet s i 1 && l.parts.all (fun q => plain s i true q.1) &&
      decide ((s.engOf i).sbuf.length + l.parts.length ≤ 4) && decide ((s.at' i).astack.length ≤ 8) &&
      decide ((s.at' i).depth - l.pops ≤ 16)
  | none => false

theorem storeMet_sound {s : State} {c : Instr} (h : storeMet s c = true) : ∃ i l, storeRow c (s.at' i) = some (i, l) ∧
    s.Quiet i 1 ∧ (∀ q ∈ l.parts, s.Plain i true q.1) ∧ (s.engOf i).sbuf.length + l.parts.length ≤ 4 ∧
      (s.at' i).astack.length ≤ 8 ∧ (s.at' i).depth - l.pops ≤ 16 := by
  simp only [storeMet] at h
  split at h
  · rename_i i l hr
    simp only [Bool.and_eq_true, decide_eq_true_eq, List.all_eq_true] at h
    obtain ⟨⟨⟨⟨⟨rfl, hq⟩, hl⟩, hb⟩, ha⟩, hd⟩ := h
    exact ⟨_, l, hr, quiet_sound hq, fun a m => plain_sound (hl a m), hb, ha, hd⟩
  · cases h

theorem witness_StoreInstructions : (List.all [.st (who 1), .stp (who 1), .stb (who 1), .sth (who 1), .std (who 1), .stu (who 1)]
    (storeMet atArea)) = true := by decide

/-- One entry waits in the store buffer. -/
def draining : State := { live with engines := [(0, { engineWith 1 (Ctx.go {}) with sbuf := [⟨0x3200, [true, true, true, true], 9, 1, false⟩] })] }

theorem witness_MemoryEvents_drain : (draining.eng (0 : Fin 272)).sbuf = ⟨0x3200, [true, true, true, true], 9, 1, false⟩ :: [] ∧
    placeOf 0x3200 = .store 0x3200 := by decide

/-- An LD from the first word of the log deck waits for its data. -/
def awaiting : State := host 1 { cells [4] with astack := [0x400000], memWait := some (.ld (who 1)), memAt := [0x400000] }

theorem witness_MemoryEvents_data : awaiting.Resumes 0 1 1 ∧ (awaiting.eng 0).running = true ∧ (awaiting.ctx 0 1).state ≠ .halted ∧
    (awaiting.ctx 0 1).memWait = some (.ld (who 1)) ∧ (awaiting.ctx 0 1).astack = [0x400000] ∧ placeOf 0x400000 = .deck 0 ∧
    (awaiting.ctx 0 1).memAt = [0x400000] ∧ (awaiting.ctx 0 1).memGot = [] ∧ 0 ∉ awaiting.ldk.bad ∧ (awaiting.ctx 0 1).depth < 16 :=
  ⟨resumes_sound (by decide), by and_intros <;> decide⟩

theorem witness_LockedSequences_open : (Instr.lock (who 1) 8).WF = true ∧ atArea.Quiet (who 1) 1 ∧
    (atArea.at' (who 1)).astack = [0x3200] ∧ atArea.Readable (who 1) 0x3200 ∧ (atArea.at' (who 1)).depth < 16 :=
  ⟨by decide, quiet_sound (by decide), by decide, readable_sound (by decide), by decide⟩

/-- A locked sequence over the line of 0x3200 is open. -/
def locked (l : Option LockSeq) : State := host 1 { cells [7] with astack := [0x3200], lock := l }

theorem witness_LockedSequences_end : (locked (some ⟨false, 0x640, 3, false⟩)).Boundary (who 1) 1 ∧
    ((locked (some ⟨false, 0x640, 3, false⟩)).at' (who 1)).lock = some ⟨false, (BitVec.extractLsb' 0 16 (0x3200 : WAddr)).toNat / 8, 3, false⟩ ∧
    (locked (some ⟨false, 0x640, 3, false⟩)).Plain (who 1) true 0x3200 ∧ (locked none).Boundary (who 1) 1 ∧
    (locked none).Plain (who 1) true 0x3200 ∧ ((locked none).at' (who 1)).stack = [7] :=
  ⟨boundary_sound (by decide), by decide, plain_sound (by decide), boundary_sound (by decide), plain_sound (by decide), by decide⟩

/-- The hypotheses of TransfersTaken, as a check. -/
def hopMet (s : State) (c : Instr) : Bool :=
  match hopRow c (s.at' (who 1)) with
  | some (i, _, _, d, _) => decide (i = who 1) && quiet s i (hopLen c) && !s.dbg.trcEn && !(s.at' i).mode.getLsbD 0 &&
      decide (d.length ≤ 16) && decide ((s.at' i).astack.length ≤ 8)
  | none => false

theorem hopMet_sound {s : State} {c : Instr} (h : hopMet s c = true) : ∃ i target closes d g,
    hopRow c (s.at' i) = some (i, target, closes, d, g) ∧ s.Quiet i (hopLen c) ∧ s.dbg.trcEn = false ∧
      (s.at' i).mode.getLsbD 0 = false ∧ d.length ≤ 16 ∧ (s.at' i).astack.length ≤ 8 := by
  simp only [hopMet] at h
  split at h
  · rename_i i t b d g hr
    simp only [Bool.and_eq_true, decide_eq_true_eq, Bool.not_eq_true'] at h
    obtain ⟨⟨⟨⟨⟨rfl, hq⟩, h1⟩, h2⟩, h3⟩, h4⟩ := h
    exact ⟨_, t, b, d, g, hr, quiet_sound hq, h1, h2, h3, h4⟩
  · cases h

/-- A context with a return address, an open loop level and a target on its data stack. -/
def inLoop : State := host 1 { cells [0x40] with rstack := [0x80], loops := [⟨0, 0x100, 2⟩] }

theorem witness_TransfersTaken : (List.all [.br (who 1) 0, .br (who 1) 15, .bnz (who 1) 7, .brl (who 1) 0x800, .bnzl (who 1) 1,
      .call (who 1) 0x200, .callt (who 1), .ret (who 1), .jmpt (who 1), .breakl (who 1)] (hopMet inLoop)) = true ∧
    (List.all [.bz (who 1) 8, .bzl (who 1) 0x3FF, .loop (who 1) 511] (hopMet (host 1 (cells [0])))) = true := by decide

/-- The forerunner mode. -/
def forerunner (l : List Word) : State := host 1 { cells l with mode := 1 }

theorem witness_DelaySlots_branch : ∃ target closes d g, hopRow (.br (who 1) 3) ((forerunner []).at' (who 1)) =
      some (who 1, target, closes, d, g) ∧ (forerunner []).Quiet (who 1) 1 ∧ ((forerunner []).at' (who 1)).mode.getLsbD 0 = true ∧
      d.length ≤ 16 ∧ (hopRow (.bz (who 1) 3) ((forerunner [0]).at' (who 1))).isSome ∧ (forerunner [0]).Quiet (who 1) 1 ∧
      (hopRow (.bnz (who 1) 3) ((forerunner [1]).at' (who 1))).isSome ∧ (forerunner [1]).Quiet (who 1) 1 :=
  ⟨_, _, _, _, rfl, quiet_sound (by decide), by decide, by decide, by decide, quiet_sound (by decide), by decide, quiet_sound (by decide)⟩

/-- The slot of a taken branch to 0x20. -/
def inSlot : State :=
  { live with engines := [(0, { engineWith 1 (Ctx.go { mode := 1 }) with slot := some ⟨1, Ctx.go { mode := 1 }, 0x20, true⟩ })] }

theorem witness_DelaySlots_slot : inSlot.mayIssue 0 1 = true ∧ (inSlot.engOf (who 1)).slot = some ⟨1, Ctx.go { mode := 1 }, 0x20, true⟩ ∧
    (inSlot.engOf (who 1)).stepping = none ∧ (inSlot.engOf (who 1)).haltPend = false ∧ (∀ c < 8, ((inSlot.engOf (who 1)).ctx c).haltPend = false) ∧
    (inSlot.engOf (who 1)).substPend = none ∧ inSlot.dbg.trcEn = false ∧
    inSlot.fetchBar 0 1 (SAddr.word (inSlot.at' (who 1)).pc) = none ∧ inSlot.eccBar 0 (SAddr.word (inSlot.at' (who 1)).pc) = none ∧
    (let x := inSlot.at' (who 1); x.shadow = [] ∧ x.modePend = [] ∧ x.lock = none ∧ x.rep = none ∧ x.ending = none ∧
      x.fpu.inflight = [] ∧ x.loops = []) ∧ (inSlot.jobAt 0 1).any (fun j => j.squashDue) = false := by decide

theorem witness_WindowedCalls_call : (Instr.callw (who 1) 4 0x1FF).WF = true ∧
    (windowRow (.callw (who 1) 4 0x1FF) (fourteen.at' (who 1))).isSome = true ∧ fourteen.Quiet (who 1) 2 ∧
    (windowRow (.callwt (who 1) 2) (three.at' (who 1))).isSome = true ∧ three.Quiet (who 1) 1 ∧ fourteen.dbg.trcEn = false ∧
    (fourteen.at' (who 1)).tw = false ∧ (fourteen.at' (who 1)).windows.length < 8 ∧ (fourteen.at' (who 1)).callRoom = true :=
  ⟨by decide, by decide, quiet_sound (by decide), by decide, quiet_sound (by decide), by and_intros <;> decide⟩

/-- A callee with eight cells over a caller with eight. -/
def called : State := host 1 { windows := [win (List.replicate 8 1), win (List.replicate 8 2)], rstack := [0x30] }

theorem witness_WindowedCalls_return : called.Quiet (who 1) 1 ∧ called.dbg.trcEn = false ∧ (called.at' (who 1)).tw = false ∧
    (called.at' (who 1)).windows = [win (List.replicate 8 1), win (List.replicate 8 2)] ∧ (called.at' (who 1)).rstack = [0x30] ∧
    (win (List.replicate 8 1)).depth + (win (List.replicate 8 2)).depth ≤ 16 :=
  ⟨quiet_sound (by decide), by decide, by decide, by decide, by decide, by decide⟩

/-- A handler in its trap window, entered with C set and no window before. -/
def handling : State := host 1 { tw := true, trapWin := win [0x83, 0x10], rstack := [1, 0x22] }

theorem witness_TrapsAndReturns : handling.Quiet (who 1) 1 ∧ handling.dbg.trcEn = false ∧ (handling.at' (who 1)).rstack = [1, 0x22] ∧
    (handling.at' (who 1)).depth ≤ 16 ∧ three.Quiet (who 1) 1 ∧ (three.at' (who 1)).trapReady ∧ three.ownStore 0 :=
  ⟨quiet_sound (by decide), by decide, by decide, by decide, quiet_sound (by decide), ⟨by decide, .inr (by decide)⟩, own_store (by decide)⟩

theorem witness_TrapsBeforeEffect : (host 1 {}).Quiet (who 1) 1 ∧ (host 1 {}).Quiet (who 1) 2 ∧ (host 1 {}).dbg.trcEn = false ∧
    ((host 1 {}).at' (who 1)).trapReady ∧ ((host 1 {}).at' (who 1)).depth < 1 ∧ (host 0 {}).Quiet (who 0) 2 ∧
    ((host 0 {}).at' (who 0)).trapReady ∧ (host 1 {}).ownStore 0 ∧ (host 0 {}).ownStore 0 :=
  ⟨quiet_sound (by decide), quiet_sound (by decide), by decide, ⟨by decide, .inr (by decide)⟩, by decide, quiet_sound (by decide),
    ⟨by decide, .inr (by decide)⟩, own_store (by decide), own_store (by decide)⟩

/-- Context 1 at the syllable after address 0x10. -/
def oddly : State := { live with engines := [(0, engineWith 1 { state := .ready, pc := 0x11 })] }

/-- Table ENC.4, syllables for each of its first four causes: the unassigned short code 0x07F, the leader 0x1AD, a LITL at an odd
syllable, and COMMIT with a reserved bit set. -/
theorem witness_TrapsBeforeEffect_codes : syllableFault (who 1) 0x07F 0 false = some 1 ∧ syllableFault (who 1) 0x1AD 0 false = some 2 ∧
    syllableFault (who 1) 0x18F 0 true = some 3 ∧ syllableFault (who 1) 0x1E5 1 false = some 4 ∧
    (oddly.at' (who 1)).pc.getLsbD 0 = true ∧ ((host 1 {}).at' (who 1)).pc.getLsbD 0 = false := by decide

theorem witness_TrapsBeforeEffect_odd : oddly.Quiet (who 1) 1 ∧ oddly.ownStore 0 ∧ (oddly.at' (who 1)).trapReady :=
  ⟨quiet_sound (by decide), own_store (by decide), by decide, .inr (by decide)⟩

/-- Chapter 07, example of a fragment: 0o203_207_617_634 and 0o100_000_647_772. -/
theorem test_fragment : decodeShort (who 1) 0o203 = some (.lit (who 1) 3) ∧ decodeShort (who 1) 0o207 = some (.lit (who 1) 7) ∧
    decodeLong (who 1) 0o617 0o634 = .instr (.litl (who 1) (-100)) ∧ decodeShort (who 1) 0o100 = some (.add (who 1)) ∧
    decodeShort (who 1) 0o000 = some (.nop (who 1)) ∧ decodeLong (who 1) 0o647 0o772 = .instr (.brl (who 1) (-6)) ∧
    syllableFault (who 1) 0o647 0o772 true = some 3 := by decide

/-! ## System, jobs, ledger images, floating point -/

/-- The keeper of engine 0 with the cells `l`. -/
def keeper (l : List Word) : State := host 0 (cells l)

theorem witness_SleepAndEvents : (host 1 (cells [0, 1])).Quiet (who 1) 1 ∧ ((host 1 (cells [0, 1])).at' (who 1)).stack = [0, 1] ∧
    (who 1).ctx ≠ 0 ∧ (keeper [5]).Quiet (who 0) 1 ∧ ((keeper [5]).at' (who 0)).stack = [5] ∧ ((keeper [5]).src 5).prio = 0 ∧
    ((keeper [5]).src 5).count.toNat < 255 :=
  ⟨quiet_sound (by decide), by decide, by decide, quiet_sound (by decide), by decide, by decide, by decide⟩

/-- The keeper is about to send to engine 0, whose mailbox source no keeper takes. -/
def mailing : State := { keeper [0, 42] with evc := { srcs := [(256, { prio := 0, wakeEn := false, own := true })] } }

theorem witness_MailboxInstructions : mailing.Quiet (who 0) 2 ∧ (mailing.at' (who 0)).stack = [0, 42] ∧
    mailing.inService ((0 : Word).toNat % 256) = true ∧ (mailing.eng (mailing.physOf 0)).mbox.length < 8 ∧
    (mailing.src (256 + mailing.physOf 0)).prio = 0 ∧ (mailing.src (256 + mailing.physOf 0)).count.toNat < 255 ∧
    (mailing.at' (who 0)).depth ≤ 14 :=
  ⟨quiet_sound (by decide), by decide, by decide, by decide, by decide, by decide, by decide⟩

/-- The keeper in a WINDOW_OVER handler with two windows and room for exactly one frame. -/
def spilling : State := host 0 { tw := true, twCause := 5, windows := [win [1], win [2, 3]], wsp := 0x100, wsl := 0x111 }

/-- The keeper in a WINDOW_UNDER handler with one window spilled to the lowest frame. -/
def filling : State :=
  { live with engines := [(0, { engineWith 0 (Ctx.go { tw := true, twCause := 6, windows := [win [1]], spilled := 1, wsp := 17 }) with
      lstore := [(0, 0x21), (1, 7)] })] }

theorem witness_WindowSpills_spill : spilling.Quiet (who 0) 1 ∧ (spilling.at' (who 0)).windows = [win [1]] ++ [win [2, 3]] ∧
    (spilling.at' (who 0)).tw = true ∧ (spilling.at' (who 0)).twCause = 5 ∧
    (spilling.at' (who 0)).wsp.toNat + 17 ≤ (spilling.at' (who 0)).wsl.toNat ∧ (spilling.engOf (who 0)).sbuf = [] ∧
    (spilling.at' (who 0)).depth < 16 ∧ spilling.mcs.remap = [] ∧ spilling.mcs.bad = [] ∧
    ((List.range 17).all fun k => plain spilling (who 0) true (frameAddr (spilling.at' (who 0)).wsp k)) = true :=
  ⟨quiet_sound (by decide), by and_intros <;> decide +kernel⟩

/-- The frame of `filling`: one cell, in a dirty group. -/
def frame : Window := { cells := [(0, 7)], depth := 1, dirty := 1 }

theorem witness_WindowSpills_fill : filling.Quiet (who 0) 1 ∧ (filling.at' (who 0)).twCause = 6 ∧ 0 < (filling.at' (who 0)).spilled ∧
    17 ≤ (filling.at' (who 0)).wsp.toNat ∧ (∀ k < 17, (filling.at' (who 0)).wsp.toNat - 17 + k ∉ (filling.engOf (who 0)).bad) ∧
    (filling.engOf (who 0)).word ((filling.at' (who 0)).wsp.toNat - 17) = BitVec.ofNat 36 (frame.depth + 32 * frame.dirty.toNat) ∧
    (∀ k < 16, frame.cell k = if frame.dirty.getLsbD (k / 4) then (filling.engOf (who 0)).word ((filling.at' (who 0)).wsp.toNat - 16 + k) else 0) ∧
    (filling.at' (who 0)).windows.length < 8 ∧ filling.mcs.remap = [] ∧ filling.mcs.bad = [] ∧
    ((List.range 17).all fun k => plain filling (who 0) false (frameAddr ((filling.at' (who 0)).wsp - 17) k)) = true :=
  ⟨quiet_sound (by decide), by and_intros <;> decide +kernel⟩

/-- Extension 1 of stand 0 is present. -/
def extended : State := { host 1 (cells [2, 1]) with glb := { present := 2 :: List.replicate 15 0 } }

theorem witness_RequestsWait_units : (working (cells [9])).Quiet (who 1) 2 ∧ (working (cells [9])).ownStore 0 ∧
    ((working (cells [9])).at' (who 1)).job = some 0 ∧ (working (cells [9])).job 0 = some oneJob ∧
    1 ≤ ((working (cells [9])).at' (who 1)).depth ∧ 1 + bit true ≤ ((working (cells [9, 8])).at' (who 1)).depth :=
  ⟨quiet_sound (by decide +kernel), own_store (by decide), by and_intros <;> decide +kernel⟩

theorem witness_RequestsWait_others : (working (cells [3])).Quiet (who 1) 2 ∧
    (working (cells [3])).jobAt 0 1 = some oneJob ∧ ((working (cells [3])).at' (who 1)).stack = [3] ∧
    periodWord 0 oneJob.snap.ptSel 3 ∉ (working (cells [3])).ldk.bad ∧ extended.Quiet (who 1) 2 ∧
    (extended.glb.present.getD 0 0).getLsbD 1 = true ∧ (extended.at' (who 1)).stack = [2, 1] ∧
    extended.nextGen 0 1 (extended.at' (who 1)).extGen = some 1 :=
  ⟨quiet_sound (by decide +kernel), by decide +kernel, by decide +kernel, by decide +kernel, quiet_sound (by decide +kernel),
    by and_intros <;> decide +kernel⟩

/-- A transfer of the last 9 octets of input region 0 to the own area, in packed words. -/
def moving : State := working { cells [9, 55, 0] with astack := [0x3200] }

theorem witness_XferStarts : moving.Quiet (who 1) 2 ∧ (moving.at' (who 1)).job = some 0 ∧ moving.job 0 = some oneJob ∧
    (moving.at' (who 1)).stack = [9, 55, 0] ∧ (moving.at' (who 1)).astack = [0x3200] ∧ (9 : Word).toNat % 9 = 0 ∧
    (0x3200 : WAddr).toNat % 65536 + wordsFor true 9 ≤ 65536 ∧ ((xferWords 0x3200 true 9).all fun w => (moving.accessBar 0 1 (!false) w).isNone) = true ∧
    oneJob.region 0 = some (0x1000, 64) ∧ (55 : Word).toNat + (9 : Word).toNat ≤ 64 ∧ moving.mcs.remap = [] ∧ moving.mcs.bad = [] :=
  ⟨quiet_sound (by decide +kernel), by and_intros <;> decide +kernel⟩

/-- A context at COMMIT with a transfer still out. -/
def sealing : State := working { xfers := [(0, { toHost := false, packed := false, host := 0, len := 64, word := 0x3200, linesDue := 1 })] }

/-- A job at COMMIT with nothing outstanding, under each policy, with and without a staged octet and a balance. -/
def committing (policy : Nat) (staged : List (Nat × Octet)) (bal : Int) : State :=
  { working { ledger := { bal := bal } } with jobs := [(0, { oneJob with desc := oneJob.desc ||| putNum 3 1 policy, staged := staged })] }

/-- The trap form of ABORT in a handler with one cell. -/
def aborting : State := working { tw := true, trapWin := win [3] }

theorem witness_JobsEnd_waits : sealing.Quiet (who 1) 2 ∧ (sealing.at' (who 1)).xfers ≠ [] ∧ (sealing.at' (who 1)).job = some 0 ∧
    sealing.ownStore 0 := ⟨quiet_sound (by decide +kernel), by decide +kernel, by decide +kernel, own_store (by decide)⟩

/-- No commit, with and without a staged octet; a set to seal; and a balance that fails. -/
theorem witness_JobsEnd_commits : ∀ s ∈ [committing 0 [] 5, committing 0 [(0x2000, 1)] 0, committing 1 [(0x2000, 1)] 0, committing 1 [] 7],
    quiet s (who 1) 2 = true ∧ s.mcs.remap = [] ∧ s.mcs.bad = [] ∧ (s.at' (who 1)).xfers = [] ∧ s.unitsBusy 0 = false ∧ (s.at' (who 1)).job = some 0 ∧
    ((s.job 0).all fun j => j.place == some (0, 1)) = true ∧ (s.job 0).isSome = true := by decide +kernel

theorem test_policies : [0, 1, 2].map (fun k => ((committing k [] 0).job 0).map Job.policy) = [some 0, some 1, some 2] := by decide +kernel

theorem witness_JobsEnd_aborts : (working {}).Quiet (who 1) 2 ∧ ((working {}).at' (who 1)).job = some 0 ∧
    (working {}).job 0 = some oneJob ∧ oneJob.place = some (0, 1) ∧ aborting.Quiet (who 1) 2 ∧ (aborting.at' (who 1)).tw = true ∧
    1 ≤ (aborting.at' (who 1)).depth :=
  ⟨quiet_sound (by decide +kernel), by decide +kernel, by decide +kernel, by decide +kernel, quiet_sound (by decide +kernel),
    by decide +kernel, by decide +kernel⟩

/-- Context 1 with a zeroed image but for its sign, at the end of its area. -/
def imaged : State :=
  { live with engines := [(0, { engineWith 1 (Ctx.go { astack := [0x33F5] }) with lstore := [(0x33FF, 0xC)] })] }

theorem witness_LedgerImages : imaged.Quiet (who 1) 1 ∧ (imaged.at' (who 1)).astack = [0x33F5] ∧
    ((List.range 11).all fun k => readable imaged (who 1) (WAddr.plus 0x33F5 k)) = true ∧
    ((List.range 11).all fun k => plain imaged (who 1) true (WAddr.plus 0x33F5 k)) = true ∧ (imaged.engOf (who 1)).sbuf = [] ∧
    (let n := (List.range 11).flatMap fun k => wordNibbles (imaged.localWord (who 1) (WAddr.plus 0x33F5 k))
     checkDecimal (n.take 98) (n.getD 98 0) = .value 0) ∧ imaged.mcs.remap = [] ∧ imaged.mcs.bad = [] ∧
    (∀ k < 11, (imaged.at' (who 1)).ledger.sound k = true) :=
  ⟨quiet_sound (by decide +kernel), by and_intros <;> decide +kernel⟩

theorem witness_ImageReadsBack : (10 ^ 98 - 1 : Int).natAbs < 10 ^ 98 ∧ (-(10 ^ 98 - 1) : Int).natAbs < 10 ^ 98 := by decide

theorem witness_RoundingModes : 0 < 2 ∧ (6 : Int) % (2 : Nat) = 0 ∧ (-5 : Int) % (2 : Nat) ≠ 0 := by decide

/-- An accumulator with 2 decimal places that holds 1.00 and a kerf. -/
def acc : Accum := { coef := 100, kerf := 3 * 10 ^ 40 + 7, scale := 2, mode := 1 }

theorem witness_ExactValueKept : (∃ b, acc.addAt 1 42 = some (b, false)) ∧ (∃ b, acc.take = some b) ∧ (∃ b, acc.rescale 3 = .ok b) ∧
    ∃ b, acc.times 5 40 = some (b, false) := ⟨⟨_, rfl⟩, ⟨_, rfl⟩, ⟨_, rfl⟩, ⟨_, rfl⟩⟩

/-- The hypotheses of the first clause of FloatIssues, as a check. -/
def floatMet (s : State) (c : Instr) : Bool :=
  match floatRow c (s.at' (who 1)) with
  | some (i, len, _, dIn, size, _) => decide (i = who 1) && quiet s i len && decide ((s.at' i).depth - dIn + size ≤ 16) &&
      decide ((s.at' i).astack.length ≤ 8)
  | none => false

/-- Sixteen cells, every two a binary64 value. -/
def values : State := host 1 (cells (List.replicate 16 0))

theorem witness_FloatIssues : (List.all [.fadd (who 1), .fsub (who 1), .fmul (who 1), .fma (who 1), .fstep (who 1), .fcmp (who 1),
      .frecip (who 1), .frsqrt (who 1), .fcvt (who 1) 0 3, .fcvt (who 1) 1 0, .fcvt (who 1) 4 0, .fcvt (who 1) 5 0] (floatMet values)) = true ∧
    (List.all [.fcvt (who 1) 2 0, .fcvt (who 1) 3 0] (floatMet fourteen)) = true := by decide

/-- 1 + 1 under FLUSH is in flight. -/
def adding : State := { live with engines := [(0, { engineWith 1 (Ctx.go { cells [0, 0] with
  fpu := { inflight := [{ kind := .add, addr := 0x10, inTrap := false, pos := 1, size := 2, a := 0x3FF0000000000000, b := 0x3FF0000000000000,
                          c := 0, flush := true }] } }) with slot := none })] }

theorem witness_FloatCompletes : (adding.eng 0).running = true ∧ (adding.eng 0).slot = none ∧
    (adding.ctx 0 1).fpu.inflight.length = 1 ∧
    ((adding.ctx 0 1).fpu.inflight.all fun o => o.flush && !o.inTrap && (adding.ctx 0 1).fpu.enabled (o.raw true).flags == 0) = true := by decide

/-! ## Engine events -/

/-- A blocking transfer of nine octets to local store has arrived whole. -/
def arriving (toHost : Bool) : State :=
  let x : Ctx := { state := .blocked, pc := 0x10, job := some 0, wait := .xfer
                   xfers := [(16, { toHost := toHost, packed := false, host := 0x2000, len := 9, word := 0x3200, linesDue := 0 })] }
  { live with engines := [(0, engineWith 1 x)], jobs := [(0, oneJob)] }

theorem witness_TransferCompletes : ∀ b, (Assoc.lookup ((arriving b).ctx 0 1).xfers 16).isSome = true ∧
    ((Assoc.lookup ((arriving b).ctx 0 1).xfers 16).all fun f => f.linesDue == 0 && !((arriving b).ctx 0 1).xferHeld f && f.toHost == b &&
      (xferWords f.word f.packed f.len).all (fun w => decide (placeOf w = .store (w.toNat % 65536))) && ((arriving b).eccBars 0 (xferWords f.word f.packed f.len)).isNone &&
      (unpackOctets f.packed f.len ((xferWords f.word f.packed f.len).map fun w => (arriving b).wordAt 0 w)).isSome) = true ∧
    ((arriving b).ctx 0 1).job = some 0 ∧ ((arriving b).ctx 0 1).state = .blocked ∧ ((arriving b).ctx 0 1).depth < 16 := by decide +kernel

theorem witness_TransferCompletes_job : ∀ b, (arriving b).job 0 = some oneJob ∧ 9 ≤ oneJob.capacity := by decide +kernel

/-- A context asleep until now. -/
def asleep : State := { live with engines := [(0, engineWith 1 { state := .sleeping, wake := some 1000 })] }

/-- A context whose job timer runs out now, in an engine whose watchdog runs out now. -/
def late : State := { live with engines := [(0, { engineWith 1 { state := .sleeping, jobTimer := .until 1000 } with wdt := .until 1000 })] }

theorem witness_TimersExpire : (asleep.ctx 0 1).wake = some 1000 ∧ 1000 ≤ asleep.now ∧ (asleep.ctx 0 1).state = .sleeping ∧
    (late.ctx 0 1).state = .sleeping ∧ (late.ctx 0 1).jobTimer = .until 1000 ∧ 1000 ≤ late.now ∧ (late.ctx 0 1).memWait = none ∧
    (late.eng 0).Calm ∧ (late.ctx 0 1).lock = none ∧ late.ldk.resv = [] ∧ (late.eng 0).running = true ∧ (late.eng 0).halted = false ∧
    (late.eng 0).wdt = .until 1000 ∧ (late.eng 0).wdtLoad ≠ 0 ∧ late.logicalOf 0 = some 0 ∧
    (inHour late.now (late.log 0).mcAt).length < 3 ∧ late.jobs = [] ∧ late.ownStore 0 ∧ late.noneWaits := by
  refine ⟨?_, ?_, ?_, ?_, ?_, ?_, ?_, calm_sound (by decide), ?_, ?_, ?_, ?_, ?_, ?_, ?_, ?_, ?_, own_store (by decide), by unfold State.noneWaits; decide⟩ <;> decide

/-- R367, step 3: a source without WAKE that waits for the keeper of engine 0 is signalled to it when the keeper wakes. -/
theorem test_wokenKeeperGetsSource :
    let e : Engine := { engineWith 0 { state := .sleeping, wake := some 1000 } with ie := true }
    let s : State := { live with
      engines := [(0, e)]
      evc := { srcs := [(5, { prio := 15, wakeEn := false, own := false, tset := 1, count := 1, pend := true })], sets := [(8, 1)] } }
    (match exec (.sleepExpiry ⟨0, 0⟩) s with
    | .next t => (t.src 5).sig && (t.ctx 0 0).state == .ready
    | _ => false) = true := by decide

/-- Source 5, of priority 15, is signalled to the keeper of engine 0, whose return stack has just enough room. -/
def interrupted : State := { live with
  engines := [(0, { engineWith 0 (Ctx.go { rstack := List.replicate 30 0 }) with ie := true })]
  evc := { srcs := [(5, { prio := 15, wakeEn := false, own := false, count := 1, pend := true, sig := true, engine := 0 })] } }

theorem witness_KeeperEntries_interrupt : interrupted.entryDue 0 = true ∧ interrupted.irqDue 0 = true ∧
    (interrupted.eng 0).delivered = [] ∧ interrupted.dbg.trcEn = false ∧ (∀ c < 8, (interrupted.ctx 0 c).lock = none) ∧
    (interrupted.ctx 0 0).modePend = [] ∧ (interrupted.ctx 0 0).rstack.length ≤ 30 ∧ (interrupted.ctx 0 0).rep = none ∧
    interrupted.mcs.remap = [] ∧ interrupted.mcs.bad = [] := by decide

/-- A JOB_TIMER trap of context 1 waits for the keeper. -/
def delivered : State := { live with
  engines := [(0, { engineWith 0 (Ctx.go {}) with ctxs := [(0, Ctx.go {}), (1, { state := .frozen, job := some 0 })], delivered := [⟨1, 0x200D, 0x10⟩] })]
  jobs := [(0, oneJob)] }

theorem witness_KeeperEntries_delivered : (delivered.eng 0).delivered = [⟨1, 0x200D, 0x10⟩] ∧ delivered.entryDue 0 = true ∧
    (delivered.ctx 0 0).tw = false ∧ (delivered.eng 0).stepping = none ∧ (∀ c < 8, (delivered.ctx 0 c).lock = none) ∧
    (delivered.ctx 0 0).rstack.length ≤ 30 ∧ (delivered.ctx 0 1).job = some 0 ∧ delivered.job 0 = some oneJob ∧
    oneJob.place = some (0, 1) ∧ delivered.mcs.remap = [] ∧ delivered.mcs.bad = [] := by decide +kernel

/-- Context 1 holds a job that waits for GO. -/
def assigned : State := { live with engines := [(0, engineWith 1 { state := .assigned, job := some 0 })], jobs := [(0, oneJob)] }

theorem witness_KeeperEntries_go : (assigned.eng 0).running = true ∧ (assigned.ctx 0 1).state = .assigned ∧
    (assigned.ctx 0 1).job = some 0 ∧ assigned.job 0 = some oneJob ∧ (assigned.ctx 0 2).state ≠ .assigned ∧
    (assigned.eng 0).halted = false := by decide +kernel

/-- Engine 0 waits for its substitution. -/
def failing : State := { live with engines := [(0, { engineWith 1 {} with substPend := some 6 })] }

/-- The contents of engine 0 have been copied to the coppice engine. -/
def copied : State := { live with engines := [(0, { engineWith 1 {} with running := false })], spares := [(0, { copying := some (0, 6) })] }

theorem witness_CoppiceTakesOver : (failing.eng 0).substPend = some 6 ∧ (failing.eng 0).held = false ∧ (failing.spare 0).st = 0 ∧
    (failing.spare 0).copying = none ∧ failing.logicalOf 0 = some 0 ∧ (failing.eng 0).sbuf = [] ∧
    (copied.spare 0).copying = some (0, 6) ∧ (copied.log 0).phys < 16 ∧ (copied.eng (copied.physOf 0)).bad = [] ∧
    (copied.eng (copied.physOf 0)).haltPend = false ∧ (∀ c < 8, (copied.ctx (copied.physOf 0) c).haltPend = false) := by decide

/-! ## Dispatch, cruise, epochs -/

/-- A job of user 0, whose share is one context, waits in the queue of stand 0. -/
def queued : State := { live with
  engines := [(0, engineWith 0 (Ctx.go {}))]
  insts := [(0, { shares := [(0, ⟨0x00010000, 0x00010000, none⟩)] })]
  jobs := [(0, { oneJob with st := .accepted, place := none, queued := true })] }

theorem witness_DispatchPlaces : queued.works = true ∧ queued.quietOut.placePump.hasRoom 0 = true ∧
    (queued.quietOut.placePump.pickJob 0).isSome = true ∧
    ((queued.quietOut.placePump.pickJob 0).all fun q => q.1 == 0 && decide (queued.quietOut.placePump.pickEngine 0 q.2.progKey = some (0, 1)) &&
      decide (q.2.reserve ≤ queued.quietOut.placePump.gransApplied q.2.inst) && decide (queued.quietOut.placePump.job 0 = some q.2)) = true ∧
    (queued.quietOut.placePump.eng 0).overlays = [] ∧ queued.quietOut.placePump.dsp.cache = [] ∧
    (queued.jobs.all fun q => decide (queued.minCtx q.2.inst ≤ queued.contextsOf q.2.inst)) = true := by decide +kernel

/-- The same with the job's program in engine 0, signed. -/
def readied : State := { queued with
  engines := [(0, { engineWith 0 (Ctx.go {}) with overlays := [{ key := oneJob.progKey, gen := 0, addr := 0, words := 4, signed := true }] })] }

theorem witness_DispatchPlaces_overlay :
    ((readied.quietOut.placePump.eng 0).overlays.find? fun o => o.key == oneJob.progKey && !o.stale).isSome = true ∧
    ((readied.quietOut.placePump.pickJob 0).all fun q => decide (readied.quietOut.placePump.pickEngine 0 q.2.progKey = some (0, 1)) &&
      (readied.quietOut.placePump.eng 0).overlays.all (fun o => !readied.quietOut.placePump.unsigned q.2 o.signed)) = true := by decide +kernel

theorem witness_CruiseAndPower : live.works = true ∧ live.life.shut ≠ .squash ∧ live.sampled 0 = true ∧ live.sampled 16 = true ∧
    920000 * 2000 ≤ 1840000000 ∧ 1840000000 < 920001 * 2000 ∧ (26000 : BitVec 16).toNat ≤ min 26000 live.chk.budget.toNat ∧
    min 26000 live.chk.budget.toNat < (26001 : BitVec 16).toNat ∧ (∀ p < 272, (live.eng p).step ≤ 32) := by decide +kernel

/-- An epoch boundary falls now; HOLD was cleared two ticks ago. -/
def atBoundary (hold : Bool) : State :=
  { live with dsp := { due := some 1000, hold := hold, holdCleared := 998, affBack := some 0xFFFF } }

/-- The same boundary in RETAIN. -/
def quietNight : State := { atBoundary false with life := { live.life with power := .retain } }

theorem test_quietNight : quietNight.ready = true ∧ quietNight.dsp.due = some 1000 ∧ 1000 ≤ quietNight.now ∧
    quietNight.life.power = .retain ∧
    (match exec .epochBoundary quietNight with
      | .next t => decide (t.dsp.epoch = quietNight.dsp.epoch) && decide (1000 < t.dsp.due.getD 0)
      | _ => false) = true := by decide +kernel

/-- Granule 100 drains, and nothing holds it. -/
def zeroing : State := { live with ldk := { grans := [(100, { granDflt 100 with draining := some .free })] } }

/-- A boundary at which a channel enable that was read 2 ticks ago, and a granule's new owner, are due. -/
def turning : State := { atBoundary false with
  insts := [(0, { count := 8 })]
  ldk := { grans := [(100, { granDflt 100 with wrote := some 998 })] }
  chans := [(5, { refresh := .got 998 false true { dbell := 0x1000, sub := 0x4000 } })]
  dsp := { (atBoundary false).dsp with affReady := some 998 } }

theorem witness_EpochsApply : (atBoundary false).ready = true ∧ (atBoundary false).dsp.due = some 1000 ∧ 1000 ≤ (atBoundary false).now ∧
    (atBoundary false).life.power = .run ∧ (atBoundary false).applies 1000 = true ∧ (atBoundary true).applies 1000 = false ∧
    (atBoundary true).ready = true ∧ (Gov.mk (0 : Nat) 1 (some 998)).wrote = some 998 ∧
    (atBoundary true).up = true ∧ (atBoundary true).dsp.affBack ≠ none ∧ (atBoundary true).dsp.affReady = none ∧ zeroing.works = true ∧
    (zeroing.gran (100 : BitVec 10).toNat).draining ≠ none ∧ zeroing.granHeld (100 : BitVec 10).toNat = false := by decide +kernel

theorem witness_EpochsApply_due : turning.ready = true ∧ turning.applies 1000 = true ∧ turning.servedHere 0 = true ∧
    turning.ownsChan 0 5 = true ∧ turning.life.lc ≠ .blank ∧
    (turning.chan 5).refresh = .got 998 false true { dbell := 0x1000, sub := 0x4000 } ∧ turning.dsp.affBack = some 0xFFFF ∧
    turning.dsp.affReady = some 998 := by decide +kernel

/-! ## Channels and ports -/

/-- Channel 5 of user 0 has ten jobs beyond its fetch position; its doorbell line is 0x40. -/
def ringing : State := { live with
  insts := [(0, { shares := [(3, ⟨0x00010004, 0x00010004, none⟩)] })]
  chans := [(5, { entry := some { dbell := 0x1000, sub := 0x4000 }, enabled := true, tail := 10 })] }

theorem witness_ChannelsFetch : (ringing.chan (5 : BitVec 13).toNat).entry = some { dbell := 0x1000, sub := 0x4000 } ∧
    (ringing.chan 5).enabled = true ∧ ringing.fetchOk = true ∧ ringing.instRuns 0 = true ∧ ringing.bellWaits 0 0x40 = false ∧ ringing.bellOut 0 0x40 = false ∧ ringing.pollDue 5 = true ∧
    ((ringing.bellChans 0x40).find? (fun q => ringing.instRuns q.2.instNum)).isSome = true ∧ ringing.up = true ∧
    ringing.life.power = .run ∧ ringing.life.noClock = [] ∧ (ringing.port 1).ntCredits ≠ 0 ∧ (ringing.port 1).en = true ∧ ringing.nextPos 5 = some 0 ∧
    ringing.acceptUse 0 < ringing.acceptShare 0 ∧ ringing.acceptTotal < 16384 ∧ ringing.fetchTurn 0 = some 5 := by decide +kernel

/-- A port whose tag 7 is in the state `st`. -/
def tagged (st : TagState) : State := { live with
  ports := [(0, { up := true, credits := 3, tags := [(7, { st := st, due := 900, req := readReq 0x1000 0 1 (.doorbell 0 0x40) })] })] }

theorem witness_HostRequestsEnd :
    (List.all [.outstanding, .retryWait 64, .quarantined] fun st => decide ((Assoc.lookup ((tagged st).port 0).tags 7).isSome = true ∧
      (Assoc.lookup ((tagged st).port 0).tags 7).all (fun u => u.st == st && decide (u.retries < 15 ∧ u.due ≤ (tagged st).now)) = true ∧
      (tagged st).up = true ∧ (tagged st).life.power = .run ∧ ((tagged st).port 0).rsCredits ≠ 0 ∧
      ((tagged st).port 0).credits ≠ 0 ∧ (tagged st).portStill 0 = false ∧
      (readReq 0x1000 0 1 (.doorbell 0 0x40)).purpose.fenced = false)) = true := by decide

/-- Port 0 is down at the ready phase, and the telemetry ring waits for room with a completion record to write again. -/
def waiting : State := { live with chk := { tel :=
  { en := true, head := 0, tail := 64, wait := [{ body := 0, pos := some 3, stage := .failed }, { body := 0 }], ctlAt := some 900 } } }

theorem witness_PortsAndRings : waiting.up = true ∧ waiting.portsOn = true ∧ waiting.life.power = .run ∧ (waiting.port 0).credits < 255 ∧
    (waiting.port 0).up = false ∧ (waiting.port 0).en = true ∧ 6 < waiting.life.phase ∧ ((tagged .outstanding).port 0).up = true ∧
    ((tagged .outstanding).port 0).credits < 255 ∧ (tagged .outstanding).up = true ∧ (tagged .outstanding).portsOn = true ∧
    waiting.mustRun .hclk0 = true ∧ waiting.mustRun .hclk1 = true ∧
    (waiting.ring .telemetry).en = true ∧ (waiting.ring .telemetry).starting = false ∧ (waiting.ring .telemetry).starved = true ∧
    (waiting.ring .telemetry).ctlOut = false ∧ (waiting.ring .telemetry).ctlAt = some 900 ∧ 900 + 100 ≤ waiting.now ∧
    (((waiting.ring .telemetry).wait.find? fun w => w.stage == .failed).all fun q => q.pos == some 3) = true ∧
    ((waiting.ring .telemetry).wait.find? fun w => w.stage == .failed).isSome = true := by decide

/-- A record of user 3's ring waits to be written again; its user logs dirty pages from address 0 on, or not at all. -/
def rewriting (logs : Bool) : State := { live with insts := [(3, {
  errRing := { en := true, wait := [{ body := 0, pos := some 3, stage := .failed }] }, dl := { en := logs, pages := 8 } })] }

theorem witness_PortsAndRings_rewrite : ∀ b, (rewriting b).up = true ∧ ((rewriting b).ring (.inst 3)).en = true ∧
    (((rewriting b).ring (.inst 3)).wait.find? fun w => w.stage == .failed && decide (w.due ≤ (rewriting b).now)) = some { body := 0, pos := some 3, stage := .failed } ∧
    ((rewriting b).inst 3).dl.en = b ∧
    (b = true → (((rewriting b).inst 3).dl.bit (((rewriting b).ring (.inst 3)).slotAddr 3)).isSome = true) := by decide +kernel

theorem witness_PortsAndRings_mclk : { live with mir := { en := true } }.mustRun .mclk = true := by decide

/-! ## Units -/

/-- A context whose ZREQ waits for its answer, with room in the share of user 0. -/
def asking : State :=
  let x : Ctx := { cells [0x410000] with wait := .admission (.zreq (who 1) false false), state := .blocked, job := some 0, pc := 0x10 }
  { live with engines := [(0, engineWith 1 x)], jobs := [(0, oneJob)], insts := [(0, { shares := [(3, ⟨0x00010004, 0x00010004, none⟩)] })] }

/-- One request of each unit: on lane 3, or waiting. -/
def serving (lane : Option Nat) : State := { live with units := { drbgState := 1, reqs := [
  (0, { unit := .cipher, inst := 0, job := 0, tag := 0, block := 0x410000, lane := lane }),
  (1, { unit := .compression, inst := 0, job := 0, tag := 1, block := 0x410100, lane := lane })] } }

theorem witness_UnitsServe_admission : asking.Resumes 0 1 2 ∧ (asking.ctx 0 1).wait = .admission (.zreq (who 1) false false) ∧
    (asking.ctx 0 1).state = .blocked ∧ (asking.ctx 0 1).shadow = [] ∧ (asking.ctx 0 1).job = some 0 ∧ asking.job 0 = some oneJob ∧
    asking.units.waiting = [] ∧ asking.unitUse oneJob.inst < asking.unitShare oneJob.inst ∧
    asking.units.reqs.length + asking.units.waiting.length < 24576 ∧
    (BitVec.ofNat 16 (lineNum oneJob.desc 48 2)).getLsbD 4 = false ∧ (asking.ctx 0 1).stack = [0x410000] ∧
    (asking.ctx 0 1).freeUnitTag = some 0 ∧ (asking.ctx 0 1).depth ≤ 16 :=
  ⟨resumes_sound (by decide +kernel), by and_intros <;> decide +kernel⟩

/-- A chained compression request holds compression lane 3 and wants a cipher lane. -/
def chaining : State := { live with units := { drbgState := 1, reqs := [
  (0, { unit := .compression, inst := 0, job := 0, tag := 0, block := 0x410000, opts := 16, lane := some 3 })] } }

theorem witness_UnitsServe_lanes :
    (List.all [.cipher, .compression] fun u => !(serving none).laneBarred u 3 && ((serving none).laneTurn u).isSome) = true ∧
    (∀ q ∈ (serving none).units.reqs, q.2.wantsLane = false) ∧ chaining.laneBarred .cipher 3 = false ∧
    (chaining.units.reqs.find? fun q => q.2.wantsLane).isSome = true ∧
    { live with units := { drbgState := 3 } }.units.stalled.contains 2 = false := by decide +kernel

theorem witness_UnitsServe_ends :
    (((serving (some 3)).onLane .cipher 3).all fun q => q.2.unit == .cipher && !q.2.keyLost && !((serving (some 3)).cipherEnd q.2).unitError) = true ∧
    ((serving (some 3)).onLane .cipher 3).isSome = true ∧ (serving (some 3)).units.stalled = [] ∧
    (((serving (some 3)).onLane .compression 3).all fun q => !q.2.keyLost && (serving (some 3)).chainRuns q.2 &&
      !((serving (some 3)).compressEnd q.2).unitError && !((serving (some 3)).compressEnd q.2).historyBad) = true ∧
    ((serving (some 3)).onLane .compression 3).isSome = true := by decide +kernel

/-- A DRBG that is neither new nor STARVED answers. -/
theorem drbg_answers (s : State) (h : s.units.drbgState = 1) : ∃ o t, s.drbg = some (o, t) := by simp [State.drbg, h]

/-- A derivation of a CIPHER key for user 0 is under way in slot 9. -/
def derived : State := { live with units := { drbgState := 1, slots := [(9, { work := some (0x100, 1, []) })] } }

theorem witness_UnitsServe_keys : (∃ o t, derived.quietOut.drbg = some (o, t)) ∧
    (derived.slot (9 : BitVec 10).toNat).work = some (0x100, 1, []) ∧ ((0x100 : BitVec 20).extractLsb' 8 3).toNat < 3 :=
  ⟨drbg_answers _ (by decide), by decide +kernel, by decide⟩

/-! ## Extensions, upkeep -/

/-- Context 1 of engine 0 waits for the answer of an extension. -/
def extending (sent : Bool) : State :=
  { live with
    engines := [(0, engineWith 1 { cells [2, 1] with wait := .extension, state := .blocked, pc := 0x10, extGen := 1 })]
    exts := [(0, { live := [(1, { gen := 1, op := 0x200, a := 1, b := 2, sent := sent })] })] }

theorem witness_ExtensionsAnswer : Assoc.lookup ((extending false).ext 0).live (1 : BitVec 8).toNat = some ⟨1, 0x200, 1, 2, false, none⟩ ∧
    Assoc.lookup ((extending true).ext 0).live (1 : BitVec 8).toNat = some ⟨1, 0x200, 1, 2, true, none⟩ ∧
    (extending true).Resumes 0 1 2 ∧ ((extending true).ctx 0 1).wait = .extension ∧ ((extending true).ctx 0 1).state = .blocked ∧
    ((extending true).ctx 0 1).shadow = [] ∧ 2 ≤ ((extending true).ctx 0 1).depth ∧ ((extending true).ctx 0 1).depth ≤ 16 ∧
    (extending false).portStill 0 = false := ⟨by decide, by decide, resumes_sound (by decide), by and_intros <;> decide⟩

/-- Event timer 3, periodic or not, expires now; user 2 has drained nothing by its limit, and holds nothing. -/
def expiring (periodic : Bool) : State := { live with
  evc := { timers := [(3, { en := true, periodic := periodic, period := 50, timer := .until 1000 })] }
  insts := [(2, { rstate := .draining, rstDue := some 1000 })] }

theorem witness_UpkeepRuns : live.scrubs = true ∧ (0x123 : BitVec 14).toNat ∉ (live.eng (5 : Fin 272).val).bad ∧
    (∀ b, (Tab.get (fun _ => {}) (expiring b).evc.timers (3 : BitVec 5).toNat) = EvTimer.mk true b 50 (.until 1000)) ∧
    (∀ b, (expiring b).up = true ∧ 1000 ≤ (expiring b).now) ∧ ((expiring true).inst (2 : BitVec 8).toNat).rstate = .draining ∧
    ((expiring true).inst 2).rstDue = some 1000 ∧ (expiring true).trackerEmpty 2 = true := by decide

/-! ## The mirror link -/

/-- A record of user 0 without data. -/
def record : Record := { inst := 0, chan := 0, pos := 0, csn := 1 }

/-- A record with `n` extents to come is open on lane 0. -/
def opened (n : Nat) : Partial := { rid := 1, body := record, extents := n }

/-- A link in the state `l` with lane 0 up; it holds record 1 of the partner and awaits the answer to its own record 1. -/
def linked (l : Link) (b : Option Partial) : State := { live with mir :=
  { en := true, link := l, nonce := 77, lanes := [(0, { up := true, txSeq := 5, rxSeq := 9, lastRx := 900, building := b })]
    own := [(1, { job := none, body := record, cost := 1 })], held := [(8193, record)], heldUnits := 1 } }

/-- A sequenced frame that lane 0 expects. -/
def frameIn (typ : BitVec 4) (body : List (Nat × Nat × Nat)) : BitVec 256 := mkFrame typ 9 5 (bodyOf body)

theorem hears_of {s : State} {k typ : Nat} {f : BitVec 256} (h : (s.linkOn && f.extractLsb' 0 32 == frameCrc f && frameType f == typ &&
    (s.lane k).up && frameSeq f == (s.lane k).rxSeq && frameRseq f == (s.lane k).oldest && decide ((s.lane k).accepted < 511) &&
    !s.linkStill) = true) : s.Hears k typ f := by
  simp only [Bool.and_eq_true, beq_iff_eq, decide_eq_true_eq, Bool.not_eq_true'] at h
  obtain ⟨⟨⟨⟨⟨⟨⟨h1, h2⟩, h3⟩, h4⟩, h5⟩, h6⟩, h7⟩, h8⟩ := h
  exact ⟨h1, h2, h3, h4, h5, h6, h7, h8⟩

theorem sees_of {s : State} {typ : Nat} {f : BitVec 256}
    (h : (s.linkOn && f.extractLsb' 0 32 == frameCrc f && frameType f == typ && !s.linkStill) = true) : s.Sees typ f := by
  simp only [Bool.and_eq_true, beq_iff_eq, Bool.not_eq_true'] at h
  exact ⟨h.1.1.1, h.1.1.2, h.1.2, h.2⟩

/-- A link in BRINGUP that no lane has reached. -/
def silent : State := { live with mir := { en := true, link := .bringup } }

theorem witness_MirrorFrames_hello : silent.Sees 0 (mkFrame 0 0 0 (bodyOf [(200, 4, 3)])) ∧ silent.anyLane = false ∧
    fget (mkFrame 0 0 0 (bodyOf [(200, 4, 3)])) 200 4 = 3 ∧ clearBits (mkFrame 0 0 0 (bodyOf [(200, 4, 3)])) 96 32 = true :=
  ⟨sees_of (by decide +kernel), by and_intros <;> decide +kernel⟩

theorem witness_MirrorFrames_attest : (linked .bringup none).Hears 0 1 (frameIn 1 [(92, 48, 77), (140, 64, 5)]) ∧
    clearBits (frameIn 1 [(92, 48, 77), (140, 64, 5)]) 91 32 = true ∧
    (frameIn 1 [(92, 48, 77), (140, 64, 5)]).extractLsb' 92 48 = (linked .bringup none).mir.nonce ∧
    (linked .bringup none).mir.link = .bringup :=
  ⟨hears_of (by decide +kernel), by decide +kernel, by decide +kernel, by decide⟩

theorem witness_MirrorFrames_commitRec : (linked .paired none).Hears 0 2 (frameIn 2 [(191, 13, 1), (90, 48, 1)]) ∧
    (linked .paired none).takesRecords = true ∧ ((linked .paired none).lane 0).building = none ∧
    clearBits (frameIn 2 [(191, 13, 1), (90, 48, 1)]) 68 32 = true ∧ fget (frameIn 2 [(191, 13, 1), (90, 48, 1)]) 70 20 = 0 :=
  ⟨hears_of (by decide +kernel), by decide, by decide, by decide +kernel, by decide +kernel⟩

/-- An INFO frame of record 1: with an extent to come it leaves the record open, and with none it ends it. Record 1 is not among
the held records of a partner that holds another. -/
theorem witness_MirrorFrames_payload : (linked .paired (some (opened 1))).Hears 0 3 (frameIn 3 [(191, 13, 1), (125, 32, 6)]) ∧
    (opened 1).rid = fget (frameIn 3 [(191, 13, 1), (125, 32, 6)]) 191 13 ∧ (opened 1).bad = false ∧
    (((opened 1).takes (frameIn 3 [(191, 13, 1), (125, 32, 6)])).all fun b => !(b.info && b.extents == 0 && b.lines == 0)) = true ∧
    ((opened 1).takes (frameIn 3 [(191, 13, 1), (125, 32, 6)])).isSome = true ∧
    (((opened 0).takes (frameIn 3 [(191, 13, 1), (125, 32, 6)])).all fun b => b.info && b.extents == 0 && b.lines == 0 &&
      Assoc.lookup { linked .paired (some (opened 0)) with mir := { (linked .paired (some (opened 0))).mir with held := [] } }.mir.held
        (heldKey b.rid b.body.csn) == none && decide (1 + b.units ≤ (linked .paired none).reserveUnits)) = true ∧
    ((opened 0).takes (frameIn 3 [(191, 13, 1), (125, 32, 6)])).isSome = true :=
  ⟨hears_of (by decide +kernel), by decide +kernel, by decide, by decide +kernel, by decide +kernel, by decide +kernel, by decide +kernel⟩

theorem witness_MirrorFrames_ack : (linked .paired none).Hears 0 4 (frameIn 4 [(191, 13, 1), (143, 48, 1)]) ∧
    clearBits (frameIn 4 [(191, 13, 1), (143, 48, 1)]) 140 32 = true ∧ fget (frameIn 4 [(191, 13, 1), (143, 48, 1)]) 141 2 ≤ 1 ∧
    (linked .paired none).own (fget (frameIn 4 [(191, 13, 1), (143, 48, 1)]) 191 13) = some { job := none, body := record, cost := 1 } ∧
    record.csn = (frameIn 4 [(191, 13, 1), (143, 48, 1)]).extractLsb' 143 48 :=
  ⟨hears_of (by decide +kernel), by decide +kernel, by decide +kernel, by decide +kernel, by decide +kernel⟩

theorem witness_MirrorFrames_retire : (linked .paired none).Hears 0 5 (frameIn 5 [(191, 13, 1), (143, 48, 1)]) ∧
    clearBits (frameIn 5 [(191, 13, 1), (143, 48, 1)]) 142 32 = true ∧
    Assoc.lookup (linked .paired none).mir.held (heldKey (fget (frameIn 5 [(191, 13, 1), (143, 48, 1)]) 191 13)
      ((frameIn 5 [(191, 13, 1), (143, 48, 1)]).extractLsb' 143 48)) = some record :=
  ⟨hears_of (by decide +kernel), by decide +kernel, by decide +kernel⟩

theorem witness_MirrorFrames_heartbeat : (linked .paired none).Sees 6 (frameIn 6 [(203, 1, 1)]) ∧ ((linked .paired none).lane 0).up = true ∧
    clearBits (frameIn 6 [(203, 1, 1)]) 167 32 = true ∧ frameRseq (frameIn 6 [(203, 1, 1)]) = ((linked .paired none).lane 0).oldest ∧
    frameSeq (frameIn 6 [(203, 1, 1)]) = ((linked .paired none).lane 0).rxSeq :=
  ⟨sees_of (by decide +kernel), by and_intros <;> decide +kernel⟩

theorem witness_MirrorFrames_stateSync : (∀ l ∈ [Link.bringup, Link.replaced, Link.sync], (linked l none).Hears 0 7 (frameIn 7 [(172, 32, 3), (157, 1, 1)]) ∧
    (linked l none).mir.link = l) ∧ clearBits (frameIn 7 [(172, 32, 3), (157, 1, 1)]) 155 32 = true :=
  ⟨fun l hl => by
    simp only [List.mem_cons, List.not_mem_nil, or_false] at hl
    rcases hl with rfl | rfl | rfl <;> exact ⟨hears_of (by decide +kernel), rfl⟩, by decide +kernel⟩

theorem witness_MirrorFrames_nack : (linked .paired none).Sees 8 (frameIn 8 []) ∧ ((linked .paired none).lane 0).up = true ∧
    clearBits (frameIn 8 []) 203 32 = true ∧
    (frameRseq (frameIn 8 []) - ((linked .paired none).lane 0).oldest).toNat ≤ ((linked .paired none).lane 0).replay.length :=
  ⟨sees_of (by decide +kernel), by and_intros <;> decide +kernel⟩

theorem witness_MirrorFrames_unknown : (linked .paired none).linkOn = true ∧
    (frameIn 9 []).extractLsb' 0 32 = frameCrc (frameIn 9 []) ∧ 9 ≤ frameType (frameIn 9 []) ∧ (linked .paired none).linkStill = false := by decide +kernel

/-- The link at tick 200,000: lane 0 heard last at tick 900, lane 1 at `t`; it was last paired, stalled and lost at tick 0. -/
def silence (l : Link) (t : Nat) : State := { live with
  now := 200000
  mir := { en := true, link := l, everPaired := true, autotake := true
           lanes := [(0, { up := true, lastRx := 900 }), (1, { up := true, lastRx := t })] } }

theorem witness_MirrorTimers : (silence .paired 190000).linkOn = true ∧ ((silence .paired 190000).lane 0).up = true ∧
    (silent.lane 0).up = false ∧ silent.linkOn = true ∧
    ((silence .paired 190000).lane (1 - 0)).up = true ∧ 900 + 16000 ≤ (silence .paired 190000).now ∧
    (silence .paired 190000).now < ((silence .paired 190000).lane (1 - 0)).lastRx + 16000 ∧ (silence .paired 900).hasPartner = true ∧
    (silence .paired 900).mir.lostAt + 16000 ≤ (silence .paired 900).now ∧
    (∀ k < 2, ((silence .paired 900).lane k).lastRx + 16000 ≤ (silence .paired 900).now) ∧ (silence .sync 900).linkOn = true ∧
    (silence .sync 900).mir.everPaired = true ∧ (silence .sync 900).mir.stallAt + 100000 ≤ (silence .sync 900).now ∧
    (silence .lost 900).linkOn = true ∧ (silence .lost 900).mayTake = false ∧ (silence .lost 900).mir.takeover = false ∧
    (silence .lost 900).mir.tookOver = false ∧ (silence .lost 900).mir.selfFenced = false ∧ (silence .lost 900).mir.arbWait ≠ 0 ∧
    (silence .lost 900).mir.lostAt + (silence .lost 900).mir.arbWait.toNat ≤ (silence .lost 900).now ∧
    (silence .lost 900).up = true ∧ (silence .lost 900).life.power = .run ∧ (silence .paired 900).mir.arb = false ∧
    (silence .lost 900).mir.autotake = true ∧ (silence .lost 900).mir.peerFenced = false ∧
    { silent with units := { attest := true } }.linkOn = true ∧ { silent with units := { attest := true } }.onLane .cipher 0 = none ∧
    (silence .lost 900).linkStill = false ∧ silent.linkStill = false ∧ State.reset.up = false := by decide

/-! ## Resets, start-up, power -/

/-- A complex in `phase`, with nothing else changed since the release of the resets. -/
def starting (phase : Nat) (lc : Lc) : State :=
  { State.reset with now := 200000, life := { porst := false, sysrst := false, phase := phase, lc := lc, latched := true } }

theorem witness_ResetsAndLifeCycle : State.reset.life.porst = true ∧ live.life.porst = false ∧ live.life.power ≠ .off ∧
    { live with life := { live.life with sysrst := true } }.life.sysrst = true ∧ live.life.latched = true ∧ live.life.changed = false ∧
    decodeLc 0x33 ≠ live.life.lc ∧ { live with life := { live.life with power := .off } }.life.power = .off := by decide

theorem witness_StartUpBegins : (starting 1 .test).up = true ∧ (starting 1 .test).life.phase = 1 ∧ (starting 1 .test).life.cleared = false ∧
    (starting 1 .test).life.lc ≠ .scrapped ∧
    { starting 1 .test with life := { (starting 1 .test).life with cleared := true } }.life.cleared = true ∧
    (starting 2 .field).up = true ∧ (starting 2 .field).life.lc.portKey = true ∧ (starting 2 .field).life.keyBeats.toNat < 7 ∧
    (starting 2 .blank).life.lc.ephemeral = true ∧ (starting 2 .blank).wantsEntropy = true ∧ (starting 3 .field).wantsEntropy = true ∧
    (starting 2 .field).life.phaseAt + 100000 ≤ (starting 2 .field).now ∧
    { live with units := { drbgState := 2, entropy := List.replicate 7 0 } }.wantsEntropy = true ∧
    { starting 2 .blank with units := { entropy := List.replicate 3 0 } }.wantsEntropy = true ∧ live.units.stalled = [] ∧
    { starting 2 .field with life := { (starting 2 .field).life with keyBeats := 7 } }.up = true := by decide

/-- Phase 6 of a complex whose mirror link is enabled and not paired. -/
def bringing : State := { starting 6 .test with mir := { en := true, link := .bringup } }

/-- The outcome `.inr` of the patch checks rests on a key digest that is an open value of Config. -/
theorem witness_StartUpEnds : (starting 4 .test).up = true ∧ (starting 4 .test).life.phase = 4 ∧ (starting 4 .test).mcs.state = 0 ∧
    (starting 4 .test).life.phaseAt + (starting 4 .test).mcs.wait.toNat ≤ (starting 4 .test).now ∧
    { starting 4 .test with mcs := { state := 1 } }.derivePatchKey.checkPatch = .inl 2 ∧ { starting 4 .test with mcs := { state := 1 } }.up = true ∧
    (starting 5 .test).up = true ∧ ((starting 5 .test).port 0).en = true ∧ bringing.up = true ∧
    bringing.life.phaseAt + 100000 ≤ bringing.now ∧ bringing.mir.en = true ∧ bringing.mir.link ≠ .paired ∧ bringing.life.lc ≠ .blank ∧
    (starting 7 .test).up = true ∧ (starting 7 .test).life.phaseAt + 15000 ≤ (starting 7 .test).now := by decide +kernel

/-- A complex with an accepted job, in the power sequence `l`. -/
def powered (l : Life) : State := { State.reset with now := 1000, life := { l with porst := false, sysrst := false, phase := 8, latched := true } }

theorem witness_PowerStates : (powered {}).noPower = false ∧
    (powered {}).life.shut = .none ∧ (powered {}).life.entryFenced = false ∧ (powered { shut := .drain }).noPower = false ∧
    (powered { shut := .drain }).life.shut = .drain ∧ (powered { shut := .drain }).life.direct = false ∧
    (powered { power := .retain }).noPower = false ∧ (powered { power := .retain }).life.leaving = false ∧
    { powered {} with jobs := [(0, oneJob)] }.trackerIdle = false ∧
    { powered {} with jobs := [(0, oneJob)] }.ready = true ∧ (powered {}).mir.own = [] ∧
    (powered { request := .retain }).retaining = true ∧ (powered { request := .retain }).trackerIdle = true ∧
    (powered { request := .retain }).dbg.attached = false := by decide

theorem witness_PowerStates_ends :
    { powered { request := .retain, entryFenced := true } with dbg := { attached := true, scope := 1 } }.retaining = true ∧
    { powered { request := .retain, entryFenced := true } with dbg := { attached := true, scope := 1 } }.trackerIdle = true ∧
    (powered { power := .retain, leaving := true }).life.leaving = true ∧ (powered { power := .retain, leaving := true }).life.request ≠ .off ∧
    (powered { shut := .drain, shutDue := some 1000 }).ready = true ∧ (powered { shut := .drain, shutDue := some 1000 }).life.shutDue = some 1000 ∧
    ((powered { shut := .drain, shutDue := some 1000 }).inst 0).rstate ≠ .reset := by decide

/-! ## The register port and debug -/

theorem takes_writes {s : State} (h : (s.portOn && !s.muted) = true) : s.takesWrites := by
  simp only [Bool.and_eq_true, Bool.not_eq_true'] at h
  exact h

theorem witness_RegisterPort : live.portOn = true ∧ live.takesWrites ∧ (3 : BitVec 20).toNat % 4 ≠ 0 ∧ inInstHalf (0 : BitVec 20).toNat = false ∧
    live.regValue false (0x0FFC : BitVec 20).toNat = none ∧ live.muted = false ∧ Assoc.lookup live.idx.latched 0x0601C = none ∧
    Assoc.lookup live.idx.latched 0x0A008 = none ∧
    Assoc.lookup { live with idx := { latched := [(0x0A00C, 7)] } }.idx.latched 0x0A00C = some (7 : Reg32) :=
  ⟨by decide, takes_writes (by decide), by and_intros <;> decide +kernel⟩

theorem witness_UserRegisters : live.takesWrites ∧ (1 : Reg32).getLsbD 0 = true ∧ (live.inst (0 : BitVec 8).toNat).rstate ≠ .reset ∧
    ({ live with insts := [(0, { rstate := .reset })] }.inst 0).rstate = .reset ∧ (∀ c ∈ live.chans, c.2.enabled = false) ∧
    ({ live with insts := [(0, { rstate := .draining })] }.inst 0).rstate = .draining :=
  ⟨takes_writes (by decide), by and_intros <;> decide⟩

theorem witness_ComplexRegisters : live.takesWrites ∧ (starting 3 .test).takesWrites ∧ (starting 4 .test).takesWrites ∧
    live.life.phase ≠ 6 ∧ (live.ring .global).en = false ∧ (live.ring .telemetry).en = false ∧ (live.ring (.inst 3)).en = false ∧
    (256 : Reg32).getLsbD 8 = true ∧ (starting 8 .blank).life.lc = .blank ∧ live.life.lc.directBist = true ∧ live.ready = true ∧
    live.life.power = .run ∧ live.life.shut = .none ∧ (starting 3 .test).life.phase < 4 ∧ (starting 4 .test).mcs.state = 0 ∧
    { live with mcs := { isOpen := true } }.mcs.isOpen = true :=
  ⟨takes_writes (by decide), takes_writes (by decide), takes_writes (by decide), by and_intros <;> decide⟩

/-- A debugger with full scope, and engine 0 running or halted. -/
def debugging (halted : Bool) : State := { live with
  engines := [(0, { engineWith 1 { state := if halted then .halted else .ready, haltedFrom := if halted then .ready else .free } with halted := halted })]
  dbg := { attached := true, scope := 1 } }

theorem debugs (b : Bool) : (debugging b).Debugs := by cases b <;> exact ⟨by decide, rfl, rfl, rfl, by decide, by decide, rfl, rfl, rfl⟩

/-- The monitor of engine 0 is enabled. -/
def monitored : State := { live with
  engines := [(0, engineWith 0 (Ctx.go {}))], ports := [(0, { up := true, credits := 4 })], dbg := { suyEn := true } }

theorem witness_DebugAccesses : (debugging true).Debugs ∧ (debugging true).inService (debugging true).dbg.esel.toNat = true ∧
    ((debugging true).eng ((debugging true).physOf (debugging true).dbg.esel.toNat)).halted = true ∧ placeOf 0x3200 = .store 0x3200 ∧
    (0x3200 ∉ ((debugging true).eng 0).bad) ∧ live.portOn = true ∧ live.scrapped = false ∧ live.dbg.pending = none ∧
    live.life.lc ≠ .blank ∧ live.dbg.attached = false ∧ (wireAt 1 0).path = .wire ∧ (wireAt 1 0).parityOk = true ∧
    { live with dbg := { pending := some 2 } }.portOn = true := ⟨debugs true, by and_intros <;> decide⟩

theorem witness_DebugAccesses_challenge : (∃ o t, { live with units := { drbgState := 1 } }.quietOut.drbg = some (o, t)) ∧
    { live with units := { drbgState := 3 } }.quietOut.drbg = none := ⟨drbg_answers _ (by decide), by decide⟩

/-- Request 0 of the ring: a PEEK of DSTAT, in the ring's first lap. -/
def peeking : BitVec 128 := BitVec.ofNat 128 (2 + 16 * 3) ||| (1 <<< 127)

theorem witness_DebugAccesses_monitor : monitored.portOn = true ∧ monitored.monitorUp = true ∧
    monitored.dbg.suyPhase monitored.dbg.suyReq = peeking.getLsbD 127 ∧ monitored.dbg.suyRoom = true ∧
    monitored.quietOut.suyFetch.isSome = true ∧ (peeking.extractLsb' 0 4).toNat = 2 ∧ (peeking.extractLsb' 4 2).toNat = 3 ∧
    (peeking.extractLsb' 8 24).toNat % 8 = 0 := by decide +kernel

/-- A complex in FIELD whose debugger has read the challenge and written the response `r`. -/
def challenged (r : BitVec 64) : State := { live with life := { live.life with lc := .field }, dbg := { chalFresh := true, resp := r } }

theorem expected_same (r q : BitVec 64) (n : BitVec 8) : (challenged r).expectedResp n = (challenged q).expectedResp n := rfl

/-- Both answers to the challenge, the right one and another. -/
theorem witness_DebugRunControl_attach : (∀ r, (challenged r).portOn = true ∧ (challenged r).scrapped = false ∧
    (challenged r).dbg.attached = false ∧ (challenged r).dbg.pending = none ∧ (challenged r).dbg.fails.toNat < 8 ∧ (challenged r).life.shut = .none ∧
    (challenged r).life.lc = .field ∧ (challenged r).dbg.chalFresh = true) ∧
    (challenged ((challenged 0).expectedResp 3)).dbg.resp = (challenged ((challenged 0).expectedResp 3)).expectedResp 3 ∧
    (challenged ((challenged 0).expectedResp 3 + 1)).dbg.resp ≠ (challenged ((challenged 0).expectedResp 3 + 1)).expectedResp 3 := by
  refine ⟨fun r => ⟨rfl, rfl, rfl, rfl, (by decide : (0 : BitVec 4).toNat < 8), rfl, rfl, rfl⟩, expected_same 0 _ 3, ?_⟩
  rw [expected_same ((challenged 0).expectedResp 3 + 1) 0]
  show (challenged 0).expectedResp 3 + 1 ≠ (challenged 0).expectedResp 3
  generalize (challenged 0).expectedResp 3 = x
  bv_omega

theorem witness_DebugRunControl : (∀ b, (debugging b).Debugs) ∧ (debugging false).inService ((0x100 : BitVec 24).toNat % 256) = true ∧
    ((debugging false).eng 0).running = true ∧ ((debugging false).eng 0).halted = false ∧ ((debugging false).eng 0).slot = none ∧
    (∀ c < 8, ((debugging false).ctx 0 c).lock = none) ∧ ((debugging true).eng 0).halted = true ∧ (1 : Nat) = (0x100 : BitVec 24).toNat / 256 % 8 ∧
    ((debugging true).eng 0).substPend = none ∧ ((debugging true).ctx 0 1).state = .halted ∧ ((debugging true).ctx 0 1).haltedFrom = .ready ∧
    (let s := { locked (some ⟨false, 0x640, 3, false⟩) with engines := [(0, { (locked (some ⟨false, 0x640, 3, false⟩)).eng 0 with haltPend := true })] };
      (s.eng (0 : Fin 272).val).haltPend = true ∧ s.lockOpen 0 1 = true ∧ (s.ctx 0 1).lock = some ⟨false, 0x640, 3, false⟩) :=
  ⟨debugs, by and_intros <;> decide⟩

/-! ## The log deck, delay slots, repetitions and loops -/

theorem witness_EveryCommandCompletes : issueOf (.nop (who 1)) = some (who 1) ∧ State.reset.mayIssue 0 1 = false := by decide

/-- Word 0x28000 of the log deck, in the keeper's reach: granule 40 is a system granule. -/
def deckWord : WAddr := 0x428000

/-- The keeper with the cells `l` over an address in the log deck. -/
def atDeck (l : List Word) : State := host 0 { cells l with astack := [deckWord] }

theorem witness_LoadInstructions_deck : (List.all [.ld (who 0), .ldp (who 0), .ldb (who 0), .ldh (who 0), .ldd (who 0), .ldu (who 0)] fun c =>
    (loadRow c ((atDeck [5]).at' (who 0))).any fun q => q.1 == who 0 && q.2.addrs.all fun a =>
      ((atDeck [5]).accessBar 0 0 false a).isNone && slow a && ((atDeck [5]).eccBar 0 a).isNone) = true ∧
    (atDeck [5]).Quiet (who 0) 1 ∧ ((atDeck [5]).engOf (who 0)).sbuf = [] :=
  ⟨by decide +kernel, quiet_sound (by decide +kernel), by decide⟩

theorem witness_StoreInstructions_deck : (List.all [.st (who 0), .stp (who 0), .stb (who 0), .sth (who 0), .std (who 0), .stu (who 0)] fun c =>
    (storeRow c ((atDeck [5, 7]).at' (who 0))).any fun q => q.1 == who 0 && q.2.parts.all fun a => ((atDeck [5, 7]).accessBar 0 0 true a.1).isNone) =
      true ∧ (atDeck [5, 7]).Quiet (who 0) 1 := ⟨by decide +kernel, quiet_sound (by decide +kernel)⟩

theorem witness_MemoryEvents_drains : placeOf 0x3200 = .store 0x3200 ∧ placeOf 0x3201 = .store 0x3201 ∧ placeOf deckWord = .deck 0x28000 ∧
    (StoreEntry.mk 0x3200 [true, true, true, true] 9 1 true).pair = true := by decide

/-- The keeper in its LOCK, or its LOCKEND, of the log deck; the sequence of the latter still holds its line, or has lost it. -/
def inLockOf (f : Instr) (l : List Word) (lock : Option LockSeq) (holds : Bool) : State :=
  { host 0 { cells l with astack := [deckWord], memWait := some f, memAt := [deckWord], lock := lock } with
    ldk := { resv := if holds then [(0x5000, 0, 0)] else [] } }

theorem witness_MemoryEvents_lock :
    let s := inLockOf (.lock (who 0) 3) [7] none false
    s.Resumes 0 0 1 ∧ (s.eng 0).running = true ∧ (s.ctx 0 0).memGot = [] ∧ (s.ctx 0 0).shadow = [] ∧
      (s.ctx 0 0).memWait = some (.lock (who 0) 3) ∧ (s.ctx 0 0).astack = [deckWord] ∧ (s.ctx 0 0).memAt = [deckWord] ∧
      placeOf deckWord = .deck 0x28000 ∧ 0x28000 ∉ s.ldk.bad :=
  ⟨resumes_sound (by decide +kernel), by and_intros <;> decide +kernel⟩

theorem witness_MemoryEvents_lockend : ∀ b,
    let s := inLockOf (.lockend (who 0)) [7] (some ⟨true, 0x5000, 3, false⟩) b
    (s.eng 0).Calm ∧ (s.eng 0).running = true ∧ (s.ctx 0 0).modePend = [] ∧ (s.ctx 0 0).rep = none ∧ (s.ctx 0 0).ending = none ∧
      (s.jobAt 0 0).any (fun j => j.squashDue) = false ∧ (s.ctx 0 0).loops = [] ∧ (s.ctx 0 0).stack = [7] ∧
      (s.ctx 0 0).lock = some { inDeck := true, line := 0x28000 / 8, left := 3 } ∧ s.ldk.resv.contains (0x28000 / 8, 0, 0) = b := by
  intro b
  cases b <;> exact ⟨calm_sound (by decide +kernel), by and_intros <;> decide +kernel⟩

theorem witness_LockedSequences_deck :
    let s : State := { host 0 { cells [7] with astack := [deckWord], lock := some ⟨true, 0x5000, 3, false⟩ } with ldk := { resv := [(0x5000, 0, 0)] } }
    (Instr.lock (who 0) 3).WF = true ∧ (atDeck [7]).Quiet (who 0) 1 ∧ slow deckWord = true ∧ (atDeck [7]).accessBar 0 0 false deckWord = none ∧
      (atDeck [7]).eccBar 0 deckWord = none ∧ s.Boundary (who 0) 1 ∧ (s.at' (who 0)).astack = [deckWord] ∧ (s.at' (who 0)).depth = 1 ∧
      s.accessBar 0 0 true deckWord = none ∧ (s.at' (who 0)).lock = some ⟨true, 0x28000 / 8, 3, false⟩ ∧
      s.ldk.resv.contains (0x28000 / 8, 0, 0) = true ∧ (s.engOf (who 0)).sbuf = [] ∧ 0x28000 ∉ s.ldk.bad :=
  ⟨by decide, quiet_sound (by decide +kernel), by decide, by decide +kernel, by decide +kernel, boundary_sound (by decide +kernel),
    by and_intros <;> decide +kernel⟩

/-- The branches that do not depend on the mode, in forerunner mode. -/
theorem witness_TransfersTaken_forerunner :
    (List.all [.brl (who 1) 0x800, .bnzl (who 1) 1, .callt (who 1), .jmpt (who 1)] fun c =>
      !slotted c && quiet (forerunner [0x40]) (who 1) (hopLen c) && (hopRow c ((forerunner [0x40]).at' (who 1))).isSome) = true := by decide

theorem witness_DelaySlots_call : slotted (.call (who 1) 0x200) = true ∧
    (hopRow (.call (who 1) 0x200) ((forerunner []).at' (who 1))).isSome = true ∧ (forerunner []).Quiet (who 1) 2 :=
  ⟨by decide, by decide, quiet_sound (by decide)⟩

/-- The slot of a taken branch, in a context with the cells `l` and one address. -/
def inSlotOf (l : List Word) : State :=
  let x := Ctx.go { cells l with mode := 1, astack := [3] }
  { live with engines := [(0, { engineWith 1 x with slot := some ⟨1, x, 0x20, true⟩ })] }

/-- The taken branch whose slot that is. -/
def branchOf (l : List Word) : DelaySlot := ⟨1, Ctx.go { cells l with mode := 1, astack := [3] }, 0x20, true⟩

theorem in_slot {l : List Word} (h : ∀ s q, s = inSlotOf l → q = branchOf l →
    ((s.engOf (who 1)).slot = some q ∧ s.mayIssue 0 1 = true ∧ (∀ c < 8, ((s.engOf (who 1)).ctx c).haltPend = false) ∧
      s.fetchBar 0 1 (SAddr.word (s.at' (who 1)).pc) = none ∧ s.eccBar 0 (SAddr.word (s.at' (who 1)).pc) = none)) :
    (inSlotOf l).InSlot (who 1) (branchOf l) :=
  let g := h _ _ rfl rfl
  ⟨rfl, rfl, g.2.1, g.1, rfl, rfl, rfl, rfl, g.2.2.1, rfl, rfl, g.2.2.2.1, g.2.2.2.2, rfl, ⟨rfl, rfl, rfl⟩, rfl, rfl, rfl, fun _ m => absurd m List.not_mem_nil⟩

theorem slotted_three : (inSlotOf [5, 0x800000000, 1]).InSlot (who 1) (branchOf [5, 0x800000000, 1]) :=
  in_slot fun _ _ hs hq => by subst hs hq; decide

theorem slotted_none : (inSlotOf []).InSlot (who 1) (branchOf []) := in_slot fun _ _ hs hq => by subst hs hq; decide

theorem witness_DelaySlots_slots : (inSlotOf [5, 0x800000000, 1]).InSlot (who 1) (branchOf [5, 0x800000000, 1]) ∧
    (List.all [(stackRow, .dup (who 1)), (addressRow, .adup (who 1)), (integerRow, .add (who 1))] fun q =>
      (q.1 q.2).any fun r => r.1 == who 1 && r.2.1 == 1 && (r.2.2 ((inSlotOf [5, 0x800000000, 1]).at' (who 1))).isSome) = true ∧
    (inSlotOf []).InSlot (who 1) (branchOf []) ∧ (inSlotOf []).ownStore 0 ∧ ((inSlotOf []).at' (who 1)).depth = 0 ∧
    (branchOf []).saved.trapReady ∧ (branchOf []).saved.Plain ∧ (branchOf []).saved.shadow = [] ∧ (branchOf []).saved.haltPend = false ∧
    (branchOf []).saved.ending = none ∧ (branchOf []).saved.job = ((inSlotOf []).at' (who 1)).job ∧ (inSlotOf []).ldk.resv = [] :=
  ⟨slotted_three, by decide, slotted_none, own_store (by decide), by decide, ⟨by decide, .inr (by decide)⟩, ⟨rfl, rfl, rfl⟩, by and_intros <;> decide⟩

/-- REP before an instruction, with the count `r`. -/
def repeating (r : BitVec 8) : State := host 1 { cells [5, 7, 9] with rep := some r }

theorem witness_ControlGoesOn_repeats : ∀ r ∈ [(0 : BitVec 8), 1, 2], (repeating r).Turn (who 1) 1 ∧ ((repeating r).at' (who 1)).rep = some r ∧
    ((repeating r).at' (who 1)).shadow = [] ∧ ((repeating r).at' (who 1)).lock = none ∧ ((repeating r).at' (who 1)).loops = [] ∧
    repeated (.add (who 1)) = true ∧ ((integerRow (.add (who 1))).any fun q => (q.2.2 ((repeating r).at' (who 1))).isSome) = true := by
  intro r m
  simp only [List.mem_cons, List.not_mem_nil, or_false] at m
  rcases m with rfl | rfl | rfl <;> exact ⟨turn_sound (by decide), by and_intros <;> decide⟩

/-- A loop level that ends in this instruction, with the count `n`. -/
def closing (n : BitVec 24) : State := host 1 { cells [5, 7] with loops := [⟨0x8, 0x10, n⟩] }

theorem witness_ControlGoesOn_loops : ∀ n ∈ [(1 : BitVec 24), 2], (closing n).Turn (who 1) 1 ∧ ((closing n).at' (who 1)).loops = [] ++ [⟨0x8, 0x10, n⟩] ∧
    (LoopLevel.mk 0x8 0x10 n).passedBy ((closing n).at' (who 1)).pc 1 = true ∧ (LoopLevel.mk 0x8 0x10 n).body ((closing n).at' (who 1)).pc = true ∧
    ((closing n).at' (who 1)).mode.getLsbD 0 = false ∧ (closing n).dbg.trcEn = false ∧ (closing n).ldk.resv = [] := by
  intro n m
  simp only [List.mem_cons, List.not_mem_nil, or_false] at m
  rcases m with rfl | rfl <;> exact ⟨turn_sound (by decide), by and_intros <;> decide⟩

/-- A native load has just run here, and another context has issued last, or not. -/
def shadowed (last : Nat) : State :=
  { live with engines := [(0, { engineWith 1 (Ctx.go { cells [5, 7] with shadow := [(1, 9)] }) with lastIssued := last })] }

theorem witness_ControlGoesOn_shadow : (shadowed 1).Turn (who 1) 1 ∧ ((shadowed 1).engOf (who 1)).lastIssued = (who 1).ctx.val ∧
    ((shadowed 1).at' (who 1)).shadow ≠ [] ∧ 2 ≤ ((shadowed 1).at' (who 1)).depth ∧ (shadowed 2).Turn (who 1) 1 ∧
    ((shadowed 2).engOf (who 1)).lastIssued ≠ (who 1).ctx.val :=
  ⟨turn_sound (by decide), by decide, by decide, by decide, turn_sound (by decide), by decide⟩

theorem witness_ControlGoesOn_locked : ∀ n ∈ [1, 2], (locked (some ⟨false, 0x640, n, false⟩)).Boundary (who 1) 1 ∧
    ((locked (some ⟨false, 0x640, n, false⟩)).at' (who 1)).lock = some ⟨false, 0x640, n, false⟩ := by
  intro n m
  simp only [List.mem_cons, List.not_mem_nil, or_false] at m
  rcases m with rfl | rfl <;> exact ⟨boundary_sound (by decide), by decide⟩

theorem witness_DeckStaysCanonical_reset : (∀ p, Tab.canonical wordDflt (State.reset.eng p).lstore = true) ∧
    (∀ n, ∀ q ∈ (State.reset.port n).tags, q.1 < 8192) ∧ (∀ p k, (State.reset.ctx p k).Fits) ∧ (step State.reset = .next { State.reset with out := [] }) :=
  ⟨fun _ => rfl, fun _ _ m => absurd m List.not_mem_nil,
    fun _ _ => ⟨fun w m => by rw [List.mem_singleton.1 m]; decide, Nat.zero_le _, Nat.zero_le _⟩, rfl⟩

/-! ## Traps, keepers, mailboxes: the other clauses -/

/-- A trap can be taken in the context of `i`. -/
def ready (s : State) (i : Issue) : Bool := !(s.at' i).tw && decide ((s.at' i).rstack.length ≤ 30)

/-- What `quiet` and `ready` show, in the clauses of TrapsBeforeEffect. -/
theorem trap_ready {s : State} {i : Issue} {len : Nat} (h : (quiet s i len && ready s i && s.mcs.remap.isEmpty && s.mcs.bad.isEmpty &&
    !s.dbg.trcEn) = true) : s.Quiet i len ∧ s.ownStore i.isl.val ∧ s.dbg.trcEn = false ∧ (s.at' i).trapReady := by
  simp only [ready, Bool.and_eq_true, Bool.not_eq_true', decide_eq_true_eq, List.isEmpty_iff] at h
  exact ⟨quiet_sound h.1.1.1.1, own_store ⟨h.1.1.2, h.1.2⟩, h.2, h.1.1.1.2.1, .inr h.1.1.1.2.2⟩

theorem witness_TrapsBeforeEffect_keeper : (host 0 {}).Quiet (who 0) 2 ∧ (host 0 {}).ownStore 0 ∧ (host 0 {}).dbg.trcEn = false ∧
    ((host 0 {}).at' (who 0)).trapReady ∧ ((host 0 {}).at' (who 0)).wait = .nothing ∧ (who 0).ctx = 0 :=
  let h := trap_ready (s := host 0 {}) (i := who 0) (len := 2) (by decide)
  ⟨h.1, h.2.1, h.2.2.1, h.2.2.2, by decide, rfl⟩

/-- Sixteen cells and eight addresses; a window stack of eight windows; a full return stack; a bottom window with a spilled one. -/
def full : State := host 1 { cells (List.replicate 16 0) with astack := List.replicate 8 0x3200 }
def eightWindows : State := host 1 { windows := List.replicate 8 (win [1]) }
def noRoom : State := host 1 { cells [0x40] with rstack := List.replicate 28 0 }
def bottomWindow : State := host 1 { cells [1] with spilled := 1 }

theorem witness_TrapsBeforeEffect_stacks : ((full.at' (who 1)).depth = 16 ∧ full.Quiet (who 1) 1 ∧ full.ownStore 0 ∧ (full.at' (who 1)).trapReady) ∧
    (let s := host 1 { cells [1] with astack := List.replicate 8 0 };
      1 ≤ (s.at' (who 1)).depth ∧ (s.at' (who 1)).depth ≤ 16 ∧ (s.at' (who 1)).astack.length = 8 ∧ s.Quiet (who 1) 1 ∧ s.ownStore 0 ∧
        (s.at' (who 1)).trapReady) ∧
    (((host 1 {}).at' (who 1)).astack = [] ∧ ((host 1 {}).at' (who 1)).depth ≤ 16 ∧ (host 1 {}).Quiet (who 1) 1) ∧
    ((eightWindows.at' (who 1)).windows.length = 8 ∧ (1 : BitVec 3).toNat ≤ (eightWindows.at' (who 1)).depth ∧ eightWindows.Quiet (who 1) 2 ∧
      (eightWindows.at' (who 1)).trapReady) ∧
    ((bottomWindow.at' (who 1)).windows.length = 1 ∧ 0 < (bottomWindow.at' (who 1)).spilled ∧ bottomWindow.Quiet (who 1) 1 ∧
      (bottomWindow.at' (who 1)).trapReady) ∧
    ((noRoom.at' (who 1)).callRoom = false ∧ 1 ≤ (noRoom.at' (who 1)).depth ∧ noRoom.Quiet (who 1) 1 ∧ (noRoom.at' (who 1)).trapReady) ∧
    (((host 1 {}).at' (who 1)).rstack = [] ∧ ((host 1 {}).glb.present.getD ((who 1).isl.val / 17) 0).getLsbD (1 : BitVec 4).toNat = false ∧
      (host 1 {}).Quiet (who 1) 2) :=
  let f := trap_ready (s := full) (i := who 1) (len := 1) (by decide)
  let g := trap_ready (s := host 1 { cells [1] with astack := List.replicate 8 0 }) (i := who 1) (len := 1) (by decide)
  let e := trap_ready (s := eightWindows) (i := who 1) (len := 2) (by decide)
  let b := trap_ready (s := bottomWindow) (i := who 1) (len := 1) (by decide)
  let n := trap_ready (s := noRoom) (i := who 1) (len := 1) (by decide)
  ⟨⟨by decide, f.1, f.2.1, f.2.2.2⟩, ⟨by decide, by decide, by decide, g.1, g.2.1, g.2.2.2⟩, ⟨by decide, by decide, quiet_sound (by decide)⟩,
    ⟨by decide, by decide, e.1, e.2.2.2⟩, ⟨by decide, by decide, b.1, b.2.2.2⟩, ⟨by decide, by decide, n.1, n.2.2.2⟩,
    ⟨by decide, by decide, quiet_sound (by decide)⟩⟩

/-- Context 1 over an address of the keeper's area, and over an uncorrectable word of its own. -/
def atKeeper : State := host 1 { cells [1] with astack := [0x10] }
def atBroken : State :=
  { live with engines := [(0, { engineWith 1 (Ctx.go { cells [1] with astack := [0x3200] }) with bad := [0x3200] })] }

theorem witness_TrapsBeforeEffect_memory : (atKeeper.accessBar 0 1 false (atKeeper.at' (who 1)).atop = some 4 ∧
      atKeeper.accessBar 0 1 true (atKeeper.at' (who 1)).atop = some 4 ∧ (atKeeper.at' (who 1)).astack ≠ [] ∧ (atKeeper.at' (who 1)).depth < 16 ∧
      atKeeper.Quiet (who 1) 1 ∧ (atKeeper.at' (who 1)).trapReady) ∧
    (atBroken.accessBar 0 1 false (atBroken.at' (who 1)).atop = none ∧ (atBroken.eccBar 0 (atBroken.at' (who 1)).atop).isSome = true ∧
      (atBroken.engOf (who 1)).sbuf = [] ∧ atBroken.Quiet (who 1) 1 ∧ atBroken.ownStore 0 ∧ (atBroken.at' (who 1)).trapReady) :=
  let a := trap_ready (s := atKeeper) (i := who 1) (len := 1) (by decide)
  let b := trap_ready (s := atBroken) (i := who 1) (len := 1) (by decide)
  ⟨⟨by decide, by decide, by decide, by decide, a.1, a.2.2.2⟩, ⟨by decide, by decide, by decide, b.1, b.2.1, b.2.2.2⟩⟩

/-- A unit request whose status reports a unit error is complete. -/
def unitBroken : State := working { cells [2] with unitTags := [(2, { kind := 2, done := some (0, 0), unitError := true })] }

theorem witness_TrapsBeforeEffect_unit : unitBroken.Quiet (who 1) 2 ∧ unitBroken.ownStore 0 ∧ (unitBroken.at' (who 1)).trapReady ∧
    (unitBroken.at' (who 1)).stack = [2] ∧
    ((Assoc.lookup (unitBroken.at' (who 1)).unitTags ((2 : Word).toNat % 16)).any fun t => t.done.isSome && t.unitError) = true :=
  let u := trap_ready (s := unitBroken) (i := who 1) (len := 2) (by decide +kernel)
  ⟨u.1, u.2.1, u.2.2.2, by decide +kernel, by decide +kernel⟩

/-- A decimal cell that fails its check, and a sum that overflows, with the enable bit of OVF set or clear. -/
def badDecimal : State := host 1 (cells [0xA0C])
def overflowing (en : Bool) : State := host 1 { cells [0x12C] with
  ledger := Ledger.seal { accs := [(0, { coef := 10 ^ 98 - 1, scale := 0 })], status := if en then 0x100 else 0 } {} }

theorem witness_TrapsBeforeEffect_ledger : (badDecimal.Quiet (who 1) 1 ∧ badDecimal.ownStore 0 ∧ (badDecimal.at' (who 1)).trapReady ∧
      (badDecimal.at' (who 1)).stack = [0xA0C] ∧ (match cellDecimal 0xA0C with | .bad _ => true | _ => false) = true ∧
      ∀ k < 11, (badDecimal.at' (who 1)).ledger.sound k = true) ∧
    ∀ b, (overflowing b).Quiet (who 1) 1 ∧ ((overflowing b).at' (who 1)).trapReady ∧ ((overflowing b).at' (who 1)).stack = [0x12C] ∧
      (match cellDecimal 0x12C with
        | .value v => decide ((((overflowing b).at' (who 1)).ledger.acc 0).addAt v (operandScale ((overflowing b).at' (who 1)).ledger 0) = none)
        | _ => false) = true ∧
      ((overflowing b).at' (who 1)).ledger.status.getLsbD 8 = b ∧ ∀ k < 11, ((overflowing b).at' (who 1)).ledger.sound k = true := by
  refine ⟨?_, fun b => ?_⟩
  · have h := trap_ready (s := badDecimal) (i := who 1) (len := 1) (by decide)
    exact ⟨h.1, h.2.1, h.2.2.2, by decide, by decide, by decide +kernel⟩
  · cases b
    · have h := trap_ready (s := overflowing false) (i := who 1) (len := 1) (by decide +kernel)
      exact ⟨h.1, h.2.2.2, by decide +kernel, by decide +kernel, by decide +kernel, by decide +kernel⟩
    · have h := trap_ready (s := overflowing true) (i := who 1) (len := 1) (by decide +kernel)
      exact ⟨h.1, h.2.2.2, by decide +kernel, by decide +kernel, by decide +kernel, by decide +kernel⟩

theorem witness_TrapsBeforeEffect_double :
    let s := host 1 { tw := true, trapWin := Window.empty, rstack := [1, 0x22] }
    s.Quiet (who 1) 1 ∧ (who 1).ctx ≠ 0 ∧ (s.at' (who 1)).tw = true ∧ (s.at' (who 1)).depth = 0 :=
  ⟨quiet_sound (by decide), by decide, by decide, by decide⟩

/-- The keeper of engine 0 is about to signal source 5, which goes to target set 1: engine 0 with the keeper awake, or engine 1 with its
keeper asleep. -/
def signalling (asleep : Bool) : State :=
  let x := Ctx.go (cells [5])
  { live with
    engines := [(0, { engineWith 0 x with ie := true }),
      (1, { engineWith 0 { state := if asleep then .sleeping else .ready, pc := 0x10 } with ie := true })]
    evc := { srcs := [(5, { prio := 15, wakeEn := true, own := false, tset := 1 })], sets := [(8, if asleep then 2 else 3)] } }

theorem witness_SleepAndEvents_signals : (∀ b, (signalling b).Quiet (who 0) 1 ∧ (signalling b).ownStore 0 ∧ ((signalling b).at' (who 0)).stack = [5] ∧
      ((signalling b).src 5).sig = false ∧ ((signalling b).src 5).prio ≠ 0 ∧ ((signalling b).src 5).count.toNat < 255) ∧
    ((searchOrder ((signalling false).src 5).engine.toNat).find? fun k => (signalling false).enabledTarget 5 k &&
      (signalling false).awake ((signalling false).physOf k)).isSome = true ∧
    ((searchOrder ((signalling true).src 5).engine.toNat).find? fun k => (signalling true).enabledTarget 5 k &&
      (signalling true).awake ((signalling true).physOf k)) = none ∧ ((signalling true).src 5).wakeEn = true ∧ (signalling true).noneWaits ∧
    ((searchOrder ((signalling true).src 5).engine.toNat).find? fun k => (signalling true).enabledTarget 5 k &&
      ((signalling true).ctx ((signalling true).physOf k) 0).state == .sleeping) = some 1 := by
  refine ⟨fun b => ?_, ?_⟩
  · cases b <;> exact ⟨quiet_sound (by decide +kernel), own_store (by decide), by and_intros <;> decide +kernel⟩
  · refine ⟨by decide +kernel, by decide +kernel, by decide, by unfold State.noneWaits; decide +kernel, by decide +kernel⟩

/-- The keeper of engine 0 goes to sleep, with source 5 pending for it or not. -/
def dozing (due : Bool) : State :=
  { live with engines := [(0, { engineWith 0 (Ctx.go (cells [7])) with disp := if due then 2 else 0 })] }

theorem witness_SleepAndEvents_sleep : (∀ b, quiet (dozing b) (who 0) 1 = true ∧ (dozing b).keeperPending 0 = b) ∧
    (∀ b, ((dozing b).at' (who 0)).stack = [7] ∧ (∀ n ∈ (dozing b).signalled 0, ((dozing b).engOf (who 0)).level < ((dozing b).src n).prio.toNat) ∧
      (dozing b).noneWaits) := by
  refine ⟨by decide +kernel, fun b => ?_⟩
  cases b <;> refine ⟨by decide, by decide +kernel, by unfold State.noneWaits; decide⟩

/-- The keeper sends to an engine whose mailbox is full. -/
def fullBox : State := { live with engines := [(0, { engineWith 0 (Ctx.go (cells [0, 42])) with mbox := List.replicate 8 1 })] }

theorem witness_MailboxInstructions_refused : fullBox.Quiet (who 0) 2 ∧ fullBox.ownStore 0 ∧ (fullBox.at' (who 0)).stack = [0, 42] ∧
    fullBox.inService ((0 : Word).toNat % 256) = true ∧ 8 ≤ (fullBox.eng (fullBox.physOf ((0 : Word).toNat % 256))).mbox.length ∧
    { fullBox with logs := [(0, { logDflt 0 with state := 2 })] }.inService 0 = false ∧
    { fullBox with logs := [(0, { logDflt 0 with state := 2 })] }.Quiet (who 0) 2 :=
  ⟨quiet_sound (by decide), own_store (by decide), by decide, by decide, by decide, by decide, quiet_sound (by decide)⟩

/-- The packed decimal string 1C at byte 0 of word 0x3200. -/
def stringIn : State :=
  { live with engines := [(0, { engineWith 1 (Ctx.go { cells [1, 0] with astack := [0x3200] }) with lstore := [(0x3200, 0x1C <<< 27)] })] }

/-- La holds 5, to be written as one byte of packed decimal. -/
def stringOut : State := host 1 { cells [1, 0] with astack := [0x3200], ledger := { accs := [(0, { coef := 5 })], res := 5 :: List.replicate 10 0 } }

theorem witness_LedgerInstructions_format : (0 : Nat) < 3 ∧ (∀ k < 3, stringLength k true 3 = true ∧ (10 : Int).natAbs < 10 ^ 2) ∧
    10 ^ 1 ≤ (10 : Int).natAbs ∧ stringLength 0 true 1 = true := by decide

theorem witness_LedgerInstructions_read : stringIn.Quiet (who 1) 2 ∧ stringIn.ownStore 0 ∧ (stringIn.at' (who 1)).stack = [1, 0] ∧
    (stringIn.at' (who 1)).astack = [0x3200] ∧ stringLength 0 false 1 = true ∧
    ((stringParts 0x3200 0 1).all fun q => readable stringIn (who 1) q.1) = true ∧
    readString 0 (stringBytes 0 1 ((stringParts 0x3200 0 1).map fun q => stringIn.localWord (who 1) q.1)) = .value 1 ∧
    (∃ u, ({ (stringIn.at' (who 1)).ledger.acc 0 with coef := 0, kerf := 0 } : Accum).addAt 1
      (operandScale (stringIn.at' (who 1)).ledger 0) = some (u, false)) :=
  ⟨quiet_sound (by decide +kernel), own_store (by decide), by decide +kernel, by decide, by decide, by decide +kernel, by decide +kernel,
    ⟨_, rfl⟩⟩

theorem witness_LedgerInstructions_write : stringOut.Quiet (who 1) 2 ∧ stringOut.ownStore 0 ∧ (stringOut.at' (who 1)).stack = [1, 0] ∧
    (stringOut.at' (who 1)).astack = [0x3200] ∧ (∀ k < 11, (stringOut.at' (who 1)).ledger.sound k = true) ∧
    (stringOut.engOf (who 1)).sbuf = [] ∧ ((stringParts 0x3200 0 1).all fun q => plain stringOut (who 1) true q.1) = true ∧
    ((stringOut.at' (who 1)).ledger.acc 0).coef * 10 ^ operandScale (stringOut.at' (who 1)).ledger 0 =
      5 * 10 ^ ((stringOut.at' (who 1)).ledger.acc 0).scale ∧
    writeString 0 1 (some 5) = .inl [0x5C] :=
  ⟨quiet_sound (by decide +kernel), own_store (by decide), by and_intros <;> decide +kernel⟩

/-- 2 as a binary64 value in two cells, and an accumulator that holds 2. -/
def binary : State := host 1 { cells [0x4000000, 0] with ledger := { accs := [(0, { coef := 2 })], res := 2 :: List.replicate 10 0 } }

theorem witness_LedgerInstructions_binary : binary.Quiet (who 1) 2 ∧ binary.ownStore 0 ∧
    Fval.of 0x4000000000000000 = .fin false (2 ^ 52) (-51) ∧ (binary.at' (who 1)).stack = [0x4000000, 0] ∧
    (0x4000000 : Word).extractLsb' 0 28 ++ (0 : Word) = (0x4000000000000000 : BitVec 64) ∧
    ((binary.at' (who 1)).ledger.acc 0).coef = 2 ∧ (2 : Int) % ((binary.at' (who 1)).ledger.acc 0).grid = 0 ∧
    (2 : Int) * 2 ^ 51 = (2 ^ 52 : Nat) * 10 ^ ((binary.at' (who 1)).ledger.acc 0).scale ∧
    (∀ k < 11, (binary.at' (who 1)).ledger.sound k = true) ∧ expField 0x4000000000000000 ≠ 0 :=
  ⟨quiet_sound (by decide +kernel), own_store (by decide), by and_intros <;> decide +kernel⟩

/-- An operation of kind `k` on cells 0 and 1. -/
def operation (k : FpKind) (a b c : BitVec 64) (flush : Bool) : FpOp :=
  { kind := k, addr := 0x10, inTrap := false, pos := 1, size := 2, a := cells64 a, b := cells64 b, c := cells64 c, flush := flush }

/-- Under TRAP a subnormal operand traps, and a comparison of 1 with 1 does not. -/
theorem witness_FloatCompletes_trap :
    (∃ q ∈ (operation .add 1 0x3FF0000000000000 0 false).operands, subnormal (bits64 q) = true) ∧
    (∀ a b : BitVec 64, ((operation .cmp a b 0 false).raw false).subn = false) ∧
    (operation .cmp 2 3 0 false).operands = [cells64 2, cells64 3] ∧ subnormal (bits64 (cells64 0x3FF0000000000000)) = false := by
  refine ⟨⟨cells64 1, by decide, by decide⟩, fun _ _ => rfl, rfl, by decide⟩

/-- One operand of each class: 1, −2, 0, an infinity, a NaN and a signalling NaN. -/
theorem witness_FloatCompletes_operands :
    Fval.of (bits64 (flushed true (cells64 0x3FF0000000000000))) = .fin false (2 ^ 52) (-52) ∧
    Fval.of (bits64 (flushed true (cells64 0xC000000000000000))) = .fin true (2 ^ 52) (-51) ∧
    Fval.of (bits64 (flushed true (cells64 (zero64 true)))) = .fin true 0 (-1074) ∧
    (∀ b, Fval.of (bits64 (flushed true (cells64 (inf64 b)))) = .inf b) ∧
    isNan (bits64 (flushed true (cells64 defaultNan))) = true ∧
    [bits64 (flushed true (cells64 0x3FF0000000000000)), bits64 (flushed true (cells64 0x7FF0000000000001))].find? isNan =
      some 0x7FF0000000000001 ∧
    isNan (bits64 (flushed true (cells64 0x3FF0000000000000))) = false ∧
    (BitVec.toInt (hiWord (0 : BitVec 72)) = 0) := by decide +kernel

/-- A trap of each kind is pending at the boundary of context 1. -/
def pendingFp (sub : Bool) : State := host 1 { fpu := if sub then { pendSub := some { addr := 0x8 } } else { pendFp := some { addr := 0x8 } } }

theorem witness_FloatCompletes_taken : (∀ b, (pendingFp b).FpDue (who 1) (if b then 11 else 10) { addr := 0x8 }) ∧
    (∀ b, (pendingFp b).ownStore 0 ∧ (pendingFp b).dbg.trcEn = false ∧ ((pendingFp b).at' (who 1)).trapReady) := by
  refine ⟨fun b => ?_, fun b => ⟨own_store (by cases b <;> decide), by cases b <;> decide, by cases b <;> exact ⟨by decide, .inr (by decide)⟩⟩⟩
  cases b <;> exact ⟨by decide, by decide, by decide, by decide, by decide, by decide, by decide, by decide, by decide, by decide,
    ⟨by decide, by decide, by decide⟩, by decide, by decide, by decide, by decide⟩

/-- A watchdog runs out on an engine that runs a job. -/
def lateJob : State := { live with
  engines := [(0, { engineWith 1 { state := .ready, job := some 0, pc := 0x10 } with wdt := .until 1000 })], jobs := [(0, oneJob)] }

theorem witness_TimersExpire_jobs : (lateJob.eng 0).running = true ∧ (lateJob.eng 0).halted = false ∧ (lateJob.eng 0).Calm ∧
    (lateJob.eng 0).wdt = .until 1000 ∧ 1000 ≤ lateJob.now ∧ (lateJob.eng 0).wdtLoad ≠ 0 ∧ lateJob.logicalOf 0 = some 0 ∧
    (inHour lateJob.now (lateJob.log 0).mcAt).length < 3 ∧ Assoc.rising lateJob.jobs = true ∧ lateJob.ownStore 0 ∧
    lateJob.life.shut = .none ∧ lateJob.job 0 = some oneJob ∧ oneJob.place = some (0, 1) ∧ oneJob.restarts < 2 ∧ oneJob.squashDue = false ∧
    late.life.shut = .none ∧ Assoc.rising late.jobs = true := by
  refine ⟨?_, ?_, calm_sound (by decide +kernel), ?_, ?_, ?_, ?_, ?_, ?_, own_store (by decide), ?_, ?_, ?_, ?_, ?_, ?_, ?_⟩ <;> decide +kernel

theorem witness_KeeperEntries_more : (interrupted.eng 0).micro.busy = none ∧ (delivered.eng 0).micro.busy = none ∧
    interrupted.ownStore 0 ∧ delivered.ownStore 0 ∧ delivered.life.shut = .none ∧ oneJob.squashDue = false ∧ delivered.dbg.trcEn = false ∧
    (delivered.ctx 0 0).modePend = [] ∧ (delivered.ctx 0 0).rep = none := by
  refine ⟨?_, ?_, own_store (by decide), own_store (by decide), ?_, ?_, ?_, ?_, ?_⟩ <;> decide +kernel

/-- Stand 0 has no spare left. -/
def spent : State := { live with engines := [(0, engineWith 1 {})], spares := [(0, { st := 1 })] }

/-- Engine 0 stands between a branch and its delay slot. -/
def slotted : State := { live with engines := [(0, { engineWith 1 {} with slot := some ⟨1, {}, 0x20, true⟩ })] }

theorem witness_CoppiceTakesOver_more : copied.life.shut = .none ∧ live.spareReady (standOf 0) = true ∧
    (spent.eng 0).held = false ∧ spent.spareReady (standOf 0) = false ∧ spent.logicalOf 0 = some 0 ∧ (slotted.eng 0).held = true := by decide +kernel

theorem witness_DispatchPlaces_signed : (∀ q ∈ queued.quietOut.placePump.pickJob 0, q.1 = 0) ∧
    (queued.quietOut.placePump.eng 0).overlays = [] ∧ queued.quietOut.placePump.dsp.cache = [] ∧
    readied.quietOut.placePump.dsp.cache = [] ∧ readied.works = true ∧ readied.quietOut.placePump.hasRoom 0 = true ∧
    (readied.quietOut.placePump.pickJob 0).isSome = true := by decide +kernel

/-- A boundary that is not due yet, and one at which channel 6, whose user is served elsewhere, is due. -/
def early : State := { live with dsp := { due := some 2000 } }

/-- Channels 6 and 7 are due: one belongs to a user that is not served here, one is to be disabled. -/
def leaving : State := { turning with
  insts := [(0, { count := 8 }), (1, { home := 1, first := 6, count := 1 })]
  chans := [(6, { enabled := true, refresh := .got 998 false true { dbell := 0x1000, sub := 0x4000, inst := 1 } }),
    (7, { enabled := true, refresh := .got 998 false false { dbell := 0x1000, sub := 0x4000 } })] }

/-- The back copy of key slot 9 is due at a boundary for user 0, which has no key share. -/
def crowded : State := { atBoundary false with units := { slots := [(9, { back := some { kind := 1 }, backAt := 998 })] } }

/-- A RUNNING job holds granule 100. -/
def grasped : State := { zeroing with jobs := [(0, { oneJob with holds := [100] })] }

theorem witness_EpochsApply_more : early.ready = true ∧ early.dsp.due = some 2000 ∧ early.now < 2000 ∧
    quietNight.ready = true ∧ (atBoundary false).life.shut = .none ∧ (atBoundary false).dbg.attached = false ∧
    leaving.ready = true ∧ leaving.applies 1000 = true ∧ leaving.servedHere 1 = false ∧
    (leaving.chan 6).refresh = .got 998 false true { dbell := 0x1000, sub := 0x4000, inst := 1 } ∧
    (leaving.chan 7).refresh = .got 998 false false { dbell := 0x1000, sub := 0x4000 } ∧
    (crowded.slot 9).back = some { kind := 1 } ∧ (crowded.slot 9).backAt + 2 ≤ 1000 ∧ crowded.keyShare 0 ≤ crowded.otherSlots 9 0 ∧
    (crowded.slot 9).reason ≠ 4 ∧ grasped.granHeld (100 : BitVec 10).toNat = true ∧ live.works = true ∧
    (live.gran (100 : BitVec 10).toNat).draining = none := by decide +kernel

theorem witness_ChannelsFetch_users : ringing.bellUsers 0x40 = [0] ∧ ringing.bellChans 0x40 ≠ [] ∧ ringing.bellChans 0x41 = [] ∧
    (let s : State := { ringing with insts := [(0, { rstate := .draining })] }
     s.bellUsers 0x40 = [0] ∧ s.bellChans 0x40 ≠ [] ∧ s.instRuns 0 = false ∧ s.fetchOk = true ∧ (s.port 1).en = true) ∧
    (let s : State := { ringing with ports := [(1, { en := false })] }
     s.up = true ∧ s.life.power = .run ∧ s.life.noClock = [] ∧ (s.port 1).ntCredits ≠ 0 ∧ (s.port 1).en = false) := by decide +kernel

/-- The sixteenth answer to tag 7 is due. -/
def retried : State := { live with
  ports := [(0, { up := true, credits := 3, tags := [(7, { st := .outstanding, retries := 15, req := readReq 0x1000 0 1 (.doorbell 0 0x40) })] })] }

/-- A descriptor read of channel 5 is out, and a read of the line of its doorbell, whose user's channel it is, and of its table entry. -/
def reading : State := { ringing with chans := [(5, { entry := some { dbell := 0x1000, sub := 0x4000 }, enabled := true, tail := 10
                                                      fetching := true, fetchEntry := some { dbell := 0x1000, sub := 0x4000 }
                                                      refresh := .reading 900 false })] }

theorem witness_HostRequestsEnd_codes : (Assoc.lookup (retried.port 0).tags 7).isSome = true ∧
    (Assoc.lookup (retried.port 0).tags 7).all (fun u => u.st == .outstanding && decide (15 ≤ u.retries)) = true ∧ retried.up = true ∧
    retried.life.power = .run ∧ (retried.port 0).rsCredits ≠ 0 ∧ (5 : BitVec 3).toNat = 5 ∧ (3 : BitVec 3) ≠ 4 := by decide +kernel

theorem witness_HostRequestsEnd_purposes : (readReq 0x4000 0 1 (.message 3 none)).purpose = .message 3 none ∧
    (orReq 0 0x8000 [(0, 1)] (.dirty 0 none none)).purpose = .dirty 0 none none ∧ (reading.chan 5).fetching = true ∧
    (reading.chan 5).fetchEntry = some { dbell := 0x1000, sub := 0x4000 } ∧ reading.mir.takeover = false ∧
    (0, 0x40) ∉ reading.dsp.bellAgain ∧ Assoc.rising reading.chans = true ∧ (5, reading.chan 5) ∈ reading.bellsOf 0 0x40 ∧
    (reading.chan 5).refresh = .reading 900 false := by decide +kernel

/-- The request of `tagged` is fenced where it belongs to one. -/
theorem witness_HostRequestsEnd_reissue : (∀ st, ((tagged st).portStill 0 = false)) ∧
    ((tagged (.retryWait 64)).port 0).credits ≠ 0 ∧ ((tagged .outstanding).port 0).credits = 3 := by
  refine ⟨fun st => rfl, by decide, by decide⟩

theorem witness_PortsAndRings_clocks : waiting.alive = true ∧ waiting.mustRun .refclk = true ∧ waiting.mustRun .hclk0 = true ∧
    (∀ b, ((rewriting b).ring (.inst 3)).starting = false) ∧ ((rewriting false).inst 3).dl.en = false ∧
    (waiting.ring .telemetry).wait.find? (fun w => w.stage == .failed && decide (w.due ≤ waiting.now)) =
      some { body := 0, pos := some 3, stage := .failed } := by decide +kernel

/-- A key slot with a CIPHER key of user 0 that mode 0 may use, and what a job with slot selector `sel` and counter limit `limit` asks. -/
def keyed : State := { asking with units := { drbgState := 1, slots := [(9, { front := { kind := 1, perm := 1 }, counter := 5 })] } }

def wanting (sel limit : Nat) : Job := { oneJob with desc := putNum 40 2 sel, snap := { keyA := limit } }

theorem witness_UnitsServe_keyCheck : lineNum (wanting 9 6).desc 40 2 < 32768 ∧ 32768 ≤ lineNum (wanting 32777 6).desc 40 2 ∧
    lineNum (wanting 32777 6).desc 40 2 % 1024 = 9 ∧ (keyed.slot 9).front.kind ≠ 0 ∧ (keyed.slot 9).front.owner = (wanting 32777 6).inst ∧
    { wanting 32777 6 with inst := 1 }.inst ≠ (keyed.slot 9).front.owner ∧ (keyed.slot 9).front.perm.getLsbD 0 = true ∧
    (keyed.slot 9).front.perm.getLsbD 1 = false ∧ ((wanting 32777 5).snap.keyA ≤ (keyed.slot 9).counter) ∧
    (keyed.slot 9).counter < (wanting 32777 6).snap.keyA ∧ keyed.units.drbgState = 1 := by decide +kernel

/-- A job context whose admission of `i` waits, for job `j`. -/
def admitting (i : Instr) (j : Job) (u : Units) : State :=
  let x : Ctx := { cells [0x410000] with wait := .admission i, state := .blocked, job := some 0, pc := 0x10 }
  { live with
    engines := [(0, engineWith 1 x)], jobs := [(0, j)], units := u
    insts := [(0, { shares := [(3, ⟨0x00010004, 0x00010004, none⟩)] })] }

/-- A chained ZREQ asks without a key, and with a spent one; a CREQ asks without a key, with a spent one, and of a STARVED DRBG. -/
theorem witness_UnitsServe_admits :
    let chained := putNum 48 2 16
    let keys : Units := { drbgState := 3, slots := [(9, { front := { kind := 1, perm := 1 }, counter := 5 })] }
    let met := fun (s : State) => resumes s 0 1 2 && (s.ctx 0 1).state == .blocked && (s.ctx 0 1).job == some 0 && s.units.waiting.isEmpty &&
      decide (s.unitUse 0 < s.unitShare 0) && (s.ctx 0 1).freeUnitTag == some 0 && (s.ctx 0 1).stack == [0x410000]
    (met (admitting (.zreq (who 1) false false) { oneJob with desc := chained } {}) &&
      met (admitting (.creq (who 1) 0 false) oneJob {}) && met (admitting (.creq (who 1) 0 false) (wanting 32777 5) keys) &&
      met (admitting (.creq (who 1) 0 false) (wanting 32777 6) keys) &&
      met (admitting (.zreq (who 1) false false) { oneJob with desc := chained ||| (wanting 32777 5).desc, snap := { keyA := 5 } } keys)) = true ∧
    (match (admitting (.creq (who 1) 0 false) oneJob {}).keyCheck oneJob false 0 with | .refused 0x10 => true | _ => false) = true ∧
    (match (admitting (.creq (who 1) 0 false) (wanting 32777 5) keys).keyCheck (wanting 32777 5) false 0 with
      | .spent => true | _ => false) = true ∧
    (match (admitting (.creq (who 1) 0 false) (wanting 32777 6) keys).keyCheck (wanting 32777 6) false 0 with
      | .starved => true | _ => false) = true ∧
    (BitVec.ofNat 16 (lineNum chained 48 2)).getLsbD 4 = true := by
  refine ⟨by decide +kernel, by decide +kernel, by decide +kernel, by decide +kernel, by decide +kernel⟩

theorem witness_UnitsServe_stalled : { live with units := { drbgState := 3 } }.units.drbgState = 3 ∧
    (List.replicate 16 (0 : Octet)).length = 16 ∧ ({ } : Hist).wrap ≤ 2 := by decide

/-- What the extension has answered before the next beat: nothing, or a first beat with status `st`. -/
def answering (first : Option (Word × BitVec 2)) : State :=
  { live with
    engines := [(0, engineWith 1 { cells [2, 1] with wait := .extension, state := .blocked, pc := 0x10, extGen := 1 })]
    exts := [(0, { live := [(1, { gen := 1, op := 0x200, a := 1, b := 2, sent := true, first := first })] })] }

theorem witness_ExtensionsAnswer_beats : ∀ first ∈ [none, some (7, 0), some (7, 1)],
    resumes (answering first) 0 1 2 = true ∧ ((answering first).ctx 0 1).state = .blocked ∧ ((answering first).ctx 0 1).depth = 2 ∧
    Assoc.lookup ((answering first).ext 0).live (1 : BitVec 8).toNat = some ⟨1, 0x200, 1, 2, true, first⟩ ∧
    (answering first).mcs.remap = [] ∧ (answering first).mcs.bad = [] ∧ (answering first).dbg.trcEn = false ∧
    ((answering first).ctx 0 1).tw = false ∧ ((answering first).ctx 0 1).rstack = [] ∧ (answering first).ldk.resv = [] ∧
    (∀ r, Assoc.lookup ((answering first).ext 0).live (2 : BitVec 8).toNat = some r → r.gen ≠ 1) := by
  intro first hf
  simp only [List.mem_cons, List.not_mem_nil, or_false] at hf
  rcases hf with rfl | rfl | rfl <;> exact ⟨by decide, by decide, by decide, by decide, by decide, by decide, by decide, by decide, by decide,
    by decide, fun r h => by simp [answering, State.ext, Tab.get, Assoc.lookup] at h⟩

/-- Granule 16 is user 0's. -/
def granted : State := { live with ldk := { grans := [(16, { granDflt 16 with applied := .inst 0 })] } }

/-- A cipher request of user 0 without text: mode `m`, tag length `t`, and a tag. -/
def ciphering (m t : Nat) (tag : List Word) : UnitReq :=
  { unit := .cipher, inst := 0, job := 0, tag := 0, block := 0x410000, mode := BitVec.ofNat 4 m, grans := [16], kind := 1
    blk := List.replicate 12 0 ++ [BitVec.ofNat 36 t] ++ tag }

/-- The GCM tag of no text under the key and the vector of zeros. -/
def emptyTag : List Word := [0x058e2fcce, 0x0fa7e3061, 0x0367f1d57, 0]

theorem witness_UnitsServe_encrypts : (granted.cipherEnd (ciphering 0 12 (List.replicate 4 0))).unitError = false ∧
    (granted.cipherEnd (ciphering 0 12 (List.replicate 4 0))).code = 0 ∧ (granted.cipherEnd (ciphering 4 0 (List.replicate 4 0))).code = 0 ∧
    (granted.cipherEnd (ciphering 4 0 (List.replicate 4 0))).unitError = false := by decide +kernel

theorem witness_UnitsServe_decrypts : (granted.cipherEnd (ciphering 1 12 emptyTag)).code = 0 := by decide +kernel

theorem witness_UnitsServe_authFail : (granted.cipherEnd (ciphering 1 12 (List.replicate 4 0))).code = 0x17 := by decide +kernel

theorem witness_UnitsServe_chainFail :
    (granted.compressEnd { ciphering 0 0 [] with
      unit := .compression, decompress := true, opts := 17
      blk := [44] ++ List.replicate 15 0 ++ [12] ++ List.replicate 4 0 }).code = 0x17 := by decide +kernel

/-- Two free compressions: nothing, and a stream that has ended. -/
theorem witness_UnitsServe_stream :
    (match compressStream { level := 1 } true true [] with | .ok _ n _ => n == 0 | _ => false) = true := by decide +kernel

theorem witness_MirrorFrames_down : silent.Sees 6 (frameIn 6 [(203, 1, 1)]) ∧ (silent.lane 0).up = false ∧
    frameSeq (frameIn 8 []) = ((linked .paired none).lane 0).rxSeq ∧
    Assoc.lookup silent.mir.held (heldKey (opened 0).rid record.csn) = none ∧ silent.mir.held.length < 8192 ∧
    (frameIn 2 [(191, 13, 1), (90, 48, 1)]).getLsbD 69 = false := ⟨sees_of (by decide +kernel), by and_intros <;> decide +kernel⟩

/-- A sealed job awaits the partner's answer to its record 1. -/
def mirroring : State := { linked .paired none with jobs := [(0, { oneJob with st := .sealed, mirroring := .waiting, rid := some 1 })] }

theorem witness_MirrorFrames_helpers : (∀ p a : Bool, ({ linked .sync none with mir := { (linked .sync none).mir with
      own := [(1, { job := none, body := record, cost := 1, posted := p, acked := a })] } }.own 1).isSome = true) ∧
    (mirroring.job 0).any (fun j => j.st == .sealed && !j.releasing && j.mirroring == .waiting) = true := by decide

theorem witness_MirrorTimers_hail : ({ linked .paired none with mir := { (linked .paired none).mir with
      lanes := [(0, { up := true, hail := true })] } }.lane 0).hail = true ∧ (silence .lost 900).mir.tookNow = false ∧
    (silence .paired 900).alive = true ∧ (silence .paired 900).mir.link ≠ .lost ∧ State.reset.alive = false ∧
    { silence .lost 900 with life := { live.life with power := .retain } }.life.power ≠ .run ∧
    { silent with units := { attest := true } }.units.attest = true ∧ silent.mir.selfId = 0 := by decide

/-- A complex whose self-test runs: a cut is one of the four states that the writes of R472 pass through. -/
def testing (l : Life) : State := { powered l with aon := { log2 := 20, count := 7 } }

theorem witness_ResetsAndLifeCycle_test : (∀ b, (testing { shut := if b then .selfTest else .none }).selfTesting = b) ∧
    State.reset.selfTesting = false ∧ (∃ a, (testing {}).aon.CutTo a) ∧ (testing { shut := .selfTest }).life.porst = false ∧
    (testing { shut := .selfTest }).life.power ≠ .off ∧ ({ lost := false } : Aon).sigClass = 1 := by
  refine ⟨by decide, by decide, ⟨{ (testing {}).aon with complete := false }, ⟨rfl, .inl rfl⟩⟩, by decide, by decide, by decide⟩

theorem witness_StartUpBegins_more : (starting 1 .scrapped).alive = true ∧ (starting 1 .scrapped).life.lc = .scrapped ∧
    (starting 1 .scrapped).life.cleared = false ∧ (starting 1 .test).life.stopped = false ∧ (starting 1 .test).life.shut = .none ∧
    (starting 1 .test).life.compareFails = 0 ∧ (starting 1 .test).alive = true ∧
    (let s : State := { starting 1 .test with life := { (starting 1 .test).life with compareFails := 1, cleared := true } }
     s.life.compareFails = 1 ∧ s.up = true ∧ s.life.phase = 1) ∧
    (∀ b, (powered { shut := .selfTest, direct := b }).alive = true) ∧ (powered { shut := .selfTest }).life.shut = .selfTest ∧
    (∀ b, ({ starting 1 .test with life := { (starting 1 .test).life with quick := b } }.up = true)) ∧
    (starting 2 .blank).alive = true ∧ (starting 2 .blank).units.entropy.length + 1 ≠ 4 ∧ (starting 3 .test).life.phaseAt + 100000 ≤ 200000 := by
  decide

theorem witness_PowerStates_more : (powered { power := .retain, leaving := true, request := .off }).life.request = .off ∧
    (powered { power := .retain, leaving := true, request := .off }).ready = true ∧
    (powered { power := .retain, leaving := true, request := .off }).life.shut = .none ∧
    (powered {}).trackerIdle = true ∧ (powered {}).hostWait = [] ∧ (∀ i, ((powered {}).inst i).period.held = false) ∧ (powered {}).ready = true ∧
    (powered {}).life.power = .run ∧ (powered {}).dbg.attached = false ∧
    (let e := { powered { power := .retain, leaving := true } with engines := [(0, { running := true })] }.eng 0
     e.running = true ∧ e.halted = false) := by
  refine ⟨rfl, rfl, rfl, by decide, rfl, fun _ => rfl, rfl, rfl, rfl, rfl, rfl⟩

/-- Start-up has stopped; the complex is SCRAPPED for good; a port in reset. -/
theorem witness_RegisterPort_muted : { live with life := { live.life with stopped := true } }.muted = true ∧
    { live with life := { live.life with stopped := true } }.portOn = true ∧ inGlbLcb (0x0B000 : BitVec 20).toNat = false ∧
    { live with life := { live.life with changed := true } }.ended = true ∧
    { live with life := { live.life with changed := true } }.portOn = true ∧ State.reset.portOn = false ∧
    (0x0B000 : BitVec 20).toNat % 4 = 0 := by decide +kernel

/-- Vector 0 of user 0 waits for its mask, with or without VALID; an accepted job and an enabled channel are the user's. -/
def masked (valid : Bool) : State := { live with
  insts := [(0, { mask := 1, pend := 1, vecs := [(0, { valid := valid })] })], jobs := [(0, { oneJob with st := .accepted, place := none })] }

theorem witness_UserRegisters_more : (∀ b, (masked b).takesWrites ∧
      ((masked b).inst 0).mask &&& ~~~((0 : Reg32).setWidth 8) &&& ((masked b).inst 0).pend = (1 : BitVec 8) <<< (0 : Nat) ∧
      (((masked b).inst 0).vec 0).valid = b) ∧
    (live.inst 0).mask &&& ~~~((0 : Reg32).setWidth 8) &&& (live.inst 0).pend = 0 ∧ live.trackerEmpty 0 = true ∧
    (live.inst 0).rstate = .run ∧ (masked true).trackerEmpty 0 = false ∧
    ((masked true).job 0).any (fun j => j.inst == 0 && j.st == .accepted && j.place.isNone && !j.squashDue) = true ∧
    (ringing.chan 5).enabled = true ∧ (ringing.chan 5).instNum = 0 ∧ ringing.ownerOf 5 = none ∧ turning.ownerOf 5 = some 0 ∧
    (1 : Reg32).getLsbD 0 = true ∧ live.backRead 0 = false := by
  refine ⟨fun b => ⟨takes_writes (by cases b <;> decide), by cases b <;> decide, by cases b <;> decide⟩, by and_intros <;> decide +kernel⟩

theorem witness_ComplexRegisters_more :
    (let s : State := { live with mir := { en := true, link := .bringup } }
     (s.portOn && !s.muted) = true ∧ s.mir.en = true ∧ s.mir.link ≠ .disabled) ∧ live.mir.en = false ∧ live.mir.link = .disabled ∧
    (starting 7 .test).life.phase = 7 ∧ (starting 8 .blank).mir.en = false ∧ (starting 8 .blank).mir.link = .disabled ∧
    ((starting 8 .blank).portOn && !(starting 8 .blank).muted) = true ∧
    (let s : State := { live with mir := { en := true, link := .replaced } }
     (s.portOn && !s.muted) = true ∧ s.mir.link = .replaced) ∧
    { live with jobs := [(0, oneJob)] }.trackerIdle = false ∧ live.mir.own = [] ∧ live.life.lc ≠ .blank := by decide

theorem witness_DebugAccesses_more : { live with life := { live.life with directDone := true } }.life.directDone = true ∧
    live.life.directDone = false ∧ live.dbg.fails.toNat < 8 ∧ live.dbg.attached = false ∧ (wireAt 1 0).cls ≠ 3 ∧
    (debugging true).life.shut = .none := by decide

/-- Engine 0 is in a locked sequence; engine 0 is a member of group 1, with halt-in. -/
theorem witness_DebugRunControl_more : ((debugging false).eng 0).micro.busy = none ∧
    (∀ c < 8, ((debugging false).ctx 0 c).memWait = none) ∧
    (let s : State := { debugging false with
       engines := [(0, { (debugging false).eng 0 with ctxs := [(1, { state := .ready, lock := some ⟨false, 0x640, 3, false⟩ })] })] }
     (s.eng 0).running = true ∧ (s.eng 0).halted = false ∧ s.inLock 0 1 = true) ∧
    (let s : State := { debugging false with dbg := { (debugging false).dbg with groups := [(256, true, false)] } }
     (256 * 1 + 0, true, false) ∈ s.dbg.groups ∧ s.inService 0 = true ∧ (s.eng (s.physOf 0)).running = true ∧
       (s.eng (s.physOf 0)).slot = none ∧ (s.eng (s.physOf 0)).micro.busy = none ∧ s.locked (s.physOf 0) = false) ∧
    (0 : Word).getLsbD 3 = false := by decide

/-! ## The block and the laws -/

theorem witness_StepRunsFront : { live with pending := [.vaonPowerOn, .parserReset] }.pending = .vaonPowerOn :: [.parserReset] ∧
    live.pending = [] := by decide

theorem witness_DeckStaysCanonical : Tab.canonical wordDflt State.reset.ldk.mem = true ∧ (∃ t, step State.reset = .next t) ∧
    Tab.canonical wordDflt [(7, (1 : Word))] = true ∧ Tab.canonical wordDflt [(7, (0 : Word))] = false ∧
    Tab.canonical wordDflt ([] : List (Nat × Word)) = true := ⟨by decide, ⟨_, rfl⟩, by decide, by decide, by decide⟩

theorem witness_DivisionSteps : (0 : Word).toNat < (7 : Word).toNat ∧ (0o777777777776 : Word).toNat < (0o777777777777 : Word).toNat ∧
    (7 : Int) ≠ 0 ∧ (-7 : Int) ≠ 0 := by decide

/-- An empty queue: a tick after the release of PORST_N, and none before (log entry 1). -/
theorem test_idle : (match step live with | .next t => t.now | _ => 0) = 1001 ∧ (match step State.reset with | .next t => t.now | _ => 9) = 0 := by
  decide

/-! ## WellFormed: one ill-formed term for each check -/

theorem test_illFormed : ([.ainc (who 1) 0, .ainc (who 1) 9, .lock (who 1) 1, .lock (who 1) 9, .callw (who 1) 5 0, .callwt (who 1) 5,
    .jobTimer (here 0), .go (here 0), .admissionAnswer (here 0), .xferComplete (here 0) 0 .clean, .laneGrant .cipher 8,
    .extensionRequest 0 136, .extensionResponseBeat 0 136 0 0 true true 0, .sysrstRelease 0x33 [0], .registerWrite 2 (whole 0),
    .reservedAccess 1 false true, .readClear 3 true, .loReadLatch 6 true, .patchUnitWrite 3 (whole 0)] : List Instr).all
    (fun c => !c.WF) = true := by decide

theorem test_wellFormed : ([.ainc (who 1) 8, .lock (who 1) 8, .callw (who 1) 4 0, .callwt (who 1) 4, .jobTimer (here 7), .go (here 1),
    .admissionAnswer (here 1), .xferComplete (here 1) 0 .clean, .laneGrant .cipher 7, .laneGrant .compression 15, .extensionRequest 0 135,
    .extensionResponseBeat 0 135 0 0 true true 0, .sysrstRelease 0x33 (List.replicate 16 0), .registerWrite 4 (whole 0),
    .reservedAccess 0 false true, .readClear 4 true, .loReadLatch 8 true, .patchUnitWrite 2 (whole 0)] : List Instr).all Instr.WF = true := by
  decide

/-! ## Values from the manual's examples -/

/-- The context of the issue, after it. -/
def after (s : State) (c : Instr) : Ctx := match exec c s with
  | .next t => t.ctx 0 1
  | _ => {}

/-- Chapter 08, example of CMP: −1 against 1. -/
theorem test_cmp : (after (host 1 (cells [1, 0o777777777777])) (.cmp (who 1))).stack = [18] ∧
    (after (host 1 (cells [1, 0o777777777777])) (.cmp (who 1))).flags = ⟨false, false, false, true⟩ := by decide

/-- Chapter 08, example of two engines: word 0x41_2345 is word 74,565 of the log deck, and BZ with O = 4 goes four syllables back. -/
theorem test_lockLoop : placeOf 0x412345 = .deck 74565 ∧ 74565 / 8 = 9320 ∧
    (after { host 1 (cells [0]) with engines := [(0, engineWith 1 { cells [0] with state := .ready, pc := 0x14 })] } (.bz (who 1) 4)).pc = 0x10 := by
  decide

/-- Chapter 10, Table BIN.1: steps 32, 33 and 34 of 100 / 7. -/
theorem test_divStep : (divStep 3 (0 <<< 35) 7).1 = 6 ∧ (divStep 6 (0 <<< 35) 7).1 = 5 ∧ (divStep 6 0 7).2 = 1 ∧
    (divStep 5 (1 <<< 35) 7).1 = 4 := by decide

/-- Chapter 03, example of the two transfer modes. -/
theorem test_pack : packOctets false [0x41, 0x42, 0x43, 0x44] = [0o101102103104] ∧
    packOctets true [0x01, 0x23, 0x45, 0x67, 0x89, 0xAB, 0xCD, 0xEF, 0x10] = [0o002215053170, 0o465363367420] := by decide

/-- Chapter 02, example of the life-cycle store. -/
theorem test_lifeCycle : decodeLc 0x33 = .field ∧ decodeLc 0x31 = .scrapped := by decide

/-- Chapter 06, example of nine nested calls: W1 with depth 4 and groups 0 and 1 dirty is spilled. -/
theorem test_spill :
    let w : Window := { cells := [(0, 1), (1, 2), (2, 3), (3, 4)], depth := 4, dirty := 3 }
    let t := match exec (.spillw (who 1)) { host 1 { tw := true, twCause := 5, windows := [win [1], w], wsp := 0x3200, wsl := 0x3400 } with now := 0 } with
      | .next t => t
      | _ => live
    (t.ctx 0 1).wsp = 0x3211 ∧ (t.ctx 0 1).stack = [1] ∧ (t.eng 0).word 0x3200 = 4 + 32 * 3 ∧ (t.eng 0).word 0x3204 = 4 ∧
      (t.eng 0).word 0x3209 = 0 := by decide

/-- Chapter 09, example of the interest: L0 and L1 at scale 2, step 1 of three. -/
theorem test_share :
    let p : BitVec 72 := 33333333333333333333
    let l := (after (host 1 { cells [hiWord p, loWord p] with ledger := Ledger.seal { accs := [(0, { coef := 10000, scale := 2 }), (1, { scale := 2 })] } {} })
      (.lshare (who 1) 0 false)).ledger
    (l.acc 1).coef = 3333 ∧ (l.acc 1).kerf = 0 ∧ (l.acc 0).coef = 10000 ∧ l.share.isSome = true := by decide +kernel

/-- Chapter 09, example of the payout: 1,234.56 times 0.0375 on a grid of 0.05. -/
theorem test_multiply :
    let l := (after (host 1 { cells [0, 0x375C] with ledger := Ledger.seal { accs := [(2, { coef := 123456, scale := 2, cash := 1 })], osc := some 4 } {} })
      (.lmul (who 1) 2)).ledger
    (l.acc 2).coef = 4630 ∧ (l.acc 2).kerf = -4 * 10 ^ 39 := by decide +kernel

/-- Chapter 09, the same example: the packed field of 46.30. -/
theorem test_packed : (match writeString 0 4 (some 4630) with | .inl b => b | .inr _ => []) = [0x00, 0x04, 0x63, 0x0C] := by decide +kernel

/-- Chapter 09, example of the failing balance: 299.995 under mode 0 leaves a residue of −0.005. -/
theorem test_tie : ({ scale := 2 } : Accum).addAt 299995 3 = some ({ coef := 30000, kerf := -5 * 10 ^ 39, scale := 2 }, false) := by decide +kernel

/-- Chapter 20, example of the stray write: GLB_RSVADDR, and the address of an ordinary register. -/
theorem test_strayWrite :
    let t := match exec (.reservedAccess 0x07050 true true) live with
      | .next t => t
      | _ => State.reset
    t.glb.rsvacc = true ∧ t.regValue false 0x00008 = some 0x80007050 ∧ (live.regValue false 0x7450C).isSome = true := by decide +kernel

end Sys2Proof.Tests
end

section
/-!
PROOF. O2: every command answers a next state, and an engine instruction of a context whose turn it is not changes nothing but
what the ports drive (R152).
-/

namespace Sys2Proof.Machine

/-! ## Engine instructions as issues -/

/-- An engine instruction is the issue of a shape and a work; SLEEP, COMMIT and ABORT alone go on after their issue. -/
theorem exec_eq_issue {c : Instr} {i : Issue} (hi : issueOf c = some i) (s : State) :
    (∃ h w, exec c s = issue i h w s) ∨ c = .sleep i ∨ c = .commit i ∨ ∃ d t, c = .abort i d t := by
  cases c <;> cases hi
  case sleep => exact .inr (.inl rfl)
  case commit => exact .inr (.inr (.inl rfl))
  case abort d t => exact .inr (.inr (.inr ⟨d, t, rfl⟩))
  all_goals exact .inl ⟨_, _, rfl⟩

/-- R152: a context whose turn it is not issues nothing, so that only what the ports drive is cleared. -/
theorem State.issue_of_not_mayIssue {s : State} {i : Issue} (hm : s.mayIssue i.isl.val i.ctx.val = false) (h : Shape) (w : Work) :
    s.issue i h w = s.quietOut := by
  have hb : (!s.quietOut.mayIssue i.isl.val i.ctx.val ||
      (i.bad.isSome && ((s.quietOut.ctx i.isl.val i.ctx.val).badCode i).isNone)) = true := by
    rw [show s.quietOut.mayIssue i.isl.val i.ctx.val = false from hm, Bool.not_false, Bool.true_or]
  exact if_pos hb

/-- R152 for SLEEP: a keeper that does not issue does not fall asleep, so nothing is offered elsewhere. -/
theorem execSleep_of_not_mayIssue {s : State} {i : Issue} (hm : s.mayIssue i.isl.val i.ctx.val = false) :
    execSleep i s = .next s.quietOut := by
  have awake : ¬ (i.ctx = 0 ∧ (s.ctx i.isl.val 0).state ≠ .sleeping ∧ (s.ctx i.isl.val 0).state = .sleeping) :=
    fun ⟨_, hne, he⟩ => hne he
  unfold execSleep
  rw [State.issue_of_not_mayIssue hm]
  exact if_neg awake

/-! ## Every command -/

/-- A meaning that branches answers a next state in each branch of its own; every other meaning is one next state. -/
theorem exec_answers (c : Instr) (s : State) : ∃ t, exec c s = .next t := by
  cases c <;> dsimp only [exec]
  -- Dispatch and the store buffer
  case' dispatch stand => fun_cases execDispatch
  case' storeBufferDrain drain => fun_cases execStoreBufferDrain
  -- Unit requests and extension ports
  case' admissionAnswer a => fun_cases execAdmissionAnswer
  case' extensionRequest stand ctx => fun_cases execExtensionRequest
  case' extensionResponseBeat stand ctx gen data dbl last stat => fun_cases execExtensionResponseBeat
  case' xferComplete a slot ecc => fun_cases execXferComplete
  -- Engine events and coppice substitution
  case' loadDataReturn a ecc => fun_cases execLoadDataReturn
  case' interruptEntry entry => fun_cases execInterruptEntry
  case' deliveredTrapEntry entry => fun_cases execDeliveredTrapEntry
  case' jobTimer a => fun_cases execJobTimer
  case' keeperWatchdog isl => fun_cases execKeeperWatchdog
  case' sleepExpiry a => fun_cases execSleepExpiry
  case' go a => fun_cases execGo
  case' wdtKick isl => fun_cases execWdtKick
  case' coppiceSubstitution isl => fun_cases execCoppiceSubstitution
  case' coppiceHandover stand badCtx badStore => fun_cases execCoppiceHandover
  -- Cipher and compression lanes
  case' laneGrant u lane => fun_cases execLaneGrant
  case' cipherRequestDone lane ecc => fun_cases execCipherRequestDone
  case' compressionRequestDone lane ecc => fun_cases execCompressionRequestDone
  case' deriveComplete slot => fun_cases execDeriveComplete
  case' shadeRekey lane => fun_cases execShadeRekey
  -- Life cycle, start-up and power
  case' porstRelease => fun_cases execPorstRelease
  case' sysrstAssert => fun_cases execSysrstAssert
  case' sysrstRelease lc present => fun_cases execSysrstRelease
  case' lcStateChange lc stable => fun_cases execLcStateChange
  case' keyBeat data => fun_cases execKeyBeat
  case' keyTimeout => fun_cases execKeyTimeout
  case' entropyWord data health => fun_cases execEntropyWord
  case' entropyTimeout => fun_cases execEntropyTimeout
  case' selfTestDone sig patterns failing => fun_cases execSelfTestDone
  case' patchWaitTimeout => fun_cases execPatchWaitTimeout
  case' keeperBootDone failing => fun_cases execKeeperBootDone
  case' hostBringupTimeout => fun_cases execHostBringupTimeout
  case' mirrorLinkupTimeout => fun_cases execMirrorLinkupTimeout
  case' pwrReqRun => fun_cases execPwrReqRun
  case' pwrReqOff => fun_cases execPwrReqOff
  case' pwrReqInvalid => fun_cases execPwrReqInvalid
  case' retainEntryDone => fun_cases execRetainEntryDone
  case' retainExitDone => fun_cases execRetainExitDone
  case' shutdownTimeout => fun_cases execShutdownTimeout
  case' clearingCompareDone pass => fun_cases execClearingCompareDone
  case' keyValidIgnored => fun_cases execKeyValidIgnored
  case' stagingBufferTestDone => fun_cases execStagingBufferTestDone
  -- Channels, cruise and floating-point results
  case' descriptorFetch chan => fun_cases execDescriptorFetch
  case' cruiseSample isl delayFs => fun_cases execCruiseSample
  case' powerBudgetCheck estimate => fun_cases execPowerBudgetCheck
  case' fpResult a check => fun_cases execFpResult
  -- Epochs
  case' epochBoundary => fun_cases execEpochBoundary
  case' affinityRebuildDone => fun_cases execAffinityRebuildDone
  case' granuleZeroingDone g => fun_cases execGranuleZeroingDone
  -- Host ports and rings
  case' responseBeat port tag code data => fun_cases execResponseBeat
  case' notify port line => fun_cases execNotify
  case' requestCreditReturn port => fun_cases execRequestCreditReturn
  case' hostRequestTimeout port tag => fun_cases execHostRequestTimeout
  case' retryReissue port tag => fun_cases execRetryReissue
  case' tagQuarantineEnd port tag => fun_cases execTagQuarantineEnd
  case' clockMissing clk => fun_cases execClockMissing
  case' ringControlPoll r => fun_cases execRingControlPoll
  case' ringRewrite r => fun_cases execRingRewrite
  -- The mirror link
  case' hello lane frame => fun_cases execHello
  case' attest lane frame => fun_cases execAttest
  case' commitRec lane frame => fun_cases execCommitRec
  case' payload lane frame => fun_cases execPayload
  case' ack lane frame => fun_cases execAck
  case' retire lane frame => fun_cases execRetire
  case' heartbeat lane frame => fun_cases execHeartbeat
  case' stateSync lane frame => fun_cases execStateSync
  case' nack lane frame => fun_cases execNack
  case' unknownFrame lane frame => fun_cases execUnknownFrame
  case' helloPeriod lane => fun_cases execHelloPeriod
  case' heartbeatPeriod lane => fun_cases execHeartbeatPeriod
  case' laneDownTimeout lane => fun_cases execLaneDownTimeout
  case' partnerLossTimeout => fun_cases execPartnerLossTimeout
  case' bringupStallTimeout => fun_cases execBringupStallTimeout
  case' selfFence => fun_cases execSelfFence
  case' pairArb level => fun_cases execPairArb
  case' attestComputationDone digest => fun_cases execAttestComputationDone
  -- Scrubs, timers and the patch check
  case' logDeckScrub found => fun_cases execLogDeckScrub
  case' localStoreScrub isl addr ecc => fun_cases execLocalStoreScrub
  case' microcodeScrub stand addr ecc => fun_cases execMicrocodeScrub
  case' stateScrub store ecc => fun_cases execStateScrub
  case' eventTimer t => fun_cases execEventTimer
  case' drainTimeout inst => fun_cases execDrainTimeout
  case' patchCheckDone => fun_cases execPatchCheckDone
  -- Registers and debug
  case' reservedAccess addr write priv => fun_cases execReservedAccess
  case' ringEnable r x => fun_cases execRingEnable
  case' patchUnitWrite reg x => fun_cases execPatchUnitWrite
  case' suyciaRequest entry => fun_cases execSuyciaRequest
  case' badOp path op parityOk => fun_cases execBadOp
  -- SLEEP, which goes on after its issue
  case' sleep who => fun_cases execSleep
  -- Each branch, and each meaning that has none, is a next state.
  all_goals exact ⟨_, rfl⟩

/-- Settles O2: every command answers by the branches of its meaning, and out of turn an instruction's issue leaves the state
as it is. -/
theorem everyCommandCompletes : Obligations.EveryCommandCompletes := by
  unfold Obligations.EveryCommandCompletes
  refine ⟨exec_answers, fun c i s hi hc hm => ?_⟩
  obtain ⟨h, w, he⟩ | rfl | rfl | ⟨d, t, rfl⟩ := exec_eq_issue hi s
  · rw [he, issue, State.issue_of_not_mayIssue hm]
  · exact execSleep_of_not_mayIssue hm
  · exact hc.elim
  · exact hc.elim

end Sys2Proof.Machine
end

section
/-!
SUPPORT. Frames of the host side: an event touches engines and the event controller alone, a request that falls due touches the
host ports alone, and a complex that is up in RUN has its host ports clocked.
-/

namespace Sys2Proof.Machine

/-! ## Events leave everything but engines and sources (R363, R367) -/

/-- From `s` to `t` only engines and the event controller differ. -/
def State.EventsOnly (s t : State) : Prop := ∃ e v, t = { s with engines := e, evc := v }

theorem State.EventsOnly.refl (s : State) : s.EventsOnly s := ⟨_, _, rfl⟩

theorem State.EventsOnly.trans {s t u : State} : s.EventsOnly t → t.EventsOnly u → s.EventsOnly u := by
  rintro ⟨e, v, rfl⟩ ⟨e', v', rfl⟩
  exact ⟨e', v', rfl⟩

theorem State.EventsOnly.foldl {α : Type} (f : State → α → State) (h : ∀ (s : State) a, s.EventsOnly (f s a)) (l : List α)
    (s : State) : s.EventsOnly (l.foldl f s) := by
  induction l generalizing s with
  | nil => exact .refl s
  | cons a l ih => exact (h s a).trans (ih _)

theorem State.eventsOnly_deliver (s : State) (n : Nat) : s.EventsOnly (s.deliver n) := by
  fun_cases State.deliver s n <;> exact ⟨_, _, rfl⟩

theorem State.eventsOnly_redeliver (s : State) : s.EventsOnly s.redeliver :=
  (State.EventsOnly.foldl _ State.eventsOnly_deliver _ s).trans (State.EventsOnly.foldl _ State.eventsOnly_deliver _ _)

theorem State.eventsOnly_offer (s : State) (n : Nat) : s.EventsOnly (s.offer n) := by
  fun_cases State.offer s n
  · exact (s.eventsOnly_deliver n).trans (State.eventsOnly_redeliver _)
  · exact s.eventsOnly_deliver n

theorem State.eventsOnly_arrive (s : State) (n : Nat) : s.EventsOnly (s.arrive n) := by
  unfold State.arrive
  refine State.EventsOnly.trans ?_ (State.eventsOnly_offer _ n)
  split <;> exact ⟨_, _, rfl⟩

@[simp] theorem State.arrive_chan (s : State) (n c : Nat) : (s.arrive n).chan c = s.chan c := by
  obtain ⟨e, v, h⟩ := s.eventsOnly_arrive n
  rw [h]; rfl

@[simp] theorem State.arrive_mir (s : State) (n : Nat) : (s.arrive n).mir = s.mir := by
  obtain ⟨e, v, h⟩ := s.eventsOnly_arrive n
  rw [h]

/-! ## Requests leave everything but the host ports (R54, R57) -/

/-- From `s` to `t` only the host ports, what waits for them and what they drive differ. -/
def State.PortsOnly (s t : State) : Prop := ∃ p w o, t = { s with ports := p, hostWait := w, out := o }

theorem State.PortsOnly.trans {s t u : State} : s.PortsOnly t → t.PortsOnly u → s.PortsOnly u := by
  rintro ⟨p, w, o, rfl⟩ ⟨p', w', o', rfl⟩
  exact ⟨p', w', o', rfl⟩

theorem State.portsOnly_tryIssue {s t : State} {r : HostReq} (h : s.tryIssue r = some t) : s.PortsOnly t := by
  revert h
  fun_cases State.tryIssue s r
  case case6 => rintro ⟨⟩; exact ⟨_, _, _, rfl⟩
  all_goals exact nofun

theorem State.portsOnly_pumpList (s : State) (l : List HostReq) : s.PortsOnly (s.pumpList l) := by
  induction l generalizing s with
  | nil => exact ⟨_, _, _, rfl⟩
  | cons r l ih =>
    unfold State.pumpList
    split
    · rename_i t ht
      have issued : s.tryIssue r = some t := by
        split at ht
        · cases ht
        · exact ht
      exact (State.portsOnly_tryIssue issued).trans (ih t)
    · exact State.PortsOnly.trans ⟨_, _, _, rfl⟩ (ih _)

theorem State.portsOnly_pump (s : State) : s.PortsOnly s.pump :=
  State.PortsOnly.trans (t := { s with hostWait := [] }) ⟨_, _, _, rfl⟩ (State.portsOnly_pumpList _ _)

theorem State.portsOnly_send (s : State) (r : HostReq) : s.PortsOnly (s.send r) :=
  State.PortsOnly.trans (t := { s with hostWait := s.hostWait ++ [r] }) ⟨_, _, _, rfl⟩ (State.portsOnly_pump _)

/-- A request that falls due changes no ring. -/
@[simp] theorem State.send_ring (s : State) (r : HostReq) (k : RingId) : (s.send r).ring k = s.ring k := by
  obtain ⟨p, w, o, h⟩ := s.portsOnly_send r
  rw [h]
  cases k <;> rfl

/-! ## What the ports drive shows in no predicate -/

/-- A command first clears what the ports drove. -/
theorem State.out_nil (s : State) : { s with out := [] } = s.quietOut := rfl

@[simp] theorem State.quietOut_up (s : State) : s.quietOut.up = s.up := rfl
@[simp] theorem State.quietOut_portsOn (s : State) : s.quietOut.portsOn = s.portsOn := rfl
@[simp] theorem State.quietOut_portStill (s : State) (n : Nat) : s.quietOut.portStill n = s.portStill n := rfl
@[simp] theorem State.quietOut_nextPos (s : State) (c : Nat) : s.quietOut.nextPos c = s.nextPos c := rfl
@[simp] theorem State.quietOut_pollDue (s : State) (c : Nat) : s.quietOut.pollDue c = s.pollDue c := rfl
@[simp] theorem State.quietOut_ring (s : State) (r : RingId) : s.quietOut.ring r = s.ring r := by cases r <;> rfl

/-! ## A complex that is up -/

theorem State.portsOn_of_up {s : State} (hup : s.up = true) (hrun : s.life.power = .run) : s.portsOn = true := by
  simp only [State.up, Bool.and_eq_true] at hup
  obtain ⟨⟨⟨⟨⟨hp, hr⟩, -⟩, -⟩, -⟩, -⟩ := hup
  simp [State.portsOn, hp, hr, hrun]

theorem State.not_changed_of_up {s : State} (hup : s.up = true) : s.life.changed = false := by
  simp only [State.up, Bool.and_eq_true, Bool.not_eq_true'] at hup
  obtain ⟨⟨⟨-, changed⟩, -⟩, -⟩ := hup
  exact changed

/-- Where no clock was found missing, a beat of a port shows nothing new. -/
theorem State.portBack_of_clocks {s : State} (h : s.life.noClock = []) (n : Nat) : s.portBack n = s := by
  have still : s.life.noClock.filter (· != if n = 0 then ClockId.hclk0 else .hclk1) = s.life.noClock := by rw [h]; rfl
  unfold State.portBack State.clockBack
  rw [still]

@[simp] theorem State.putPort_putPort (s : State) (n : Nat) (x y : Port) : (s.putPort n x).putPort n y = s.putPort n y := by
  simp [State.putPort]

end Sys2Proof.Machine
end

section
/-!
PROOF. O41: polls and NOTIFY lead to one read of a doorbell line for its user, and a channel whose turn it is reads its next
descriptor.
-/

namespace Sys2Proof.Machine

/-! ## Doorbell lines (R64, R65, R82, R388) -/

/-- R65: a line that no read of its user covers yet is read for that user. -/
theorem State.ringBell_of_uncovered {s : State} {i : BitVec 8} {line : BitVec 58} (runs : s.instRuns i.toNat = true)
    (waits : s.bellWaits i line = false) (out : s.bellOut i line = false) :
    s.ringBell i line = (false, s.send (readReq (line ++ (0 : BitVec 6)) i 1 (.doorbell i line))) := by
  simp [State.ringBell, runs, waits, out]

/-- R388: a line is not read for a user that does not fetch. -/
theorem State.ringBell_of_not_runs {s : State} {i : BitVec 8} {line : BitVec 58} (runs : s.instRuns i.toNat = false) :
    s.ringBell i line = (true, s) := by
  simp [State.ringBell, runs]

/-- A line of one user is read for that user alone. -/
theorem State.ringLine_of_one_user {s : State} {i : BitVec 8} {line : BitVec 58} (one : s.bellUsers line = [i]) :
    s.ringLine line = s.ringBell i line := by
  simp [State.ringLine, one]

/-- The doorbell line of an enabled channel is read for its user while the complex fetches. -/
theorem State.ringChan_of_enabled {s : State} {c : Nat} {e : ChanEntry} (entry : (s.chan c).entry = some e)
    (enabled : (s.chan c).enabled = true) (fetch : s.fetchOk = true) :
    s.ringChan c = (s.ringBell e.inst (e.dbell.extractLsb' 6 58)).2 := by
  simp [State.ringChan, entry, enabled, fetch]

/-- NOTIFY at a clocked port with a credit: the credit returns, and what follows depends on the port, on the line's channels and on
whether the complex fetches (R54, R55, R64). -/
theorem execNotify_of_credit {s : State} {port : Bool} (line : BitVec 58) (up : s.up = true) (run : s.life.power = .run)
    (clocks : s.life.noClock = []) (credit : (s.port (bit port)).ntCredits ≠ 0) :
    let q := s.quietOut.emit (.ntCredit port)
    execNotify port line s =
      if (s.port (bit port)).en = false then .next q
      else if s.bellChans line = [] then .next (q.violationAt (bit port) 7 (64 * line.toNat)).settle
      else if s.fetchOk = false then .next (q.hostCount (bit port) 12)
      else .next (if (q.ringLine line).1 then (q.ringLine line).2.hostCount (bit port) 12 else (q.ringLine line).2) := by
  have on : s.portsOn = true := State.portsOn_of_up up run
  have back : s.quietOut.portBack (bit port) = s.quietOut := State.portBack_of_clocks (s := s.quietOut) clocks _
  have chans : (s.quietOut.emit (.ntCredit port)).bellChans line = s.bellChans line := rfl
  have fetch : (s.quietOut.emit (.ntCredit port)).fetchOk = s.fetchOk := rfl
  simp [execNotify, State.out_nil, back, up, on, credit, chans, fetch]

/-- The channel whose turn it is reads the descriptor of its next position, once its user may accept one more job (R80, R384). -/
theorem execDescriptorFetch_of_turn {s : State} {chan : BitVec 13} {e : ChanEntry} {pos : BitVec 32}
    (entry : (s.chan chan.toNat).entry = some e) (next : s.nextPos chan.toNat = some pos) (fetch : s.fetchOk = true)
    (runs : s.instRuns e.inst.toNat = true) (share : s.acceptUse e.inst.toNat < s.acceptShare e.inst.toNat)
    (total : s.acceptTotal < 16384) (turn : s.fetchTurn e.inst.toNat = some chan.toNat) :
    execDescriptorFetch chan s =
      .next (((s.quietOut.putChan chan.toNat { s.chan chan.toNat with fetching := true, fetchEntry := some e }).putInst e.inst.toNat
        { s.inst e.inst.toNat with lastChan := chan.toNat }).send
          (readReq (e.sub + BitVec.ofNat 64 (64 * (pos.toNat % 2 ^ e.l))) e.inst 1 (.descriptor chan.toNat pos))) := by
  have may : ¬ (!s.fetchOk || !s.instRuns e.inst.toNat || s.acceptShare e.inst.toNat ≤ s.acceptUse e.inst.toNat ||
      16384 ≤ s.acceptTotal || s.fetchTurn e.inst.toNat != some chan.toNat) = true := by
    simp [fetch, runs, share, total, turn]
  simp only [execDescriptorFetch, State.out_nil, State.quietOut_nextPos, State.quietOut_chan, next, entry]
  exact if_neg may

/-- Settles O41: each command reaches its one read through the branches that its premises choose. -/
theorem channelsFetch : Obligations.ChannelsFetch := by
  unfold Obligations.ChannelsFetch
  refine ⟨?poll, ?notify, ?descriptor⟩
  case poll =>
    intro chan s e x line entry enabled fetch runs waits out due
    have rung : s.quietOut.ringChan chan.toNat =
        s.quietOut.send (readReq (line ++ (0 : BitVec 6)) e.inst 1 (.doorbell e.inst line)) :=
      (State.ringChan_of_enabled (s := s.quietOut) entry enabled fetch).trans
        (congrArg Prod.snd (State.ringBell_of_uncovered (s := s.quietOut) runs waits out))
    change execDoorbellPoll chan s = _
    simp only [execDoorbellPoll, State.out_nil, State.quietOut_pollDue, due, if_true, rung]
  case notify =>
    intro port line s i q up run clocks credit
    change (_ → execNotify port line s = _) ∧ (_ → _ → execNotify port line s = _) ∧
      (_ → _ → _ → _ → (_ → _ → _ → execNotify port line s = _) ∧ (_ → execNotify port line s = _))
    rw [execNotify_of_credit line up run clocks credit]
    refine ⟨fun disabled => if_pos disabled, fun en silent => ?_, fun en fetch one heard =>
      ⟨fun runs waits out => ?_, fun stopped => ?_⟩⟩
    · simp [en, silent, q]
    · have rung := (State.ringLine_of_one_user (s := q) one).trans (State.ringBell_of_uncovered (s := q) runs waits out)
      simp [en, fetch, heard, q, rung]
    · have rung := (State.ringLine_of_one_user (s := q) one).trans (State.ringBell_of_not_runs (s := q) stopped)
      simp [en, fetch, heard, q, rung]
  case descriptor =>
    intro chan s e pos c i entry next fetch runs share total turn
    exact execDescriptorFetch_of_turn entry next fetch runs share total turn

end Sys2Proof.Machine
end

section
/-!
PROOF. O43: request credits, clocks that stop, polls of a ring's control line and rewrites of its records.
-/

namespace Sys2Proof.Machine

/-! ## Request credits (R54, R55) -/

/-- Port `n` with one credit more (R54). -/
def State.credited (s : State) (n : Nat) : State := s.putPort n { s.port n with credits := (s.port n).credits + 1 }

/-- A port that becomes UP moves no phase of the start-up. -/
theorem State.portUp_life (s : State) (n : Nat) : (s.portUp n).life = s.life := by
  obtain ⟨e, v, events⟩ := (s.putPort n { s.port n with up := true }).eventsOnly_arrive (560 + 16 * n)
  obtain ⟨p, w, o, ports⟩ := ((s.putPort n { s.port n with up := true }).arrive (560 + 16 * n)).portsOnly_pump
  rw [State.portUp, ports, events]
  rfl

/-- The credit and the rise of its port are one change of the port. -/
theorem State.credited_portUp (s : State) (n : Nat) : (s.credited n).portUp n =
    ((s.putPort n { s.port n with credits := (s.port n).credits + 1, up := true }).arrive (560 + 16 * n)).pump := by
  simp only [State.portUp, State.credited, State.putPort_port_self, State.putPort_putPort]

/-- A credit for a port that stays as it is lets what waits go out. -/
theorem execRequestCreditReturn_of_no_change {s : State} {port : Bool} (up : s.up = true) (on : s.portsOn = true)
    (few : (s.port (bit port)).credits < 255)
    (stays : (s.port (bit port)).up = true ∨ (s.port (bit port)).en = false ∨ s.life.phase < 6) :
    execRequestCreditReturn port s = .next ((s.quietOut.portBack (bit port)).credited (bit port)).pump.settle := by
  have on' : ¬ (!s.up || !s.portsOn) = true := by simp [up, on]
  have still : ¬ ((s.port (bit port)).en && !(s.port (bit port)).up && 6 ≤ s.life.phase) = true := by
    obtain h | h | h := stays <;> simp [h]
  exact (if_neg on').trans ((if_neg (Nat.not_le.2 few)).trans (if_neg still))

/-- After phase 6 a credit brings an enabled DOWN port UP. -/
theorem execRequestCreditReturn_of_down {s : State} {port : Bool} (up : s.up = true) (on : s.portsOn = true)
    (few : (s.port (bit port)).credits < 255) (down : (s.port (bit port)).up = false) (en : (s.port (bit port)).en = true)
    (late : 6 < s.life.phase) :
    execRequestCreditReturn port s =
      .next (((s.quietOut.portBack (bit port)).credited (bit port)).portUp (bit port)).afterAnswer := by
  have on' : ¬ (!s.up || !s.portsOn) = true := by simp [up, on]
  have rises : ((s.port (bit port)).en && !(s.port (bit port)).up && 6 ≤ s.life.phase) = true := by
    simp [down, en, Nat.le_of_lt late]
  have later : (((s.quietOut.portBack (bit port)).credited (bit port)).portUp (bit port)).life.phase ≠ 6 := by
    rw [State.portUp_life]
    exact Nat.ne_of_gt late
  exact (if_neg on').trans ((if_neg (Nat.not_le.2 few)).trans ((if_pos rises).trans
    (congrArg (fun t : State => Host.Outcome.next t.afterAnswer) (if_neg later))))

/-! ## Clocks (R25) -/

/-- A running clock that is missed raises the attention cause CLOCK, and its ports' state is any. -/
theorem execClockMissing_of_runs {s : State} {clk : ClockId} (alive : s.alive = true) (runs : s.mustRun clk = true) :
    execClockMissing clk s = .next ((s.quietOut.attn 1).unclocked clk) := by
  have runs' : s.quietOut.mustRun clk = true := by cases clk <;> exact runs
  have alive' : s.quietOut.alive = true := alive
  simp [execClockMissing, State.out_nil, alive', runs']

/-- A clock other than REFCLK is noted as missing, and its ports' free values are drawn. -/
def State.clockGone (s : State) (clk : ClockId) : State :=
  { s with draws := s.draws + 20, life := { s.life with noClock := clk :: s.life.noClock.filter (· != clk) } }

/-- Extension ports without their clock: what waits on each of them stays. -/
theorem State.unclocked_exts (s : State) (d : Nat) (l : List Nat) :
    ∃ x, l.foldl (fun t k => t.putExt k ((t.ext k).unclocked (d + 4 + k))) s = { s with exts := x } ∧
      ∀ k, ({ s with exts := x }.ext k).live = (s.ext k).live ∧ ({ s with exts := x }.ext k).unanswered = (s.ext k).unanswered := by
  induction l generalizing s with
  | nil => exact ⟨s.exts, rfl, fun _ => ⟨rfl, rfl⟩⟩
  | cons a l ih =>
    obtain ⟨x, hx, same⟩ := ih (s.putExt a ((s.ext a).unclocked (d + 4 + a)))
    refine ⟨x, hx, fun k => ?_⟩
    have first : ((s.putExt a ((s.ext a).unclocked (d + 4 + a))).ext k).live = (s.ext k).live ∧
        ((s.putExt a ((s.ext a).unclocked (d + 4 + a))).ext k).unanswered = (s.ext k).unanswered := by
      by_cases h : k = a
      · subst h
        rw [State.putExt_ext_self]
        exact ⟨rfl, rfl⟩
      · rw [State.putExt_ext_ne _ _ _ h]
        exact ⟨rfl, rfl⟩
    exact ⟨(same k).1.trans first.1, (same k).2.trans first.2⟩

/-- Without HCLK0, port 0 and the extension ports hold anything, but for what waits on an extension port. -/
theorem State.unclocked_hclk0 (s : State) :
    ∃ x, s.unclocked .hclk0 = { (s.clockGone .hclk0).putPort 0 ((s.port 0).unclocked s.draws) with exts := x } ∧
      ∀ k, ({ s with exts := x }.ext k).live = (s.ext k).live ∧ ({ s with exts := x }.ext k).unanswered = (s.ext k).unanswered :=
  State.unclocked_exts ((s.clockGone .hclk0).putPort 0 ((s.port 0).unclocked s.draws)) s.draws (List.range 16)

/-- A port without its clock keeps its tags. -/
theorem State.unclocked_tags (s : State) (n d m : Nat) :
    ((s.putPort n ((s.port n).unclocked d)).port m).tags = (s.port m).tags := by
  by_cases h : m = n
  · subst h
    rw [State.putPort_port_self]
    rfl
  · rw [State.putPort_port_ne _ _ _ h]

/-- A lane replaced by one with the same replay buffer. -/
theorem State.putLane_keeps_replay {s : State} {n : Nat} {x : Lane} (same : x.replay = (s.lane n).replay) (m : Nat) :
    ((s.putLane n x).lane m).replay = (s.lane m).replay := by
  by_cases h : m = n
  · subst h
    rw [State.putLane_lane_self, same]
  · rw [State.putLane_lane_ne _ _ _ h]

/-! ## Rings (R67, R68, R440, R441) -/

/-- The control line of a ring on which no read is out is read. -/
theorem State.readControl_of_idle {s : State} {r : RingId} (why : CtlWhy) (idle : (s.ring r).ctlOut = false) :
    s.readControl r why = (s.putRing r { s.ring r with ctlOut := true, ctlAt := some s.now }).send
      { readReq (s.ring r).cline (ringInst r) (ringSpace r) (.ringLine r why) with mgr := ringSpace r == 2 } := by
  simp [State.readControl, idle]

/-- A record of a ring without a dirty log goes out at once. -/
theorem State.launch_of_no_log {s : State} {r : RingId} (q : RingRec) (p : BitVec 32)
    (plain : ∀ i, r = .inst i → (s.inst i.toNat).dl.en = false) :
    s.launch r q p = (.writing, s.send ((s.ring r).writeOf r q p)) := by
  cases r with
  | inst i => simp [State.launch, plain i rfl]
  | global => rfl
  | telemetry => rfl

/-- A record of a user's ring inside the logged window has its dirty bit set first (R68). -/
theorem State.launch_of_log {s : State} {i : BitVec 8} (q : RingRec) {p : BitVec 32} {h : HAddr × Nat × Octet}
    (en : (s.inst i.toNat).dl.en = true) (dirty : (s.inst i.toNat).dl.bit ((s.ring (.inst i)).slotAddr p) = some h) :
    s.launch (.inst i) q p =
      (.dirty, s.send (orReq i.toNat h.1 [(h.2.1, h.2.2)] (.dirty i.toNat none (some (.inst i, p))))) := by
  obtain ⟨line, o, b⟩ := h
  simp [State.launch, en, dirty]

/-- A failed record that is due goes out again at its position, and waits for what its launch began. -/
theorem execRingRewrite_of_due {s u : State} {r : RingId} {q : RingRec} {p : BitVec 32} {g : RecStage} (up : s.up = true)
    (en : (s.ring r).en = true)
    (due : ((s.ring r).wait.find? fun w => w.stage == .failed && decide (w.due ≤ s.now)) = some q) (pos : q.pos = some p)
    (goes : s.quietOut.launch r q p = (g, u)) (same : u.ring r = s.ring r) :
    execRingRewrite r s = .next (u.putRing r { s.ring r with
      wait := (s.ring r).wait.map fun w => if w.stage == .failed && w.pos == some p then { w with stage := g } else w }) := by
  simp [execRingRewrite, State.out_nil, up, en, due, pos, goes, same]

/-- Settles O43: credits by the port's state, clocks by what each of them clocks, and rings by what their launch begins. -/
theorem portsAndRings : Obligations.PortsAndRings := by
  unfold Obligations.PortsAndRings
  refine ⟨?credit, ?clock, ?reference, ?poll, ?rewrite⟩
  case credit =>
    intro port s n p q up on few
    refine ⟨execRequestCreditReturn_of_no_change up on few, fun down en late => ?_⟩
    exact (execRequestCreditReturn_of_down up on few down en late).trans
      (congrArg (fun t : State => Host.Outcome.next t.afterAnswer) (State.credited_portUp _ _))
  case clock =>
    intro clk s alive runs notRef
    refine ⟨_, execClockMissing_of_runs alive runs, ?_⟩
    cases clk with
    | refclk => exact absurd rfl notRef
    | hclk0 =>
      obtain ⟨x, left, kept⟩ := (s.quietOut.attn 1).unclocked_hclk0
      rw [left]
      refine ⟨rfl, fun n => ?_, fun _ => rfl, kept, nofun, fun _ => ?_, fun _ => rfl⟩
      · exact s.unclocked_tags 0 s.draws n
      · exact State.putPort_port_ne s 0 _ (by decide)
    | hclk1 =>
      refine ⟨rfl, fun n => ?_, fun _ => rfl, fun _ => ⟨rfl, rfl⟩, fun _ => ⟨?_, rfl⟩, nofun, fun _ => rfl⟩
      · exact s.unclocked_tags 1 s.draws n
      · exact State.putPort_port_ne s 1 _ (by decide)
    | mclk =>
      refine ⟨rfl, fun _ => rfl, fun k => ?_, fun _ => ⟨rfl, rfl⟩, fun _ => ⟨rfl, rfl⟩, fun _ => rfl, nofun⟩
      have second : (s.lane 1).replay = ((s.putLane 0 ((s.lane 0).unclocked s.draws)).lane 1).replay := by
        rw [State.putLane_lane_ne _ _ _ (by decide)]
      exact (State.putLane_keeps_replay (x := (s.lane 1).unclocked (s.draws + 4)) second k).trans
        (State.putLane_keeps_replay (x := (s.lane 0).unclocked s.draws) rfl k)
  case reference =>
    intro s alive
    refine ⟨_, execClockMissing_of_runs alive rfl, rfl, ?_⟩
    simp [State.unclocked, State.unclockedRef]
  case poll =>
    intro r s x up en starting starved idle due
    have free : (s.ring r).ctlAt.all (fun t => t + 100 ≤ s.now) = true := by
      simpa [Option.all_eq_true] using due
    have polls : (s.up && (s.ring r).en && !(s.ring r).starting && (s.ring r).starved &&
        (s.ring r).ctlAt.all fun t => t + 100 ≤ s.now) = true := by
      rw [up, en, starting, starved, free]
      rfl
    exact (if_pos polls).trans (congrArg Host.Outcome.next (State.readControl_of_idle (s := s.quietOut) .full idle))
  case rewrite =>
    intro r s q p x stage up en due pos
    refine ⟨fun plain => ?_, fun i h ring log dirty => ?_⟩
    · exact execRingRewrite_of_due up en due pos (by simpa using State.launch_of_no_log (s := s.quietOut) q p plain) (by simp)
    · subst ring
      exact execRingRewrite_of_due up en due pos (State.launch_of_log (s := s.quietOut) q log (by simpa using dirty)) (by simp)

end Sys2Proof.Machine
end

section
/-!
PROOF. O42: how a host request ends: by its answer, by RETRY, by its timeout, and what its tag and its purpose take from each.
-/

namespace Sys2Proof.Machine

/-! ## Responses by their code (Tables HST.4, HST.6; R54, R60, R61) -/

/-- R54, R60: a response to an outstanding tag returns its credit and is judged by its code. -/
theorem execResponseBeat_of_outstanding {s : State} {port : Bool} {tag : BitVec 13} {u : TagUse} (code : BitVec 3) (d : Line)
    (held : Assoc.lookup (s.port (bit port)).tags tag.toNat = some u) (up : s.up = true) (run : s.life.power = .run)
    (out : u.st = .outstanding) (credit : (s.port (bit port)).rsCredits ≠ 0) :
    execResponseBeat port tag code d s =
      .next (((s.quietOut.portBack (bit port)).emit (.rsCredit port)).respond (bit port) tag.toNat u code.toNat d) := by
  have on : s.quietOut.portsOn = true := State.portsOn_of_up up run
  have changed : ((s.quietOut.portBack (bit port)).emit (.rsCredit port)).life.changed = false := State.not_changed_of_up up
  have port' : (s.quietOut.portBack (bit port)).port (bit port) = s.port (bit port) := rfl
  simp only [execResponseBeat, State.out_nil, on, port', credit, held, out, changed]
  rfl

/-- A malformed code is a violation, and the request ends as an access error. -/
theorem State.respond_of_malformed {code : Nat} (h : 5 ≤ code) (s : State) (n t : Nat) (u : TagUse) (d : Line) :
    s.respond n t u code d = (s.violation n 4 code t (some u.req)).finishTag n t u .refused := if_pos h

/-- R63: DECODE_ERR, ACCESS_ERR and DATA_POISON are recorded; DATA_POISON of a READ alone ends it as poison. -/
theorem State.respond_of_error {code : Nat} (h : code = 1 ∨ code = 2 ∨ code = 3) (s : State) (n t : Nat) (u : TagUse) (d : Line) :
    s.respond n t u code d = (s.recordHost n 0xFF code t (some u.req)).finishTag n t u
      (if code = 3 ∧ u.req.typ = .read then .poison else .refused) := by
  obtain rfl | rfl | rfl := h <;> simp [State.respond]

/-- R61: a RETRY is judged by how many came before it. -/
theorem State.respond_of_retry (s : State) (n t : Nat) (u : TagUse) (d : Line) : s.respond n t u 4 d = s.retryTag n t u := by
  simp [State.respond]

/-- R54: an OK answer ends the request with its line. -/
theorem State.respond_of_ok (s : State) (n t : Nat) (u : TagUse) (d : Line) : s.respond n t u 0 d = s.finishTag n t u (.ok d) := by
  simp [State.respond]

/-- R61: below the sixteenth, a RETRY makes the request wait. -/
theorem State.retryTag_of_few {u : TagUse} (h : u.retries < 15) (s : State) (n t : Nat) :
    s.retryTag n t u =
      s.setTag n t { u with st := .retryWait (min 4096 (64 * 2 ^ u.retries)), retries := u.retries + 1 } :=
  if_neg (by omega)

/-- R61: the sixteenth RETRY ends the request. -/
theorem State.retryTag_of_sixteenth {u : TagUse} (h : 15 ≤ u.retries) (s : State) (n t : Nat) :
    s.retryTag n t u = ((s.violation n 10 4 t (some u.req)).arrive (564 + 16 * n)).finishTag n t u .refused :=
  if_pos (by omega)

/-! ## By purpose (Table HST.5) -/

/-- A takeover that is not under way does not end. -/
theorem State.endTakeover_of_none {s : State} (h : s.mir.takeover = false) : s.endTakeover = s := by
  simp [State.endTakeover, h]

/-- The channels of a list stop fetching. -/
def State.stopAll (s : State) (cs : List (Nat × Chan)) : State :=
  cs.foldl (fun t x => t.modChan x.1 fun y => { y with stopped := true }) s

theorem State.stopAll_frame (s : State) (cs : List (Nat × Chan)) : ∃ c, s.stopAll cs = { s with chans := c } := by
  induction cs generalizing s with
  | nil => exact ⟨_, rfl⟩
  | cons x cs ih => exact ih (s.modChan x.1 fun y => { y with stopped := true })

@[simp] theorem State.stopAll_mir (s : State) (cs : List (Nat × Chan)) : (s.stopAll cs).mir = s.mir := by
  obtain ⟨c, h⟩ := s.stopAll_frame cs
  rw [h]

@[simp] theorem State.stopAll_src (s : State) (cs : List (Nat × Chan)) (n : Nat) : (s.stopAll cs).src n = s.src n := by
  obtain ⟨c, h⟩ := s.stopAll_frame cs
  rw [h]
  rfl

/-- Every channel of the list is stopped, and none that was stopped before runs again. -/
theorem State.stopAll_stopped (s : State) (cs : List (Nat × Chan)) (c : Nat)
    (h : (s.chan c).stopped = true ∨ ∃ x, (c, x) ∈ cs) : ((s.stopAll cs).chan c).stopped = true := by
  induction cs generalizing s with
  | nil => simpa [State.stopAll] using h
  | cons x cs ih =>
    refine ih (s.modChan x.1 fun y => { y with stopped := true }) ?_
    by_cases hc : c = x.1
    · subst hc
      exact .inl (by rw [State.modChan, State.putChan_chan_self])
    · rw [State.modChan, State.putChan_chan_ne _ _ _ hc]
      refine h.imp_right fun ⟨y, hy⟩ => ⟨y, ?_⟩
      obtain rfl | hy := List.mem_cons.1 hy
      · exact absurd rfl hc
      · exact hy

/-- The wish to read a user's doorbell line again is taken (R65). -/
def State.takeWish (s : State) (i : BitVec 8) (line : BitVec 58) : State :=
  { s with dsp := { s.dsp with bellAgain := s.dsp.bellAgain.filter (· != (i, line)) } }

/-- A failed doorbell read stops the user's channels on the line and raises its event; without a wish for another read none
follows. -/
theorem State.bellBack_of_failed {s : State} {i : BitVec 8} {line : BitVec 58} (take : s.mir.takeover = false)
    (again : (i, line) ∉ s.dsp.bellAgain) (waited : s.bellsOf i line ≠ []) :
    s.bellBack i line none = ((s.takeWish i line).stopAll (s.bellsOf i line)).arrive i.toNat := by
  have closed : (((s.takeWish i line).stopAll (s.bellsOf i line)).arrive i.toNat).mir.takeover = false := by
    rw [State.arrive_mir, State.stopAll_mir]
    exact take
  have ends := State.endTakeover_of_none closed
  have once : s.dsp.bellAgain.contains (i, line) = false := by simpa using again
  have heard : (s.bellsOf i line).isEmpty = false := by simpa using waited
  unfold State.stopAll State.takeWish at ends ⊢
  simp only [State.bellBack, once, heard, Bool.false_and, Bool.false_eq_true, if_false]
  rw [ends]

/-- Table HST.5: each channel of the user on the line of a failed doorbell read stops, and the user's event fires. -/
theorem State.answered_doorbell_refused {s : State} (n : Nat) {r : HostReq} {i : BitVec 8} {line : BitVec 58} {c : Nat}
    (h : r.purpose = .doorbell i line) (take : s.mir.takeover = false) (again : (i, line) ∉ s.dsp.bellAgain)
    (waits : (c, s.chan c) ∈ s.bellsOf i line) :
    ((s.answered n r .refused).chan c).stopped = true ∧ s.Arrived (s.answered n r .refused) i.toNat := by
  have bell : s.answered n r .refused = s.bellBack i line none := by simp only [State.answered, h, Answer.line?]
  rw [bell, State.bellBack_of_failed take again (List.ne_nil_of_mem waits)]
  refine ⟨?_, ?_⟩
  · rw [State.arrive_chan]
    exact State.stopAll_stopped _ _ _ (.inr ⟨_, waits⟩)
  · have counts := State.arrive_counts ((s.takeWish i line).stopAll (s.bellsOf i line)) i.toNat
    unfold State.Arrived at counts ⊢
    rw [State.stopAll_src] at counts
    exact counts

/-- Table HST.5: an ATOMIC_OR that fails breaks its user's dirty log. -/
theorem State.answered_dirty_refused (s : State) (n : Nat) {r : HostReq} {i : Nat} (h : r.purpose = .dirty i none none) :
    s.answered n r .refused = s.breakLog i n := by
  simp [State.answered, h, Answer.good]

/-- A MSG has no use for its answer. -/
theorem State.answered_message (s : State) (n : Nat) {r : HostReq} {v : Nat} {i : Option Nat} (h : r.purpose = .message v i)
    (a : Answer) : s.answered n r a = s := by
  simp [State.answered, h]

/-- Table HST.5: a failed descriptor read stops its channel, and the user's event fires. -/
theorem State.answered_descriptor_refused {s : State} (n : Nat) {r : HostReq} {c : Nat} {pos : BitVec 32} {e : ChanEntry}
    (h : r.purpose = .descriptor c pos) (out : (s.chan c).fetching = true) (entry : (s.chan c).fetchEntry = some e) :
    s.answered n r .refused = (s.putChan c { s.chan c with fetching := false, stopped := true }).arrive e.inst.toNat := by
  simp [State.answered, h, Answer.line?, State.descBack, out, entry]

/-- R75: a failed table read fails check 7. -/
theorem State.answered_chanTable_refused {s : State} (n : Nat) {r : HostReq} {c asked : Nat} {take : Bool}
    (h : r.purpose = .chanTable c) (none' : s.mir.takeover = false) (reading : (s.chan c).refresh = .reading asked take) :
    s.answered n r .refused = s.modChan c fun x => { x with refresh := .failed asked (some r.inst) 7 } := by
  simp only [State.answered, h, Answer.line?, State.entryBack, reading]
  exact State.endTakeover_of_none none'

/-! ## Timeouts, reissues, quarantine (R57, R59, R61, R62) -/

/-- R62: an outstanding request past its limit keeps its tag out of the pool and ends as an access error. -/
theorem execHostRequestTimeout_of_due {s : State} {port : Bool} {tag : BitVec 13} {u : TagUse}
    (held : Assoc.lookup (s.port (bit port)).tags tag.toNat = some u) (up : s.up = true) (run : s.life.power = .run)
    (out : u.st = .outstanding) (due : u.due ≤ s.now) (clock : s.portStill (bit port) = false) :
    execHostRequestTimeout port tag s = .next (((((s.quietOut.setTag (bit port) tag.toNat { u with st := .lost }).violation (bit port) 9 0
      tag.toNat (some u.req)).arrive (563 + 16 * bit port)).answered (bit port) u.req .refused).afterAnswer) := by
  have on : s.quietOut.portsOn = true := State.portsOn_of_up up run
  simp [execHostRequestTimeout, State.out_nil, held, on, clock, Nat.not_lt.2 due, out, State.not_changed_of_up up]

/-- R57, R61: a request that waits for its reissue goes out again on its port with its tag. -/
theorem execRetryReissue_of_wait {s : State} {port : Bool} {tag : BitVec 13} {u : TagUse} {w : Nat}
    (held : Assoc.lookup (s.port (bit port)).tags tag.toNat = some u) (up : s.up = true) (wait : u.st = .retryWait w)
    (credit : (s.port (bit port)).credits ≠ 0) (clock : s.portStill (bit port) = false)
    (fence : u.req.purpose.fenced = true → s.fenceWanted = false) :
    execRetryReissue port tag s = .next ((s.quietOut.putPort (bit port)
      { s.port (bit port) with
        credits := (s.port (bit port)).credits - 1
        tags := Assoc.insert (s.port (bit port)).tags tag.toNat
          { u with st := .outstanding, due := s.now + max 1000 (s.port (bit port)).tmo.toNat } }).emit
      (.host port tag.toNat u.req.typ.code u.req.addr u.req.inst u.req.attr u.req.oen u.req.data)) := by
  have free : ¬ (!s.up || (s.port (bit port)).credits = 0 || s.portStill (bit port) ||
      (u.req.purpose.fenced && s.fenceWanted)) = true := by
    simpa [up, credit, clock] using fence
  simp only [execRetryReissue, State.out_nil, State.quietOut_port, held, wait]
  exact if_neg free

/-- R59: a quarantined tag returns to its pool. -/
theorem execTagQuarantineEnd_of_quarantined {s : State} {port : Bool} {tag : BitVec 13} {u : TagUse}
    (held : Assoc.lookup (s.port (bit port)).tags tag.toNat = some u) (up : s.up = true) (st : u.st = .quarantined) :
    execTagQuarantineEnd port tag s = .next ((s.quietOut.putPort (bit port)
      { s.port (bit port) with tags := Assoc.erase (s.port (bit port)).tags tag.toNat }).pump).settle := by
  simp [execTagQuarantineEnd, State.out_nil, held, up, st]

/-- Settles O42: an answer is judged by its code, and its purpose takes the outcome; a request that is not answered times out, one
that waits goes out again, and a quarantined tag comes back. -/
theorem hostRequestsEnd : Obligations.HostRequestsEnd := by
  unfold Obligations.HostRequestsEnd
  intro port tag s u n p q held up run
  have answer (code : BitVec 3) (d : Line) (out : u.st = .outstanding) (credit : p.rsCredits ≠ 0) :
      exec (.responseBeat port tag code d) s = .next ((q.emit (.rsCredit port)).respond n tag.toNat u code.toNat d) :=
    execResponseBeat_of_outstanding code d held up run out credit
  refine ⟨?ok, ?retry, ?error, ?purpose, ?timeout, ?reissue, ?quarantine⟩
  case ok =>
    intro d out credit
    exact (answer 0 d out credit).trans (congrArg Host.Outcome.next (State.respond_of_ok _ _ _ _ _))
  case retry =>
    intro d out credit few
    rw [answer 4 d out credit, show (4 : BitVec 3).toNat = 4 from rfl, State.respond_of_retry, State.retryTag_of_few few]
    rfl
  case error =>
    intro d c back ends out credit
    refine ⟨fun h => ?_, fun h => ?_, fun h last => ?_⟩
    · have codes : c.toNat = 1 ∨ c.toNat = 2 ∨ c.toNat = 3 := by
        obtain rfl | rfl | rfl := h <;> decide
      have three : c = 3 ↔ c.toNat = 3 := by bv_omega
      rw [answer c d out credit, State.respond_of_error codes]
      simp only [three]
      rfl
    · rw [answer c d out credit, State.respond_of_malformed h]
      rfl
    · subst h
      rw [answer 4 d out credit, show (4 : BitVec 3).toNat = 4 from rfl, State.respond_of_retry, State.retryTag_of_sixteenth last]
      rfl
  case purpose =>
    intro r a
    exact ⟨fun _ _ h => s.answered_message n h a, fun _ h => s.answered_dirty_refused n h,
      fun _ _ _ h out entry => State.answered_descriptor_refused n h out entry,
      fun _ _ _ h take again _ waits => State.answered_doorbell_refused n h take again waits,
      fun _ _ _ h take reading => State.answered_chanTable_refused n h take reading⟩
  case timeout => exact fun out due clock => execHostRequestTimeout_of_due held up run out due clock
  case reissue => exact fun w wait credit clock fence => execRetryReissue_of_wait held up wait credit clock fence
  case quarantine => exact fun st => execTagQuarantineEnd_of_quarantined held up st

end Sys2Proof.Machine
end
